-- ==== Sys2Proof/Word.lean ====
section
/-! DEFINITION. The word types and the two shapes of plain data every other file uses: fixed-width words as BitVec, and a sparse map
(a list of key and value pairs) for everything the part has many of. -/

namespace Sys2Proof

/-- A byte of memory (R8). -/
abbrev Byte := BitVec 8
/-- A 32-bit lane, S register or walker register. -/
abbrev Lane := BitVec 32
/-- An X register. -/
abbrev XWord := BitVec 64
/-- A 256-bit V, O, LA, LM or C register (R90). -/
abbrev VReg := BitVec 256

/-- A sparse map: keys with their values. What an unlisted key reads as is said where the map is read. -/
abbrev SMap (α : Type) := List (Nat × α)

end Sys2Proof
end

