-- ==== Sys2Proof/Config.lean ====
section
/-! DEFINITION. The constants an implementation fixes, and the free values: what the spec leaves open is an opaque function with no body, applied
to a plain counter of State (log 4, 5, 6, 7), so nothing can be proved of its value. -/

namespace Sys2Proof.Config

/-- A number the spec leaves open within a bound (a delay, a choice); the counter State.free says which draw it is. Log 4. -/
opaque freeNat : Nat → Nat

/-- A draw of the free number `i`, no larger than `bound`. -/
def freeUpTo (i bound : Nat) : Nat := freeNat i % (bound + 1)

/-- What a low-order slice below nominal delivers for its exact sum (R192: the part makes no other promise than the clamp). Log 5. -/
opaque sliceDelivers : Nat → Nat → Nat

/-- The table of `fexp2f` between its fixed points, R138's one fixed non-decreasing function of the input bits, given by its steps: for a result
code, where in the order of the inputs the results reach it. Log 6. -/
opaque fexp2Step : Nat → Nat

/-- SHA3-512, named by R405 and not given by the spec. Log 7. -/
opaque sha3_512 : List (BitVec 8) → List (BitVec 8)

/-- The fused secret (R405). Log 7. -/
opaque fusedSecret : List (BitVec 8)

/-- The ML-DSA-87 public key of the identity (R405), from the seed. Log 7. -/
opaque mldsaPublicKey : List (BitVec 8) → List (BitVec 8)

/-- An ML-DSA-87 signature by the identity key over a message (R405). Log 7. -/
opaque mldsaSign : List (BitVec 8) → List (BitVec 8) → List (BitVec 8)

/-- The vendor's certificate chain (R403). Log 7. -/
opaque certificateChain : List (BitVec 8)

/-- The ROM image the ROM is measured over (R416 step 1). Log 7. -/
opaque romImage : List (BitVec 8)

/-- The largest tick of the package clock a request outside a tower may take each way before it reaches its point; the spec fixes none
(R284), so the bound is the model's own. Log 4. -/
def offDomainBound : Nat := 4096

end Sys2Proof.Config
end

