-- ==== Sys2Proof/Syntax.lean ====
section
/-! DEFINITION. The instruction set and the part's steps as syntax: one constructor of `Instr` for each row of spec/opcode_table.json.
Slot instructions (R64-R68) and walker instructions (R267-R278) hold their decoded fields. Every step no program encodes (landings,
scheduler, power, fabric, availability, and the Oxell commands R400-R402) is a bare name: what it acts on stands in State.site. -/

namespace Sys2Proof

/-- The guard of a slot (R52, R53): GN and the predicate number. -/
structure Guard where
  neg : Bool
  reg : BitVec 3
  deriving DecidableEq, Repr

/-- A source operand (R55, R56): what a 9-bit operand field names. -/
inductive Src where
  | v (i : BitVec 6)
  | based (k : BitVec 2) (n : BitVec 4)
  | o (i : BitVec 3)
  | la
  | lm
  | nbN
  | nbE
  | nbS
  | nbW
  | zero
  | small (i : BitVec 6)
  | long
  deriving DecidableEq, Repr

/-- A destination operand (R57). -/
inductive Dst where
  | v (i : BitVec 6)
  | based (k : BitVec 2) (n : BitVec 4)
  | o (i : BitVec 3)
  | none
  deriving DecidableEq, Repr

/-- An S-form field, or the immediate it may hold instead (R91). -/
inductive SSrc where
  | s (i : BitVec 4)
  | small (i : BitVec 6)
  | long
  deriving DecidableEq, Repr

/-! Operand shapes of the Q slot (R52, R82, R83). -/

structure QRRR where
  g : Guard
  xd : BitVec 5
  xa : BitVec 5
  xb : BitVec 5
  deriving DecidableEq, Repr

structure QRRI where
  g : Guard
  xd : BitVec 5
  xa : BitVec 5
  imm : BitVec 32
  deriving DecidableEq, Repr

/-- The shift count of shl, shr and sra (R82): a register or IMM[5:0]. -/
inductive QCount where
  | reg (xb : BitVec 5)
  | imm (n : BitVec 6)
  deriving DecidableEq, Repr

structure QShift where
  g : Guard
  xd : BitVec 5
  xa : BitVec 5
  n : QCount
  deriving DecidableEq, Repr

/-- The compare fields of `cmp` and `cmpi` (R83). -/
structure QCmpF where
  qn : Bool
  qg : BitVec 3
  cond : BitVec 4
  ctype : BitVec 3
  p2 : BitVec 3
  p1 : BitVec 3
  deriving DecidableEq, Repr

/-! Operand shapes of the A slot (R52, R101, R107, R142). -/

structure AUn where
  g : Guard
  d : Dst
  a : Src
  imm : BitVec 32
  deriving DecidableEq, Repr

structure ABin where
  g : Guard
  d : Dst
  a : Src
  b : Src
  imm : BitVec 32
  deriving DecidableEq, Repr

structure ATern where
  g : Guard
  d : Dst
  a : Src
  b : Src
  c : Src
  imm : BitVec 32
  deriving DecidableEq, Repr

/-- The compare fields of `cmp`, `scmp` and `fcmp` of the A slot (R105, R107, R135). -/
structure ACmpF where
  qn : Bool
  qg : BitVec 3
  cond : BitVec 4
  ctype : BitVec 3
  red : BitVec 2
  p2 : BitVec 3
  p1 : BitVec 3
  deriving DecidableEq, Repr

structure SBin where
  g : Guard
  d : BitVec 4
  a : BitVec 4
  b : SSrc
  imm : BitVec 32
  deriving DecidableEq, Repr

/-- A narrowing conversion (R142, R144): part, stray list, operand and index base. -/
structure ANarrow where
  g : Guard
  part : BitVec 2
  qw : BitVec 4
  d : Dst
  a : Src
  base : SSrc
  imm : BitVec 32
  deriving DecidableEq, Repr

/-- A quantising conversion (R144): a narrowing one with the scale operand. -/
structure AQuant where
  g : Guard
  part : BitVec 2
  qw : BitVec 4
  d : Dst
  a : Src
  s : Src
  base : SSrc
  imm : BitVec 32
  deriving DecidableEq, Repr

/-! Operand shapes of the M, T and E slots. -/

structure MLoad where
  g : Guard
  d : Dst
  sadr : BitVec 4
  off : BitVec 16
  deriving DecidableEq, Repr

structure MStore where
  g : Guard
  v : Src
  sadr : BitVec 4
  off : BitVec 16
  deriving DecidableEq, Repr

/-- A matrix pass (R173). -/
structure TPass where
  g : Guard
  arow : BitVec 8
  acol : BitVec 9
  cnt : BitVec 8
  qw : BitVec 4
  walk : Bool
  fwd : Bool
  deriving DecidableEq, Repr

/-- A remote atomic (R255); the operation is the constructor. -/
structure EAtom where
  g : Guard
  xa : BitVec 5
  xb : BitVec 5
  k : BitVec 4
  dword : Bool
  fetch : Bool
  bo : Bool
  boff : BitVec 27
  deriving DecidableEq, Repr

/-! Host commands (R397-R402). -/

/-- A command frame as it arrives over Ezsan (R397): CMD, FLAGS, SEQ, PRINC, PART and the body. -/
structure Frame where
  cmd : Nat := 0
  flags : Nat := 0
  seq : Nat := 0
  princ : Nat := 0
  part : Nat := 0
  body : List Byte := []
  deriving DecidableEq, Repr

/-- The PART.MAKE body (R401). -/
structure PartBody where
  part : Nat
  killt : Nat
  princ : Nat
  draint : Nat
  arrmask : Nat
  wsize : List Nat
  kenn : List Nat
  pinq : List Nat
  sa : List Nat
  ext : List (Nat × Nat)
  cachex : List (Nat × Nat)
  inbox : List (Nat × Nat × Nat × Nat)
  deriving DecidableEq, Repr

/-- The TRUNK.SET body (R402): the port map, the trunks' neighbours, and per partition XMASK and the peers. -/
structure TrunkBody where
  ports : List Nat
  trunks : List Nat
  groups : List (Nat × List (Nat × Nat))
  deriving DecidableEq, Repr

/-- The LOAD and READ bodies (R402). -/
structure XferBody where
  space : Nat
  tower : Nat
  len : Nat
  target : Nat
  task : Nat
  offset : Nat
  haddr : Nat
  deriving DecidableEq, Repr

/-- A flit (R387): its CRC, its fields, and the payload. -/
structure Flit where
  crc : Nat
  cls : Nat
  ph : Nat
  kind : Nat
  seq : Nat
  pay : List Byte
  deriving DecidableEq, Repr

/-- The steps of the part: one constructor for each row of spec/opcode_table.json. -/
inductive Instr where
  -- Q slot: control and task
  | br (g : Guard) (target : BitVec 16)
  | brX (g : Guard) (xa : BitVec 5)
  | call (g : Guard) (target : BitVec 16)
  | callX (g : Guard) (xa : BitVec 5)
  | ret (g : Guard)
  | loop (g : Guard) (k : BitVec 3) (target : BitVec 16)
  | lbrk (g : Guard) (k : BitVec 3) (target : BitVec 16)
  | lidx (g : Guard) (xd : BitVec 5) (k : BitVec 3) (f : BitVec 2)
  | lidxSet (g : Guard) (k : BitVec 3) (xa : BitVec 5) (xb : BitVec 5)
  | yield (g : Guard)
  | taskEnd (g : Guard)
  | trap (g : Guard) (n : BitVec 8)
  | brk (g : Guard)
  | mark (g : Guard) (n : BitVec 8)
  -- Q slot: scalar arithmetic
  | qAdd (o : QRRR)
  | qAddi (o : QRRI)
  | qSub (o : QRRR)
  | qMul (o : QRRR)
  | qMulh (o : QRRR)
  | qMulhu (o : QRRR)
  | qAnd (o : QRRR)
  | qAndi (o : QRRI)
  | qOr (o : QRRR)
  | qOri (o : QRRI)
  | qXor (o : QRRR)
  | qXori (o : QRRI)
  | qShl (o : QShift)
  | qShr (o : QShift)
  | qSra (o : QShift)
  | qMin (o : QRRR)
  | qMax (o : QRRR)
  | qMinu (o : QRRR)
  | qMaxu (o : QRRR)
  | qMov (g : Guard) (xd : BitVec 5) (xa : BitVec 5)
  | qLi (g : Guard) (xd : BitVec 5) (imm : BitVec 32)
  | qLih (g : Guard) (xd : BitVec 5) (imm : BitVec 32)
  | qSel (o : QRRR) (neg : Bool) (k : BitVec 3)
  | qCmp (c : QCmpF) (xa : BitVec 5) (xb : BitVec 5)
  | qCmpi (c : QCmpF) (xa : BitVec 5) (simm : BitVec 15)
  -- Q slot: parameters, flags, row masks, time, power, fences, system
  | ldparam (g : Guard) (xd : BitVec 5) (k : BitVec 4)
  | ldtask (g : Guard) (xd : BitVec 5) (f : BitVec 4)
  | flagRd (g : Guard) (xd : BitVec 5) (mode : BitVec 2) (k : BitVec 3) (d : BitVec 6)
  | wset (g : Guard) (wk : BitVec 4) (imm : BitVec 32)
  | wmov (g : Guard) (wk : BitVec 4) (xa : BitVec 5)
  | wrd (g : Guard) (xd : BitVec 5) (wk : BitVec 4)
  | tickRd (g : Guard) (xd : BitVec 5)
  | gtickRd (g : Guard) (xd : BitVec 5)
  | ctimeRd (g : Guard) (xd : BitVec 5)
  | pwrAcq (g : Guard) (level : BitVec 7) (lease : BitVec 12)
  | pwrRel (g : Guard)
  | pwrRelRd (g : Guard) (xd : BitVec 5)
  | fenceDom (g : Guard)
  | fencePkg (g : Guard)
  | fenceSys (g : Guard)
  | waitB (g : Guard) (xa : BitVec 5)
  | sysRd (g : Guard) (xd : BitVec 5) (num : BitVec 12)
  | sysWr (g : Guard) (num : BitVec 12) (xa : BitVec 5)
  -- A slot: integer
  | aAdd (t : BitVec 3) (o : ABin)
  | aSub (t : BitVec 3) (o : ABin)
  | adds (t : BitVec 3) (o : ABin)
  | subs (t : BitVec 3) (o : ABin)
  | aMul (t : BitVec 3) (o : ABin)
  | aMulh (t : BitVec 3) (o : ABin)
  | mad (t : BitVec 3) (o : ATern)
  | abs (t : BitVec 3) (o : AUn)
  | neg (t : BitVec 3) (o : AUn)
  | aMin (t : BitVec 3) (o : ABin)
  | aMax (t : BitVec 3) (o : ABin)
  | aAnd (o : ABin)
  | aOr (o : ABin)
  | aXor (o : ABin)
  | andn (o : ABin)
  | not (o : AUn)
  | aShl (t : BitVec 3) (o : ABin)
  | aShr (t : BitVec 3) (o : ABin)
  | aSra (t : BitVec 3) (o : ABin)
  | aCmp (t : BitVec 3) (c : ACmpF) (a : Src) (b : Src) (imm : BitVec 32)
  | aSel (t : BitVec 3) (o : ATern)
  | aMov (o : AUn)
  | sadd (o : SBin)
  | ssub (o : SBin)
  | smul (o : SBin)
  | sand (o : SBin)
  | sor (o : SBin)
  | sxor (o : SBin)
  | sshl (o : SBin)
  | sshr (arith : Bool) (o : SBin)
  | sli (g : Guard) (d : BitVec 4) (v : SSrc) (imm : BitVec 32)
  | sget (g : Guard) (d : BitVec 4) (lane : BitVec 3) (a : Src) (imm : BitVec 32)
  | scmp (c : ACmpF) (a : BitVec 4) (b : SSrc) (imm : BitVec 32)
  | perm (g : Guard) (d : Dst) (a : Src) (sel : BitVec 24)
  | permv (o : ABin)
  | bcast (t : BitVec 3) (k : BitVec 5) (o : AUn)
  | bcasts (t : BitVec 3) (g : Guard) (d : Dst) (b : SSrc) (imm : BitVec 32)
  | red (op : BitVec 3) (t : BitVec 3) (o : AUn)
  | scan (op : BitVec 3) (ex : Bool) (t : BitVec 3) (o : AUn)
  | popc (t : BitVec 3) (o : AUn)
  | clz (t : BitVec 3) (o : AUn)
  | bset (g : Guard) (k : BitVec 2) (b : SSrc) (imm : BitVec 32)
  -- A slot: FP32
  | fadd (rm : BitVec 2) (o : ABin)
  | fsub (rm : BitVec 2) (o : ABin)
  | fmul (rm : BitVec 2) (o : ABin)
  | fma (rm : BitVec 2) (o : ATern)
  | fms (rm : BitVec 2) (o : ATern)
  | fnma (rm : BitVec 2) (o : ATern)
  | fnms (rm : BitVec 2) (o : ATern)
  | fmin (o : ABin)
  | fmax (o : ABin)
  | fabs (o : AUn)
  | fneg (o : AUn)
  | fcmp (c : ACmpF) (a : Src) (b : Src) (imm : BitVec 32)
  | fclass (o : AUn)
  | frnd (rm : BitVec 2) (o : AUn)
  | fexp2f (o : AUn)
  | fexpins (rm : BitVec 2) (o : ABin)
  | fgetexp (o : AUn)
  | frcp (rm : BitVec 2) (o : AUn)
  | frsq (rm : BitVec 2) (o : AUn)
  -- A slot: conversions
  | cvtF32Bf16 (p : BitVec 2) (o : AUn)
  | cvtBf16F32 (rm : BitVec 2) (o : ANarrow)
  | cvtF32I (rm : BitVec 2) (t : BitVec 3) (p : BitVec 2) (o : AUn)
  | cvtI32F32 (rm : BitVec 2) (o : AUn)
  | cvtI8F32 (rm : BitVec 2) (o : ANarrow)
  | cvtI16F32 (rm : BitVec 2) (o : ANarrow)
  | cvtPs8F32 (o : ANarrow)
  | cvtF32Ps8 (p : BitVec 2) (o : AUn)
  | cvtI8I32 (o : ANarrow)
  | cvtI16I32 (o : ANarrow)
  | cvtI32I (t : BitVec 3) (p : BitVec 2) (o : AUn)
  | quantI8 (rm : BitVec 2) (o : AQuant)
  | quantPs8 (o : AQuant)
  -- M slot
  | ld (o : MLoad)
  | ldW (o : MLoad)
  | st (o : MStore)
  | stW (o : MStore)
  | ldB (o : MLoad)
  | ldq (g : Guard) (d : Dst) (k : BitVec 4)
  | stq (g : Guard) (k : BitVec 4) (v : Src)
  | qpeek (g : Guard) (d : Dst) (k : BitVec 4) (j : BitVec 12)
  | qpeekN (g : Guard) (d : Dst) (k : BitVec 4)
  | cw (g : Guard) (v : Src)
  | vpush (g : Guard) (v : Src)
  | vpop (g : Guard) (d : Dst)
  | vfree (g : Guard) (d : Dst)
  | vfreeIn (g : Guard) (d : Dst)
  -- T slot
  | ldw (g : Guard) (form : BitVec 2) (v : Src) (off : BitVec 16)
  | flip (g : Guard)
  | mmPs8 (o : TPass)
  | mmI8 (o : TPass)
  | mmBf16 (o : TPass)
  | mmChain (g : Guard) (mode : BitVec 2) (arow : BitVec 8) (acol : BitVec 9) (cnt : BitVec 8)
  | mmd (arow : BitVec 8) (cnt : BitVec 8) (qw : BitVec 4) (name : BitVec 16)
  | accZero (g : Guard) (arow : BitVec 8) (x : BitVec 10)
  | accRd (g : Guard) (d : Dst) (arow : BitVec 8) (acol : BitVec 9)
  | accRdSt (g : Guard) (d : Dst) (arow : BitVec 8)
  | accWr (g : Guard) (v : Src) (arow : BitVec 8) (acol : BitVec 9) (x : BitVec 10)
  | accCp (g : Guard) (drow : BitVec 8) (arow : BitVec 8)
  | accCvt (g : Guard) (rm : BitVec 2) (toI32 : Bool) (v : Src) (arow : BitVec 8) (acol : BitVec 9)
  | accScl (g : Guard) (drow : BitVec 8) (arow : BitVec 8) (acol : BitVec 9) (v : Src)
  -- E slot
  | lrow (g : Guard) (k : BitVec 4) (xa : BitVec 5) (xb : BitVec 5)
  | srow (g : Guard) (k : BitVec 4) (xa : BitVec 5) (xb : BitVec 5)
  | copy (g : Guard) (k : BitVec 4) (n1 : BitVec 4)
  | tierPf (g : Guard) (k : BitVec 4) (n1 : BitVec 4)
  | mpRun (g : Guard) (xa : BitVec 5) (rq : BitVec 4) (nrd : BitVec 13) (wq : BitVec 4) (nwr : BitVec 13)
  | gather (g : Guard) (j : BitVec 3) (n1 : BitVec 12)
  | scatter (g : Guard) (j : BitVec 3) (n1 : BitVec 12)
  | strmSet (g : Guard) (j : BitVec 3) (xa : BitVec 5)
  | probe (g : Guard) (j : BitVec 3) (xa : BitVec 5) (xb : BitVec 5) (n1 : BitVec 12)
  | atomAdd (o : EAtom)
  | atomMin (o : EAtom)
  | atomMax (o : EAtom)
  | atomAnd (o : EAtom)
  | atomOr (o : EAtom)
  | atomXor (o : EAtom)
  | atomSwap (o : EAtom)
  | atomCas (o : EAtom)
  | qwSet (g : Guard) (k : BitVec 4) (xa : BitVec 5) (xb : BitVec 5)
  | qwRd (g : Guard) (k : BitVec 4) (xa : BitVec 5) (xb : BitVec 5)
  | boInit (g : Guard) (unit : Bool) (xa : BitVec 5) (xb : BitVec 5)
  | boRd (g : Guard) (xa : BitVec 5) (xb : BitVec 5)
  | taskPost (g : Guard) (xa : BitVec 5)
  | msgSend (g : Guard) (k : BitVec 4) (n1 : BitVec 4)
  | msgQuiet (g : Guard) (b : BitVec 2)
  | xchGo (g : Guard) (k : BitVec 4) (xa : BitVec 5) (n : BitVec 9)
  | knBind (g : Guard) (xa : BitVec 5) (name : BitVec 16)
  | knInv (g : Guard) (name : BitVec 16)
  | knInvAll (g : Guard)
  | knStat (g : Guard) (xa : BitVec 5) (name : BitVec 16)
  | dictLoad (g : Guard) (xa : BitVec 5) (n : BitVec 15)
  | walkStart (g : Guard) (xa : BitVec 5)
  | walkStop (g : Guard) (xa : BitVec 5)
  | walkStopW (g : Guard) (xa : BitVec 5)
  | ctrRd (g : Guard) (xa : BitVec 5) (sel : BitVec 8) (up : Bool)
  -- walker instructions
  | wNop
  | wLi (d : BitVec 4) (i : BitVec 18)
  | wLih (d : BitVec 4) (i : BitVec 14)
  | wAdd (d : BitVec 4) (a : BitVec 4) (b : BitVec 4)
  | wAddi (d : BitVec 4) (a : BitVec 4) (i : BitVec 12)
  | wSub (d : BitVec 4) (a : BitVec 4) (b : BitVec 4)
  | wAnd (d : BitVec 4) (a : BitVec 4) (b : BitVec 4)
  | wShl (d : BitVec 4) (a : BitVec 4) (n : BitVec 5)
  | wShr (d : BitVec 4) (a : BitVec 4) (n : BitVec 5)
  | wBCond (c : BitVec 2) (a : BitVec 4) (b : BitVec 4) (t : BitVec 8)
  | wB (t : BitVec 8)
  | wDloop (a : BitVec 4) (t : BitVec 8)
  | wLdW (d : BitVec 4) (a : BitVec 4) (i : BitVec 12)
  | wLdH (d : BitVec 4) (a : BitVec 4) (i : BitVec 12)
  | wQpop (d : BitVec 4) (k : BitVec 4)
  | wPf (a : BitVec 4) (i : BitVec 12)
  | wCwinA (a : BitVec 4) (b : BitVec 4) (l : BitVec 1) (i : BitVec 12)
  | wCwinB (a : BitVec 4) (b : BitVec 4) (l : BitVec 1) (i : BitVec 12)
  | wIsect (d : BitVec 4)
  | wUnion (d : BitVec 4)
  | wMerge (d : BitVec 4)
  | wNzc (d : BitVec 4) (a : BitVec 4) (f : BitVec 4) (i : BitVec 12)
  | wBexp (sl : BitVec 4) (a : BitVec 4) (b : BitVec 4) (z : BitVec 2) (i : BitVec 12)
  | wTopk (d : BitVec 4) (a : BitVec 4) (b : BitVec 4) (m : BitVec 1) (i : BitVec 12)
  | wEmit (a : BitVec 4) (b : BitVec 4) (i : BitVec 12)
  | wEmitS (b : BitVec 4) (c : BitVec 1)
  | wEmitz (a : BitVec 4)
  | wRds (d : BitVec 4) (sel : BitVec 3)
  | wQpush (k : BitVec 4)
  | wWend
  -- steps no program encodes: their arguments stand in State.site (the unit, the request, or the command frame)
  -- the array's issue and the wavefront, the leash and the restart
  | issueSelect
  | rowExecute
  | leashReach
  | reinject
  | engineRestart
  | kennelEntryAction
  | emitzRecordPush
  -- passes, rails and kennels
  | mRowEnter
  | passLanding
  | sliceRailSettle
  | mmdDecision
  | kennelWriteback
  -- scratchpad, loaders, copies, objects
  | dataPortPerform
  | lrowRowWrite
  | cellStoreWindowRelease
  | boArrival
  | copyDescriptorTake
  | copyLineLand
  | shadowLoadFollowon
  | taskPostFollowon
  -- streams, atoms, translation
  | gatherElementLand
  | scatterWriteConfirm
  | probeComplete
  | atomPerform
  | tableWalkComplete
  -- HBM, deep tier
  | frameBoundary
  | hbmSlot
  | mpCompletion
  | refreshWatchdog
  | deepTierAccess
  -- scheduler
  | placement
  | taskStart
  | preemptRequest
  | checkpointSave
  | saveComplete
  | taskResume
  | killedContextFree
  -- power and thermal
  | tokenVisit
  | leaseExpiry
  | leaseReleaseEffect
  | powerSample
  | thermalTrip1
  | thermalTrip2
  | thermalTrip3
  | thermalTrip4
  | thermalTripClear
  | clockStretch
  | gateRailsOff
  | arrayUngate
  | ungateComplete
  -- fabric
  | flitReceive
  | portFailed
  | trunkChangeApply
  | superstepStart
  | superstepEnd
  | messageArrive
  | messageRefusal
  -- availability and bring-up
  | bucketLeak
  | rowSpare
  | bankMirrorComplete
  | pseudoChannelRetire
  | portSpareAdd
  | scrub
  | moduleInsert
  | moduleRemove
  | transceiverChange
  | coldStart
  | warmingDone
  | stackTrainingDone
  -- Oxell commands
  | contFrame
  | ident
  | attest
  | partMake
  | partFree
  | slotSetTables
  | slotSetDonate
  | slotSetHashMasks
  | mapRangeEntry
  | mapControlWord
  | mapInvalidate
  | trunkSet
  | load
  | read
  | dict
  | launch
  | preemptPolicy
  | preemptCheckpoint
  | preemptKill
  | halt
  | resume
  | status
  | counters
  | repairRead
  | repairForceLasting
  | repairClearLevel
  | powerRingTotal
  | powerGate
  | powerUngate
  | therm
  | reset
  | thermalRingReduction
  | stewardRestart
  deriving DecidableEq, Repr

end Sys2Proof
end

