-- ==== Sys2Proof/Machine/Flags.lean ====
section
/-! DEFINITION. Flag computation: the conditions and combining types of every compare (R83, R105, R107, R135) and the edge-flag aggregate (R86). -/

namespace Sys2Proof.Machine

/-- The twelve conditions of R83 on two w-bit values; the condition fixes the signedness. -/
def condHolds {w : Nat} (cond : BitVec 4) (a b : BitVec w) : Bool :=
  match cond.toNat with
  | 0 => a == b
  | 1 => a != b
  | 2 => decide (a.toInt < b.toInt)
  | 3 => decide (b.toInt ≤ a.toInt)
  | 4 => decide (a.toInt ≤ b.toInt)
  | 5 => decide (b.toInt < a.toInt)
  | 6 => decide (a.toNat < b.toNat)
  | 7 => decide (b.toNat ≤ a.toNat)
  | 8 => decide (a.toNat ≤ b.toNat)
  | 9 => decide (b.toNat < a.toNat)
  | 10 => (a &&& b) != 0
  | _ => (a &&& b) == 0

/-- What a compare writes to its first and second predicate (R83): none for a predicate that keeps its value. `p1` and `p2` are the
predicates as of the bundle, `g` the qualifying predicate, `c` the condition. -/
def combine (ctype : BitVec 3) (g c p1 p2 : Bool) : Option (Bool × Bool) :=
  let c2 := if ctype.getLsbD 2 then c else !c
  match ctype.toNat % 4 with
  | 0 => if g then some (c, c2) else none
  | 1 => some (g && c, g && c2)
  | 2 => if g then some (p1 && c, p2 && c2) else none
  | _ => if g then some (p1 || c, p2 || c2) else none

/-- The reduction of the element conditions to one (R105): element 0, any or all. -/
def reduceConds (red : BitVec 2) (ks : List Bool) : Bool :=
  match red.toNat with
  | 0 => ks.headD false
  | 1 => ks.any id
  | _ => ks.all id

/-- A predicate register file with a bit written; predicate 0 reads 1 and discards writes (R76, R90). -/
def setPred (ps : BitVec 8) (k : BitVec 3) (v : Bool) : BitVec 8 :=
  if k = 0 then ps
  else if v then ps ||| (1#8 <<< k.toNat) else ps &&& ~~~(1#8 <<< k.toNat)

/-- The aggregate of one predicate over the selected cells of a bundle (R86). -/
structure FlagAgg where
  any : Bool := false
  all : Bool := true
  count : Nat := 0
  deriving DecidableEq, Repr

/-- The aggregate with more cells added. -/
def FlagAgg.add (f : FlagAgg) (vs : List Bool) : FlagAgg :=
  { any := f.any || vs.any id, all := f.all && vs.all id, count := f.count + (vs.filter id).length }

/-- What `flag.rd` reads of an aggregate: any, all or count (R86). -/
def FlagAgg.read (f : FlagAgg) (mode : BitVec 2) : Nat :=
  match mode.toNat with
  | 0 => if f.any then 1 else 0
  | 1 => if f.all then 1 else 0
  | _ => f.count

end Sys2Proof.Machine
end

