-- ==== Sys2Proof/WellFormed.lean ====
section
/-! DEFINITION. Well-formedness of an instruction on its own: every field in the range its rule gives (R61, rule 3 and rule 4; R269 for the walker).
What depends on a whole bundle (R59) or a whole program (branch targets, R269) is checked in Decode.lean and at `walk.start`. -/

namespace Sys2Proof

/-- Every source a slot names; the long immediate may stand in any of them (R56). -/
def Src.isLong : Src → Bool
  | .long => true
  | _ => false

def SSrc.isLong : SSrc → Bool
  | .long => true
  | _ => false

/-- IMM is a field the slot uses only if a source names the long immediate (R56, R61). -/
def immUsed (long : Bool) (imm : BitVec 32) : Bool := long || imm == 0

def AUn.wf (o : AUn) : Bool := immUsed o.a.isLong o.imm
def ABin.wf (o : ABin) : Bool := immUsed (o.a.isLong || o.b.isLong) o.imm
def ATern.wf (o : ATern) : Bool := immUsed (o.a.isLong || o.b.isLong || o.c.isLong) o.imm
def SBin.wf (o : SBin) : Bool := immUsed o.b.isLong o.imm
def ANarrow.wf (o : ANarrow) : Bool := immUsed (o.a.isLong || o.base.isLong) o.imm
def AQuant.wf (o : AQuant) : Bool := immUsed (o.a.isLong || o.s.isLong || o.base.isLong) o.imm

/-- The integer types of R101. -/
def ityOk (t : BitVec 3) : Bool := decide (t.toNat ≤ 5)

/-- Elements of an integer type in a register (R101). -/
def ityElems (t : BitVec 3) : Nat := if t.toNat % 3 = 0 then 8 else if t.toNat % 3 = 1 then 16 else 32

/-- R60: one predicate for both names needs TWIN = 1. -/
def predsOk (p1 p2 ctype : BitVec 3) : Bool := p1 != p2 || ctype.getLsbD 2

def QCmpF.wf (c : QCmpF) : Bool := decide (c.cond.toNat ≤ 11) && predsOk c.p1 c.p2 c.ctype

/-- A-slot compares (R105): conditions up to `lim`, RED 0 to 2, R60. -/
def ACmpF.wf (c : ACmpF) (lim : Nat) : Bool := decide (c.cond.toNat ≤ lim) && decide (c.red.toNat ≤ 2) && predsOk c.p1 c.p2 c.ctype

/-- The readable system registers (R89). -/
def sysRegOk (n : BitVec 12) : Bool := decide (n.toNat ≤ 6) || n == 0x010

/-- A loop level (R80). -/
def levelOk (k : BitVec 3) : Bool := decide (k.toNat ≤ 5)

/-- A small immediate read as PS8 must be -2 to +2 (R56). -/
def ps8SmallOk : Src → Bool
  | .small i => decide (-2 ≤ i.toInt ∧ i.toInt ≤ 2)
  | _ => true

/-- ACOL of a pass by mode 0 PS8, 1 I8, 2 BF16 (R173). -/
def passColOk (mode : Nat) (acol : BitVec 9) : Bool :=
  match mode with
  | 0 => acol == 0
  | 1 => acol == 0 || acol == 16
  | _ => acol == 0 || acol == 8 || acol == 16 || acol == 24

/-- SRC = 1 leaves QW unused (R173). -/
def TPass.wf (o : TPass) (mode : Nat) : Bool := passColOk mode o.acol && (!o.walk || o.qw == 0)

def accCol8Ok (acol : BitVec 9) : Bool := acol == 0 || acol == 8 || acol == 16 || acol == 24

/-- R255: the return queue is used with FETCH, the object with BOEN. -/
def EAtom.wf (o : EAtom) : Bool := (o.fetch || o.k == 0) && (o.bo || o.boff == 0)

/-- R61 (3, 4) for one slot instruction, R269 for one walker instruction; a step that no program encodes is well formed as it stands. -/
def Instr.wf : Instr → Bool
  -- Q slot
  | .br .. | .brX .. | .call .. | .callX .. | .ret .. | .yield .. | .taskEnd .. | .trap .. | .brk .. | .mark .. => true
  | .loop _ k _ | .lbrk _ k _ | .lidx _ _ k _ | .lidxSet _ k _ _ => levelOk k
  | .qAdd .. | .qAddi .. | .qSub .. | .qMul .. | .qMulh .. | .qMulhu .. | .qAnd .. | .qAndi .. | .qOr .. | .qOri .. | .qXor .. | .qXori ..
  | .qShl .. | .qShr .. | .qSra .. | .qMin .. | .qMax .. | .qMinu .. | .qMaxu .. | .qMov .. | .qLi .. | .qLih .. | .qSel .. => true
  | .qCmp c _ _ | .qCmpi c _ _ => c.wf
  | .ldparam .. | .wset .. | .wmov .. | .wrd .. | .tickRd .. | .gtickRd .. | .ctimeRd .. | .pwrRel .. | .pwrRelRd .. | .fenceDom ..
  | .fencePkg .. | .fenceSys .. | .waitB .. => true
  | .ldtask _ _ f => decide (f.toNat ≤ 10)
  | .flagRd _ _ mode _ d => decide (mode.toNat ≤ 2) && decide (18 ≤ d.toNat)
  | .pwrAcq _ level _ => level != 0
  | .sysRd _ _ num => sysRegOk num
  | .sysWr _ num _ => num == 0x010
  -- A slot
  | .aAdd t o | .aSub t o | .adds t o | .subs t o | .aMul t o | .aMulh t o | .aMin t o | .aMax t o | .aShl t o | .aShr t o | .aSra t o =>
    ityOk t && o.wf
  | .mad t o | .aSel t o => ityOk t && o.wf
  | .abs t o => decide (t.toNat ≤ 2) && o.wf
  | .neg t o | .popc t o | .clz t o => ityOk t && o.wf
  | .aAnd o | .aOr o | .aXor o | .andn o | .permv o | .fmin o | .fmax o => o.wf
  | .not o | .aMov o | .fabs o | .fneg o | .fclass o | .fexp2f o | .fgetexp o => o.wf
  | .aCmp t c a b imm => decide (t.toNat ≤ 2) && c.wf 11 && immUsed (a.isLong || b.isLong) imm
  | .sadd o | .ssub o | .smul o | .sand o | .sor o | .sxor o | .sshl o | .sshr _ o => o.wf
  | .sli _ _ v imm => (match v with | .s _ => false | .small _ => imm == 0 | .long => true)
  | .sget _ _ _ a imm => immUsed a.isLong imm
  | .scmp c _ b imm => c.wf 11 && c.red == 0 && immUsed b.isLong imm
  | .perm _ _ a _ => !a.isLong
  | .bcast t k o => ityOk t && decide (k.toNat < ityElems t) && o.wf
  | .bcasts t _ _ b imm => ityOk t && immUsed b.isLong imm
  | .red op t o | .scan op _ t o => decide (op.toNat ≤ 5) && ityOk t && o.wf
  | .bset _ _ b imm => immUsed b.isLong imm
  | .fadd _ o | .fsub _ o | .fmul _ o | .fexpins _ o => o.wf
  | .fma _ o | .fms _ o | .fnma _ o | .fnms _ o => o.wf
  | .fcmp c a b imm => c.wf 7 && immUsed (a.isLong || b.isLong) imm
  | .frnd _ o | .frcp _ o | .frsq _ o | .cvtI32F32 _ o => o.wf
  | .cvtF32Bf16 p o => decide (p.toNat < 2) && o.wf
  | .cvtF32Ps8 _ o => ps8SmallOk o.a && o.wf
  | .cvtF32I _ t p o => ityOk t && decide (p.toNat < ityElems t / 8) && o.wf
  | .cvtI32I t p o => ityOk t && t.toNat % 3 != 0 && decide (p.toNat < ityElems t / 8) && o.wf
  | .cvtBf16F32 _ o | .cvtI16F32 _ o => decide (o.part.toNat < 2) && o.wf
  | .cvtI16I32 o => decide (o.part.toNat < 2) && o.wf
  | .cvtI8F32 _ o => o.wf
  | .cvtPs8F32 o | .cvtI8I32 o => o.wf
  | .quantI8 _ o => o.wf
  | .quantPs8 o => o.wf
  -- M slot
  | .ld .. | .ldW .. | .ldB .. | .ldq .. | .qpeek .. | .qpeekN .. | .vpop .. | .vfree .. | .vfreeIn .. => true
  | .st o | .stW o => !o.v.isLong
  | .stq _ _ v | .cw _ v | .vpush _ v => !v.isLong
  -- T slot
  | .ldw _ form v _ => decide (form.toNat ≤ 2) && !v.isLong
  | .flip .. | .mmd .. | .accZero .. | .accCp .. | .accRdSt .. => true
  | .mmPs8 o => o.wf 0
  | .mmI8 o => o.wf 1
  | .mmBf16 o => o.wf 2
  | .mmChain _ mode _ acol _ => decide (mode.toNat ≤ 2) && passColOk mode.toNat acol
  | .accRd _ _ _ acol => decide (acol.toNat % 4 = 0)
  | .accWr _ v _ acol _ => decide (acol.toNat % 4 = 0) && !v.isLong
  | .accCvt _ _ _ v _ acol => accCol8Ok acol && !v.isLong
  | .accScl _ _ _ acol v => accCol8Ok acol && !v.isLong
  -- E slot
  | .lrow .. | .srow .. | .copy .. | .tierPf .. | .gather .. | .scatter .. | .strmSet .. | .probe .. | .qwSet .. | .boInit .. | .boRd ..
  | .taskPost .. | .msgSend .. | .knBind .. | .knInv .. | .knInvAll .. | .knStat .. | .walkStart .. | .walkStop .. | .walkStopW .. => true
  | .mpRun _ _ rq nrd wq nwr =>
    decide (nrd.toNat ≤ 4096) && decide (nwr.toNat ≤ 4096) && (nrd != 0 || rq == 0) && (nwr != 0 || wq == 0)
      && (nrd == 0 || nwr == 0 || rq != wq)
  | .atomAdd o | .atomMin o | .atomMax o | .atomAnd o | .atomOr o | .atomXor o => o.wf
  | .atomSwap o => o.fetch && o.wf
  | .atomCas o => o.fetch && decide (o.xb.toNat ≤ 30) && o.wf
  | .qwRd _ _ xa xb => xa != xb
  | .msgQuiet _ b => decide (b.toNat ≤ 2)
  | .xchGo _ k _ n => decide (n.toNat ≤ 256) && (n != 0 || k == 0)
  | .dictLoad _ _ n => decide (1 ≤ n.toNat ∧ n.toNat ≤ 16384)
  | .ctrRd _ _ sel _ => decide (sel.toNat ≤ 6)
  -- walker
  | .wNop | .wLi .. | .wLih .. | .wAdd .. | .wAddi .. | .wSub .. | .wAnd .. | .wShl .. | .wShr .. | .wBCond .. | .wB .. | .wLdW .. | .wLdH ..
  | .wQpop .. | .wPf .. | .wCwinA .. | .wCwinB .. | .wIsect .. | .wUnion .. | .wMerge .. | .wTopk .. | .wEmit .. | .wEmitS .. | .wEmitz ..
  | .wQpush .. | .wWend => true
  | .wDloop a _ => a != 0
  | .wNzc _ _ f _ => decide (f.toNat ≤ 5)
  | .wBexp _ _ _ z _ => decide (z.toNat ≤ 2)
  | .wRds _ sel => decide (sel.toNat ≤ 6)
  -- steps that are not encoded in a program
  | .issueSelect | .rowExecute | .leashReach | .reinject | .engineRestart | .kennelEntryAction | .emitzRecordPush | .mRowEnter
  | .passLanding | .sliceRailSettle | .mmdDecision | .kennelWriteback | .dataPortPerform | .lrowRowWrite | .cellStoreWindowRelease
  | .boArrival | .copyDescriptorTake | .copyLineLand | .shadowLoadFollowon | .taskPostFollowon | .gatherElementLand | .scatterWriteConfirm
  | .probeComplete | .atomPerform | .tableWalkComplete | .frameBoundary | .hbmSlot | .mpCompletion | .refreshWatchdog | .deepTierAccess
  | .placement | .taskStart | .preemptRequest | .checkpointSave | .saveComplete | .taskResume | .killedContextFree | .tokenVisit
  | .leaseExpiry | .leaseReleaseEffect | .powerSample | .thermalTrip1 | .thermalTrip2 | .thermalTrip3 | .thermalTrip4 | .thermalTripClear
  | .clockStretch | .gateRailsOff | .arrayUngate | .ungateComplete | .flitReceive | .portFailed | .trunkChangeApply | .superstepStart
  | .superstepEnd | .messageArrive | .messageRefusal | .bucketLeak | .rowSpare | .bankMirrorComplete | .pseudoChannelRetire
  | .portSpareAdd | .scrub | .moduleInsert | .moduleRemove | .transceiverChange | .coldStart | .warmingDone | .stackTrainingDone
  | .contFrame | .ident | .attest | .partMake | .partFree | .slotSetTables | .slotSetDonate | .slotSetHashMasks | .mapRangeEntry
  | .mapControlWord | .mapInvalidate | .trunkSet | .load | .read | .dict | .launch | .preemptPolicy | .preemptCheckpoint | .preemptKill
  | .halt | .resume | .status | .counters | .repairRead | .repairForceLasting | .repairClearLevel | .powerRingTotal | .powerGate
  | .powerUngate | .therm | .reset | .thermalRingReduction | .stewardRestart => true

end Sys2Proof
end

