-- ==== Sys2Proof/Machine/Elements.lean ====
section
/-! DEFINITION. Elements of a 256-bit register (R2, R101) and the integer results of the A slot on them (R103-R110), as functions of operand values. -/

namespace Sys2Proof.Machine

/-- Element `i` of a register in elements `w` bits wide, unsigned (R2). -/
def elem (w i : Nat) (r : VReg) : Nat := r.toNat / 2 ^ (w * i) % 2 ^ w

/-- A w-bit pattern read as two's complement. -/
def asSigned (w v : Nat) : Int := if v < 2 ^ (w - 1) then (v : Int) else (v : Int) - (2 ^ w : Nat)

/-- Digits of base 2^w to a number, first digit lowest. -/
def packNat (w : Nat) : List Nat → Nat
  | [] => 0
  | d :: rest => d % 2 ^ w + 2 ^ w * packNat w rest

/-- A register from its elements of width `w`; elements not given are zero. -/
def packElems (w : Nat) (es : List Nat) : VReg := BitVec.ofNat 256 (packNat w es)

/-- All the elements of a register. -/
def elems (w : Nat) (r : VReg) : List Nat := (List.range (256 / w)).map fun i => elem w i r

/-- A register whose element `i` is `f i`. -/
def mkElems (w : Nat) (f : Nat → Nat) : VReg := packElems w ((List.range (256 / w)).map f)

/-- The register with elements 8p to 8p + 7 replaced, as a narrowing conversion does (R142). -/
def setGroup (w p : Nat) (old : VReg) (es : List Nat) : VReg :=
  mkElems w fun i => if 8 * p ≤ i ∧ i < 8 * p + 8 then es.getD (i - 8 * p) 0 else elem w i old

/-! ## Integer types (R101) -/

/-- Element width. -/
def ityWidth (t : BitVec 3) : Nat := if t.toNat % 3 = 0 then 32 else if t.toNat % 3 = 1 then 16 else 8
def itySigned (t : BitVec 3) : Bool := decide (t.toNat < 3)
/-- An element pattern as the integer the type reads. -/
def ityVal (t : BitVec 3) (v : Nat) : Int := if itySigned t then asSigned (ityWidth t) v else (v : Int)
def ityMin (t : BitVec 3) : Int := if itySigned t then -((2 ^ (ityWidth t - 1) : Nat) : Int) else 0
def ityMax (t : BitVec 3) : Int := if itySigned t then ((2 ^ (ityWidth t - 1) : Nat) : Int) - 1 else ((2 ^ ityWidth t : Nat) : Int) - 1
/-- An integer reduced mod 2^w. -/
def wrapInt (w : Nat) (x : Int) : Nat := (x % ((2 ^ w : Nat) : Int)).toNat

def unElems (t : BitVec 3) (f : Int → Int) (a : VReg) : VReg :=
  let w := ityWidth t
  mkElems w fun i => wrapInt w (f (ityVal t (elem w i a)))

def binElems (t : BitVec 3) (f : Int → Int → Int) (a b : VReg) : VReg :=
  let w := ityWidth t
  mkElems w fun i => wrapInt w (f (ityVal t (elem w i a)) (ityVal t (elem w i b)))

def satTo (t : BitVec 3) (x : Int) : Int := max (ityMin t) (min (ityMax t) x)

/-! ## Arithmetic (R103) -/

def vAdd (t : BitVec 3) : VReg → VReg → VReg := binElems t fun a b => a + b
def vSub (t : BitVec 3) : VReg → VReg → VReg := binElems t fun a b => a - b
def vAdds (t : BitVec 3) : VReg → VReg → VReg := binElems t fun a b => satTo t (a + b)
def vSubs (t : BitVec 3) : VReg → VReg → VReg := binElems t fun a b => satTo t (a - b)
def vMul (t : BitVec 3) : VReg → VReg → VReg := binElems t fun a b => a * b
def vMulh (t : BitVec 3) : VReg → VReg → VReg := binElems t fun a b => a * b / ((2 ^ ityWidth t : Nat) : Int)
def vMin (t : BitVec 3) : VReg → VReg → VReg := binElems t min
def vMax (t : BitVec 3) : VReg → VReg → VReg := binElems t max
def vAbs (t : BitVec 3) : VReg → VReg := unElems t fun a => (a.natAbs : Int)
def vNeg (t : BitVec 3) : VReg → VReg := unElems t fun a => -a

def vMad (t : BitVec 3) (a b s : VReg) : VReg :=
  let w := ityWidth t
  mkElems w fun i => wrapInt w (ityVal t (elem w i a) * ityVal t (elem w i b) + ityVal t (elem w i s))

/-! ## Shifts (R104) -/

def vShl (t : BitVec 3) (a b : VReg) : VReg :=
  let w := ityWidth t
  mkElems w fun i => if w ≤ elem w i b then 0 else elem w i a * 2 ^ elem w i b % 2 ^ w

def vShr (t : BitVec 3) (a b : VReg) : VReg :=
  let w := ityWidth t
  mkElems w fun i => if w ≤ elem w i b then 0 else elem w i a / 2 ^ elem w i b

def vSra (t : BitVec 3) (a b : VReg) : VReg :=
  let w := ityWidth t
  mkElems w fun i =>
    let x := asSigned w (elem w i a)
    if w ≤ elem w i b then (if x < 0 then 2 ^ w - 1 else 0) else wrapInt w (x / ((2 ^ elem w i b : Nat) : Int))

/-! ## Compare, select, permute (R105, R106, R108) -/

/-- The element conditions of `cmp` (R105). -/
def vConds (t : BitVec 3) (cond : BitVec 4) (a b : VReg) : List Bool :=
  let w := ityWidth t
  (List.range (256 / w)).map fun i => condHolds cond (BitVec.ofNat w (elem w i a)) (BitVec.ofNat w (elem w i b))

def vSel (t : BitVec 3) (a b m : VReg) : VReg :=
  let w := ityWidth t
  mkElems w fun i => if elem w i m ≠ 0 then elem w i a else elem w i b

def vPerm (sel : BitVec 24) (a : VReg) : VReg := mkElems 32 fun l => elem 32 (sel.toNat / 2 ^ (3 * l) % 8) a
def vPermv (a b : VReg) : VReg := mkElems 32 fun l => elem 32 (elem 32 l b % 8) a
def vBcast (t : BitVec 3) (k : Nat) (a : VReg) : VReg := mkElems (ityWidth t) fun _ => elem (ityWidth t) k a
/-- `bcasts` (R108). -/
def vSplat (t : BitVec 3) (b : Lane) : VReg := mkElems (ityWidth t) fun _ => b.toNat % 2 ^ ityWidth t

/-! ## Reduce, scan, count (R109, R110) -/

/-- The operation of `red` and `scan` on integers read as the type, bitwise ones on the patterns. -/
def redOp (op : BitVec 3) (t : BitVec 3) (x y : Int) : Int :=
  let w := ityWidth t
  match op.toNat with
  | 0 => x + y
  | 1 => min x y
  | 2 => max x y
  | 3 => ((wrapInt w x &&& wrapInt w y : Nat) : Int)
  | 4 => ((wrapInt w x ||| wrapInt w y : Nat) : Int)
  | _ => ((wrapInt w x ^^^ wrapInt w y : Nat) : Int)

/-- The identity of an exclusive scan (R109). -/
def redIdentity (op : BitVec 3) (t : BitVec 3) : Int :=
  match op.toNat with
  | 1 => ityMax t
  | 2 => ityMin t
  | 3 => ((2 ^ ityWidth t : Nat) : Int) - 1
  | _ => 0

def vRed (op t : BitVec 3) (a : VReg) : VReg :=
  let w := ityWidth t
  let es := (elems w a).map (ityVal t)
  let r := es.tail.foldl (redOp op t) (es.headD 0)
  let lane := if op.toNat ≤ 2 then wrapInt 32 r else wrapInt w r
  packElems 32 [lane]

def vScan (op : BitVec 3) (ex : Bool) (t : BitVec 3) (a : VReg) : VReg :=
  let w := ityWidth t
  let es := (elems w a).map (ityVal t)
  mkElems w fun i =>
    let upto := es.take (if ex then i else i + 1)
    wrapInt w <| match upto with
      | [] => redIdentity op t
      | e :: rest => rest.foldl (redOp op t) e

/-- The number of 1 bits among the low `n` bits. -/
def popNat : Nat → Nat → Nat
  | 0, _ => 0
  | n + 1, v => (if v.testBit n then 1 else 0) + popNat n v

def vPopc (t : BitVec 3) (a : VReg) : VReg := mkElems (ityWidth t) fun i => popNat (ityWidth t) (elem (ityWidth t) i a)

def vClz (t : BitVec 3) (a : VReg) : VReg :=
  let w := ityWidth t
  mkElems w fun i => if elem w i a = 0 then w else w - 1 - Nat.log2 (elem w i a)

/-! ## FP32 lanes -/

def f32Un (f : Nat → Nat) (a : VReg) : VReg := mkElems 32 fun l => f (elem 32 l a)
def f32Bin (f : Nat → Nat → Nat) (a b : VReg) : VReg := mkElems 32 fun l => f (elem 32 l a) (elem 32 l b)
def f32Tern (f : Nat → Nat → Nat → Nat) (a b c : VReg) : VReg := mkElems 32 fun l => f (elem 32 l a) (elem 32 l b) (elem 32 l c)

end Sys2Proof.Machine
end

