-- ==== Sys2Proof/Machine/Float.lean ====
section
/-! DEFINITION. Number formats and exact arithmetic (R112-R122, R131-R144): FP32 and BF16 as exact fractions rounded once, integers out of
them, PS8 codes, and the block alignment of BF16 groups (R128). Every function is over codes read as numbers. -/

namespace Sys2Proof.Machine

/-- The rounding modes (R54). -/
inductive RMode where
  | rne
  | rtz
  | rup
  | rdn
  deriving DecidableEq, Repr

def RMode.ofBits (b : BitVec 2) : RMode :=
  match b.toNat with
  | 0 => .rne
  | 1 => .rtz
  | 2 => .rup
  | _ => .rdn

/-- An exact real: a sign and a fraction `num / den` with `den > 0` (R116: nothing rounds before the one rounding). -/
structure Frac where
  neg : Bool
  num : Nat
  den : Nat
  deriving DecidableEq, Repr

/-- What an FP32 or BF16 code stands for (R113, R114). -/
inductive FVal where
  | nan
  | inf (neg : Bool)
  | fin (x : Frac)
  deriving DecidableEq, Repr

/-- The fraction `m * 2^e`. -/
def Frac.scaled (neg : Bool) (m : Nat) (e : Int) : Frac :=
  if 0 ≤ e then { neg, num := m * 2 ^ e.toNat, den := 1 } else { neg, num := m, den := 2 ^ (-e).toNat }

def Frac.mul (a b : Frac) : Frac := { neg := a.neg != b.neg, num := a.num * b.num, den := a.den * b.den }
/-- `a / b`, for `b` not zero. -/
def Frac.div (a b : Frac) : Frac := { neg := a.neg != b.neg, num := a.num * b.den, den := a.den * b.num }
def Frac.toInt (a : Frac) : Int := if a.neg then -(a.num : Int) else a.num
def Frac.negate (a : Frac) : Frac := { a with neg := !a.neg }
/-- An integer over a denominator. -/
def Frac.ofInt (n : Int) (den : Nat) : Frac := { neg := decide (n < 0), num := n.natAbs, den }

/-- The value of `m * 2^e` for an integer `m`. -/
def Frac.ofIntExp (m : Int) (e : Int) : Frac := Frac.scaled (decide (m < 0)) m.natAbs e

/-- The floor of the base-2 logarithm of `num / den`, both positive. -/
def floorLog2 (num den : Nat) : Int :=
  let k : Int := (Nat.log2 num : Int) - Nat.log2 den
  let lt := if 0 ≤ k then decide (num < den * 2 ^ k.toNat) else decide (num * 2 ^ (-k).toNat < den)
  if lt then k - 1 else k

/-- Whether a magnitude with floor `q` and remainder `r` of divisor `d` rounds away from zero (R116). -/
def roundsUp (m : RMode) (neg : Bool) (q r d : Nat) : Bool :=
  match m with
  | .rne => decide (d < 2 * r) || (decide (2 * r = d) && q % 2 == 1)
  | .rtz => false
  | .rup => decide (r ≠ 0) && !neg
  | .rdn => decide (r ≠ 0) && neg

/-- Whether a magnitude beyond the largest finite value stays finite in this mode (R116). -/
def staysFinite (m : RMode) (neg : Bool) : Bool :=
  match m with
  | .rne => false
  | .rtz => true
  | .rup => neg
  | .rdn => !neg

/-- rnd(mode, x) into a binary format of 8 exponent bits and `p` fraction bits, as a code; x is not zero or its sign is kept (R116). -/
def rndBin (p : Nat) (m : RMode) (x : Frac) : Nat :=
  let sign := if x.neg then 2 ^ (p + 8) else 0
  if x.num = 0 then sign
  else
    let u : Int := max (floorLog2 x.num x.den - p) (-(126 + (p : Int)))
    let n := if 0 ≤ u then x.num else x.num * 2 ^ (-u).toNat
    let d := if 0 ≤ u then x.den * 2 ^ u.toNat else x.den
    let q := n / d
    let up := if roundsUp m x.neg q (n % d) d then 1 else 0
    let code := (u + 126 + p).toNat * 2 ^ p + q + up
    let infinity := 255 * 2 ^ p
    sign + (if code < infinity then code else if staysFinite m x.neg then infinity - 1 else infinity)

/-- rnd(mode, x) into an integer (R117, R118). -/
def rndInt (m : RMode) (x : Frac) : Int :=
  let q := x.num / x.den
  let v := if roundsUp m x.neg q (x.num % x.den) x.den then q + 1 else q
  if x.neg then -(v : Int) else v

/-! ## FP32 and BF16 codes -/

def f32Neg (c : Nat) : Bool := c.testBit 31
def f32Exp (c : Nat) : Nat := c / 2 ^ 23 % 256
def f32Frac (c : Nat) : Nat := c % 2 ^ 23
def f32IsNan (c : Nat) : Bool := f32Exp c == 255 && f32Frac c != 0
def f32IsInf (c : Nat) : Bool := f32Exp c == 255 && f32Frac c == 0
def f32IsZero (c : Nat) : Bool := c % 2 ^ 31 == 0
/-- A NaN with its quiet bit set (R115). -/
def f32Quiet (c : Nat) : Nat := c ||| 0x400000
def f32DefaultNan : Nat := 0x7FC00000
def f32Inf (neg : Bool) : Nat := (if neg then 0x80000000 else 0) + 0x7F800000
def f32Zero (neg : Bool) : Nat := if neg then 0x80000000 else 0

def f32Val (c : Nat) : FVal :=
  if f32IsNan c then .nan
  else if f32IsInf c then .inf (f32Neg c)
  else if f32Exp c = 0 then .fin (Frac.scaled (f32Neg c) (f32Frac c) (-149))
  else .fin (Frac.scaled (f32Neg c) (2 ^ 23 + f32Frac c) ((f32Exp c : Int) - 150))

/-- The FP32 code of an integer, exact below 2^24 (R56). -/
def f32OfInt (n : Int) : Nat := rndBin 23 .rne (Frac.ofInt n 1)
/-- The BF16 code of a small integer (R56). -/
def bf16OfInt (n : Int) : Nat := rndBin 7 .rne (Frac.ofInt n 1)

/-- The first NaN among the operands, quieted (R115). -/
def firstNan : List Nat → Option Nat
  | [] => none
  | c :: rest => if f32IsNan c then some (f32Quiet c) else firstNan rest

/-- The sum of two finite terms rounded once, with the zero rule of R116. -/
def addFin (m : RMode) (a b : Frac) : Nat :=
  let s : Int := a.toInt * b.den + b.toInt * a.den
  if s = 0 then f32Zero (if a.neg == b.neg then a.neg else decide (m = .rdn))
  else rndBin 23 m (Frac.ofInt s (a.den * b.den))

/-- The sum of two terms, neither a NaN: none when the infinities disagree (R132). -/
def addVal (m : RMode) (a b : FVal) : Option Nat :=
  match a, b with
  | .inf x, .inf y => if x == y then some (f32Inf x) else none
  | .inf x, .fin _ => some (f32Inf x)
  | .fin _, .inf y => some (f32Inf y)
  | .fin x, .fin y => some (addFin m x y)
  | _, _ => none

def negVal : FVal → FVal
  | .nan => .nan
  | .inf n => .inf (!n)
  | .fin x => .fin x.negate

/-- The exact product, neither a NaN: none for zero times infinity (R132). -/
def mulVal (a b : FVal) : Option FVal :=
  match a, b with
  | .inf x, .inf y => some (.inf (x != y))
  | .inf x, .fin y => if y.num = 0 then none else some (.inf (x != y.neg))
  | .fin x, .inf y => if x.num = 0 then none else some (.inf (x.neg != y))
  | .fin x, .fin y => some (.fin (x.mul y))
  | _, _ => none

def f32Add (m : RMode) (a b : Nat) : Nat :=
  (firstNan [a, b]).getD ((addVal m (f32Val a) (f32Val b)).getD f32DefaultNan)

def f32Sub (m : RMode) (a b : Nat) : Nat :=
  (firstNan [a, b]).getD ((addVal m (f32Val a) (negVal (f32Val b))).getD f32DefaultNan)

def f32Mul (m : RMode) (a b : Nat) : Nat :=
  (firstNan [a, b]).getD <|
    match mulVal (f32Val a) (f32Val b) with
    | some (.inf n) => f32Inf n
    | some (.fin x) => rndBin 23 m x
    | _ => f32DefaultNan

/-- The fused forms (R132): the product negated or not, the addend negated or not. -/
def f32Fma (m : RMode) (negP negC : Bool) (a b c : Nat) : Nat :=
  (firstNan [a, b, c]).getD <|
    match mulVal (f32Val a) (f32Val b) with
    | some p =>
      let p := if negP then negVal p else p
      let c := if negC then negVal (f32Val c) else f32Val c
      (addVal m p c).getD f32DefaultNan
    | none => f32DefaultNan

/-- A number that orders FP32 codes that are not NaNs, with -0 below +0 (R133). -/
def f32Key (c : Nat) : Int := if f32Neg c then -((c % 2 ^ 31 : Nat) : Int) - 1 else (c : Int)

/-- fmin (`lo`) and fmax (R133). -/
def f32MinMax (lo : Bool) (a b : Nat) : Nat :=
  if f32IsNan a then (if f32IsNan b then f32Quiet a else b)
  else if f32IsNan b then a
  else if lo then (if f32Key b < f32Key a then b else a)
  else (if f32Key a < f32Key b then b else a)

/-- The order of two codes that are not NaNs, +0 and -0 equal (R135). -/
def f32Ord (c : Nat) : Int := if f32Neg c then -((c % 2 ^ 31 : Nat) : Int) else (c : Int)

/-- The float conditions (R135). -/
def f32Cond (cond a b : Nat) : Bool :=
  let uno := f32IsNan a || f32IsNan b
  let x := f32Ord a
  let y := f32Ord b
  match cond with
  | 0 => !uno && decide (x = y)
  | 1 => uno || decide (x ≠ y)
  | 2 => !uno && decide (x < y)
  | 3 => !uno && decide (y ≤ x)
  | 4 => !uno && decide (x ≤ y)
  | 5 => !uno && decide (y < x)
  | 6 => !uno
  | _ => uno

/-- fclass (R136). -/
def f32Class (c : Nat) : Nat :=
  if f32IsNan c then (if c.testBit 22 then 2 else 1)
  else
    let rank := if f32IsInf c then 3 else if f32Exp c ≠ 0 then 2 else if f32Frac c ≠ 0 then 1 else 0
    if f32Neg c then 2 ^ (5 - rank) else 2 ^ (6 + rank)

/-- frnd (R137). -/
def f32Round (m : RMode) (c : Nat) : Nat :=
  match f32Val c with
  | .nan => f32Quiet c
  | .inf _ => c
  | .fin x =>
    let v := rndInt m x
    if v = 0 then f32Zero x.neg else rndBin 23 .rne (Frac.ofInt v 1)

/-- fexpins (R139). -/
def f32ExpIns (m : RMode) (c : Nat) (n : Int) : Nat :=
  let k := max (-511) (min 511 n)
  match f32Val c with
  | .nan => f32Quiet c
  | .inf _ => c
  | .fin x => if x.num = 0 then c else rndBin 23 m (x.mul (Frac.scaled false 1 k))

/-- fgetexp (R140). -/
def f32GetExp (c : Nat) : Nat :=
  match f32Val c with
  | .nan => f32Quiet c
  | .inf _ => f32Inf false
  | .fin x => if x.num = 0 then f32Inf true else f32OfInt (floorLog2 x.num x.den)

/-- frcp (R141). -/
def f32Rcp (m : RMode) (c : Nat) : Nat :=
  match f32Val c with
  | .nan => f32Quiet c
  | .inf n => f32Zero n
  | .fin x => if x.num = 0 then f32Inf x.neg else rndBin 23 m { neg := x.neg, num := x.den, den := x.num }

/-- The integer square root, one bit of the root a step from the top. -/
def isqrtGo : Nat → Nat → Nat → Nat
  | 0, _, r => r
  | k + 1, n, r =>
    let t := r + 2 ^ k
    isqrtGo k n (if t * t ≤ n then t else r)

def isqrt (n : Nat) : Nat := isqrtGo (Nat.log2 n / 2 + 1) n 0

/-- frsq (R141): 1 / sqrt(a) rounded once. The result is normal for every positive finite a, so its grid is that of its own binade. -/
def f32Rsq (m : RMode) (c : Nat) : Nat :=
  match f32Val c with
  | .nan => f32Quiet c
  | .inf n => if n then f32DefaultNan else f32Zero false
  | .fin x =>
    if x.num = 0 then f32Inf x.neg
    else if x.neg then f32DefaultNan
    else
      -- y = 1/sqrt(x), y^2 = den/num; the root of floor(y^2 * 2^(2s)) is floor(y * 2^s), with s large enough for 26 bits and more
      let s := 150
      let n := x.den * 2 ^ (2 * s)
      let q := n / x.num
      let r := isqrt q
      let exact := decide (r * r * x.num = n)
      -- two extra bits and a sticky one keep which side of every grid point and midpoint the exact value lies on
      rndBin 23 m { neg := false, num := 2 * r + (if exact then 0 else 1), den := 2 * 2 ^ s }

/-! ## fexp2f (R138) -/

/-- ln 2 in units of 2^-120. -/
def ln2Fixed : Nat := 921350637599661305226344307672478454

/-- Terms `k` and on of the series of exp(x), from `term`, in units of 2^-120. -/
def expTerms (x : Nat) : Nat → Nat → Nat → Nat
  | 0, _, _ => 0
  | fuel + 1, k, term => term + expTerms x fuel (k + 1) (term * x / (2 ^ 120 * (k + 1)))

/-- 2^a for a finite code with |a| below 1, in units of 2^-120, to within 2^-100. -/
def exp2Fixed (c : Nat) : Nat :=
  match f32Val c with
  | .fin x =>
    let f := x.num * 2 ^ 120 / x.den
    if x.neg then expTerms ((2 ^ 120 - f) * ln2Fixed / 2 ^ 120) 48 0 (2 ^ 120) / 2
    else expTerms (f * ln2Fixed / 2 ^ 120) 48 0 (2 ^ 120)
  | _ => 0

/-- Whether a code y is a value R138 allows for 2^a, given to within 2^-100, where a is below 0 or above it: |y - 2^a| <= 2 ulp(2^a), y in [0.5, 2],
and on the side of 1.0 = 2^0 that a non-decreasing function keeps. -/
def exp2Allows (neg : Bool) (v y : Nat) : Bool :=
  match f32Val y with
  | .fin x =>
    let fy := x.num * 2 ^ 120 / x.den
    let ulp := if neg then 2 ^ 96 else 2 ^ 97
    !x.neg && (if neg then decide (2 ^ 119 ≤ fy ∧ fy ≤ 2 ^ 120) else decide (2 ^ 120 ≤ fy ∧ fy ≤ 2 ^ 121))
      && decide (fy ≤ v + 2 * ulp + 2 ^ 60 ∧ v ≤ fy + 2 * ulp + 2 ^ 60)
  | _ => false

/-- The FP32 codes R138 allows for an input with 0 < |a| < 1, in rising order. -/
def exp2Choices (c : Nat) : List Nat :=
  let v := exp2Fixed c
  let base := rndBin 23 .rtz { neg := false, num := v, den := 2 ^ 120 }
  ((List.range 8).map fun i => base - 3 + i).filter (exp2Allows (decide (2 ^ 31 ≤ c)) v)

/-- Where an FP32 code stands in the order of the values. -/
def f32Rank (c : Nat) : Nat := if c < 2 ^ 31 then 2 ^ 31 + c else 2 ^ 32 - c

/-- fexp2f (R138): the last allowed code whose step lies at or below the input, or the first: for every choice of the steps a non-decreasing
function within the bounds, and each such function for some choice of them (log 6). -/
def f32Exp2 (c : Nat) : Nat :=
  if f32IsNan c then f32Quiet c
  else if f32IsZero c then 0x3F800000
  else if c % 2 ^ 31 > 0x3F800000 then f32DefaultNan
  else if c = 0x3F800000 then 0x40000000
  else if c = 0xBF800000 then 0x3F000000
  else
    let cs := exp2Choices c
    cs.foldl (fun r y => if Config.fexp2Step y ≤ f32Rank c then y else r) (cs.headD 0x3F800000)

/-! ## PS8 (R120-R123) -/

def ps8Term (s : Bool) (c : Nat) : Int :=
  if c = 7 then 0 else if s then -((2 ^ (6 - c) : Nat) : Int) else ((2 ^ (6 - c) : Nat) : Int)

/-- 64 times the value of a code (R120). -/
def ps8Value (code : Nat) : Int := ps8Term (code.testBit 7) (code / 16 % 8) + ps8Term (code.testBit 3) (code % 8)

/-- The magnitudes of R121, ascending, in units of 1/64. -/
def ps8Mags : List Nat :=
  [0, 1, 2, 3, 4, 5, 6, 7, 8, 9, 10, 12, 14, 15, 16, 17, 18, 20, 24, 28, 30, 31, 32, 33, 34, 36, 40, 48, 56, 60, 62, 63, 64, 65, 66, 68,
   72, 80, 96, 128]

/-- The canonical codes tried in the order of R122's rules, for a magnitude and a sign. -/
def ps8Canon (neg : Bool) (mag : Nat) : Nat :=
  let s := if neg then 1 else 0
  if mag = 0 then 0x77
  else if mag = 128 then s * 0x88
  else
    match (List.range 7).find? (fun c => 2 ^ (6 - c) == mag) with
    | some c => s * 128 + c * 16 + 7
    | none =>
      let pairs := (List.range 7).flatMap fun c1 => (List.range 7).filterMap fun c2 => if c1 < c2 then some (c1, c2) else none
      match pairs.find? (fun (c1, c2) => 2 ^ (6 - c1) + 2 ^ (6 - c2) == mag) with
      | some (c1, c2) => s * 128 + c1 * 16 + s * 8 + c2
      | none =>
        match pairs.find? (fun (c1, c2) => 2 ^ (6 - c1) - 2 ^ (6 - c2) == mag) with
        | some (c1, c2) => s * 128 + c1 * 16 + (1 - s) * 8 + c2
        | none => 0x77

/-- The magnitude of R121 nearest to `num / den` in units of 1/64, the smaller on a tie (R123). -/
def ps8Nearest (num den : Nat) : Nat :=
  let dist := fun k => ((64 * num : Nat) - (k * den : Nat) : Int).natAbs
  ps8Mags.foldl (fun best k => if dist k < dist best then k else best) 0

/-- The code of a finite x, none when |x| > 2 (R118, R123). -/
def ps8OfFrac (x : Frac) : Option Nat :=
  if 2 * x.den < x.num then none else some (ps8Canon x.neg (ps8Nearest x.num x.den))

/-- The code a small immediate is read as (R56). -/
def ps8OfInt (n : Int) : Nat := ps8Canon (decide (n < 0)) (64 * n.natAbs)

/-! ## Conversions (R117, R118, R142-R144): none marks a stray -/

/-- An integer as the code of a w-bit destination, none outside its signed range (R118). -/
def intFits (w : Nat) (v : Int) : Option Nat :=
  if -(2 ^ (w - 1) : Nat) ≤ v ∧ v < (2 ^ (w - 1) : Nat) then some (v % (2 ^ w : Nat)).toNat else none

def narrowF32Int (w : Nat) (m : RMode) (c : Nat) : Option Nat :=
  match f32Val c with
  | .fin x => intFits w (rndInt m x)
  | _ => none

def narrowF32Bf16 (m : RMode) (c : Nat) : Option Nat :=
  match f32Val c with
  | .fin x =>
    let r := rndBin 7 m x
    if r % 2 ^ 15 = 0x7F80 then none else some r
  | _ => none

def narrowF32Ps8 (c : Nat) : Option Nat :=
  match f32Val c with
  | .fin x => ps8OfFrac x
  | _ => none

/-- The exact quotient of the quantising forms (R144). -/
def quantQuot (a s : Nat) : Option Frac :=
  match f32Val a, f32Val s with
  | .fin x, .fin y => if y.num = 0 then none else some (x.div y)
  | _, _ => none

def quantI8Elem (m : RMode) (a s : Nat) : Option Nat :=
  match quantQuot a s with
  | some q => intFits 8 (rndInt m q)
  | none => none

def quantPs8Elem (a s : Nat) : Option Nat :=
  match quantQuot a s with
  | some q => ps8OfFrac q
  | none => none

/-- cvt.i32.f32 (R117). -/
def f32ToI32 (m : RMode) (c : Nat) : Nat :=
  match f32Val c with
  | .nan => 0
  | .inf n => if n then 0x80000000 else 0x7FFFFFFF
  | .fin x => (max (-2147483648) (min 2147483647 (rndInt m x)) % 4294967296).toNat

/-- The value of a PS8 code as FP32, exact (R143). -/
def f32OfPs8 (code : Nat) : Nat := rndBin 23 .rne (Frac.ofInt (ps8Value code) 64)

/-! ## BF16 groups (R128) -/

def bf16Exp (c : Nat) : Nat := c / 128 % 256
def bf16Finite (c : Nat) : Bool := bf16Exp c != 255

/-- The group exponent g (R128). -/
def bf16GroupExp (es : List Nat) : Nat := es.foldl (fun g c => if bf16Finite c then max g (bf16Exp c) else g) 1

/-- An element aligned to the group exponent (R128). -/
def bf16Align (g c : Nat) : Int :=
  if bf16Finite c then
    let e := bf16Exp c
    let m := if e = 0 then c % 128 else 128 + c % 128
    let v := m * 256 / 2 ^ (g - max e 1)
    if c.testBit 15 then -(v : Int) else v
  else 0

/-- The group holds a NaN or an infinity (R128). -/
def bf16NonFinite (es : List Nat) : Bool := es.any fun c => !bf16Finite c

end Sys2Proof.Machine
end

