-- ==== Sys2Proof/Decode.lean ====
section
/-! DEFINITION. Decoding, total on any word: slot words (R52-R57, R64-R68), whole bundles (R49, R50, R58-R61), walker words (R267-R269) and Oxell command
frames (R397-R402); then the encoder of the same tables. A word decodes to an instruction only if the instruction is well formed and encodes back to that very
word, so a nonzero unused field is always refused (R61 rule 4). -/

namespace Sys2Proof

/-! ## The fields of a slot (R52) -/

structure QF where
  op : BitVec 8
  gn : BitVec 1 := 0
  gq : BitVec 3 := 0
  xd : BitVec 5 := 0
  xa : BitVec 5 := 0
  xb : BitVec 5 := 0
  mod : BitVec 5 := 0
  imm : BitVec 32 := 0
  deriving DecidableEq, Repr

structure AF where
  op : BitVec 8
  gn : BitVec 1 := 0
  gp : BitVec 3 := 0
  d : BitVec 9 := 0
  sa : BitVec 9 := 0
  sb : BitVec 9 := 0
  sc : BitVec 9 := 0
  rm : BitVec 2 := 0
  mod : BitVec 14 := 0
  imm : BitVec 32 := 0
  deriving DecidableEq, Repr

structure MF where
  op : BitVec 7
  gn : BitVec 1 := 0
  gp : BitVec 3 := 0
  v : BitVec 9 := 0
  sadr : BitVec 4 := 0
  qw : BitVec 4 := 0
  mod : BitVec 4 := 0
  off : BitVec 16 := 0
  ext : BitVec 16 := 0
  deriving DecidableEq, Repr

structure TF where
  op : BitVec 6
  gn : BitVec 1 := 0
  gp : BitVec 3 := 0
  v : BitVec 9 := 0
  arow : BitVec 8 := 0
  acol : BitVec 9 := 0
  cnt : BitVec 8 := 0
  qw : BitVec 4 := 0
  mod : BitVec 16 := 0
  deriving DecidableEq, Repr

structure EF where
  op : BitVec 7
  gn : BitVec 1 := 0
  gq : BitVec 3 := 0
  xa : BitVec 5 := 0
  xb : BitVec 5 := 0
  na : BitVec 4 := 0
  nb : BitVec 4 := 0
  mod : BitVec 3 := 0
  imm : BitVec 32 := 0
  deriving DecidableEq, Repr

/-- The fields of a walker instruction (R267). -/
structure WF where
  op : BitVec 6
  d : BitVec 4 := 0
  a : BitVec 4 := 0
  b : BitVec 4 := 0
  f : BitVec 2 := 0
  imm : BitVec 12 := 0
  deriving DecidableEq, Repr

/-- The header of a bundle (R50). -/
structure HF where
  colsel : BitVec 16
  rowsrc : BitVec 5
  sstep : BitVec 1
  rinv : BitVec 1
  res : BitVec 9
  deriving DecidableEq, Repr

def QF.word (f : QF) : BitVec 64 := f.op ++ f.gn ++ f.gq ++ f.xd ++ f.xa ++ f.xb ++ f.mod ++ f.imm
def AF.word (f : AF) : BitVec 96 := f.op ++ f.gn ++ f.gp ++ f.d ++ f.sa ++ f.sb ++ f.sc ++ f.rm ++ f.mod ++ f.imm
def MF.word (f : MF) : BitVec 64 := f.op ++ f.gn ++ f.gp ++ f.v ++ f.sadr ++ f.qw ++ f.mod ++ f.off ++ f.ext
def TF.word (f : TF) : BitVec 64 := f.op ++ f.gn ++ f.gp ++ f.v ++ f.arow ++ f.acol ++ f.cnt ++ f.qw ++ f.mod
def EF.word (f : EF) : BitVec 64 := f.op ++ f.gn ++ f.gq ++ f.xa ++ f.xb ++ f.na ++ f.nb ++ f.mod ++ f.imm
def WF.word (f : WF) : BitVec 32 := f.op ++ f.d ++ f.a ++ f.b ++ f.f ++ f.imm
def HF.word (f : HF) : BitVec 32 := f.colsel ++ f.rowsrc ++ f.sstep ++ f.rinv ++ f.res

def qFields (w : BitVec 64) : QF :=
  { op := w.extractLsb' 56 8, gn := w.extractLsb' 55 1, gq := w.extractLsb' 52 3, xd := w.extractLsb' 47 5, xa := w.extractLsb' 42 5,
    xb := w.extractLsb' 37 5, mod := w.extractLsb' 32 5, imm := w.extractLsb' 0 32 }

def aFields (w : BitVec 96) : AF :=
  { op := w.extractLsb' 88 8, gn := w.extractLsb' 87 1, gp := w.extractLsb' 84 3, d := w.extractLsb' 75 9, sa := w.extractLsb' 66 9,
    sb := w.extractLsb' 57 9, sc := w.extractLsb' 48 9, rm := w.extractLsb' 46 2, mod := w.extractLsb' 32 14, imm := w.extractLsb' 0 32 }

def mFields (w : BitVec 64) : MF :=
  { op := w.extractLsb' 57 7, gn := w.extractLsb' 56 1, gp := w.extractLsb' 53 3, v := w.extractLsb' 44 9, sadr := w.extractLsb' 40 4,
    qw := w.extractLsb' 36 4, mod := w.extractLsb' 32 4, off := w.extractLsb' 16 16, ext := w.extractLsb' 0 16 }

def tFields (w : BitVec 64) : TF :=
  { op := w.extractLsb' 58 6, gn := w.extractLsb' 57 1, gp := w.extractLsb' 54 3, v := w.extractLsb' 45 9, arow := w.extractLsb' 37 8,
    acol := w.extractLsb' 28 9, cnt := w.extractLsb' 20 8, qw := w.extractLsb' 16 4, mod := w.extractLsb' 0 16 }

def eFields (w : BitVec 64) : EF :=
  { op := w.extractLsb' 57 7, gn := w.extractLsb' 56 1, gq := w.extractLsb' 53 3, xa := w.extractLsb' 48 5, xb := w.extractLsb' 43 5,
    na := w.extractLsb' 39 4, nb := w.extractLsb' 35 4, mod := w.extractLsb' 32 3, imm := w.extractLsb' 0 32 }

def wFields (w : BitVec 32) : WF :=
  { op := w.extractLsb' 26 6, d := w.extractLsb' 22 4, a := w.extractLsb' 18 4, b := w.extractLsb' 14 4, f := w.extractLsb' 12 2,
    imm := w.extractLsb' 0 12 }

def hFields (w : BitVec 32) : HF :=
  { colsel := w.extractLsb' 16 16, rowsrc := w.extractLsb' 11 5, sstep := w.extractLsb' 10 1, rinv := w.extractLsb' 9 1,
    res := w.extractLsb' 0 9 }

/-! ## Operand fields (R55-R57, R91) -/

def bit (b : Bool) : BitVec 1 := if b then 1 else 0

def Guard.ofBits (gn : BitVec 1) (g : BitVec 3) : Guard := { neg := gn == 1, reg := g }
def Guard.gn (g : Guard) : BitVec 1 := bit g.neg

/-- The 9-bit field of a source (R55): level, based flag, index. -/
def Src.bits : Src → BitVec 9
  | .v i => (0b000 : BitVec 3) ++ i
  | .based k n => (0b001 : BitVec 3) ++ k ++ n
  | .o i => (0b010000 : BitVec 6) ++ i
  | .la => 0x100
  | .lm => 0x101
  | .nbN => 0x102
  | .nbE => 0x103
  | .nbS => 0x104
  | .nbW => 0x105
  | .zero => 0x106
  | .small i => (0b110 : BitVec 3) ++ i
  | .long => 0x1C0

def Src.ofBits (b : BitVec 9) : Option Src :=
  let idx : BitVec 6 := b.extractLsb' 0 6
  match (b.extractLsb' 6 3).toNat with
  | 0 => some (.v idx)
  | 1 => some (.based (b.extractLsb' 4 2) (b.extractLsb' 0 4))
  | 2 => if idx.toNat < 8 then some (.o (b.extractLsb' 0 3)) else none
  | 4 =>
    match idx.toNat with
    | 0 => some .la
    | 1 => some .lm
    | 2 => some .nbN
    | 3 => some .nbE
    | 4 => some .nbS
    | 5 => some .nbW
    | 6 => some .zero
    | _ => none
  | 6 => some (.small idx)
  | 7 => if idx = 0 then some .long else none
  | _ => none

def Dst.bits : Dst → BitVec 9
  | .v i => (0b000 : BitVec 3) ++ i
  | .based k n => (0b001 : BitVec 3) ++ k ++ n
  | .o i => (0b010000 : BitVec 6) ++ i
  | .none => 0x100

def Dst.ofBits (b : BitVec 9) : Option Dst :=
  let idx : BitVec 6 := b.extractLsb' 0 6
  match (b.extractLsb' 6 3).toNat with
  | 0 => some (.v idx)
  | 1 => some (.based (b.extractLsb' 4 2) (b.extractLsb' 0 4))
  | 2 => if idx.toNat < 8 then some (.o (b.extractLsb' 0 3)) else none
  | 4 => if idx = 0 then some .none else none
  | _ => none

def SSrc.bits : SSrc → BitVec 9
  | .s i => (0b00000 : BitVec 5) ++ i
  | .small i => (0b110 : BitVec 3) ++ i
  | .long => 0x1C0

def SSrc.ofBits (b : BitVec 9) : Option SSrc :=
  let idx : BitVec 6 := b.extractLsb' 0 6
  match (b.extractLsb' 6 3).toNat with
  | 0 => if idx.toNat < 16 then some (.s (b.extractLsb' 0 4)) else none
  | 6 => some (.small idx)
  | 7 => if idx = 0 then some .long else none
  | _ => none

/-- The S form of a destination or first source (R91, R107). -/
def sForm (i : BitVec 4) : BitVec 9 := (0 : BitVec 5) ++ i

/-! ## The encoder: the fields of each instruction -/

def qRRR (op : BitVec 8) (o : QRRR) : QF := { op, gn := o.g.gn, gq := o.g.reg, xd := o.xd, xa := o.xa, xb := o.xb }
def qRRI (op : BitVec 8) (o : QRRI) : QF := { op, gn := o.g.gn, gq := o.g.reg, xd := o.xd, xa := o.xa, imm := o.imm }
def qShift (op : BitVec 8) (o : QShift) : QF :=
  match o.n with
  | .reg xb => { op, gn := o.g.gn, gq := o.g.reg, xd := o.xd, xa := o.xa, xb }
  | .imm n => { op, gn := o.g.gn, gq := o.g.reg, xd := o.xd, xa := o.xa, mod := 1, imm := n.setWidth 32 }
def qG (op : BitVec 8) (g : Guard) : QF := { op, gn := g.gn, gq := g.reg }
def qCmpImm (simm : BitVec 15) (c : QCmpF) : BitVec 32 := simm ++ bit c.qn ++ c.qg ++ c.cond ++ c.ctype ++ c.p2 ++ c.p1

/-- The Q-slot fields of an instruction (R64, R79-R89, R379). -/
def encQ : Instr → Option QF
  | .br g t => some { qG 0x01 g with imm := t.setWidth 32 }
  | .brX g xa => some { qG 0x02 g with xa }
  | .call g t => some { qG 0x03 g with imm := t.setWidth 32 }
  | .callX g xa => some { qG 0x04 g with xa }
  | .ret g => some (qG 0x05 g)
  | .loop g k t => some { qG 0x06 g with mod := (0 : BitVec 2) ++ k, imm := t.setWidth 32 }
  | .lbrk g k t => some { qG 0x07 g with mod := (0 : BitVec 2) ++ k, imm := t.setWidth 32 }
  | .lidx g xd k f => some { qG 0x08 g with xd, mod := f ++ k }
  | .lidxSet g k xa xb => some { qG 0x08 g with xa, xb, mod := (0 : BitVec 2) ++ k, imm := 1 }
  | .yield g => some (qG 0x09 g)
  | .taskEnd g => some (qG 0x0A g)
  | .trap g n => some { qG 0x0B g with imm := n.setWidth 32 }
  | .brk g => some (qG 0x0C g)
  | .mark g n => some { qG 0x0D g with imm := n.setWidth 32 }
  | .qAdd o => some (qRRR 0x10 o)
  | .qAddi o => some (qRRI 0x11 o)
  | .qSub o => some (qRRR 0x12 o)
  | .qMul o => some (qRRR 0x13 o)
  | .qMulh o => some (qRRR 0x14 o)
  | .qMulhu o => some (qRRR 0x15 o)
  | .qAnd o => some (qRRR 0x16 o)
  | .qAndi o => some (qRRI 0x17 o)
  | .qOr o => some (qRRR 0x18 o)
  | .qOri o => some (qRRI 0x19 o)
  | .qXor o => some (qRRR 0x1A o)
  | .qXori o => some (qRRI 0x1B o)
  | .qShl o => some (qShift 0x1C o)
  | .qShr o => some (qShift 0x1D o)
  | .qSra o => some (qShift 0x1E o)
  | .qMin o => some (qRRR 0x1F o)
  | .qMax o => some (qRRR 0x20 o)
  | .qMinu o => some (qRRR 0x21 o)
  | .qMaxu o => some (qRRR 0x22 o)
  | .qMov g xd xa => some { qG 0x23 g with xd, xa }
  | .qLi g xd imm => some { qG 0x24 g with xd, imm }
  | .qLih g xd imm => some { qG 0x25 g with xd, imm }
  | .qSel o n k => some { qRRR 0x26 o with mod := (0 : BitVec 1) ++ bit n ++ k }
  | .qCmp c xa xb => some { op := 0x28, xa, xb, imm := qCmpImm 0 c }
  | .qCmpi c xa simm => some { op := 0x29, xa, imm := qCmpImm simm c }
  | .ldparam g xd k => some { qG 0x30 g with xd, imm := k.setWidth 32 }
  | .ldtask g xd f => some { qG 0x31 g with xd, imm := f.setWidth 32 }
  | .flagRd g xd mode k d => some { qG 0x34 g with xd, mod := (0 : BitVec 3) ++ mode, imm := (0 : BitVec 23) ++ k ++ d }
  | .wset g wk imm => some { qG 0x38 g with xd := (0 : BitVec 1) ++ wk, imm }
  | .wmov g wk xa => some { qG 0x39 g with xd := (0 : BitVec 1) ++ wk, xa }
  | .wrd g xd wk => some { qG 0x3A g with xd, xa := (0 : BitVec 1) ++ wk }
  | .tickRd g xd => some { qG 0x3C g with xd }
  | .gtickRd g xd => some { qG 0x3D g with xd }
  | .ctimeRd g xd => some { qG 0x3E g with xd }
  | .pwrAcq g level lease => some { qG 0x40 g with imm := (0 : BitVec 4) ++ lease ++ (0 : BitVec 9) ++ level }
  | .pwrRel g => some (qG 0x41 g)
  | .pwrRelRd g xd => some { qG 0x41 g with xd, mod := 1 }
  | .fenceDom g => some (qG 0x44 g)
  | .fencePkg g => some (qG 0x45 g)
  | .fenceSys g => some (qG 0x46 g)
  | .waitB g xa => some { qG 0x47 g with xa }
  | .sysRd g xd num => some { qG 0x4C g with xd, imm := num.setWidth 32 }
  | .sysWr g num xa => some { qG 0x4D g with xa, imm := num.setWidth 32 }
  | _ => none

def aG (op : BitVec 8) (g : Guard) : AF := { op, gn := g.gn, gp := g.reg }
def aUn (op : BitVec 8) (o : AUn) : AF := { aG op o.g with d := o.d.bits, sa := o.a.bits, imm := o.imm }
def aBin (op : BitVec 8) (o : ABin) : AF := { aG op o.g with d := o.d.bits, sa := o.a.bits, sb := o.b.bits, imm := o.imm }
def aTern (op : BitVec 8) (o : ATern) : AF :=
  { aG op o.g with d := o.d.bits, sa := o.a.bits, sb := o.b.bits, sc := o.c.bits, imm := o.imm }
def aTy (t : BitVec 3) : BitVec 14 := (0 : BitVec 11) ++ t
def sBin (op : BitVec 8) (o : SBin) : AF :=
  { aG op o.g with d := sForm o.d, sa := sForm o.a, sb := o.b.bits, imm := o.imm }
def aCmpD (c : ACmpF) : BitVec 9 := (0 : BitVec 3) ++ c.p2 ++ c.p1
def aCmpC (c : ACmpF) : BitVec 9 := (0 : BitVec 5) ++ bit c.qn ++ c.qg
def aCmpM (t : BitVec 3) (c : ACmpF) : BitVec 14 := (0 : BitVec 2) ++ c.red ++ c.ctype ++ c.cond ++ t
/-- MOD of a conversion (R142): QW, PART, TYPE. -/
def cvtM (qw : BitVec 4) (p : BitVec 2) (t : BitVec 3) : BitVec 14 := (0 : BitVec 5) ++ qw ++ p ++ t
def aNarrow (op : BitVec 8) (o : ANarrow) : AF :=
  { aG op o.g with d := o.d.bits, sa := o.a.bits, sc := o.base.bits, mod := cvtM o.qw o.part 0, imm := o.imm }
def aQuant (op : BitVec 8) (o : AQuant) : AF :=
  { aG op o.g with d := o.d.bits, sa := o.a.bits, sb := o.s.bits, sc := o.base.bits, mod := cvtM o.qw o.part 0, imm := o.imm }

/-- The A-slot fields of an instruction (R65, R101-R111, R131-R145). -/
def encA : Instr → Option AF
  | .aAdd t o => some { aBin 0x01 o with mod := aTy t }
  | .aSub t o => some { aBin 0x02 o with mod := aTy t }
  | .adds t o => some { aBin 0x03 o with mod := aTy t }
  | .subs t o => some { aBin 0x04 o with mod := aTy t }
  | .aMul t o => some { aBin 0x05 o with mod := aTy t }
  | .aMulh t o => some { aBin 0x06 o with mod := aTy t }
  | .mad t o => some { aTern 0x07 o with mod := aTy t }
  | .abs t o => some { aUn 0x08 o with mod := aTy t }
  | .neg t o => some { aUn 0x09 o with mod := aTy t }
  | .aMin t o => some { aBin 0x0A o with mod := aTy t }
  | .aMax t o => some { aBin 0x0B o with mod := aTy t }
  | .aAnd o => some (aBin 0x10 o)
  | .aOr o => some (aBin 0x11 o)
  | .aXor o => some (aBin 0x12 o)
  | .andn o => some (aBin 0x13 o)
  | .not o => some (aUn 0x14 o)
  | .aShl t o => some { aBin 0x15 o with mod := aTy t }
  | .aShr t o => some { aBin 0x16 o with mod := aTy t }
  | .aSra t o => some { aBin 0x17 o with mod := aTy t }
  | .aCmp t c a b imm => some { op := 0x20, d := aCmpD c, sa := a.bits, sb := b.bits, sc := aCmpC c, mod := aCmpM t c, imm }
  | .aSel t o => some { aTern 0x21 o with mod := aTy t }
  | .aMov o => some (aUn 0x22 o)
  | .sadd o => some (sBin 0x28 o)
  | .ssub o => some (sBin 0x29 o)
  | .smul o => some (sBin 0x2A o)
  | .sand o => some (sBin 0x2B o)
  | .sor o => some (sBin 0x2C o)
  | .sxor o => some (sBin 0x2D o)
  | .sshl o => some (sBin 0x2E o)
  | .sshr ar o => some { sBin 0x2F o with mod := (0 : BitVec 13) ++ bit ar }
  | .sli g d v imm => some { aG 0x30 g with d := sForm d, sa := v.bits, imm }
  | .sget g d lane a imm => some { aG 0x31 g with d := sForm d, sa := a.bits, mod := (0 : BitVec 8) ++ lane ++ (0 : BitVec 3), imm }
  | .scmp c a b imm => some { op := 0x32, d := aCmpD c, sa := sForm a, sb := b.bits, sc := aCmpC c, mod := aCmpM 0 c, imm }
  | .perm g d a sel => some { aG 0x38 g with d := d.bits, sa := a.bits, imm := sel.setWidth 32 }
  | .permv o => some (aBin 0x39 o)
  | .bcast t k o => some { aUn 0x3A o with mod := (0 : BitVec 6) ++ k ++ t }
  | .bcasts t g d b imm => some { aG 0x3B g with d := d.bits, sa := b.bits, mod := aTy t, imm }
  | .red op t o => some { aUn 0x40 o with mod := (0 : BitVec 8) ++ op ++ t }
  | .scan op ex t o => some { aUn 0x41 o with mod := (0 : BitVec 7) ++ bit ex ++ op ++ t }
  | .popc t o => some { aUn 0x44 o with mod := aTy t }
  | .clz t o => some { aUn 0x45 o with mod := aTy t }
  | .bset g k b imm => some { aG 0x46 g with sa := b.bits, mod := (0 : BitVec 9) ++ k ++ (0 : BitVec 3), imm }
  | .fadd rm o => some { aBin 0x60 o with rm }
  | .fsub rm o => some { aBin 0x61 o with rm }
  | .fmul rm o => some { aBin 0x62 o with rm }
  | .fma rm o => some { aTern 0x63 o with rm }
  | .fms rm o => some { aTern 0x64 o with rm }
  | .fnma rm o => some { aTern 0x65 o with rm }
  | .fnms rm o => some { aTern 0x66 o with rm }
  | .fmin o => some (aBin 0x67 o)
  | .fmax o => some (aBin 0x68 o)
  | .fabs o => some (aUn 0x69 o)
  | .fneg o => some (aUn 0x6A o)
  | .fcmp c a b imm => some { op := 0x6B, d := aCmpD c, sa := a.bits, sb := b.bits, sc := aCmpC c, mod := aCmpM 0 c, imm }
  | .fclass o => some (aUn 0x6C o)
  | .frnd rm o => some { aUn 0x6D o with rm }
  | .fexp2f o => some (aUn 0x6E o)
  | .fexpins rm o => some { aBin 0x6F o with rm }
  | .fgetexp o => some (aUn 0x70 o)
  | .frcp rm o => some { aUn 0x71 o with rm }
  | .frsq rm o => some { aUn 0x72 o with rm }
  | .cvtF32Bf16 p o => some { aUn 0x78 o with mod := cvtM 0 p 0 }
  | .cvtBf16F32 rm o => some { aNarrow 0x79 o with rm }
  | .cvtF32I rm t p o => some { aUn 0x7A o with rm, mod := cvtM 0 p t }
  | .cvtI32F32 rm o => some { aUn 0x7B o with rm }
  | .cvtI8F32 rm o => some { aNarrow 0x7C o with rm }
  | .cvtI16F32 rm o => some { aNarrow 0x7D o with rm }
  | .cvtPs8F32 o => some (aNarrow 0x7E o)
  | .cvtF32Ps8 p o => some { aUn 0x7F o with mod := cvtM 0 p 0 }
  | .cvtI8I32 o => some (aNarrow 0x80 o)
  | .cvtI16I32 o => some (aNarrow 0x81 o)
  | .cvtI32I t p o => some { aUn 0x82 o with mod := cvtM 0 p t }
  | .quantI8 rm o => some { aQuant 0x83 o with rm }
  | .quantPs8 o => some (aQuant 0x84 o)
  | _ => none

def mG (op : BitVec 7) (g : Guard) : MF := { op, gn := g.gn, gp := g.reg }
def mLoad (op : BitVec 7) (o : MLoad) : MF := { mG op o.g with v := o.d.bits, sadr := o.sadr, off := o.off }
def mStore (op : BitVec 7) (o : MStore) : MF := { mG op o.g with v := o.v.bits, sadr := o.sadr, off := o.off }

/-- The M-slot fields of an instruction (R66, R152). -/
def encM : Instr → Option MF
  | .ld o => some (mLoad 0x01 o)
  | .ldW o => some { mLoad 0x01 o with mod := 1 }
  | .st o => some (mStore 0x02 o)
  | .stW o => some { mStore 0x02 o with mod := 1 }
  | .ldB o => some (mLoad 0x03 o)
  | .ldq g d k => some { mG 0x04 g with v := d.bits, qw := k }
  | .stq g k v => some { mG 0x05 g with v := v.bits, qw := k }
  | .qpeek g d k j => some { mG 0x06 g with v := d.bits, qw := k, off := (0 : BitVec 4) ++ j }
  | .qpeekN g d k => some { mG 0x06 g with v := d.bits, qw := k, mod := 1 }
  | .cw g v => some { mG 0x07 g with v := v.bits }
  | .vpush g v => some { mG 0x08 g with v := v.bits }
  | .vpop g d => some { mG 0x09 g with v := d.bits }
  | .vfree g d => some { mG 0x0A g with v := d.bits }
  | .vfreeIn g d => some { mG 0x0A g with v := d.bits, mod := 1 }
  | _ => none

def tG (op : BitVec 6) (g : Guard) : TF := { op, gn := g.gn, gp := g.reg }
def tPass (op : BitVec 6) (o : TPass) : TF :=
  { tG op o.g with arow := o.arow, acol := o.acol, cnt := o.cnt, qw := o.qw, mod := (0 : BitVec 14) ++ bit o.fwd ++ bit o.walk }

/-- The T-slot fields of an instruction (R67, R169, R170, R173, R179, R184, R213). -/
def encT : Instr → Option TF
  | .ldw g form v off => some { tG 0x01 g with v := v.bits, cnt := (0 : BitVec 6) ++ form, mod := off }
  | .flip g => some (tG 0x02 g)
  | .mmPs8 o => some (tPass 0x08 o)
  | .mmI8 o => some (tPass 0x09 o)
  | .mmBf16 o => some (tPass 0x0A o)
  | .mmChain g mode arow acol cnt => some { tG 0x0C g with arow, acol, cnt, mod := (0 : BitVec 14) ++ mode }
  | .mmd arow cnt qw name => some { op := 0x0B, arow, cnt, qw, mod := name }
  | .accZero g arow x => some { tG 0x10 g with arow, mod := (0 : BitVec 6) ++ x }
  | .accRd g d arow acol => some { tG 0x11 g with v := d.bits, arow, acol }
  | .accRdSt g d arow => some { tG 0x11 g with v := d.bits, arow, mod := 1 }
  | .accWr g v arow acol x => some { tG 0x12 g with v := v.bits, arow, acol, mod := (0 : BitVec 6) ++ x }
  | .accCp g drow arow => some { tG 0x13 g with arow, mod := (0 : BitVec 8) ++ drow }
  | .accCvt g rm toI32 v arow acol => some { tG 0x14 g with v := v.bits, arow, acol, mod := (0 : BitVec 13) ++ bit toI32 ++ rm }
  | .accScl g drow arow acol v => some { tG 0x15 g with v := v.bits, arow, acol, mod := (0 : BitVec 8) ++ drow }
  | _ => none

def eG (op : BitVec 7) (g : Guard) : EF := { op, gn := g.gn, gq := g.reg }
def strm (j : BitVec 3) : BitVec 4 := (0 : BitVec 1) ++ j
def eAtom (m : BitVec 3) (o : EAtom) : EF :=
  { eG 0x14 o.g with xa := o.xa, xb := o.xb, na := o.k, mod := m,
                     imm := o.boff ++ (0 : BitVec 2) ++ bit o.bo ++ bit o.fetch ++ bit o.dword }

/-- The E-slot fields of an instruction (R68, R75, R202, R212, R230, R255, R261, R262, R327, R391, R394, R395). -/
def encE : Instr → Option EF
  | .lrow g k xa xb => some { eG 0x01 g with xa, xb, na := k }
  | .srow g k xa xb => some { eG 0x02 g with xa, xb, na := k }
  | .copy g k n1 => some { eG 0x08 g with na := k, imm := n1.setWidth 32 }
  | .mpRun g xa rq nrd wq nwr => some { eG 0x09 g with xa, na := rq, nb := wq, imm := (0 : BitVec 6) ++ nwr ++ nrd }
  | .gather g j n1 => some { eG 0x10 g with na := strm j, imm := n1.setWidth 32 }
  | .scatter g j n1 => some { eG 0x11 g with na := strm j, imm := n1.setWidth 32 }
  | .strmSet g j xa => some { eG 0x12 g with xa, na := strm j }
  | .probe g j xa xb n1 => some { eG 0x13 g with xa, xb, na := strm j, imm := n1.setWidth 32 }
  | .atomAdd o => some (eAtom 0 o)
  | .atomMin o => some (eAtom 1 o)
  | .atomMax o => some (eAtom 2 o)
  | .atomAnd o => some (eAtom 3 o)
  | .atomOr o => some (eAtom 4 o)
  | .atomXor o => some (eAtom 5 o)
  | .atomSwap o => some (eAtom 6 o)
  | .atomCas o => some (eAtom 7 o)
  | .qwSet g k xa xb => some { eG 0x18 g with xa, xb, na := k }
  | .qwRd g k xa xb => some { eG 0x19 g with xa, xb, na := k }
  | .boInit g unit xa xb => some { eG 0x1C g with xa, xb, mod := (0 : BitVec 2) ++ bit unit }
  | .boRd g xa xb => some { eG 0x1D g with xa, xb }
  | .taskPost g xa => some { eG 0x20 g with xa }
  | .msgSend g k n1 => some { eG 0x24 g with na := k, imm := n1.setWidth 32 }
  | .msgQuiet g b => some { eG 0x25 g with mod := (0 : BitVec 1) ++ b }
  | .xchGo g k xa n => some { eG 0x28 g with xa, na := k, imm := n.setWidth 32 }
  | .tierPf g k n1 => some { eG 0x2C g with na := k, imm := n1.setWidth 32 }
  | .knBind g xa name => some { eG 0x30 g with xa, imm := name.setWidth 32 }
  | .knInv g name => some { eG 0x31 g with imm := name.setWidth 32 }
  | .knInvAll g => some { eG 0x31 g with imm := 0x10000 }
  | .knStat g xa name => some { eG 0x32 g with xa, imm := name.setWidth 32 }
  | .dictLoad g xa n => some { eG 0x34 g with xa, imm := n.setWidth 32 }
  | .walkStart g xa => some { eG 0x38 g with xa }
  | .walkStop g xa => some { eG 0x39 g with xa }
  | .walkStopW g xa => some { eG 0x39 g with xa, mod := 1 }
  | .ctrRd g xa sel up => some { eG 0x3C g with xa, imm := (0 : BitVec 23) ++ bit up ++ sel }
  | _ => none

/-- The walker fields of an instruction (R268, R270-R278). -/
def encW : Instr → Option WF
  | .wNop => some { op := 0x00 }
  | .wLi d i => some { op := 0x01, d, b := i.extractLsb' 14 4, f := i.extractLsb' 12 2, imm := i.extractLsb' 0 12 }
  | .wLih d i => some { op := 0x02, d, f := i.extractLsb' 12 2, imm := i.extractLsb' 0 12 }
  | .wAdd d a b => some { op := 0x03, d, a, b }
  | .wAddi d a i => some { op := 0x04, d, a, imm := i }
  | .wSub d a b => some { op := 0x05, d, a, b }
  | .wAnd d a b => some { op := 0x06, d, a, b }
  | .wShl d a n => some { op := 0x07, d, a, imm := n.setWidth 12 }
  | .wShr d a n => some { op := 0x07, d, a, f := 1, imm := n.setWidth 12 }
  | .wBCond c a b t => some { op := 0x0C, d := (0 : BitVec 2) ++ c, a, b, imm := t.setWidth 12 }
  | .wB t => some { op := 0x0C, d := 4, imm := t.setWidth 12 }
  | .wDloop a t => some { op := 0x0D, a, imm := t.setWidth 12 }
  | .wLdW d a i => some { op := 0x10, d, a, imm := i }
  | .wLdH d a i => some { op := 0x11, d, a, imm := i }
  | .wQpop d k => some { op := 0x12, d, b := k }
  | .wPf a i => some { op := 0x13, a, imm := i }
  | .wCwinA a b l i => some { op := 0x14, a, b, f := (0 : BitVec 1) ++ l, imm := i }
  | .wCwinB a b l i => some { op := 0x15, a, b, f := (0 : BitVec 1) ++ l, imm := i }
  | .wIsect d => some { op := 0x18, d }
  | .wUnion d => some { op := 0x19, d }
  | .wMerge d => some { op := 0x1A, d }
  | .wNzc d a f i => some { op := 0x1B, d, a, b := f, imm := i }
  | .wBexp s a b z i => some { op := 0x1C, d := s, a, b, f := z, imm := i }
  | .wTopk d a b m i => some { op := 0x1D, d, a, b, f := (0 : BitVec 1) ++ m, imm := i }
  | .wEmit a b i => some { op := 0x20, a, b, imm := i }
  | .wEmitS b c => some { op := 0x21, b, f := (0 : BitVec 1) ++ c }
  | .wEmitz a => some { op := 0x22, a }
  | .wRds d sel => some { op := 0x23, d, imm := sel.setWidth 12 }
  | .wQpush k => some { op := 0x24, b := k }
  | .wWend => some { op := 0x3F }
  | _ => none

/-! ## The decoder: the instruction a word's fields name -/

/-- The Q instruction that opcode and fields name, before the check of unused fields (R64). -/
def candQ (f : QF) : Option Instr :=
  let g := Guard.ofBits f.gn f.gq
  let rrr : QRRR := { g, xd := f.xd, xa := f.xa, xb := f.xb }
  let rri : QRRI := { g, xd := f.xd, xa := f.xa, imm := f.imm }
  let sh : QShift := { g, xd := f.xd, xa := f.xa, n := if f.mod = 0 then .reg f.xb else .imm (f.imm.extractLsb' 0 6) }
  let t : BitVec 16 := f.imm.extractLsb' 0 16
  let k : BitVec 3 := f.mod.extractLsb' 0 3
  let n8 : BitVec 8 := f.imm.extractLsb' 0 8
  let c : QCmpF := { qn := f.imm.getLsbD 16, qg := f.imm.extractLsb' 13 3, cond := f.imm.extractLsb' 9 4,
                     ctype := f.imm.extractLsb' 6 3, p2 := f.imm.extractLsb' 3 3, p1 := f.imm.extractLsb' 0 3 }
  match f.op.toNat with
  | 0x01 => some (.br g t)
  | 0x02 => some (.brX g f.xa)
  | 0x03 => some (.call g t)
  | 0x04 => some (.callX g f.xa)
  | 0x05 => some (.ret g)
  | 0x06 => some (.loop g k t)
  | 0x07 => some (.lbrk g k t)
  | 0x08 => if f.imm.getLsbD 0 then some (.lidxSet g k f.xa f.xb) else some (.lidx g f.xd k (f.mod.extractLsb' 3 2))
  | 0x09 => some (.yield g)
  | 0x0A => some (.taskEnd g)
  | 0x0B => some (.trap g n8)
  | 0x0C => some (.brk g)
  | 0x0D => some (.mark g n8)
  | 0x10 => some (.qAdd rrr)
  | 0x11 => some (.qAddi rri)
  | 0x12 => some (.qSub rrr)
  | 0x13 => some (.qMul rrr)
  | 0x14 => some (.qMulh rrr)
  | 0x15 => some (.qMulhu rrr)
  | 0x16 => some (.qAnd rrr)
  | 0x17 => some (.qAndi rri)
  | 0x18 => some (.qOr rrr)
  | 0x19 => some (.qOri rri)
  | 0x1A => some (.qXor rrr)
  | 0x1B => some (.qXori rri)
  | 0x1C => some (.qShl sh)
  | 0x1D => some (.qShr sh)
  | 0x1E => some (.qSra sh)
  | 0x1F => some (.qMin rrr)
  | 0x20 => some (.qMax rrr)
  | 0x21 => some (.qMinu rrr)
  | 0x22 => some (.qMaxu rrr)
  | 0x23 => some (.qMov g f.xd f.xa)
  | 0x24 => some (.qLi g f.xd f.imm)
  | 0x25 => some (.qLih g f.xd f.imm)
  | 0x26 => some (.qSel rrr (f.mod.getLsbD 3) k)
  | 0x28 => some (.qCmp c f.xa f.xb)
  | 0x29 => some (.qCmpi c f.xa (f.imm.extractLsb' 17 15))
  | 0x30 => some (.ldparam g f.xd (f.imm.extractLsb' 0 4))
  | 0x31 => some (.ldtask g f.xd (f.imm.extractLsb' 0 4))
  | 0x34 => some (.flagRd g f.xd (f.mod.extractLsb' 0 2) (f.imm.extractLsb' 6 3) (f.imm.extractLsb' 0 6))
  | 0x38 => some (.wset g (f.xd.extractLsb' 0 4) f.imm)
  | 0x39 => some (.wmov g (f.xd.extractLsb' 0 4) f.xa)
  | 0x3A => some (.wrd g f.xd (f.xa.extractLsb' 0 4))
  | 0x3C => some (.tickRd g f.xd)
  | 0x3D => some (.gtickRd g f.xd)
  | 0x3E => some (.ctimeRd g f.xd)
  | 0x40 => some (.pwrAcq g (f.imm.extractLsb' 0 7) (f.imm.extractLsb' 16 12))
  | 0x41 => if f.mod = 0 then some (.pwrRel g) else some (.pwrRelRd g f.xd)
  | 0x44 => some (.fenceDom g)
  | 0x45 => some (.fencePkg g)
  | 0x46 => some (.fenceSys g)
  | 0x47 => some (.waitB g f.xa)
  | 0x4C => some (.sysRd g f.xd (f.imm.extractLsb' 0 12))
  | 0x4D => some (.sysWr g (f.imm.extractLsb' 0 12) f.xa)
  | _ => none

/-- The A instruction that opcode and fields name (R65). -/
def candA (f : AF) : Option Instr :=
  let g := Guard.ofBits f.gn f.gp
  let t : BitVec 3 := f.mod.extractLsb' 0 3
  let p : BitVec 2 := f.mod.extractLsb' 3 2
  let un : Option AUn := do
    let d ← Dst.ofBits f.d
    let a ← Src.ofBits f.sa
    some { g, d, a, imm := f.imm }
  let bin : Option ABin := do
    let d ← Dst.ofBits f.d
    let a ← Src.ofBits f.sa
    let b ← Src.ofBits f.sb
    some { g, d, a, b, imm := f.imm }
  let tern : Option ATern := do
    let d ← Dst.ofBits f.d
    let a ← Src.ofBits f.sa
    let b ← Src.ofBits f.sb
    let c ← Src.ofBits f.sc
    some { g, d, a, b, c, imm := f.imm }
  let sb : Option SBin := do
    let b ← SSrc.ofBits f.sb
    some { g, d := f.d.extractLsb' 0 4, a := f.sa.extractLsb' 0 4, b, imm := f.imm }
  let cmp : ACmpF := { qn := f.sc.getLsbD 3, qg := f.sc.extractLsb' 0 3, cond := f.mod.extractLsb' 3 4, ctype := f.mod.extractLsb' 7 3,
                       red := f.mod.extractLsb' 10 2, p2 := f.d.extractLsb' 3 3, p1 := f.d.extractLsb' 0 3 }
  let nar : Option ANarrow := do
    let d ← Dst.ofBits f.d
    let a ← Src.ofBits f.sa
    let base ← SSrc.ofBits f.sc
    some { g, part := p, qw := f.mod.extractLsb' 5 4, d, a, base, imm := f.imm }
  let qnt : Option AQuant := do
    let d ← Dst.ofBits f.d
    let a ← Src.ofBits f.sa
    let s ← Src.ofBits f.sb
    let base ← SSrc.ofBits f.sc
    some { g, part := p, qw := f.mod.extractLsb' 5 4, d, a, s, base, imm := f.imm }
  match f.op.toNat with
  | 0x01 => bin.map (.aAdd t)
  | 0x02 => bin.map (.aSub t)
  | 0x03 => bin.map (.adds t)
  | 0x04 => bin.map (.subs t)
  | 0x05 => bin.map (.aMul t)
  | 0x06 => bin.map (.aMulh t)
  | 0x07 => tern.map (.mad t)
  | 0x08 => un.map (.abs t)
  | 0x09 => un.map (.neg t)
  | 0x0A => bin.map (.aMin t)
  | 0x0B => bin.map (.aMax t)
  | 0x10 => bin.map .aAnd
  | 0x11 => bin.map .aOr
  | 0x12 => bin.map .aXor
  | 0x13 => bin.map .andn
  | 0x14 => un.map .not
  | 0x15 => bin.map (.aShl t)
  | 0x16 => bin.map (.aShr t)
  | 0x17 => bin.map (.aSra t)
  | 0x20 => do
    let a ← Src.ofBits f.sa
    let b ← Src.ofBits f.sb
    some (.aCmp t cmp a b f.imm)
  | 0x21 => tern.map (.aSel t)
  | 0x22 => un.map .aMov
  | 0x28 => sb.map .sadd
  | 0x29 => sb.map .ssub
  | 0x2A => sb.map .smul
  | 0x2B => sb.map .sand
  | 0x2C => sb.map .sor
  | 0x2D => sb.map .sxor
  | 0x2E => sb.map .sshl
  | 0x2F => sb.map (.sshr (f.mod.getLsbD 0))
  | 0x30 => do
    let v ← SSrc.ofBits f.sa
    some (.sli g (f.d.extractLsb' 0 4) v f.imm)
  | 0x31 => do
    let a ← Src.ofBits f.sa
    some (.sget g (f.d.extractLsb' 0 4) (f.mod.extractLsb' 3 3) a f.imm)
  | 0x32 => do
    let b ← SSrc.ofBits f.sb
    some (.scmp cmp (f.sa.extractLsb' 0 4) b f.imm)
  | 0x38 => do
    let d ← Dst.ofBits f.d
    let a ← Src.ofBits f.sa
    some (.perm g d a (f.imm.extractLsb' 0 24))
  | 0x39 => bin.map .permv
  | 0x3A => un.map (.bcast t (f.mod.extractLsb' 3 5))
  | 0x3B => do
    let d ← Dst.ofBits f.d
    let b ← SSrc.ofBits f.sa
    some (.bcasts t g d b f.imm)
  | 0x40 => un.map (.red (f.mod.extractLsb' 3 3) t)
  | 0x41 => un.map (.scan (f.mod.extractLsb' 3 3) (f.mod.getLsbD 6) t)
  | 0x44 => un.map (.popc t)
  | 0x45 => un.map (.clz t)
  | 0x46 => do
    let b ← SSrc.ofBits f.sa
    some (.bset g p b f.imm)
  | 0x60 => bin.map (.fadd f.rm)
  | 0x61 => bin.map (.fsub f.rm)
  | 0x62 => bin.map (.fmul f.rm)
  | 0x63 => tern.map (.fma f.rm)
  | 0x64 => tern.map (.fms f.rm)
  | 0x65 => tern.map (.fnma f.rm)
  | 0x66 => tern.map (.fnms f.rm)
  | 0x67 => bin.map .fmin
  | 0x68 => bin.map .fmax
  | 0x69 => un.map .fabs
  | 0x6A => un.map .fneg
  | 0x6B => do
    let a ← Src.ofBits f.sa
    let b ← Src.ofBits f.sb
    some (.fcmp cmp a b f.imm)
  | 0x6C => un.map .fclass
  | 0x6D => un.map (.frnd f.rm)
  | 0x6E => un.map .fexp2f
  | 0x6F => bin.map (.fexpins f.rm)
  | 0x70 => un.map .fgetexp
  | 0x71 => un.map (.frcp f.rm)
  | 0x72 => un.map (.frsq f.rm)
  | 0x78 => un.map (.cvtF32Bf16 p)
  | 0x79 => nar.map (.cvtBf16F32 f.rm)
  | 0x7A => un.map (.cvtF32I f.rm t p)
  | 0x7B => un.map (.cvtI32F32 f.rm)
  | 0x7C => nar.map (.cvtI8F32 f.rm)
  | 0x7D => nar.map (.cvtI16F32 f.rm)
  | 0x7E => nar.map .cvtPs8F32
  | 0x7F => un.map (.cvtF32Ps8 p)
  | 0x80 => nar.map .cvtI8I32
  | 0x81 => nar.map .cvtI16I32
  | 0x82 => un.map (.cvtI32I t p)
  | 0x83 => qnt.map (.quantI8 f.rm)
  | 0x84 => qnt.map .quantPs8
  | _ => none

/-- The M instruction that opcode and fields name (R66). -/
def candM (f : MF) : Option Instr :=
  let g := Guard.ofBits f.gn f.gp
  let ld : Option MLoad := (Dst.ofBits f.v).map fun d => { g, d, sadr := f.sadr, off := f.off }
  let st : Option MStore := (Src.ofBits f.v).map fun v => { g, v, sadr := f.sadr, off := f.off }
  let d := Dst.ofBits f.v
  let v := Src.ofBits f.v
  let m1 := f.mod.getLsbD 0
  match f.op.toNat with
  | 0x01 => if m1 then ld.map .ldW else ld.map .ld
  | 0x02 => if m1 then st.map .stW else st.map .st
  | 0x03 => ld.map .ldB
  | 0x04 => d.map fun d => .ldq g d f.qw
  | 0x05 => v.map fun v => .stq g f.qw v
  | 0x06 => if m1 then d.map (fun d => .qpeekN g d f.qw) else d.map (fun d => .qpeek g d f.qw (f.off.extractLsb' 0 12))
  | 0x07 => v.map fun v => .cw g v
  | 0x08 => v.map fun v => .vpush g v
  | 0x09 => d.map fun d => .vpop g d
  | 0x0A => if m1 then d.map (fun d => .vfreeIn g d) else d.map (fun d => .vfree g d)
  | _ => none

/-- The T instruction that opcode and fields name (R67). -/
def candT (f : TF) : Option Instr :=
  let g := Guard.ofBits f.gn f.gp
  let v := Src.ofBits f.v
  let d := Dst.ofBits f.v
  let x : BitVec 10 := f.mod.extractLsb' 0 10
  let drow : BitVec 8 := f.mod.extractLsb' 0 8
  let pass : TPass := { g, arow := f.arow, acol := f.acol, cnt := f.cnt, qw := f.qw, walk := f.mod.getLsbD 0, fwd := f.mod.getLsbD 1 }
  match f.op.toNat with
  | 0x01 => v.map fun v => .ldw g (f.cnt.extractLsb' 0 2) v f.mod
  | 0x02 => some (.flip g)
  | 0x08 => some (.mmPs8 pass)
  | 0x09 => some (.mmI8 pass)
  | 0x0A => some (.mmBf16 pass)
  | 0x0B => some (.mmd f.arow f.cnt f.qw f.mod)
  | 0x0C => some (.mmChain g (f.mod.extractLsb' 0 2) f.arow f.acol f.cnt)
  | 0x10 => some (.accZero g f.arow x)
  | 0x11 => if f.mod.getLsbD 0 then d.map (fun d => .accRdSt g d f.arow) else d.map (fun d => .accRd g d f.arow f.acol)
  | 0x12 => v.map fun v => .accWr g v f.arow f.acol x
  | 0x13 => some (.accCp g drow f.arow)
  | 0x14 => v.map fun v => .accCvt g (f.mod.extractLsb' 0 2) (f.mod.getLsbD 2) v f.arow f.acol
  | 0x15 => v.map fun v => .accScl g drow f.arow f.acol v
  | _ => none

/-- The E instruction that opcode and fields name (R68). -/
def candE (f : EF) : Option Instr :=
  let g := Guard.ofBits f.gn f.gq
  let j : BitVec 3 := f.na.extractLsb' 0 3
  let n4 : BitVec 4 := f.imm.extractLsb' 0 4
  let n12 : BitVec 12 := f.imm.extractLsb' 0 12
  let name : BitVec 16 := f.imm.extractLsb' 0 16
  let m0 := f.mod.getLsbD 0
  let at' : EAtom := { g, xa := f.xa, xb := f.xb, k := f.na, dword := f.imm.getLsbD 0, fetch := f.imm.getLsbD 1, bo := f.imm.getLsbD 2,
                       boff := f.imm.extractLsb' 5 27 }
  match f.op.toNat with
  | 0x01 => some (.lrow g f.na f.xa f.xb)
  | 0x02 => some (.srow g f.na f.xa f.xb)
  | 0x08 => some (.copy g f.na n4)
  | 0x09 => some (.mpRun g f.xa f.na (f.imm.extractLsb' 0 13) f.nb (f.imm.extractLsb' 13 13))
  | 0x10 => some (.gather g j n12)
  | 0x11 => some (.scatter g j n12)
  | 0x12 => some (.strmSet g j f.xa)
  | 0x13 => some (.probe g j f.xa f.xb n12)
  | 0x14 =>
    match f.mod.toNat with
    | 0 => some (.atomAdd at')
    | 1 => some (.atomMin at')
    | 2 => some (.atomMax at')
    | 3 => some (.atomAnd at')
    | 4 => some (.atomOr at')
    | 5 => some (.atomXor at')
    | 6 => some (.atomSwap at')
    | _ => some (.atomCas at')
  | 0x18 => some (.qwSet g f.na f.xa f.xb)
  | 0x19 => some (.qwRd g f.na f.xa f.xb)
  | 0x1C => some (.boInit g m0 f.xa f.xb)
  | 0x1D => some (.boRd g f.xa f.xb)
  | 0x20 => some (.taskPost g f.xa)
  | 0x24 => some (.msgSend g f.na n4)
  | 0x25 => some (.msgQuiet g (f.mod.extractLsb' 0 2))
  | 0x28 => some (.xchGo g f.na f.xa (f.imm.extractLsb' 0 9))
  | 0x2C => some (.tierPf g f.na n4)
  | 0x30 => some (.knBind g f.xa name)
  | 0x31 => if f.imm.getLsbD 16 then some (.knInvAll g) else some (.knInv g name)
  | 0x32 => some (.knStat g f.xa name)
  | 0x34 => some (.dictLoad g f.xa (f.imm.extractLsb' 0 15))
  | 0x38 => some (.walkStart g f.xa)
  | 0x39 => if m0 then some (.walkStopW g f.xa) else some (.walkStop g f.xa)
  | 0x3C => some (.ctrRd g f.xa (f.imm.extractLsb' 0 8) (f.imm.getLsbD 8))
  | _ => none

/-- The walker instruction that opcode and fields name (R268). -/
def candW (f : WF) : Option Instr :=
  let n5 : BitVec 5 := f.imm.extractLsb' 0 5
  let t : BitVec 8 := f.imm.extractLsb' 0 8
  let l : BitVec 1 := f.f.extractLsb' 0 1
  match f.op.toNat with
  | 0x00 => some .wNop
  | 0x01 => some (.wLi f.d (f.b ++ f.f ++ f.imm))
  | 0x02 => some (.wLih f.d (f.f ++ f.imm))
  | 0x03 => some (.wAdd f.d f.a f.b)
  | 0x04 => some (.wAddi f.d f.a f.imm)
  | 0x05 => some (.wSub f.d f.a f.b)
  | 0x06 => some (.wAnd f.d f.a f.b)
  | 0x07 => if f.f = 0 then some (.wShl f.d f.a n5) else some (.wShr f.d f.a n5)
  | 0x0C => if f.d = 4 then some (.wB t) else some (.wBCond (f.d.extractLsb' 0 2) f.a f.b t)
  | 0x0D => some (.wDloop f.a t)
  | 0x10 => some (.wLdW f.d f.a f.imm)
  | 0x11 => some (.wLdH f.d f.a f.imm)
  | 0x12 => some (.wQpop f.d f.b)
  | 0x13 => some (.wPf f.a f.imm)
  | 0x14 => some (.wCwinA f.a f.b l f.imm)
  | 0x15 => some (.wCwinB f.a f.b l f.imm)
  | 0x18 => some (.wIsect f.d)
  | 0x19 => some (.wUnion f.d)
  | 0x1A => some (.wMerge f.d)
  | 0x1B => some (.wNzc f.d f.a f.b f.imm)
  | 0x1C => some (.wBexp f.d f.a f.b f.f f.imm)
  | 0x1D => some (.wTopk f.d f.a f.b l f.imm)
  | 0x20 => some (.wEmit f.a f.b f.imm)
  | 0x21 => some (.wEmitS f.b l)
  | 0x22 => some (.wEmitz f.a)
  | 0x23 => some (.wRds f.d (f.imm.extractLsb' 0 3))
  | 0x24 => some (.wQpush f.b)
  | 0x3F => some .wWend
  | _ => none

/-- What fields decode to: the candidate, if it is well formed and its own fields are these (R61, R269). -/
def accept {α : Type} [DecidableEq α] (cand : Option Instr) (enc : Instr → Option α) (f : α) : Option Instr :=
  match cand with
  | some i => if i.wf && decide (enc i = some f) then some i else none
  | none => none

def decodeQ (w : BitVec 64) : Option Instr := accept (candQ (qFields w)) encQ (qFields w)
def decodeA (w : BitVec 96) : Option Instr := accept (candA (aFields w)) encA (aFields w)
def decodeM (w : BitVec 64) : Option Instr := accept (candM (mFields w)) encM (mFields w)
def decodeT (w : BitVec 64) : Option Instr := accept (candT (tFields w)) encT (tFields w)
def decodeE (w : BitVec 64) : Option Instr := accept (candE (eFields w)) encE (eFields w)
def decodeW (w : BitVec 32) : Option Instr := accept (candW (wFields w)) encW (wFields w)

/-- The five slots of a bundle (R49). -/
inductive Slot where
  | q
  | a
  | m
  | t
  | e
  deriving DecidableEq, Repr

/-- The decoder of a slot's word, given as a number (R52). -/
def decodeSlot (sl : Slot) (w : Nat) : Option Instr :=
  match sl with
  | .q => decodeQ (BitVec.ofNat 64 w)
  | .a => decodeA (BitVec.ofNat 96 w)
  | .m => decodeM (BitVec.ofNat 64 w)
  | .t => decodeT (BitVec.ofNat 64 w)
  | .e => decodeE (BitVec.ofNat 64 w)

/-- The word of a slot within a bundle (R49), as a number. -/
def slotWord (sl : Slot) (b : BitVec 384) : Nat :=
  match sl with
  | .q => (b.extractLsb' 288 64).toNat
  | .a => (b.extractLsb' 192 96).toNat
  | .m => (b.extractLsb' 128 64).toNat
  | .t => (b.extractLsb' 64 64).toNat
  | .e => (b.extractLsb' 0 64).toNat

def headerOf (b : BitVec 384) : HF := hFields (b.extractLsb' 352 32)

/-! ## The encoder -/

/-- The word of a well-formed instruction, as a number, and its slot; none for a step no program encodes. -/
def encode (i : Instr) : Option (Option Slot × Nat) :=
  match encQ i with
  | some f => some (some .q, f.word.toNat)
  | none =>
  match encA i with
  | some f => some (some .a, f.word.toNat)
  | none =>
  match encM i with
  | some f => some (some .m, f.word.toNat)
  | none =>
  match encT i with
  | some f => some (some .t, f.word.toNat)
  | none =>
  match encE i with
  | some f => some (some .e, f.word.toNat)
  | none =>
  match encW i with
  | some f => some (none, f.word.toNat)
  | none => none

/-- Decoding a word of a slot, or of the walker (no slot). -/
def decodeWord (sl : Option Slot) (w : Nat) : Option Instr :=
  match sl with
  | some sl => decodeSlot sl w
  | none => decodeW (BitVec.ofNat 32 w)

/-! ## Destinations and latencies, and the checks of a whole bundle (R58-R61) -/

/-- A register a slot names as a destination, for R59. -/
inductive RegId where
  | v (i : Nat)
  | o (i : Nat)
  | s (i : Nat)
  | b (i : Nat)
  | p (i : Nat)
  | x (i : Nat)
  | q (i : Nat)
  | w (i : Nat)
  deriving DecidableEq, Repr

/-- The register a destination field names, none when it is based or `_` (R57, R59). -/
def Dst.regs : Dst → List RegId
  | .v i => [.v i.toNat]
  | .based _ _ => []
  | .o i => [.o i.toNat]
  | .none => []

/-- The latency in bundles of an instruction's register writes (R77, R82-R89, R97, R202, R234, R237, R262, R381); 0 for one that writes none. -/
def regLatency : Instr → Nat
  | .qMul _ | .qMulh _ | .qMulhu _ | .ldparam .. | .ldtask .. | .sysRd .. | .pwrRelRd .. => 2
  | .lidx .. | .qAdd _ | .qAddi _ | .qSub _ | .qAnd _ | .qAndi _ | .qOr _ | .qOri _ | .qXor _ | .qXori _ | .qShl _ | .qShr _ | .qSra _
  | .qMin _ | .qMax _ | .qMinu _ | .qMaxu _ | .qMov .. | .qLi .. | .qLih .. | .qSel .. | .qCmp .. | .qCmpi .. | .flagRd .. | .wset ..
  | .wmov .. | .wrd .. | .tickRd .. | .gtickRd .. | .ctimeRd .. | .qwRd .. => 1
  | .aMul .. | .aMulh .. | .mad .. | .smul _ | .red .. | .scan .. | .bset .. => 2
  | .aAdd .. | .aSub .. | .adds .. | .subs .. | .abs .. | .neg .. | .aMin .. | .aMax .. | .aAnd _ | .aOr _ | .aXor _ | .andn _ | .not _
  | .aShl .. | .aShr .. | .aSra .. | .aCmp .. | .aSel .. | .aMov _ | .sadd _ | .ssub _ | .sand _ | .sor _ | .sxor _ | .sshl _ | .sshr ..
  | .sli .. | .sget .. | .scmp .. | .perm .. | .permv _ | .bcast .. | .bcasts .. | .popc .. | .clz .. => 1
  | .fabs _ | .fneg _ | .fmin _ | .fmax _ | .fcmp .. | .fclass _ => 1
  | .frnd .. | .fgetexp _ | .cvtF32Bf16 .. | .cvtBf16F32 .. | .cvtF32I .. | .cvtI32F32 .. | .cvtI8F32 .. | .cvtI16F32 .. | .cvtPs8F32 _
  | .cvtF32Ps8 .. | .cvtI8I32 _ | .cvtI16I32 _ | .cvtI32I .. => 2
  | .fadd .. | .fsub .. | .fmul .. | .fexpins .. | .quantI8 .. | .quantPs8 _ => 3
  | .fma .. | .fms .. | .fnma .. | .fnms .. => 4
  | .fexp2f _ | .frcp .. | .frsq .. => 6
  | .vfree .. | .vfreeIn .. => 1
  | .vpop .. => 3
  | .ld _ | .ldW _ | .ldB _ | .ldq .. | .qpeek .. | .qpeekN .. => 4
  | .accRd .. | .accRdSt .. => 4
  | .boRd .. | .ctrRd .. | .walkStop .. | .walkStopW .. => 2
  | _ => 0

/-- The registers an instruction names as destinations (R59). -/
def destRegs : Instr → List RegId
  | .lidx _ xd _ _ | .qMov _ xd _ | .qLi _ xd _ | .qLih _ xd _ | .ldparam _ xd _ | .ldtask _ xd _ | .flagRd _ xd _ _ _ | .wrd _ xd _
  | .tickRd _ xd | .gtickRd _ xd | .ctimeRd _ xd | .pwrRelRd _ xd | .sysRd _ xd _ => [.x xd.toNat]
  | .qAdd o | .qSub o | .qMul o | .qMulh o | .qMulhu o | .qAnd o | .qOr o | .qXor o | .qMin o | .qMax o | .qMinu o | .qMaxu o
  | .qSel o _ _ => [.x o.xd.toNat]
  | .qAddi o | .qAndi o | .qOri o | .qXori o => [.x o.xd.toNat]
  | .qShl o | .qShr o | .qSra o => [.x o.xd.toNat]
  | .qCmp c _ _ | .qCmpi c _ _ => [.q c.p1.toNat, .q c.p2.toNat]
  | .wset _ k _ | .wmov _ k _ => [.w k.toNat]
  | .aAdd _ o | .aSub _ o | .adds _ o | .subs _ o | .aMul _ o | .aMulh _ o | .aMin _ o | .aMax _ o | .aAnd o | .aOr o | .aXor o | .andn o
  | .aShl _ o | .aShr _ o | .aSra _ o | .permv o | .fadd _ o | .fsub _ o | .fmul _ o | .fmin o | .fmax o | .fexpins _ o => o.d.regs
  | .mad _ o | .aSel _ o | .fma _ o | .fms _ o | .fnma _ o | .fnms _ o => o.d.regs
  | .abs _ o | .neg _ o | .not o | .aMov o | .bcast _ _ o | .red _ _ o | .scan _ _ _ o | .popc _ o | .clz _ o | .fabs o | .fneg o
  | .fclass o | .frnd _ o | .fexp2f o | .fgetexp o | .frcp _ o | .frsq _ o | .cvtF32Bf16 _ o | .cvtF32I _ _ _ o | .cvtI32F32 _ o
  | .cvtF32Ps8 _ o | .cvtI32I _ _ o => o.d.regs
  | .cvtBf16F32 _ o | .cvtI8F32 _ o | .cvtI16F32 _ o | .cvtPs8F32 o | .cvtI8I32 o | .cvtI16I32 o => o.d.regs
  | .quantI8 _ o | .quantPs8 o => o.d.regs
  | .aCmp _ c _ _ _ | .fcmp c _ _ _ | .scmp c _ _ _ => [.p c.p1.toNat, .p c.p2.toNat]
  | .sadd o | .ssub o | .smul o | .sand o | .sor o | .sxor o | .sshl o | .sshr _ o => [.s o.d.toNat]
  | .sli _ d _ _ | .sget _ d _ _ _ => [.s d.toNat]
  | .perm _ d _ _ | .bcasts _ _ d _ _ => d.regs
  | .bset _ k _ _ => [.b k.toNat]
  | .ld o | .ldW o | .ldB o => o.d.regs
  | .ldq _ d _ | .qpeek _ d _ _ | .qpeekN _ d _ | .vpop _ d | .vfree _ d | .vfreeIn _ d => d.regs
  | .accRd _ d _ _ | .accRdSt _ d _ => d.regs
  | .qwRd _ _ xa xb => [.x xa.toNat, .x xb.toNat]
  | .boRd _ xa _ | .ctrRd _ xa _ _ | .walkStop _ xa | .walkStopW _ xa => [.x xa.toNat]
  | _ => []

/-- The instruction in a slot of a bundle: `some none` for NOP, `none` for a slot that fails validation (R61 1-4). -/
def slotInstr (sl : Slot) (b : BitVec 384) : Option (Option Instr) :=
  let w := slotWord sl b
  if w = 0 then some none else (decodeSlot sl w).map some

/-- R59: two slots with one destination register at one latency. -/
def destClash (i j : Instr) : Bool := regLatency i == regLatency j && (destRegs i).any fun r => (destRegs j).contains r

def clashes : List Instr → Bool
  | [] => false
  | i :: rest => rest.any (destClash i) || clashes rest

/-- The instructions of a legal bundle, slot by slot in bundle order (R61), or none. -/
def bundleInstrs (b : BitVec 384) : Option (List (Slot × Instr)) := do
  let h := headerOf b
  let q ← slotInstr .q b
  let a ← slotInstr .a b
  let m ← slotInstr .m b
  let t ← slotInstr .t b
  let e ← slotInstr .e b
  let headOk := decide (h.rowsrc.toNat ≤ 17) && h.res == 0
  let mmdOk := match t with
    | some (.mmd ..) => h.colsel == 0xFFFF && h.rowsrc == 16 && h.rinv == 0
    | _ => true
  let present := [q, a, m, t, e].filterMap id
  if headOk && mmdOk && !clashes present then
    some ([(Slot.q, q), (.a, a), (.m, m), (.t, t), (.e, e)].filterMap fun (sl, i) => i.map fun i => (sl, i))
  else none

/-- R61. -/
def bundleLegal (b : BitVec 384) : Bool := (bundleInstrs b).isSome

/-- The idle bundle (R51). -/
def idleBundle : BitVec 384 := (0xFFFF8000 : BitVec 32) ++ (0 : BitVec 352)

/-- A bundle from its 48 bytes (R46), first byte first. -/
def bundleOfBytes (bs : List Byte) : BitVec 384 := BitVec.ofNat 384 (bs.foldr (fun x acc => x.toNat + 256 * acc) 0)

/-! ## The table's own numbering -/

/-- The first slot of a bundle that holds an instruction, in bundle order. -/
def firstSlot (b : BitVec 384) : Option Instr :=
  match bundleInstrs b with
  | some ((_, i) :: _) => some i
  | _ => none

/-- The instruction an encoded row's bits name: a walker word of 32 bits (the only rows the table gives bits), or the first
instruction of a bundle of 384 bits. -/
def decodeTableWord (nbits w : Nat) : Option Instr :=
  if nbits = 32 then decodeW (BitVec.ofNat 32 w)
  else if nbits = 384 then firstSlot (BitVec.ofNat 384 w)
  else none

/-! ## Oxell command frames (R397-R402) -/

/-- A little-endian number of bytes (R8). -/
def leNat (bs : List Byte) : Nat := bs.foldr (fun x acc => x.toNat + 256 * acc) 0

/-- Bytes `off` to `off + n - 1` of a body, as a number. -/
def fieldAt (bs : List Byte) (off n : Nat) : Nat := leNat ((bs.drop off).take n)

def fieldsAt (bs : List Byte) (off n count : Nat) : List Nat := (List.range count).map fun k => fieldAt bs (off + n * k) n

/-- The host addresses (R301). -/
def haddrOk (h : Nat) : Bool := decide (h < 2 ^ 51)

def parsePartBody (b : List Byte) : Option PartBody :=
  let pairs := fun off n => (List.range n).map fun k => (fieldAt b (off + 16 * k) 8, fieldAt b (off + 16 * k + 8) 8)
  let inbox := (List.range 16).map fun k =>
    (fieldAt b (520 + 16 * k) 1, fieldAt b (521 + 16 * k) 1, fieldAt b (522 + 16 * k) 4, fieldAt b (526 + 16 * k) 4)
  let sa := fieldsAt b 72 1 64
  let body : PartBody :=
    { part := fieldAt b 0 1, killt := fieldAt b 1 1, princ := fieldAt b 2 2, draint := fieldAt b 4 3, arrmask := fieldAt b 8 8,
      wsize := fieldsAt b 16 4 8, kenn := fieldsAt b 48 1 8, pinq := fieldsAt b 56 2 8, sa, ext := pairs 136 16, cachex := pairs 392 8, inbox }
  let saOk := (List.range 64).all fun a =>
    let v := sa.getD a 0
    if body.arrmask.testBit a then decide (8 ≤ v ∧ v ≤ 96) else v == 0
  let inOk := (List.range 16).all fun k =>
    fieldAt b (530 + 16 * k) 6 == 0 && decide (fieldAt b (520 + 16 * k) 1 < 8) && decide (fieldAt b (521 + 16 * k) 1 ≤ 12)
      && fieldAt b (522 + 16 * k) 4 % 64 == 0 && fieldAt b (526 + 16 * k) 4 % 32 == 0
  let extOk := (body.ext ++ body.cachex).all (fun (lo, hi) => (lo == 0 && hi == 0) || (lo % 0x200000 == 0 && (hi + 1) % 0x200000 == 0 && decide (lo ≤ hi)))
  if b.length = 776 && decide (body.part < 16) && decide (body.killt ≤ 16) && fieldAt b 7 1 == 0 && saOk && inOk && extOk then some body else none

/-- The first k pieces of n bytes each. -/
def chunks (n : Nat) : Nat → List Byte → List (List Byte)
  | 0, _ => []
  | k + 1, b => b.take n :: chunks n k (b.drop n)

/-- TRUNK (R402): of each partition's 16 peer rows of 8 bytes, byte 6 is the peer's partition, 0 to 15 (R3), and byte 7 is zero. -/
def parseTrunkBody (b : List Byte) : Option TrunkBody :=
  let ports := (List.range 80).map fun p => fieldAt b (4 * p) 1
  let countsOk := decide ((ports.filter (· != 0xFF)).length ≤ 72) && (List.range 16).all fun k => decide ((ports.filter (· == k)).length ≤ 16)
  let portsOk := (List.range 80).all fun p =>
    fieldAt b (4 * p + 1) 3 == 0 && (decide (fieldAt b (4 * p) 1 < 16) || fieldAt b (4 * p) 1 == 0xFF)
  let trunks := (List.range 16).map fun k => fieldAt b (320 + 8 * k) 6
  let trunksOk := (List.range 16).all fun k => fieldAt b (326 + 8 * k) 2 == 0
  let peers := fun p => (List.range 16).map fun k => (fieldAt b (456 + 136 * p + 8 * k) 6, fieldAt b (462 + 136 * p + 8 * k) 1)
  let peersOk := (chunks 136 16 (b.drop 448)).all fun g => (chunks 8 16 (g.drop 8)).all fun r => decide (fieldAt r 6 2 < 16)
  let groups := (List.range 16).map fun p => (fieldAt b (448 + 136 * p) 8, peers p)
  if b.length = 2624 && portsOk && countsOk && trunksOk && peersOk then some { ports, trunks, groups } else none

def parseXfer (b : List Byte) : Option XferBody :=
  let x : XferBody := { space := fieldAt b 0 1, tower := fieldAt b 1 1, len := fieldAt b 4 4, target := fieldAt b 8 8, task := fieldAt b 16 4,
                        offset := fieldAt b 20 4, haddr := fieldAt b 24 8 }
  let ok := b.length = 32 && decide (x.space ≤ 2) && (if x.space = 0 then decide (x.tower < 8) else x.tower == 0) && fieldAt b 2 2 == 0
    && decide (1 ≤ x.len) && (x.space != 2 || (x.len % 4 == 0 && x.offset % 4 == 0)) && (x.space == 2 || (x.task == 0 && x.offset == 0))
    && haddrOk x.haddr
  if ok then some x else none

/-- The command a joined frame names (R400), none for an unknown CMD or a malformed body (status "bad command", R399). A frame
with CONT = 1 is only joined (R398). -/
def decodeFrame (f : Frame) : Option Instr :=
  let b := f.body
  let when := fun (ok : Bool) (i : Instr) => if ok then some i else none
  let bare := when (b == [])
  if f.flags ≥ 4 then none
  else if f.flags.testBit 1 then some .contFrame
  else match f.cmd with
  | 0x01 => bare .ident
  | 0x02 => when (b.length == 32) .attest
  | 0x10 => when (parsePartBody b).isSome .partMake
  | 0x11 => bare .partFree
  | 0x12 =>
    if fieldAt b 0 1 ≥ 8 || fieldAt b 2 2 != 0 then none
    else match fieldAt b 1 1 with
    | 0 => when (b.length == 16388) .slotSetTables
    | 1 => when (b.length == 8 && decide (fieldAt b 4 1 < 16) && decide (fieldAt b 5 1 ≤ 1) && fieldAt b 6 2 == 0) .slotSetDonate
    | 2 => when (b.length == 88 && decide (fieldAt b 4 1 < 16) && fieldAt b 5 3 == 0) .slotSetHashMasks
    | _ => none
  | 0x13 =>
    if fieldAt b 1 7 != 0 then none
    else match fieldAt b 0 1 with
    | 0 => when (b.length == 48 && decide (fieldAt b 8 1 < 64) && fieldAt b 9 7 == 0) .mapRangeEntry
    | 1 => when (b.length == 16) .mapControlWord
    | 2 => when (b.length == 24 && fieldAt b 8 8 % 4096 == 0 && (fieldAt b 16 8 + 1) % 4096 == 0) .mapInvalidate
    | _ => none
  | 0x14 => when (parseTrunkBody b).isSome .trunkSet
  | 0x20 => when (parseXfer b).isSome .load
  | 0x21 => when (parseXfer b).isSome .read
  | 0x22 =>
    let kind := fieldAt b 0 1
    let size := fieldAt b 4 4
    let sizeOk := size == 0 || (if kind = 0 then decide (2 ≤ size ∧ size ≤ 16384) else decide (size ≤ 65536))
    when (b.length == 24 && decide (kind ≤ 1) && fieldAt b 2 2 == 0 && sizeOk && haddrOk (fieldAt b 16 8)) .dict
  | 0x23 => when (b.length == 8 && fieldAt b 0 8 % 256 == 0 && haddrOk (fieldAt b 0 8)) .launch
  | 0x24 =>
    if b.length = 16 && decide (fieldAt b 12 1 ≤ 5) && fieldAt b 14 2 == 0 then
      match fieldAt b 13 1 with
      | 0 => some .preemptPolicy
      | 1 => some .preemptCheckpoint
      | 2 => some .preemptKill
      | _ => none
    else none
  | 0x25 => bare .halt
  | 0x26 => bare .resume
  | 0x27 => bare .status
  | 0x28 => when (b.length == 8 && decide (fieldAt b 0 1 ≤ 2) && decide (fieldAt b 1 1 ≤ 1) && fieldAt b 2 6 == 0) .counters
  | 0x30 =>
    if b.length = 4 then
      match fieldAt b 1 1 with
      | 0 => some .repairRead
      | 1 => some .repairForceLasting
      | 2 => some .repairClearLevel
      | _ => none
    else none
  | 0x31 =>
    if b.length = 8 && fieldAt b 2 2 == 0 then
      match fieldAt b 0 1 with
      | 0 => when (fieldAt b 1 1 == 0) .powerRingTotal
      | 1 => when (decide (fieldAt b 1 1 < 64) && fieldAt b 4 4 == 0) .powerGate
      | 2 => when (decide (fieldAt b 1 1 < 64) && fieldAt b 4 4 == 0) .powerUngate
      | _ => none
    else none
  | 0x32 => bare .therm
  | 0x3F => bare .reset
  | _ => none

end Sys2Proof
end

