-- ==== Sys2Proof/Machine/State.lean ====
section
/-! DEFINITION. The state of the part as plain data, everything the spec gives the machine (INVENTORY.md lists it with its rules), and the state after
reset. Things the part has many of are sparse maps; what an unlisted key reads as is the record's own default, which is its reset value. -/

namespace Sys2Proof.Machine

/-- Why a step stops with a fault. The part's own faults (R357) are not among these: they raise the leash and the step answers a next state. -/
inductive Fault where
  /-- Raised by nothing: every fault of the spec is the part's own (R357), which is a next state. The interface asks for a type of reasons. Safe. -/
  | noSuchUnit
  deriving DecidableEq, Repr

/-- Why a step has no meaning. -/
inductive Refusal where
  /-- An instruction the model gives no meaning yet. Safe: the model stops. -/
  | notModelled (mnemonic : String)
  /-- Raised by `step`: the walker's PC holds a word that R269 never lets into a running program, put there by a LOAD of halted state; the
  spec gives it no effect. Safe: the model stops. -/
  | illegalWalkerWord
  deriving DecidableEq, Repr

/-! ## Cells (R90) -/

/-- The destination of a pending cell-register write (R434). -/
inductive RDest where
  | v (i : BitVec 6)
  | o (i : BitVec 3)
  | s (i : BitVec 4)
  | b (i : BitVec 2)
  /-- bit k of the mask writes Pk with bit k of the value -/
  | p (mask : BitVec 8)
  | none
  deriving DecidableEq, Repr

/-- The latch a write carries (R93). -/
inductive Latch where
  | no
  | la
  | lm
  deriving DecidableEq, Repr

/-- A late-write buffer entry (R99): due before bundle `due` reads; `n` and `slot` (Q 0, A 1, M 2, T 3, E 4) order writes of one bundle (R59). -/
structure LwbEntry where
  due : Nat
  n : Nat
  slot : Nat
  dest : RDest
  latch : Latch
  val : VReg
  /-- the place of the entry among the sixteen a checkpoint or a host reads (R354): the first that was free -/
  place : Nat := 0
  deriving DecidableEq, Repr

/-- The pointers of a cell queue in one cell: PP and CP and their reserved counterparts PR and CR (R158); `stamp` says which setting of the word they
belong to. -/
structure QPair where
  stamp : Nat := 0
  pp : Nat := 0
  cp : Nat := 0
  pr : Nat := 0
  cr : Nat := 0
  deriving DecidableEq, Repr

/-- The bank of one cell for one context (R90). -/
structure Bank where
  v : SMap VReg := []
  o : SMap VReg := []
  la : VReg := 0
  lm : VReg := 0
  s : SMap Lane := []
  b : SMap (BitVec 6) := []
  p : BitVec 8 := 1
  /-- C as of bundle points: (m + 3, value) sets C from bundle m on, newest first, and a LOAD may set it as of the three points before bundle 0; C is 0 before the oldest
  (R94, R96). -/
  chist : List (Nat × VReg) := []
  /-- DIRTY (R92): V 0-63, O 64-71, LA 72, LM 73, S 74-89, B 90-93, P 94-101, C 102. -/
  dirty : BitVec 103 := BitVec.allOnes 103
  lwb : List LwbEntry := []
  /-- The pairs of words of KIND 0 (R158). -/
  pairs : SMap QPair := []
  deriving DecidableEq, Repr

/-- The strait entries a cell has pushed: context, landing tick, value (R163, R165). -/
structure StraitEntry where
  ctx : Nat
  launch : Nat := 0
  lands : Nat
  val : VReg
  deriving DecidableEq, Repr

/-- What a cell keeps besides its banks: which plane is stationary, SHREADY (R167), its outgoing strait FIFO (R163) with the ticks of
removals not yet counted free. -/
structure CellX where
  plane1 : Bool := false
  shready : Bool := false
  strait : List StraitEntry := []
  freed : List Nat := []
  deriving DecidableEq, Repr

/-- An accumulator row (R181): 512 integers N, X and the two sticky bits. -/
structure AccRow where
  n : SMap Int := []
  x : Nat := 511
  ovf : Bool := false
  nfi : Bool := false
  deriving DecidableEq, Repr

/-! ## Contexts (R76, R17) -/

inductive CtxState where
  | free
  | ready
  | stalled
  | saving
  | halted
  deriving DecidableEq, Repr

/-- The causes a stalled tick is booked to, in the order of R33's table. -/
inductive StallCause where
  | rail
  | power
  | exchange
  | barrier
  | queue
  deriving DecidableEq, Repr

/-- A loop level (R76). -/
structure LoopLevel where
  index : BitVec 32 := 0
  count : BitVec 32 := 0
  start : BitVec 32 := 0
  stop : BitVec 32 := 0
  deriving DecidableEq, Repr

/-- The destination of a sequencer write (R434). -/
inductive QDest where
  | x (i : BitVec 5)
  | q (i : BitVec 3)
  | w (i : BitVec 4)
  deriving DecidableEq, Repr

/-- A PEND entry (R77). -/
structure PendEntry where
  due : Nat
  n : Nat
  slot : Nat
  dest : QDest
  val : XWord
  /-- the place of the entry among the eight a checkpoint or a host reads (R353): the first that was free -/
  place : Nat := 0
  deriving DecidableEq, Repr

/-- A queue control word with its reserved pointers (R155, R158-R160): `ops` counts fired engine operations that have not made every access to
it, `used` is the tower tick of the last bundle that named it in its A, M or T slot (R233). `stamp` is the first bundle that sees the word;
bundles before it see one of `old`, the words before with their stamps, latest first, kept as far back as a bundle on its way can look (R233). -/
structure QW where
  word : BitVec 128 := 0
  stamp : Nat := 0
  old : List (Nat × BitVec 128) := []
  pr : Nat := 0
  cr : Nat := 0
  ops : Nat := 0
  used : Option Nat := none
  /-- how far PP and CP have moved since its context was saved (R245, R332) -/
  ppLate : Nat := 0
  cpLate : Nat := 0
  deriving DecidableEq, Repr

/-- A fired gather or scatter (R251): its bundle and the place of that in the order of issue, its phase tag, its first position, its size and the ring positions it reserved. -/
structure StreamOp where
  gather : Bool
  bundle : Nat
  order : Nat := 0
  tag : Bool := false
  first : Nat
  n : Nat
  dq : Nat
  iq : Nat
  deriving DecidableEq, Repr

/-- A stream register (R249) and what its engine keeps: a `strm.set` not yet in effect, the generation its requests carry, the positions done
but not committed, a probe in flight, the pages pinned. -/
structure Stream where
  word : BitVec 256 := 0
  setPending : Bool := false
  gen : Nat := 0
  /-- how often it has been set: a probe belongs to one setting (R254) -/
  sets : Nat := 0
  doneAt : List Nat := []
  ops : List StreamOp := []
  probing : Bool := false
  pins : List Nat := []
  deriving DecidableEq, Repr

/-- A power lease (R380, R381): the level and the global tick of its expiry. -/
structure Lease where
  level : Nat
  expiry : Nat
  deriving DecidableEq, Repr

/-- A lease asked for and not yet granted (R378, R380): its level, its length in global ticks, the tick it was filed, the ticks at which the lower and, in a gang,
the upper array's die granted it, and the visits it has waited at each. -/
structure LeaseReq where
  level : Nat
  ticks : Nat
  filed : Nat
  lo : Option Nat := none
  hi : Option Nat := none
  visits : Nat := 0
  visitsHi : Nat := 0
  deriving DecidableEq, Repr

/-- A pre-emption request (R343): Lq, the mode (0 policy, 1 checkpoint, 2 kill), and for a scheduler request the newcomer task. -/
structure PreReq where
  lq : Nat
  mode : Nat
  newcomer : Option Nat
  gate : Bool := false
  deriving DecidableEq, Repr

/-- A context ready for an exchange superstep (R391): its bundle, X[XA], the queue word with its stamp, the first descriptor's position and their number, and
S_k once it is set. -/
structure XchReady where
  n : Nat
  word : Nat
  k : Nat
  stamp : Nat
  pos : Nat
  cnt : Nat
  start : Option Nat := none
  deriving DecidableEq, Repr

/-- ADDR of a fault whose rule states no address: the record then holds a free value (R363, log 4). -/
def noAddr : Nat := 2 ^ 64

/-- The fields of a fault as its stop record holds them (R359, R363). -/
structure FaultRec where
  kind : Nat
  unit : Nat
  ctx : Nat
  code : Nat
  sub : Nat := 0
  addr : Nat := noAddr
  before : Bool := false
  rowv : Bool := false
  wide : Bool := false
  row : Nat := 0
  cell : Nat := 0
  seq : Nat := 0
  pos : Nat := 0
  tag : Nat := 0
  fgt : Nat := 0
  primary : Bool := false
  /-- the array it is charged to, and whether the context it is charged to still held its task -/
  arr : Nat := 0
  mine : Bool := false
  deriving DecidableEq, Repr

/-- One context (R76). `tid` is the uid of the task it runs; `role` is `ldtask` field 6; `h` is H. `passed` is, per row, the number of bundles whose
wavefront has passed it (R96). A context of the upper array of a gang has `upper` set and holds nothing else of its own. -/
structure Ctx where
  state : CtxState := .free
  upper : Bool := false
  part : Nat := 0
  tid : Nat := 0
  launch : Nat := 0
  tag : BitVec 64 := 0
  task : Nat := 0
  arg : BitVec 64 := 0
  role : Nat := 0
  h : Nat := 16
  nlev : Nat := 1
  prio : Nat := 0
  fid : BitVec 16 := 0
  started : Nat := 0
  x : SMap XWord := []
  q : BitVec 8 := 1
  w : SMap Lane := []
  loops : SMap LoopLevel := []
  cs : SMap Nat := []
  depth : Nat := 0
  pc : Nat := 0
  widePc : Nat := 0
  /-- the bundles issued, which number them; CTIME reads that count plus `ctimeOff`, which a LOAD of CTIME sets (R76, R365) -/
  ctime : Nat := 0
  ctimeOff : Nat := 0
  phase : BitVec 8 := 0
  ring : SMap (List FlagAgg) := []
  pend : List PendEntry := []
  passed : SMap Nat := []
  dbg : BitVec 2 := 3
  qw : SMap QW := []
  st : SMap Stream := []
  terr1 : Nat := 0
  terr2 : Nat := 0
  rstall : Nat := 0
  threshold : Nat := 0
  csBase : Nat := 0
  csSize : Nat := 0
  arBase : Nat := 0
  arSize : Nat := 0
  /-- the row window a gang holds in its lower array's store -/
  arLow : Nat := 0
  db : Nat := 0
  dsz : Nat := 0
  cb : Nat := 0
  csz : Nat := 0
  wait : Nat := 0
  yielded : Bool := false
  lastIssue : Nat := 0
  issued : Bool := false
  /-- it has raised a fault, at global tick `faultAt`, and issues nothing from the next tick -/
  faulted : Bool := false
  faultAt : Nat := 0
  killed : Bool := false
  /-- the global tick of the decision: the kill holds from the next (R348) -/
  killedAt : Nat := 0
  /-- while it is Free the tower tick from which it may be taken, else the one at which its task took it -/
  freeFrom : Nat := 0
  lease : Option Lease := none
  saved : Option (Nat × Nat) := none
  /-- the bundle of the `pwr.rel` under way for the lease it holds or asks again for (R381) -/
  released : Option Nat := none
  acq : Option LeaseReq := none
  /-- the bundle whose `pwr.acq` has been granted, plus one, and the global tick of the grant -/
  granted : Nat := 0
  grantTick : Nat := 0
  preq : List PreReq := []
  slot : Nat := 0
  nsave : Nat := 0
  fences : List (Nat × Nat) := []
  xch : Option XchReady := none
  deriving DecidableEq, Repr

/-! ## Arrays -/

/-- A wavefront: an issued bundle and the rows that have executed it (R30, R364). -/
structure Wave where
  uid : Nat
  ctx : Nat
  tid : Nat := 0
  n : Nat
  bundle : BitVec 384
  mask : BitVec 32
  done : BitVec 32 := 0
  pos : Nat
  h : Nat
  qpos : Nat := 0
  /-- the word whose position its M slot reserved, its stamp, and whether PP moves (R159) -/
  qres : Option (Nat × Nat × Bool) := none
  again : Bool := false
  blk : Bool := false
  /-- the tower tick at which it entered row 0 -/
  tick : Nat := 0
  deriving DecidableEq, Repr

/-- The operand mode of a pass (R172). -/
inductive PMode where
  | ps8
  | i8
  | bf16
  deriving DecidableEq, Repr

/-- A fired pass or delta pass (R174-R180, R213-R222). `mrows` is CNT', `arow` a row of the store, `taking` the taking-part bits (row r, column c at bit
16 r + c). `base` is the tick it fired at or was resumed at. `start` is set once `known`: M-row i enters row 0 at start + i, all rows of the feeder's stream
counted; `fend` is the FEND it leaves, once known. `fwd` marks a forwarding pass and `source` the upstream pass of an `mm.chain` stream, whose M-rows stand in `fwdRows`.
`kennel` names the entry of an `mmd`, whose strays `ns` are exact when `nsKnown`. -/
structure Pass where
  uid : Nat
  ctx : Nat
  n : Nat
  tid : Nat
  part : Nat
  h : Nat
  mode : PMode
  opcode : Nat
  arow : Nat
  acol : Nat
  mrows : Nat
  fired : Nat
  base : Nat := 0
  colsel : BitVec 16
  ls1 : Nat := 0
  ls2 : Nat := 0
  qk : Option Nat := none
  qpos : Nat := 0
  stamp : Nat := 0
  /-- the scratchpad address of the ring and its depth -/
  qaddr : Nat := 0
  qdepth : Nat := 1
  walk : Bool := false
  feedN : Nat := 0
  fwd : Bool := false
  source : Option (Nat × Nat) := none
  fwdRows : SMap (List Byte) := []
  kennel : Option Nat := none
  /-- while its start is not known: the lines of its next M-rows as they stood when the array last held their banks (key row * 16 + line), and what an `mmd`'s decision
  would have found at each tick: the tick, whether it would refresh, and PGEN of both arrays and WGEN (R175, R215) -/
  early : SMap (List Byte) := []
  peeks : List (Nat × Bool × Nat × Nat × Nat) := []
  taking : Nat := 0
  known : Bool := false
  start : Nat := 0
  fend : Option Nat := none
  entered : Nat := 0
  landed : Nat := 0
  decided : Bool := false
  /-- what the decision replaced in the entry: PGEN of both arrays, WGEN, SFORCE, BFORCE and ERRSEEN (R221) -/
  entryWas : Option (Nat × Nat × Nat × Bool × Bool × Bool) := none
  delta : Bool := false
  ns : Nat := 0
  nsKnown : Bool := false
  /-- the rows of x_prev the invocation will write (R217) -/
  xnew : SMap (List Int) := []
  bforce : Bool := false
  /-- its task was killed before its last landing (R221) -/
  dead : Bool := false
  /-- a slice of its array, and of a gang's upper array, has stood below nominal during the pass -/
  below1 : Bool := false
  below2 : Bool := false
  upBelow1 : Bool := false
  upBelow2 : Bool := false
  deriving DecidableEq, Repr

/-- An M-row or correction row of a pass, from its first read to its last landing: `i` counts the rows the pass streams, `row` is the accumulator row it lands in,
`scale` the exponent of 2 its products carry besides the mode's own, `sums` the column sums of each column block in units of 2^-283, `marks` its non-finite
columns, `errs` the observed errors (cell, slice) still to be counted, `rv` the row-valid bits of its feed records. -/
structure MRow where
  uid : Nat
  pass : Nat
  i : Nat
  enter : Nat
  row : Option Nat
  scale : Nat := 0
  bytes : List Byte
  rv : BitVec 32 := 0
  entered : Bool := false
  /-- its data are final: a feed record taken out, an `mmd` row worked out -/
  ready : Bool := false
  /-- the strays of the rows before it -/
  nsAt : Nat := 0
  /-- the band row an `mmd` loads with it: y_prev row i, or zero where nothing is listed -/
  y : List Int := []
  sums : SMap (List Int) := []
  marks : List Nat := []
  errs : List (Nat × Nat) := []
  deriving DecidableEq, Repr

/-- A slice rail of a domain (R190, R199, R200): the level it is known to stand at or above, the target, and the tick at which a move under way ends;
levels are 0 nominal to 3. -/
structure Rail where
  level : Nat := 0
  target : Nat := 0
  moving : Option Nat := none
  deriving DecidableEq, Repr

/-- A fired `lrow` or `srow` (R231, R232): `cellOff` is the offset of its ring position in every cell store, `base` the scratchpad address of the first block,
`presented` and `rows` the rows presented and done, `lines` the lines delivered (key row * 8 + line), `lastEr` the tower tick of its latest row write. -/
structure LoadOp where
  uid : Nat
  ctx : Nat
  n : Nat
  tid : Nat
  tag : Nat
  part : Nat
  order : Nat
  store : Bool
  h : Nat
  k : Nat
  q : Nat
  stamp : Nat
  cellOff : Nat
  base : Nat
  stride : Nat
  fired : Nat
  presented : BitVec 32 := 0
  rows : BitVec 32 := 0
  lines : SMap (List Byte) := []
  marks : SMap Nat := []
  deriving DecidableEq, Repr

/-- The gate state of an array (R386). -/
inductive Gate where
  | up
  | gating
  | gated
  | ungating
  deriving DecidableEq, Repr

/-- The walker of an array (R257, R258): its image fields and the engine's own progress. -/
structure Walker where
  owner : Option Nat := none
  running : Bool := false
  g : SMap Lane := []
  pc : Nat := 0
  plen : Nat := 0
  pstore : SMap Lane := []
  cwa : List (Nat) := []
  cwb : List (Nat) := []
  nwa : Nat := 0
  nwb : Nat := 0
  lwa : Bool := false
  lwb : Bool := false
  ma : BitVec 16 := 0
  mb : BitVec 16 := 0
  cna : Nat := 0
  cnb : Nat := 0
  bm : Lane := 0
  stg : List Byte := []
  /-- lines held, earliest first: window offset and bytes -/
  lbuf : List (Nat × List Byte) := []
  /-- feed records, oldest first: 512 bytes and the RV word; the first `feedRes` are reserved by passes -/
  feed : List (List Byte) := []
  feedRes : Nat := 0
  ecnt : Nat := 0
  offend : Bool := false
  nemit : Nat := 0
  ended : Bool := false
  clamp : Bool := false
  /-- the engine's progress: the starts and stops it has had, whether a program is being read, the lines awaited and whether they go through LBUF, those delivered,
  those in flight to LBUF, the ticks after the last delivery, the queue position reserved (word, stamp, producer), the element being popped, and the
  bundle that started the program -/
  epoch : Nat := 0
  loading : Bool := false
  need : List Nat := []
  needLb : Bool := false
  got : List (Nat × List Byte) := []
  flight : List Nat := []
  extra : Nat := 0
  res : Option (Nat × Nat × Bool) := none
  pop : Nat := 0
  startN : Nat := 0
  deriving DecidableEq, Repr

/-- A window of an ended task not yet released (R81): a cell-store window, or a row window; `stream` is the array that ran the task's stream. -/
structure HeldWindow where
  rows : Bool
  stream : Nat := 0
  ctx : Nat
  tid : Nat
  base : Nat
  size : Nat
  deriving DecidableEq, Repr

/-- One array (R14). -/
structure Arr where
  owner : Option Nat := none
  gate : Gate := .up
  waves : List Wave := []
  again : List Nat := []
  blocked : List (Nat × Nat) := []
  lastOf : SMap Nat := []
  lastCtx : Option Nat := none
  sgen : Nat := 0
  fend : Nat := 0
  passes : List Pass := []
  mrows : List MRow := []
  /-- the row-valid mask of the M-row that entered row 0 at a tower tick (R266) -/
  rv : Nat × BitVec 32 := (0, 0)
  /-- observed slice errors of this tick's landings still to be counted: cell, slice, pass -/
  errsNow : List (Nat × Nat × Nat) := []
  ls1 : Rail := {}
  ls2 : Rail := {}
  aerr1 : Nat := 0
  aerr2 : Nat := 0
  nmis : Nat := 0
  loads : List LoadOp := []
  walker : Walker := {}
  /-- the global tick of its latest sample, if that exceeded R383's limit -/
  tooHigh : Option Nat := none
  ta : Option Nat := none
  resumeAt : Option Nat := none
  ungateAfter : Bool := false
  held : List HeldWindow := []
  /-- by task: the latest tower tick at which a write of it into a cell store performs -/
  lastWrite : SMap Nat := []
  /-- the tower tick of its latest selection (R15) -/
  chose : Option Nat := none
  /-- the contexts of tasks that have left the array, as they left them: of a checkpointed task, and of an ended one whose engine operations run on (R81, R245, R332, R347) -/
  ghosts : List Ctx := []
  deriving DecidableEq, Repr

/-! ## Partitions -/

/-- The state of a launch as STATUS reports it (R403). -/
inductive LaunchState where
  | waiting
  | placed
  | completed
  | killed
  deriving DecidableEq, Repr

/-- An accepted launch: the copy of its 256-byte record (R27) and its counts. -/
structure Launch where
  uid : Nat
  record : List Byte
  state : LaunchState := .waiting
  placedTasks : Nat := 0
  nextTask : Nat := 0
  live : Nat := 0
  ended : Nat := 0
  killed : Bool := false
  deriving DecidableEq, Repr

/-- The state of a task. -/
inductive TaskState where
  | queued
  | pending
  | running
  | checkpointed
  | ended
  | killed
  deriving DecidableEq, Repr

/-- A plane image held in a save slot (R171): SGEN when it was saved. -/
structure PlaneImage where
  arr : Nat
  sgen : Nat
  deriving DecidableEq, Repr

/-- A task: placed from a launch or posted (R22, R29, R246). `unit` is the lower or upstream array of its unit, `ranges` the start and end of each loop level
(R23), `order` its placement order, `members` how many of its contexts have not ended, `nsave` its checkpoints, `saveTick` when it was last saved. -/
structure Task where
  uid : Nat
  launch : Nat
  number : Nat
  unit : Nat := 0
  any : Bool := false
  entry : Nat := 0
  arg : BitVec 64 := 0
  ranges : List (Nat × Nat) := []
  inputs : List Nat := []
  state : TaskState := .queued
  order : Nat := 0
  members : Nat := 1
  ctx : Nat := 0
  ctx2 : Nat := 0
  slot : Nat := 0
  csBase : Nat := 0
  csBase2 : Nat := 0
  arBase : Nat := 0
  arBase2 : Nat := 0
  nsave : Nat := 0
  planes : List PlaneImage := []
  gateHold : Bool := false
  /-- the walkers it owned, by array, as the drain of a checkpoint left them -/
  walkers : SMap Walker := []
  deriving DecidableEq, Repr

/-- The account of a launch, keyed by TAG (R43, R404). -/
structure Account where
  bundles : Nat := 0
  busy : Nat := 0
  idle : Nat := 0
  stalls : SMap Nat := []
  conflict : Nat := 0
  deriving DecidableEq, Repr

/-- An image placed by DICT in one array (R72): kind 0 dictionary, 1 code; base and size in entries or halfwords. -/
structure Image where
  kind : Nat
  slot : Nat
  arr : Nat
  base : Nat
  size : Nat
  deriving DecidableEq, Repr

/-- One engine stopped by the leash (R358): kind and unit as in R363, T_a, and the tick by which it has stopped, in the ticks it counts: its tower's, a copy engine's and a
stack's global ones. -/
structure EngineStop where
  kind : Nat
  unit : Nat
  ta : Nat
  ts : Nat
  deriving DecidableEq, Repr

/-- A memory program abandoned under the leash (R369): its stack, its record's offset, the first command not performed, the lines read and written. -/
structure ProgStop where
  stack : Nat
  off : Nat
  next : Nat
  rd : Nat
  wr : Nat
  deriving DecidableEq, Repr

/-- An atom that had not performed by T_a (R367): who fired it, its bundle and its address. -/
structure AtomStop where
  arr : Nat
  ctx : Nat
  tid : Nat
  n : Nat
  addr : Nat
  deriving DecidableEq, Repr

/-- One inbox (R393). -/
structure Inbox where
  tower : Nat := 0
  ldepth : Nat := 0
  off : Nat := 0
  object : Nat := 0
  arrivals : Nat := 0
  reserved : Nat := 0
  set : Bool := false
  deriving DecidableEq, Repr

/-- An advance of a watch range's GEN (R208, R209): its tick, the task, bundle and position of the write, whether every tower's kennel unit has it for certain,
and the tasks, with the bundle of the access, that have read the bytes since (R292). -/
structure Advance where
  tick : Nat
  tid : Nat := 0
  n : Nat := 0
  p : Nat := 0
  sure : Bool := false
  seen : List (Nat × Nat) := []
  deriving DecidableEq, Repr

/-- A superstep from its members' readiness on (R391, R392): its number, S_k, E_k once it has begun, the trunks it uses, the bytes that peers have announced and those landed. -/
structure XchRun where
  step : Nat
  start : Nat
  stop : Option Nat := none
  trunks : List Nat := []
  announced : Nat := 0
  inbound : Nat := 0
  deriving DecidableEq, Repr

/-- A LOAD or READ being carried out (R397, R402): its frame, whether it loads, its length, the bytes that have had their turn on the link, and the lines of it that have still
to perform. -/
structure Xfer where
  frame : Frame
  load : Bool
  len : Nat
  sent : Nat := 0
  left : Nat := 0
  deriving DecidableEq, Repr

/-- One partition (R3, R40, R401). -/
structure Part where
  live : Bool := false
  princ : Nat := 0
  killt : Nat := 16
  draint : Nat := 0
  wbase : SMap Nat := []
  wsize : SMap Nat := []
  kenn : SMap Nat := []
  pinq : SMap Nat := []
  sa : SMap Nat := []
  ext : List (Nat × Nat) := []
  cachex : List (Nat × Nat) := []
  inboxes : SMap Inbox := []
  don : Bool := false
  ranges : SMap (BitVec 256) := []
  ctrl : BitVec 64 := 0
  watch : SMap (BitVec 192) := []
  /-- the range entry through which a watch range of SPACE 2 holds its physical image (R315) -/
  watchVia : SMap Nat := []
  /-- the latest advances of each watch range's GEN (R209) -/
  watchAt : SMap (List Advance) := []
  images : List Image := []
  queue : List Nat := []
  reserved : Nat := 0
  launches : List Launch := []
  tasks : List Task := []
  accounts : SMap Account := []
  placement : SMap (Nat × Nat) := []
  leash : Bool := false
  /-- HALT has raised it, with no fault (R400) -/
  byHalt : Bool := false
  faults : List FaultRec := []
  nsup : SMap Nat := []
  stops : List EngineStop := []
  resumeAt : Option Nat := none
  stopped : List ProgStop := []
  /-- the atoms that had not performed when the leash reached the streams of their arrays -/
  atomStops : List AtomStop := []
  /-- the Halted contexts' states stand in their save slots (R375) -/
  imaged : Bool := false
  pmr : List Byte := []
  pmrCount : Nat := 0
  xmask : BitVec 64 := 0
  peers : SMap (Nat × Nat) := []
  /-- reports of the peers: for each that is ready LEN, GUARD, WREF, the bytes it announces and the tick of the report; and the tags it reports quiet -/
  peerReady : SMap (List Nat) := []
  peerQuiet : SMap Nat := []
  /-- the number of the next superstep, and those whose E_k has not passed, earliest first -/
  step : Nat := 0
  runs : List XchRun := []
  /-- commands that wait for the one before them (R399), and that one while it waits to be answered -/
  waiting : List Frame := []
  current : Option Frame := none
  /-- the LOAD or READ being carried out -/
  xfer : Option Xfer := none
  deriving DecidableEq, Repr

/-! ## Off-domain requests (R282-R299) -/

/-- What fired an off-domain request. -/
inductive ReqKind where
  | gather
  | scatter
  | atom
  | copyRead
  | copyWrite
  | message
  | exchRead
  | exchWrite
  /-- a line of a LOAD or READ of the host (R402), whose host address `arg` holds -/
  | host
  deriving DecidableEq, Repr

/-- Where a request goes: a window, a physical address of the package, a virtual address still to be translated, or another package (peer package and
partition, and the tower and offset, or inbox, named there). `unknown` stands until its address has been read. -/
inductive Target where
  | unknown
  | virt (va : Nat)
  | window (tower part off : Nat)
  | phys (pa : Nat)
  | package (pkg part tower off : Nat)
  deriving DecidableEq, Repr

/-- How far a request has come (R290): fired; accepted by its tower's egress; delivered to its point; performed there; performed at sys scope. -/
inductive Stage where
  | fired
  | accepted
  | arrived
  | performed
  | acked
  deriving DecidableEq, Repr

/-- An off-domain request in flight. `order` is the place of its bundle in the order of issue, `serial` its own in the order of acceptance by the egress, `arrival` in the order of delivery to the points of coherence, `held` says that it faulted and waits for RESUME, `slot` that it holds
a request slot (R248), `addr` the address a fault names, `early` the first tower tick at which it may be accepted (R237). -/
structure Req where
  uid : Nat
  kind : ReqKind
  part : Nat
  arr : Nat
  ctx : Nat
  n : Nat
  tid : Nat
  tag : Bool := false
  target : Target
  size : Nat
  write : Bool
  data : List Byte := []
  stage : Stage := .fired
  serial : Nat := 0
  arrival : Nat := 0
  order : Nat := 0
  early : Nat := 0
  held : Bool := false
  walking : Bool := false
  slot : Bool := false
  addr : Nat := 0
  /-- atom: operation, operand, swap operand, and where the old value lands -/
  op : Nat := 0
  arg : Nat := 0
  swap : Nat := 0
  fetch : Bool := false
  qk : Nat := 0
  qpos : Nat := 0
  stamp : Nat := 0
  bo : Option Nat := none
  /-- the stream register, its generation and the position; or the descriptor and its line -/
  j : Nat := 0
  gen : Nat := 0
  p : Nat := 0
  /-- the HBM line it goes to, as mapped when it reached its port -/
  cell : Option Nat := none
  /-- discarded when it returns (R250, R253) -/
  dropped : Bool := false
  /-- the virtual address that was translated to its target -/
  va : Option Nat := none
  deriving DecidableEq, Repr

/-- A copy or tier-prefetch descriptor a tower's copy engine holds (R238-R245). -/
structure Desc where
  uid : Nat
  tier : Bool
  part : Nat
  arr : Nat
  ctx : Nat
  n : Nat
  tid : Nat
  launch : Nat
  tag : Bool := false
  order : Nat := 0
  off : Nat
  bytes : List Byte
  fired : Nat
  next : Nat := 0
  landed : Nat := 0
  counted : Nat := 0
  /-- taken by the engine, which presents its lines -/
  taken : Bool := false
  inTower : Bool := false
  stopped : Bool := false
  faulted : Bool := false
  deriving DecidableEq, Repr

/-! ## Towers and stacks -/

/-- A kennel entry (R204). -/
structure Kennel where
  valid : Bool := false
  pgen : Nat := 0
  pgen2 : Nat := 0
  wgen : Nat := 0
  scale : Nat := 0
  yprev : Nat := 0
  xprev : Nat := 0
  slim : Nat := 0
  nstray : Nat := 0
  name : Nat := 0
  period : Nat := 0
  inv : Nat := 0
  mrows : Nat := 0
  arr : Nat := 0
  wix : Nat := 0
  part : Nat := 0
  errseen : Bool := false
  sforce : Bool := false
  bforce : Bool := false
  mode : Bool := false
  gang : Bool := false
  /-- DONE of its latest invocation (R219) -/
  done : Nat := 0
  deriving DecidableEq, Repr

/-- What a performed data-port line is for. -/
inductive LineUse where
  | lrow (arr op row m : Nat)
  | srow (arr op row m : Nat) (data : List Byte)
  | walkRead (arr off epoch : Nat) (lb : Bool)
  | walkWrite (arr m epoch : Nat) (data : List Byte)
  | copyRead (desc line : Nat)
  | copyWrite (desc line : Nat) (data : List Byte)
  | dynRead (req : Nat)
  | dynWrite (req : Nat)
  /-- a gathered element, or the old value of an atom, on its way into its queue -/
  | landing (req : Nat)
  /-- line `idx` a memory program has read, on its way into its queue -/
  | mpLanding (stack uid idx : Nat) (data : List Byte)
  /-- the report of a probe (R254): array, context, task and bundle, the stream register, its setting and PROBED after it, the object, the bytes -/
  | report (arr ctx tid n j sets probed bo addr : Nat) (data : List Byte)
  | peerWrite (part step addr : Nat) (data : List Byte)
  /-- a piece of a line that a LOAD writes, or that a READ moves to a host address (R397, R402) -/
  | hostWrite (part addr : Nat) (data : List Byte)
  | hostRead (part len haddr : Nat)
  deriving DecidableEq, Repr

/-- A data-port request waiting for its bank (R225): the array it is charged to, its agent's rank, its order among that rank's, the scratchpad address of its
line, the tower tick it was presented at and the launch tag its waits are booked to (none from 2^64 on). -/
structure LineReq where
  arr : Nat
  rank : Nat
  order : Nat
  addr : Nat
  presented : Nat
  part : Nat
  tag : Nat
  use : LineUse
  deriving DecidableEq, Repr

/-- A page-table walk or pin (R312, R316); `holders` are the tasks on arrays, with their stream registers, that hold it. -/
structure Pin where
  part : Nat
  page : Nat
  size : Nat
  pa : Nat
  perms : Nat
  holders : List (Nat × Nat)
  /-- translated by the page table and not by a range entry -/
  walked : Bool := true
  deriving DecidableEq, Repr

/-- A lasting bank and its mirroring into a spare (R410): the lines before `next`, and those of `reached`, which a write has reached since, stand in the spare. -/
structure Mirror where
  bank : Nat
  next : Nat := 0
  reached : List Nat := []
  done : Bool := false
  deriving DecidableEq, Repr

/-- One tower. -/
structure Tower where
  lag : Nat := 0
  lagFrac : Nat := 0
  /-- the latest stretched tower tick and by how many thousandths of a global tick it is longer (R385) -/
  stretched : Nat × Nat := (0, 0)
  trip : Nat := 0
  removed : Bool := false
  kennels : SMap Kennel := []
  lines : List LineReq := []
  descs : List Desc := []
  cend : Nat := 0
  pins : List Pin := []
  /-- the page cache and the range cache (R311): pages held, and (partition, index, GEN) of range entries held -/
  pages : List Pin := []
  ranges : List (Nat × Nat × Nat) := []
  spares : List Mirror := []
  /-- the banks its data port has served at the latest tower tick at which it served any -/
  portUse : Nat × List Nat := (0, [])
  deriving DecidableEq, Repr

/-- A memory program of a stack (R327-R332), from its record's reading to its end: `words` are the
command words read, `start` its start frame once set and from then on `slots` the absolute slots of its commands, `stop` the frame before which it stops, `order` the place of its
bundle in the order of issue and `tag` its phase; `dead` says that it was abandoned, `sent` that its completion arrival is counted or none is due. -/
structure MemProg where
  uid : Nat
  part : Nat
  arr : Nat
  ctx : Nat
  n : Nat
  tid : Nat
  off : Nat
  issued : Nat
  record : List Byte
  words : List (BitVec 64) := []
  rq : Nat
  rstamp : Nat
  nrd : Nat
  rpos : Nat
  wq : Nat
  wstamp : Nat
  nwr : Nat
  wpos : Nat
  order : Nat := 0
  tag : Bool := false
  start : Option Nat := none
  slots : List Nat := []
  rdNext : Nat := 0
  /-- the first of its reads that met an uncorrectable line -/
  lost : Option Nat := none
  rdDone : Nat := 0
  wrDone : Nat := 0
  stop : Option Nat := none
  ended : Bool := false
  completing : Bool := false
  sent : Bool := false
  dead : Bool := false
  deriving DecidableEq, Repr

/-- A request waiting at a memory port (R335): its first byte in the HBM space and its size, and the bank and row that serve it, as the masks mapped it when it
arrived; `more` are the atoms merged into the entry (R256). -/
structure PortEntry where
  req : Nat
  part : Nat
  write : Bool
  bank : Nat
  row : Nat
  cell : Nat := 0
  size : Nat := 64
  more : List Nat := []
  deriving DecidableEq, Repr

/-- A bank of a pseudo-channel: its open row and the slots of its ACT and of its last column command, whether that wrote, the slot from which the
bank is closed, and the memory program that opened it, if the dynamic path did not. -/
structure DramBank where
  row : Option Nat := none
  part : Nat := 0
  act : Nat := 0
  col : Nat := 0
  wrote : Bool := false
  closed : Nat := 0
  prog : Option Nat := none
  deriving DecidableEq, Repr

/-- One HBM stack with its steward and its part of the deep tier (R319-R336). Keys: slot tables channel * 512 + slot; masks part * 4 + i and part * 6 + j; ports,
ACT histories and refreshes by pseudo-channel index p; banks p * 16 + bank; column commands p * 4 + group; accounts (part * 32 + channel) * 4 + class. -/
structure Stack where
  up : Bool := false
  frame : Nat := 0
  slots : SMap Nat := []
  /-- tables that wait for the first boundary after the tick they were set at, earliest first -/
  slotsNew : List (Nat × SMap Nat) := []
  hmb : SMap Nat := []
  hmp : SMap Nat := []
  masksNew : List (Nat × Nat × List Nat × List Nat) := []
  ports : SMap (List PortEntry) := []
  banks : SMap DramBank := []
  acts : SMap (List Nat) := []
  cols : SMap Nat := []
  donPtr : SMap Nat := []
  progs : List MemProg := []
  /-- the pseudo-channels whose refreshes the steward has stopped placing, as bits -/
  lost : Nat := 0
  /-- the pseudo-channels the refresh watchdog has taken over, with the first frame it refreshes each in -/
  dog : SMap Nat := []
  /-- the frame after the one that last refreshed a bank -/
  refAt : SMap Nat := []
  training : Nat := 0
  /-- the retired pseudo-channel, and how many of its lines, row by row, have been copied to their new places (R411) -/
  retired : Option Nat := none
  copied : Nat := 0
  acct : SMap Nat := []
  /-- the tags of the deep-tier cache: line, dirty, last use, by (part * 2^28 + set) * 4 + way -/
  cache : SMap (Nat × Bool × Nat) := []
  deriving DecidableEq, Repr

/-! ## The module -/

/-- A port of the fabric (R387-R389): its trunk, the trunk it left when it failed, the next sequence numbers each way, the flits sent and not acknowledged, those that wait for room
among these, those discarded by KIND. -/
structure Port where
  trunk : Option Nat := none
  left : Option Nat := none
  failed : Bool := false
  rxSeq : Nat := 0
  txSeq : Nat := 0
  replay : List Flit := []
  unsent : List Flit := []
  /-- flits received whose turn in the trunk's order has not come, and the tick of the last good one -/
  rx : List Flit := []
  good : Nat := 0
  discarded : Nat := 0
  deriving DecidableEq, Repr

/-- An availability bucket (R407). -/
structure Bucket where
  total : Nat := 0
  state : Nat := 0
  level : Nat := 0
  deriving DecidableEq, Repr

/-- What the part sends out: responses and event frames to the host (R398), flits to its peers, and its reports to the peers of an exchange group (R391, R395): what 0 ready,
1 quiet, 2 refused message. A flit received is acknowledged by its SEQ (R388). -/
inductive Output where
  | response (cmd seq status detail : Nat) (body : List Byte)
  | event (part kind : Nat) (body : List Byte)
  | flit (port : Nat) (f : Flit)
  | ack (port seq : Nat)
  | report (part peer what : Nat) (args : List Nat)
  deriving DecidableEq, Repr

/-- The part as a whole. -/
structure Module where
  boot : Nat := 1
  powered : Bool := true
  ringTotal : Nat := 0
  ringLess : Nat := 0
  /-- the units on the token, those to be kept off it, the marked request (die * 256 + array * 4 + context), and for each die the units held and those that came back since its last visit -/
  carried : Nat := 0
  owed : Nat := 0
  tokenMark : Option Nat := none
  dieHeld : SMap Nat := []
  dieBack : SMap Nat := []
  sensors : SMap Int := []
  /-- what the HBM stacks read, in sixteenths of a degree (R416) -/
  stackTemp : SMap Int := []
  /-- single-bit errors that stand in cell rows and scratchpad banks, as class and number (R414) -/
  latent : List (Nat × Nat) := []
  intake : Int := 0
  buckets : SMap Bucket := []
  ports : SMap Port := []
  trunkPkg : SMap Nat := []
  /-- assignments waiting for R389: port and trunk, or none for a port that leaves -/
  trunkNew : List (Nat × Option Nat) := []
  /-- the ports whose turn it is at the soonest on the trunks, each way, and the flits delivered on each, in trunk order -/
  trunkPtr : SMap Nat := []
  trunkRx : SMap Nat := []
  trunkIn : SMap (List Flit) := []
  joined : List (Nat × List Byte) := []
  /-- the partition whose turn on the link of bulk traffic comes next, and whether a unit is on it (R397) -/
  xferTurn : Nat := 0
  xferBusy : Bool := false
  outputs : List Output := []
  identity : Bool := false
  inserted : Bool := true
  deriving DecidableEq, Repr

/-! ## What is due -/

/-- The memories of the part. Each has its own addresses: `cell` array cell number * 32 KiB + offset; `plane` (cell * 2 + plane) * 1,024 + byte;
`scratch` tower * 2 GiB + offset; `dict` array * 768 KiB + byte; `code` array * 128 KiB + byte; `hbm` by DRAM coordinates; `deep` and `host` by offset. -/
inductive Space where
  | cell
  | plane
  | scratch
  | dict
  | code
  | hbm
  | deep
  | host
  deriving DecidableEq, Repr

/-- Where a step acts: the array whose sequencer issued (or the unit), the context, the bundle, the row; `issue` says that a slot acts at its issue
and not in a row, `picked` that ISSUE_SELECT has found its bundle clear to issue; `a`, `b`, `c`, `bytes` and `frame` are what an event or a command is about. -/
structure Site where
  issue : Bool := false
  picked : Bool := false
  arr : Nat := 0
  ctx : Nat := 0
  n : Nat := 0
  pos : Nat := 0
  row : Nat := 0
  cols : BitVec 16 := 0
  rowOn : Bool := true
  wave : Nat := 0
  qpos : Nat := 0
  a : Nat := 0
  b : Nat := 0
  c : Nat := 0
  bytes : List Byte := []
  frame : Frame := {}
  deriving DecidableEq, Repr

/-- An effect an instruction leaves for a later tick. -/
inductive Micro where
  | write (sp : Space) (addr : Nat) (bs : List Byte)
  | cellRead (cell ctx addr size : Nat) (spread : Bool) (e : LwbEntry)
  | pair (cell ctx k stamp : Nat) (prod : Bool) (count : Nat)
  | word (k stamp : Nat) (prod : Bool) (count : Nat) (wave : Option Nat)
  | straitPop (cell ctx : Nat) (e : LwbEntry)
  | planeDone (cell : Nat)
  | accSet (key x : Nat) (vals : List (Nat × Int)) (ovf nfi : Bool)
  | accAdd (dkey : Nat) (vals : List (Nat × Int)) (xr : Nat) (ovf nfi : Bool) (scales : VReg)
  | accRead (key col : Nat) (st : Bool) (cell ctx : Nat) (e : LwbEntry)
  | accCopy (src dst block : Nat)
  | accConvert (key col : Nat) (toI32 : Bool) (rm : BitVec 2) (addr : Nat)
  | accScale (src dst col : Nat) (scales : VReg)
  | chunk (form : Nat) (cell plane j addr : Nat)
  | accLand (key : Nat) (vals : List Int) (x : Nat)
  | feedTick (arr : Nat)
  | feedRead (arr pass i m : Nat)
  | errCount (arr : Nat)
  | diag (arr mrow d : Nat)
  | passEnd (arr pass : Nat)
  | engineWord (a k tid q stamp : Nat) (prod last : Bool) (count : Nat)
  | kennelLoad (arr pass i : Nat)
  | peek (arr pass : Nat)
  | mismatch (arr ls cell : Nat)
  | kennelCorr (arr pass m : Nat)
  | loadRow (arr op row : Nat)
  | storeRow (arr op row : Nat)
  | storeLines (arr op row : Nat) (data : List Byte)
  | lineRead (addr : Nat) (use : LineUse)
  | lineWritten (use : LineUse)
  | walkLine (arr off epoch : Nat) (lb : Bool) (data : List Byte)
  | dictRead (arr n src j : Nat) (got : List (List Byte)) (base tid : Nat)
  | charge (a k tid n code sub addr : Nat)
  | queueTask (p launch entry target : Nat) (any : Bool) (arg : Nat) (inputs : List Nat)
  | strmRead (a j off tid : Nat)
  | strmTake (a j tid : Nat) (w : BitVec 256)
  | streamIdx (a j gen first n iq : Nat)
  | streamData (a j gen first n dq : Nat)
  | perform (req : Nat)
  | confirm (req : Nat)
  | atomLand (req : Nat)
  | walkRecord (a off tid epoch : Nat)
  | walkProgram (a m prog tid epoch plen : Nat) (gs : List Lane)
  | knBind (a off name tid limit : Nat) (gang : Bool)
  | post (p launch a k off tid n : Nat)
  | boRead (addr : Nat) (xa : BitVec 5)
  | descRead (tier : Bool) (a tid k n : Nat)
  | copyLine (t desc : Nat)
  | copyPut (t desc line : Nat) (data : List Byte)
  | msgRead (a tid k n : Nat)
  | xchRead (a : Nat) (x : XchReady)
  | peer (p peer what : Nat) (args : List Nat)
  | mpRecord (a off tid : Nat) (prog : MemProg)
  | mpLine (stack uid m : Nat)
  | mpLand (stack uid idx : Nat) (data : List Byte)
  | frameCheck (stack frame : Nat)
  | shadowRead (cell form addr : Nat)
  | shadowWrite (cell form : Nat) (data : List Byte)
  | advance (req : Nat)
  | enginesStop (p kind unit : Nat)
  | faultEvent (p : Nat)
  | env
  | issued (words : List Nat) (sstep : Bool)
  | nextCmd (p : Nat)
  | answerWhen (p : Nat) (uids : List Nat)
  | hostUnit (p : Nat)
  | hostPiece (p : Nat)
  | mirror (t bank : Nat)
  | atomStop (p a : Nat)
  deriving DecidableEq, Repr

/-- A thing that happens at its tick. -/
inductive Act where
  | instr (i : Instr)
  | slot (sl : Slot) (w : Nat)
  | walk (arr : Nat)
  | frame (f : Frame)
  | micro (m : Micro)
  deriving DecidableEq, Repr

/-- An act with its global tick, its rank within the tick and its order within the rank (log 3), and the tower whose stretching moves it. -/
structure Due where
  tick : Nat
  rank : Nat
  ord : Nat := 0
  dom : Option Nat
  site : Site
  act : Act
  deriving DecidableEq, Repr

/-- A timed input from outside the part: an Ezsan frame, or a physical or fabric event named by its instruction, with its arguments. -/
structure Input where
  tick : Nat
  site : Site
  act : Act
  deriving DecidableEq, Repr

/-- The state of the part. `free` counts the free values drawn (log 4), `uid` the identifiers given; both are the model's own. -/
structure State where
  now : Nat
  due : List Due
  site : Site
  uid : Nat
  free : Nat
  mod : Module
  towers : SMap Tower
  hbm : SMap Stack
  parts : SMap Part
  arrs : SMap Arr
  ctxs : SMap Ctx
  cells : SMap CellX
  banks : SMap Bank
  acc : SMap AccRow
  reqs : List Req
  inputs : List Input
  marks : List (Nat × Nat)
  mem : List Host.Cell
  deriving DecidableEq, Repr

/-- The machine right after module reset (R6, R87, R378, R416): nothing is allotted, nothing is due but the cold start, and every map lists nothing, so
everything the part has many of reads as its record's default. -/
def State.reset : State :=
  { now := 0
    due := [{ tick := 0, rank := 0, dom := none, site := {}, act := .instr .coldStart }]
    site := {}
    uid := 1
    free := 0
    mod := {}
    towers := []
    hbm := []
    parts := []
    arrs := []
    ctxs := []
    cells := []
    banks := []
    acc := []
    reqs := []
    inputs := []
    marks := []
    mem := [] }

end Sys2Proof.Machine
end

