-- ==== Sys2Proof/Machine/Ops.lean ====
section
/-! DEFINITION. The named operations every meaning is written over: sparse maps, the memories in their one canonical form, edits of the state and plans made
of edits, the agenda, and taking a fault (R356-R362), which is the part's only exception. -/

namespace Sys2Proof.Machine

/-! ## Sparse maps -/

/-- The value at a key, `d` where the map lists none. -/
def smGet {α : Type} (d : α) : SMap α → Nat → α
  | [], _ => d
  | (a, v) :: rest, k => if a = k then v else smGet d rest k

/-- The map with a key set; keys stay rising. -/
def smSet {α : Type} : SMap α → Nat → α → SMap α
  | [], k, v => [(k, v)]
  | (a, w) :: rest, k, v => if a < k then (a, w) :: smSet rest k v else if a = k then (k, v) :: rest else (k, v) :: (a, w) :: rest

def smDel {α : Type} (m : SMap α) (k : Nat) : SMap α := m.filter fun e => e.1 != k

/-! ## Memory: one list of listed bytes in canonical form; an unlisted byte reads 0 (log 2) -/

def memGet : List Host.Cell → Nat → Byte
  | [], _ => 0
  | (a, b) :: rest, k => if a = k then b else memGet rest k

/-- The memory with one byte written; a byte written 0 is not listed. -/
def memSet : List Host.Cell → Nat → Byte → List Host.Cell
  | [], k, v => if v = 0 then [] else [(k, v)]
  | (a, b) :: rest, k, v =>
    if a < k then (a, b) :: memSet rest k v
    else if a = k then (if v = 0 then rest else (k, v) :: rest)
    else if v = 0 then (a, b) :: rest else (k, v) :: (a, b) :: rest

/-- The memory with the addresses from `lo` up to and not including `hi` zeroed. -/
def memClear (m : List Host.Cell) (lo hi : Nat) : List Host.Cell := m.filter fun e => decide (e.1 < lo ∨ hi ≤ e.1)

/-- The canonical form: addresses strictly rising, no listed byte zero. -/
def Memory.wf : List Host.Cell → Bool
  | [] => true
  | (_, b) :: [] => b != 0
  | (a, b) :: (c, d) :: rest => decide (a < c) && b != 0 && Memory.wf ((c, d) :: rest)

/-- The number of a space; its bytes are listed from that number times 2^80. -/
def Space.num : Space → Nat
  | .cell => 0
  | .plane => 1
  | .scratch => 2
  | .dict => 3
  | .code => 4
  | .hbm => 5
  | .deep => 6
  | .host => 7

/-- Where a space's byte is listed. -/
def memKey (sp : Space) (addr : Nat) : Nat := sp.num * 2 ^ 80 + addr % 2 ^ 80

/-- One byte of the part's memory. -/
def State.byte (s : State) (sp : Space) (addr : Nat) : Byte := memGet s.mem (memKey sp addr)

/-- `n` bytes from an address. -/
def State.bytes (s : State) (sp : Space) (addr n : Nat) : List Byte := (List.range n).map fun i => s.byte sp (addr + i)

/-- A little-endian number of `n` bytes (R8). -/
def State.number (s : State) (sp : Space) (addr n : Nat) : Nat := leNat (s.bytes sp addr n)

/-- The bytes of a number, lowest first (R8). -/
def natBytes : Nat → Nat → List Byte
  | 0, _ => []
  | n + 1, v => BitVec.ofNat 8 v :: natBytes n (v / 256)

/-! ## Reading the state -/

def State.tower (s : State) (t : Nat) : Tower := smGet {} s.towers t
def State.stack (s : State) (k : Nat) : Stack := smGet {} s.hbm k
def State.part (s : State) (p : Nat) : Part := smGet {} s.parts p
def State.arr (s : State) (a : Nat) : Arr := smGet {} s.arrs a
/-- The context a task left behind on an array. -/
def Arr.ghost? (v : Arr) (tid : Nat) : Option Ctx := v.ghosts.find? fun c => c.tid == tid
def State.cellx (s : State) (c : Nat) : CellX := smGet {} s.cells c
def State.accRow (s : State) (k : Nat) : AccRow := smGet {} s.acc k
/-- Contexts are keyed by array * 4 + context. -/
def ctxKey (a k : Nat) : Nat := a * 4 + k
def State.ctx (s : State) (a k : Nat) : Ctx := smGet {} s.ctxs (ctxKey a k)
/-- The context of task `tid`, which runs or ran in context `k` of array `a`: as it stands, or as the task left it; a fresh context, of task 0, where neither is. -/
def State.ctxOf (s : State) (a k tid : Nat) : Ctx := if (s.ctx a k).tid = tid then s.ctx a k else ((s.arr a).ghost? tid).getD {}
/-- Banks are keyed by cell number * 4 + context. -/
def bankKey (cell k : Nat) : Nat := cell * 4 + k
def State.bank (s : State) (cell k : Nat) : Bank := smGet {} s.banks (bankKey cell k)
/-- The number that CTIME gives a bundle of a context: what a LOAD has made of the count. -/
def Ctx.seqOf (c : Ctx) (n : Nat) : Nat := (n + c.ctimeOff) % 2 ^ 64
/-- The context a step acts for. -/
def State.me (s : State) : Ctx := s.ctx s.site.arr s.site.ctx
/-- Accumulator rows are keyed by array * 256 + row. -/
def accKey (a row : Nat) : Nat := a * 256 + row
/-- The tower of an array (R1). -/
def towerOf (a : Nat) : Nat := a / 8
/-- The tower tick counter (R87): stretched ticks count one each. -/
def State.ttick (s : State) (t : Nat) : Nat := s.now - (s.tower t).lag
/-- The tower tick of the array a step acts for. -/
def State.tick (s : State) : Nat := s.ttick (towerOf s.site.arr)

/-- The array that holds a row of a wavefront: rows 16-31 of a gang are the upper array's (R36). -/
def physArr (a row : Nat) : Nat := if row < 16 then a else a + 4
/-- The cell number of a wavefront's row and column (R2). -/
def cellOf (a row col : Nat) : Nat := physArr a row * 256 + row % 16 * 16 + col

/-! ## Windows (R147, R223) and the launch record (R27) -/

/-- The address in the scratchpad of a window offset. -/
def State.winAddr (s : State) (t p off : Nat) : Nat := t * 2 ^ 31 + smGet 0 (s.part p).wbase t + off
def State.winSize (s : State) (t p : Nat) : Nat := smGet 0 (s.part p).wsize t
/-- Whether `n` bytes at a window offset lie in the window. -/
def State.inWin (s : State) (t p off n : Nat) : Bool := decide (off + n ≤ s.winSize t p)
/-- The address in the scratchpad of an offset in the issuing context's window. -/
def State.myWin (s : State) (off : Nat) : Nat := s.winAddr (towerOf s.site.arr) s.me.part off
def State.inMyWin (s : State) (off n : Nat) : Bool := s.inWin (towerOf s.site.arr) s.me.part off n

def Part.launch (p : Part) (uid : Nat) : Option Launch := p.launches.find? fun l => l.uid == uid
def Part.task (p : Part) (uid : Nat) : Option Task := p.tasks.find? fun t => t.uid == uid
/-- A field of the accepted copy of a launch record, by its byte offset (R18, R27). -/
def State.recField (s : State) (p launch off n : Nat) : Nat :=
  match (s.part p).launch launch with
  | some l => fieldAt l.record off n
  | none => 0

/-! ## Barrier objects (R235, R236) -/

/-- COUNT of an object at a scratchpad address. Counts are made at the end of their tick, so what a bundle or a task start goes by are those made before its
tick (R236, R237). -/
def State.objCount (s : State) (addr : Nat) : Nat := s.number .scratch (addr + 16) 8

/-- An object is complete when VALID = 1 and COUNT >= EXPECT (R235). -/
def State.objComplete (s : State) (addr : Nat) : Bool :=
  (s.byte .scratch addr).getLsbD 0 && decide (s.number .scratch (addr + 24) 8 ≤ s.objCount addr)

/-! ## Edits and plans -/

/-- One change of the state. -/
inductive Edit where
  | now (n : Nat)
  | due (ds : List Due)
  | site (x : Site)
  | uid (n : Nat)
  | free (n : Nat)
  | mod (m : Module)
  | tower (k : Nat) (v : Tower)
  | stack (k : Nat) (v : Stack)
  | part (k : Nat) (v : Part)
  | arr (k : Nat) (v : Arr)
  | ctx (k : Nat) (v : Ctx)
  | cell (k : Nat) (v : CellX)
  | bank (k : Nat) (v : Bank)
  | dropBank (k : Nat)
  | acc (k : Nat) (v : AccRow)
  | dropAcc (k : Nat)
  | reqs (rs : List Req)
  | inputs (is : List Input)
  | marks (ms : List (Nat × Nat))
  | byte (sp : Space) (addr : Nat) (b : Byte)
  | clear (sp : Space) (lo hi : Nat)
  | lose (powered : Bool)

/-- The part after a loss of power or a RESET: everything is as after module reset but the host's memory, what has been sent, and the inputs still to come, whose ticks
count from here on (log 8). -/
def State.lost (s : State) (powered : Bool) : State :=
  { State.reset with
    due := if powered then State.reset.due else [], uid := s.uid, free := s.free, inputs := s.inputs, mem := s.mem.filter fun c => decide (memKey .host 0 ≤ c.1),
    mod := { powered, inserted := s.mod.inserted, outputs := s.mod.outputs, ports := s.mod.ports.map fun e => (e.1, { failed := e.2.failed }) } }

def Edit.apply (s : State) : Edit → State
  | .now n => { s with now := n }
  | .due ds => { s with due := ds }
  | .site x => { s with site := x }
  | .uid n => { s with uid := n }
  | .free n => { s with free := n }
  | .mod m => { s with mod := m }
  | .tower k v => { s with towers := smSet s.towers k v }
  | .stack k v => { s with hbm := smSet s.hbm k v }
  | .part k v => { s with parts := smSet s.parts k v }
  | .arr k v => { s with arrs := smSet s.arrs k v }
  | .ctx k v => { s with ctxs := smSet s.ctxs k v }
  | .cell k v => { s with cells := smSet s.cells k v }
  | .bank k v => { s with banks := smSet s.banks k v }
  | .dropBank k => { s with banks := smDel s.banks k }
  | .acc k v => { s with acc := smSet s.acc k v }
  | .dropAcc k => { s with acc := smDel s.acc k }
  | .reqs rs => { s with reqs := rs }
  | .inputs is => { s with inputs := is }
  | .marks ms => { s with marks := ms }
  | .byte sp addr b => { s with mem := memSet s.mem (memKey sp addr) b }
  | .clear sp lo hi => { s with mem := memClear s.mem (memKey sp lo) (memKey sp lo + (hi - lo)) }
  | .lose powered => s.lost powered

/-- A plan: edits in order, where each may depend on the state the ones before it left. Every meaning of the model is a plan, so what no edit can do no
instruction can. -/
inductive Plan where
  | skip
  | edit (e : Edit)
  | both (p q : Plan)
  | get (f : State → Plan)

def Plan.run : Plan → State → State
  | .skip, s => s
  | .edit e, s => e.apply s
  | .both p q, s => q.run (p.run s)
  | .get f, s => (f s).run s

/-- Plans one after the other. -/
def Plan.all : List Plan → Plan
  | [] => .skip
  | p :: ps => .both p (Plan.all ps)

/-- A plan for each element of a list, in its order. -/
def Plan.each {α : Type} (xs : List α) (f : α → Plan) : Plan := Plan.all (xs.map f)

def Plan.when (c : Bool) (p : Plan) : Plan := if c then p else .skip

/-- The meaning a plan gives an instruction: the machine goes on. -/
def Plan.step (p : Plan) (s : State) : Host.Outcome State Fault Refusal := .next (p.run s)

def modMod (f : Module → Module) : Plan := .get fun s => .edit (.mod (f s.mod))
def modTower (t : Nat) (f : Tower → Tower) : Plan := .get fun s => .edit (.tower t (f (s.tower t)))
def modStack (k : Nat) (f : Stack → Stack) : Plan := .get fun s => .edit (.stack k (f (s.stack k)))
def modPart (p : Nat) (f : Part → Part) : Plan := .get fun s => .edit (.part p (f (s.part p)))
def modArr (a : Nat) (f : Arr → Arr) : Plan := .get fun s => .edit (.arr a (f (s.arr a)))
def modCtx (a k : Nat) (f : Ctx → Ctx) : Plan := .get fun s => .edit (.ctx (ctxKey a k) (f (s.ctx a k)))
/-- The context of a task changed, where it stands (State.ctxOf). -/
def modCtxOf (a k tid : Nat) (f : Ctx → Ctx) : Plan :=
  .get fun s => if (s.ctx a k).tid = tid then modCtx a k f else modArr a fun v => { v with ghosts := v.ghosts.map fun c => if c.tid = tid then f c else c }
def modMe (f : Ctx → Ctx) : Plan := .get fun s => .edit (.ctx (ctxKey s.site.arr s.site.ctx) (f s.me))
def modCell (c : Nat) (f : CellX → CellX) : Plan := .get fun s => .edit (.cell c (f (s.cellx c)))
def modBank (cell k : Nat) (f : Bank → Bank) : Plan := .get fun s => .edit (.bank (bankKey cell k) (f (s.bank cell k)))
def modAcc (k : Nat) (f : AccRow → AccRow) : Plan := .get fun s => .edit (.acc k (f (s.accRow k)))

/-- Bytes written from an address. -/
def writeBytes (sp : Space) (addr : Nat) (bs : List Byte) : Plan :=
  Plan.all (bs.zipIdx.map fun (v, i) => .edit (.byte sp (addr + i) v))

/-- A fresh identifier, given to the rest of the plan. -/
def withUid (f : Nat → Plan) : Plan := .get fun s => .both (.edit (.uid (s.uid + 1))) (f s.uid)

/-- A free value no larger than a bound (log 4), given to the rest of the plan. -/
def withFree (bound : Nat) (f : Nat → Plan) : Plan :=
  .get fun s => .both (.edit (.free (s.free + 1))) (f (Config.freeUpTo s.free bound))

/-! ## The agenda -/

/-- The ranks of the acts of one tick (log 3). -/
def rankInput : Nat := 0
def rankFrame : Nat := 5
def rankEvent : Nat := 10
def rankSchedule : Nat := 20
def rankEngineWrite : Nat := 30
def rankCellWrite : Nat := 31
def rankAccWrite : Nat := 34
def rankAccAdd : Nat := 35
def rankLanding : Nat := 36
def rankRead : Nat := 40
def rankPointer : Nat := 42
def rankProduct : Nat := 44
def rankMRow : Nat := 43
def rankEngine : Nat := 52
def rankIssue : Nat := 70
def rankPreempt : Nat := 75
def rankRow : Nat := 80
def rankWalk : Nat := 82
def rankCount : Nat := 83
def rankFeed : Nat := 84
def rankPort : Nat := 85
def rankControl : Nat := 86
def rankPortRead : Nat := 88
def rankDecide : Nat := 89
def rankEnd : Nat := 90

/-- The agenda with an act put in by tick, rank and order, after every act of the same three. -/
def insertDue (d : Due) : List Due → List Due
  | [] => [d]
  | e :: rest =>
    if e.tick < d.tick || (e.tick == d.tick && (decide (e.rank < d.rank) || (e.rank == d.rank && decide (e.ord ≤ d.ord)))) then e :: insertDue d rest
    else d :: e :: rest

/-- An act at an absolute global tick. -/
def atTick (tick rank : Nat) (dom : Option Nat) (x : Site) (act : Act) : Plan :=
  .get fun s => .edit (.due (insertDue { tick := max tick s.now, rank, dom, site := x, act } s.due))

/-- An act some tower ticks from now, at the same site, ordered among its like by the issue of its bundle. -/
def afterOrd (k rank : Nat) (act : Act) : Plan :=
  .get fun s =>
    .edit (.due (insertDue { tick := s.now + k, rank, ord := s.site.wave, dom := some (towerOf s.site.arr), site := s.site, act } s.due))

/-- An act some tower ticks from now, at the same site, in the tower of the site's array. -/
def after (k rank : Nat) (act : Act) : Plan :=
  .get fun s => atTick (s.now + k) rank (some (towerOf s.site.arr)) s.site act

/-- An act some tower ticks from now at another site. -/
def afterAt (k rank : Nat) (x : Site) (act : Act) : Plan :=
  .get fun s => atTick (s.now + k) rank (some (towerOf x.arr)) x act

/-- An act at a tower tick of a tower, not before now. -/
def atTower (t tick rank : Nat) (x : Site) (act : Act) : Plan :=
  .get fun s => atTick (tick + (s.tower t).lag) rank (some t) x act

/-- Acts done next, before anything else that is due, in their order. -/
def pushFront (acts : List (Site × Act)) : Plan :=
  .get fun s =>
    .edit (.due ((acts.map fun (x, a) => ({ tick := s.now, rank := rankRow, dom := none, site := x, act := a } : Due)) ++ s.due))

/-! ## Outputs -/

def output (o : Output) : Plan := modMod fun m => { m with outputs := m.outputs ++ [o] }

/-! ## Taking a fault (R356-R362) -/

/-- The number of an engine: its kind and unit (R363), and the context for a context's own record. -/
def engineKey (kind unit ctx : Nat) : Nat := kind * 65536 + unit * 256 + (if kind = 1 then ctx else 255)

/-- The place of an engine in the order of R358's table; a context's own record and its array's are both the array's, in that order (log 10). -/
def engineRank : Nat → Nat
  | 1 => 0
  | 2 => 1
  | 3 => 2
  | 7 => 3
  | 4 => 4
  | 5 => 5
  | _ => 6

/-- The order in which faults of one tick are primary (R359): lower array, then lower context, then engine. -/
def faultOrder (f : FaultRec) : Nat := (f.arr * 256 + f.ctx) * 16 + engineRank f.kind

/-- The array from which an array takes its T_a: members of gangs and chains of a tower share one (R360). -/
def leashLeader (s : State) (p a : Nat) : Nat :=
  let t := towerOf a
  let joined := (List.range 8).any fun i => (List.range 4).any fun k =>
    let c := s.ctx (t * 8 + i) k
    c.part == p && c.state != .free && (c.role != 0 || c.upper)
  if joined then t * 8 else a

/-- The engines that serve a partition (R358): kind and unit. -/
def enginesOf (s : State) (p : Nat) : List (Nat × Nat) :=
  let arrs := (List.range 64).filter fun a => (s.arr a).owner == some p
  let towers := (List.range 8).filter fun t => arrs.any fun a => towerOf a == t
  arrs.flatMap (fun a => [(2, a), (3, a), (4, a), (7, a)]) ++ towers.map (fun t => (5, t)) ++ (List.range 8).map fun k => (6, k)

/-- How long after the fault the leash reaches an engine: a free value of at most 48 ticks (R358). -/
def leashDelay (s : State) (p kind unit : Nat) : Nat :=
  let who := if kind = 5 || kind = 6 then unit else leashLeader s p unit
  Config.freeUpTo (s.free + kind * 64 + who) 48

/-- The fault event goes to the host at the end of the tick (R356). -/
def postFaultEvent (p : Nat) : Plan := .get fun s => atTick s.now rankEnd none {} (.micro (.faultEvent p))

/-- The leash goes up: it reaches each engine at its own T_a (R356, R358). -/
def raiseLeash (p : Nat) : Plan :=
  .get fun s =>
    Plan.all
      [ modPart p fun v => { v with leash := true },
        Plan.each (enginesOf s p) fun (kind, unit) =>
          atTick (s.now + leashDelay s p kind unit) rankEvent none { a := p, b := kind, c := unit } (.instr .leashReach),
        .edit (.free (s.free + 1024)) ]

/-- A fault already counted: the engine's NSUP (R359). -/
def suppressFault (p : Nat) (f : FaultRec) : Plan :=
  modPart p fun v =>
    let key := engineKey f.kind f.unit f.ctx
    { v with nsup := smSet v.nsup key (min (smGet 0 v.nsup key + 1) (2 ^ 32 - 1)) }

/-- The launch tag of a task of a partition. -/
def State.tagOf (s : State) (p tid : Nat) : Nat :=
  match (s.part p).task tid with
  | some t => s.recField p t.launch 8 8
  | none => 0

/-- A line marked uncorrectable (R228, R322): kinds 0 HBM, 1 deep tier, 2 scratchpad by 64-byte line, 3 cell store by 32 bytes. -/
def State.marked (s : State) (kind line : Nat) : Bool := s.marks.contains (kind, line)

/-- An uncorrectable line has been read: an event of its resource (R375, R406), at the end of the tick. -/
def lineEvent (cls num : Nat) : Plan := .get fun s => atTick s.now rankEnd none { a := 9, b := cls, c := num } (.micro .env)

/-- An uncorrectable line read, by its kind and number as State.marked has them: the row of the cell store, the bank, or a TSV group of its pseudo-channel, which one the
spec leaves open (log 4). -/
def lineLost (kind line : Nat) : Plan :=
  match kind with
  | 0 => withFree 35 fun dq => lineEvent 3 (line / 2 ^ 24 * 36 + dq)
  | 2 => lineEvent 2 (line / 2 ^ 25 * 256 + line % 256)
  | 3 => lineEvent 1 (line / 2 ^ 14)
  | _ => .skip

/-- A fault put among the records of a partition whose leash is up: it is the primary one if it comes before the one that was, in the same tick (R359). -/
def fileFault (f : FaultRec) (fs : List FaultRec) : List FaultRec :=
  match fs.find? fun g => g.primary with
  | some g =>
    if g.fgt == f.fgt && decide (faultOrder f < faultOrder g) then
      { f with primary := true } :: fs.map fun h => { h with primary := false }
    else fs ++ [f]
  | none => fs ++ [{ f with primary := true }]

/-- A fault recorded (R359): its engine records its first fault and counts the later ones, and the leash of the partition goes up with the first fault of all, which is
the primary one. Under a leash that HALT raised every record has FCODE 0, so a fault is only counted there (R400), but for 0x90, which has the state saved (R375, log 10). -/
def recordFault (p : Nat) (f : FaultRec) : Plan :=
  .get fun s =>
    let pt := s.part p
    let same := fun (g : FaultRec) => engineKey g.kind g.unit g.ctx == engineKey f.kind f.unit f.ctx
    if pt.byHalt && f.code != 0x90 then suppressFault p f
    else
    match pt.faults.find? same with
    | some g =>
      if g.fgt == f.fgt && decide (faultOrder f < faultOrder g) then
        .both (suppressFault p g) (modPart p fun v => { v with faults := fileFault f (v.faults.filter fun h => !same h) })
      else suppressFault p f
    | none =>
      Plan.all
        [ modPart p fun v => { v with faults := fileFault f v.faults },
          Plan.when (!pt.faults.any fun g => g.primary) (postFaultEvent p),
          Plan.when (!pt.leash) (raiseLeash p),
          Plan.when (f.code == 0x90) (atTick s.now rankEnd none {} (.micro (.enginesStop p 0 0))) ]

/-- Taking a fault of partition `p`, charged to context `k` of array `a` (R356, R359, R360): with `mark` the context issues nothing from the next tick. An address the
fault's rule does not state is a free value (log 4). -/
def raiseFaultIn (p tag a k : Nat) (mark : Bool) (f : FaultRec) : Plan :=
  .get fun s => Plan.all
    [ .edit (.free (s.free + 1)),
      Plan.when mark (modCtx a k fun c => { c with faulted := true, faultAt := if c.faulted then c.faultAt else s.now }),
      recordFault p { f with fgt := s.now, tag, arr := a, mine := mark, addr := if f.addr = noAddr then Config.freeUpTo s.free (2 ^ 64 - 1) else f.addr } ]

/-- A fault of the task a context runs. -/
def raiseFault (a k : Nat) (f : FaultRec) : Plan := .get fun s => raiseFaultIn (s.ctx a k).part (s.ctx a k).tag.toNat a k true f

/-- A fault of something task `tid` of partition `p` fired from context `k` of array `a`, which the task may have left. -/
def raiseFaultFor (p tid a k : Nat) (f : FaultRec) : Plan :=
  .get fun s => raiseFaultIn p (s.tagOf p tid) a k ((s.ctx a k).tid == tid && (s.ctx a k).state != .free) f

/-- The engine that a fault raised at issue belongs to: the walker's own sub-codes carry its engine id, all else is the context's (R280, R363). -/
def issueKind (code sub : Nat) : Nat := if code = 0x60 ∧ (sub = 5 ∨ sub = 6) then 7 else 1

/-- The partition of a task, by the task's identifier. -/
def State.taskPart (s : State) (tid : Nat) : Option Nat := (s.parts.find? fun e => (e.2.task tid).isSome).map (·.1)

/-- A fault raised at issue, charged to the context a step acts for. -/
def ctxFault (code sub addr : Nat) (before : Bool) : Plan :=
  .get fun s =>
    let x := s.site
    raiseFault x.arr x.ctx
      { kind := issueKind code sub, unit := x.arr, ctx := x.ctx, code, sub, addr, before, seq := if before then s.me.ctime else x.n, pos := if before then x.pos else s.me.pc }

/-- A row's fault (R146, R148, R360): recorded in the array record with row and cell, and the row executes no bundle of the context until RESUME. -/
def rowFault (code sub addr cell : Nat) : Plan :=
  .get fun s =>
    let x := s.site
    .both (modArr x.arr fun v =>
        { v with blocked := v.blocked ++ [(x.ctx, x.row)],
                 waves := v.waves.map fun w => if w.uid == x.wave then { w with blk := true } else w })
      (raiseFault x.arr x.ctx
        { kind := 2, unit := x.arr, ctx := x.ctx, code, sub, addr, rowv := true, row := x.row, cell := cell % 65536, seq := x.n, pos := x.pos })

end Sys2Proof.Machine
end

