-- ==== Sys2Proof/Machine/Operands.lean ====
section
/-! DEFINITION. Operands: what every source names (R55, R56, R91, R94), where every destination writes and when (R57, R59, R77, R97-R100), guards (R53), and the two
frames every slot meaning stands in: a Q or E slot at issue, an A, M or T slot in one row of cells. -/

namespace Sys2Proof.Machine

/-! ## The sequencer's registers (R76, R77) -/

def Ctx.xreg (c : Ctx) (i : BitVec 5) : XWord := smGet 0 c.x i.toNat
def Ctx.qreg (c : Ctx) (k : BitVec 3) : Bool := c.q.getLsbD k.toNat
def Ctx.wreg (c : Ctx) (k : BitVec 4) : Lane := smGet 0 c.w k.toNat
def Ctx.loop (c : Ctx) (k : Nat) : LoopLevel := smGet {} c.loops k

/-- X register `i` of the context a step acts for, as of its bundle. -/
def State.x (s : State) (i : BitVec 5) : XWord := s.me.xreg i

/-- A guard of a Q or E slot (R53). -/
def State.guardQ (s : State) (g : Guard) : Bool := s.me.qreg g.reg != g.neg

/-- The first place none of a list of entries has. -/
def freePlace (used : List Nat) : Nat := ((List.range used.length).find? fun i => !used.contains i).getD used.length

/-- A pending write put in order of the bundle it is due for, then its own bundle and slot (R59). -/
def insertPend (e : PendEntry) : List PendEntry → List PendEntry
  | [] => [e]
  | f :: rest =>
    if f.due < e.due || (f.due == e.due && (decide (f.n < e.n) || (f.n == e.n && decide (f.slot ≤ e.slot)))) then f :: insertPend e rest
    else e :: f :: rest

/-- A pending write landed (R77); a write to Q0 is discarded. -/
def Ctx.land (c : Ctx) (e : PendEntry) : Ctx :=
  match e.dest with
  | .x i => { c with x := smSet c.x i.toNat e.val }
  | .q k => { c with q := setPred c.q k (e.val.getLsbD 0) }
  | .w k => { c with w := smSet c.w k.toNat (e.val.setWidth 32) }

/-- Every pending write due at or before bundle `m` landed, in order. -/
def Ctx.landPend (c : Ctx) (m : Nat) : Ctx :=
  (c.pend.filter fun e => decide (e.due ≤ m)).foldl Ctx.land { c with pend := c.pend.filter fun e => decide (m < e.due) }

/-- A sequencer write of this bundle with latency `lat`, from the Q slot (0) or the E slot (4). -/
def putSeq (slot lat : Nat) (dest : QDest) (val : XWord) : Plan :=
  .get fun s => modMe fun c => { c with pend := insertPend { due := s.site.n + lat, n := s.site.n, slot, dest, val, place := freePlace (c.pend.map (·.place)) } c.pend }

def putX (lat : Nat) (xd : BitVec 5) (val : XWord) : Plan := putSeq 0 lat (.x xd) val

/-- A failed check before issue: code, sub-code, address (R78). -/
structure Chk where
  code : Nat
  sub : Nat
  addr : Nat
  deriving DecidableEq, Repr

/-- The meaning of a Q or E slot at issue (R33, R53, R78): nothing when the guard is false; a stall leaves the bundle unissued, unless ISSUE_SELECT has
found the whole bundle clear; a failed check faults before issue; otherwise the effect. -/
def atIssue (g : Guard) (stall : State → Option StallCause) (check : State → Option Chk) (eff : Plan) : Plan :=
  .get fun s =>
    if s.guardQ g then
      match (if s.site.picked then none else stall s) with
      | some _ => modMe fun c => { c with state := .stalled }
      | none =>
        match check s with
        | some f => ctxFault f.code f.sub f.addr true
        | none => eff
    else .skip

/-- The issue part of an A, M or T slot (R33, R53): its stalls and checks stand whatever the guards in the cells are. -/
def issuePart (stall : State → Option StallCause) (check : State → Option Chk) (eff : Plan) : Plan :=
  .get fun s =>
    match (if s.site.picked then none else stall s) with
    | some _ => modMe fun c => { c with state := .stalled }
    | none =>
      match check s with
      | some f => ctxFault f.code f.sub f.addr true
      | none => eff

/-- The meaning of an M or T slot that acts both when its bundle issues and in each row. -/
def twoPart (issue row : Plan) : Plan := .get fun s => if s.site.issue then issue else row

def noStall (_ : State) : Option StallCause := none
def noCheck (_ : State) : Option Chk := none

/-- A Q slot that neither stalls nor faults. -/
def atIssueAlways (g : Guard) (eff : Plan) : Plan := atIssue g noStall noCheck eff

/-! ## Cell registers (R90-R100) -/

def Bank.vreg (b : Bank) (i : BitVec 6) : VReg := smGet 0 b.v i.toNat
def Bank.oreg (b : Bank) (i : BitVec 3) : VReg := smGet 0 b.o i.toNat
def Bank.sreg (b : Bank) (i : BitVec 4) : Lane := smGet 0 b.s i.toNat
def Bank.breg (b : Bank) (k : BitVec 2) : BitVec 6 := smGet 0 b.b k.toNat

/-- C as of a point, from its history; bundle m stands at point m + 3 (R94, R96). -/
def cAsOf : List (Nat × VReg) → Nat → VReg
  | [], _ => 0
  | (n, v) :: rest, m => if n ≤ m then v else cAsOf rest m

/-- C of a bank as of bundle `n - back`, `back` at most 3; a bundle number below 0 gives 0 unless a LOAD has set it (R94, R96). -/
def Bank.cBefore (b : Bank) (n back : Nat) : VReg := cAsOf b.chist (n + 3 - back)

/-- What the format of a read makes of a small immediate (R56). -/
inductive RdFmt where
  | int (w : Nat)
  | f32
  | bf16
  | ps8
  deriving DecidableEq, Repr

def smallImm (fmt : RdFmt) (i : BitVec 6) : VReg :=
  match fmt with
  | .int w => mkElems w fun _ => wrapInt w i.toInt
  | .f32 => mkElems 32 fun _ => f32OfInt i.toInt
  | .bf16 => mkElems 16 fun _ => bf16OfInt i.toInt
  | .ps8 => mkElems 8 fun _ => ps8OfInt i.toInt

/-- A source operand of bundle `n` in a cell (R55, R56, R94, R95): `imm` is the long immediate of the slot. -/
def State.src (s : State) (fmt : RdFmt) (col : Nat) (imm : BitVec 32) (o : Src) : VReg :=
  let x := s.site
  let b := s.bank (cellOf x.arr x.row col) x.ctx
  match o with
  | .v i => b.vreg i
  | .based k n => b.vreg (b.breg k + n.setWidth 6)
  | .o i => b.oreg i
  | .la => b.la
  | .lm => b.lm
  | .nbN => if x.row = 0 then 0 else (s.bank (cellOf x.arr (x.row - 1) col) x.ctx).cBefore x.n 0
  | .nbE => if col = 15 then 0 else (s.bank (cellOf x.arr x.row (col + 1)) x.ctx).cBefore x.n 1
  | .nbS => if x.row + 1 < s.me.h then (s.bank (cellOf x.arr (x.row + 1) col) x.ctx).cBefore x.n 2 else 0
  | .nbW => if col = 0 then 0 else (s.bank (cellOf x.arr x.row (col - 1)) x.ctx).cBefore x.n 1
  | .zero => 0
  | .small i => smallImm fmt i
  | .long => mkElems 32 fun _ => imm.toNat

/-- An S-form field or its immediate (R91). -/
def State.ssrc (s : State) (col : Nat) (imm : BitVec 32) (o : SSrc) : Lane :=
  match o with
  | .s i => (s.bank (cellOf s.site.arr s.site.row col) s.site.ctx).sreg i
  | .small i => i.signExtend 32
  | .long => imm

/-- The register a destination names in one cell (R57); a based field resolves there. -/
def Bank.dest (b : Bank) : Dst → RDest
  | .v i => .v i
  | .based k n => .v (b.breg k + n.setWidth 6)
  | .o i => .o i
  | .none => .none

/-- A late write put in order of the bundle it is due for, then its own bundle and slot (R59). -/
def insertLwb (e : LwbEntry) : List LwbEntry → List LwbEntry
  | [] => [e]
  | f :: rest =>
    if f.due < e.due || (f.due == e.due && (decide (f.n < e.n) || (f.n == e.n && decide (f.slot ≤ e.slot)))) then f :: insertLwb e rest
    else e :: f :: rest

def Bank.addLate (b : Bank) (e : LwbEntry) : Bank := { b with lwb := insertLwb { e with place := freePlace (b.lwb.map (·.place)) } b.lwb }

/-- DIRTY bit `i` set (R92). -/
def markDirty (d : BitVec 103) (i : Nat) : BitVec 103 := d ||| (1#103 <<< i)

/-- Predicates written under a mask; P0 reads 1 and a write to it sets nothing (R90, R92). -/
def Bank.setPreds (b : Bank) (mask val : BitVec 8) : Bank :=
  let m := mask &&& 0xFE
  { b with p := (b.p &&& ~~~m) ||| (val &&& m), dirty := b.dirty ||| (m.setWidth 103 <<< 94) }

/-- A late write landed (R92, R99): its register, its latch, their DIRTY bits. -/
def Bank.land (b : Bank) (e : LwbEntry) : Bank :=
  let b := match e.dest with
    | .v i => { b with v := smSet b.v i.toNat e.val, dirty := markDirty b.dirty i.toNat }
    | .o i => { b with o := smSet b.o i.toNat e.val, dirty := markDirty b.dirty (64 + i.toNat) }
    | .s i => { b with s := smSet b.s i.toNat (e.val.setWidth 32), dirty := markDirty b.dirty (74 + i.toNat) }
    | .b i => { b with b := smSet b.b i.toNat (e.val.setWidth 6), dirty := markDirty b.dirty (90 + i.toNat) }
    | .p mask => b.setPreds mask (e.val.setWidth 8)
    | .none => b
  match e.latch with
  | .no => b
  | .la => { b with la := e.val, dirty := markDirty b.dirty 72 }
  | .lm => { b with lm := e.val, dirty := markDirty b.dirty 73 }

/-- Every late write due at or before bundle `m` landed, in order (R98, R99). -/
def Bank.landLate (b : Bank) (m : Nat) : Bank :=
  (b.lwb.filter fun e => decide (e.due ≤ m)).foldl Bank.land { b with lwb := b.lwb.filter fun e => decide (m < e.due) }

/-- The bank of a column of the row a step acts in. -/
def State.here (s : State) (col : Nat) : Bank := s.bank (cellOf s.site.arr s.site.row col) s.site.ctx

def modHere (col : Nat) (f : Bank → Bank) : Plan :=
  .get fun s => .edit (.bank (bankKey (cellOf s.site.arr s.site.row col) s.site.ctx) (f (s.here col)))

/-- A register write of this bundle in one cell, with latency `lat`, from slot A (1), M (2) or T (3) (R97). -/
def putCell (col slot lat : Nat) (dest : RDest) (latch : Latch) (val : VReg) : Plan :=
  .get fun s => modHere col fun b => b.addLate { due := s.site.n + lat, n := s.site.n, slot, dest, latch, val }

/-- The result of an A-slot vector instruction: its destination and LA (R93). -/
def putA (col lat : Nat) (d : Dst) (val : VReg) : Plan :=
  .get fun s => putCell col 1 lat ((s.here col).dest d) .la val

/-! ## Rows of cells (R31, R53, R148) -/

/-- The guard of an A, M or T slot in one cell (R53). -/
def State.guardP (s : State) (g : Guard) (col : Nat) : Bool := (s.here col).p.getLsbD g.reg.toNat != g.neg

/-- The columns COLSEL and the row mask select (R31). -/
def State.selCols (s : State) : List Nat :=
  if s.site.rowOn then (List.range 16).filter fun c => s.site.cols.getLsbD c else []

/-- The columns that execute a slot with this guard (R31). -/
def State.execCols (s : State) (g : Guard) : List Nat := s.selCols.filter (s.guardP g)

/-- The first failing check in column order, with its column (R148). -/
def firstFail (check : Nat → Option Chk) : List Nat → Option (Nat × Chk)
  | [] => none
  | c :: rest =>
    match check c with
    | some f => some (c, f)
    | none => firstFail check rest

/-- The meaning of an A, M or T slot in one row (R148): a failing check blocks the row and nothing happens in it; otherwise each executing cell has the effect. -/
def inRow (g : Guard) (check : State → Nat → Option Chk) (eff : Nat → Plan) : Plan :=
  .get fun s =>
    match firstFail (check s) (s.execCols g) with
    | some (c, f) => rowFault f.code f.sub f.addr (cellOf s.site.arr s.site.row c)
    | none => Plan.each (s.execCols g) eff

def noRowCheck (_ : State) (_ : Nat) : Option Chk := none

/-- A row slot that never faults (R102). -/
def inRowAlways (g : Guard) (eff : Nat → Plan) : Plan := inRow g noRowCheck eff

end Sys2Proof.Machine
end

