-- ==== Sys2Proof/Machine/Queues.lean ====
section
/-! DEFINITION. Queue control words (R155-R160): their fields, when a word is fit, the pairs of cell queues, and the reservations and advances of every
queue access. -/

namespace Sys2Proof.Machine

/-! ## The fields of a word (R155) -/

def qwPP (w : BitVec 128) : Nat := (w.extractLsb' 109 13).toNat
def qwCP (w : BitVec 128) : Nat := (w.extractLsb' 96 13).toNat
def qwBase (w : BitVec 128) : Nat := (w.extractLsb' 64 32).toNat
def qwOwnP (w : BitVec 128) : Nat := (w.extractLsb' 44 4).toNat
def qwOwnC (w : BitVec 128) : Nat := (w.extractLsb' 42 2).toNat
def qwLDepth (w : BitVec 128) : Nat := (w.extractLsb' 34 4).toNat
def qwEsz (w : BitVec 128) : Nat := (w.extractLsb' 31 3).toNat
def qwKind (w : BitVec 128) : Nat := (w.extractLsb' 29 2).toNat
def qwValid (w : BitVec 128) : Bool := w.getLsbD 0
def qwResZero (w : BitVec 128) : Bool :=
  w.extractLsb' 122 6 == 0 && w.extractLsb' 48 16 == 0 && w.extractLsb' 38 4 == 0 && w.extractLsb' 1 28 == 0

/-- The word with its PP or CP set. -/
def qwSetPP (w : BitVec 128) (v : Nat) : BitVec 128 := (w &&& ~~~(0x1FFF#128 <<< 109)) ||| ((BitVec.ofNat 128 (v % 8192)) <<< 109)
def qwSetCP (w : BitVec 128) (v : Nat) : BitVec 128 := (w &&& ~~~(0x1FFF#128 <<< 96)) ||| ((BitVec.ofNat 128 (v % 8192)) <<< 96)

/-- Element sizes in bytes (R155). -/
def eszBytes (e : Nat) : Nat :=
  match e with
  | 0 => 4
  | 1 => 8
  | 2 => 32
  | 3 => 64
  | 4 => 512
  | _ => 8192

def qwDepth (w : BitVec 128) : Nat := 2 ^ qwLDepth w
/-- The offset in the window of element `i` (ring rule before R155). -/
def qwElem (w : BitVec 128) (i : Nat) : Nat := qwBase w + i % qwDepth w * eszBytes (qwEsz w)
/-- A difference of pointers, mod 8,192. -/
def ptrSub (a b : Nat) : Nat := (a + 8192 - b % 8192) % 8192

/-- A word is fit for context `k` of partition `p` (R157), in a cell window of `cs` bytes and a tower window of `ts`. -/
def qwFit (w : BitVec 128) (p k cs ts : Nat) : Bool :=
  let e := eszBytes (qwEsz w)
  let win := if qwKind w = 3 then ts else cs
  qwValid w && qwResZero w && qwOwnP w == p && qwOwnC w == k && decide (qwLDepth w ≤ 12)
    && (if qwKind w = 3 then decide (qwEsz w ≤ 5) else decide (qwEsz w ≤ 2))
    && qwBase w % min e 512 == 0 && decide (qwBase w + qwDepth w * e ≤ win) && decide (ptrSub (qwPP w) (qwCP w) ≤ qwDepth w)

/-- Fault 0x12 for a word that is not fit (R157, R162). -/
def badWord : Chk := { code := 0x12, sub := 0, addr := noAddr }

/-! ## Words of a context -/

def Ctx.qwState (c : Ctx) (k : Nat) : QW := smGet {} c.qw k
/-- The setting of a word that bundle `n` sees: its stamp and the word (R233). -/
def QW.seen (q : QW) (n : Nat) : Nat × BitVec 128 := (((q.stamp, q.word) :: q.old).find? fun e => decide (e.1 ≤ n)).getD (0, 0)
/-- Word `k` as bundle `n` sees it. -/
def Ctx.qword (c : Ctx) (k n : Nat) : BitVec 128 := ((c.qwState k).seen n).2
/-- Which setting of word `k` bundle `n` sees. -/
def Ctx.qstamp (c : Ctx) (k n : Nat) : Nat := ((c.qwState k).seen n).1

/-- Whether word `k` is fit for the context a step acts for, as its bundle sees it. -/
def State.fit (s : State) (k : Nat) : Bool :=
  let c := s.me
  qwFit (c.qword k s.site.n) c.part s.site.ctx c.csSize (s.winSize (towerOf s.site.arr) c.part)

/-- Fill and room of a word with one pair (R160), as its engines see it. -/
def QW.fill (q : QW) : Nat := ptrSub (qwPP q.word) q.cr
def QW.room (q : QW) : Nat := qwDepth q.word - ptrSub q.pr (qwCP q.word)

def modQ (a k q : Nat) (f : QW → QW) : Plan := modCtx a k fun c => { c with qw := smSet c.qw q (f (c.qwState q)) }
/-- A word of task `tid`, whose context it may have left. -/
def modQOf (a k tid q : Nat) (f : QW → QW) : Plan := modCtxOf a k tid fun c => { c with qw := smSet c.qw q (f (c.qwState q)) }
def modMyQ (q : Nat) (f : QW → QW) : Plan := .get fun s => modQ s.site.arr s.site.ctx q f

/-- `n` elements reserved for reading: CR moves, and the word is busy until they are read (R160, R233). -/
def QW.takeIn (n : Nat) (q : QW) : QW := { q with cr := (q.cr + n) % 8192, ops := q.ops + 1 }
/-- `n` free positions reserved for writing. -/
def QW.takeOut (n : Nat) (q : QW) : QW := { q with pr := (q.pr + n) % 8192, ops := q.ops + 1 }
/-- PP or CP moved by `n` as elements perform. -/
def QW.advance (prod : Bool) (n : Nat) (q : QW) : QW :=
  if prod then { q with word := qwSetPP q.word (qwPP q.word + n) } else { q with word := qwSetCP q.word (qwCP q.word + n) }
/-- PP and CP as they were when the word's context was saved, and as they are since (R245, R332). -/
def QW.atSave (q : QW) : QW := { q with word := qwSetCP (qwSetPP q.word (qwPP q.word + 8192 - q.ppLate % 8192)) (qwCP q.word + 8192 - q.cpLate % 8192) }
def QW.caughtUp (q : QW) : QW := { q with word := qwSetCP (qwSetPP q.word (qwPP q.word + q.ppLate)) (qwCP q.word + q.cpLate), ppLate := 0, cpLate := 0 }
/-- One engine operation on the word has made its last access. -/
def QW.opDone (q : QW) : QW := { q with ops := q.ops - 1 }

/-! ## Cell queues: one pair per cell (R158) -/

/-- The pair of word `k` in a cell's bank for a word and its stamp: the cell's own if it belongs to this setting, else the word's initial pair. -/
def Bank.pairFor (b : Bank) (k stamp : Nat) (w : BitVec 128) : QPair :=
  let p := smGet {} b.pairs k
  if p.stamp = stamp then p else { stamp, pp := qwPP w, cp := qwCP w, pr := qwPP w, cr := qwCP w }

/-- The pair of word `k` in a column of the row a step acts in. -/
def State.pair (s : State) (col k : Nat) : QPair := (s.here col).pairFor k (s.me.qstamp k s.site.n) (s.me.qword k s.site.n)

def QPair.fill (p : QPair) : Nat := ptrSub p.pp p.cr
def QPair.room (p : QPair) (depth : Nat) : Nat := depth - ptrSub p.pr p.cp

def setPair (col k : Nat) (p : QPair) : Plan := modHere col fun b => { b with pairs := smSet b.pairs k p }

/-- The address in the cell-store space of an offset of the context's window in a cell. -/
def Ctx.cellAddr (c : Ctx) (cell off : Nat) : Nat := cell * 32768 + c.csBase + off

/-- The cell-store address of an offset in a column of the row a step acts in. -/
def State.cellAddr (s : State) (col off : Nat) : Nat := s.me.cellAddr (cellOf s.site.arr s.site.row col) off

/-- The latest tower tick at which a write of the task into any cell store performs (R81). -/
def noteWrite (k : Nat) : Plan :=
  .get fun s => modArr s.site.arr fun v =>
    { v with lastWrite := smSet v.lastWrite s.site.a (max (smGet 0 v.lastWrite s.site.a) (s.tick + k)) }

/-- A cell-store write some ticks after the row executes (R149). -/
def cellWrite (k addr : Nat) (bs : List Byte) : Plan := .both (noteWrite k) (after k rankCellWrite (.micro (.write .cell addr bs)))

/-- The cell-store bytes of a register's low `n` bytes. -/
def vBytes (v : VReg) (n : Nat) : List Byte := natBytes n v.toNat

/-- Entries appended to a cell queue in one cell: reserved now, written and their pointer advanced `k` ticks on (R145, R149, R158). -/
def appendCell (col q k : Nat) (es : List (List Byte)) : Plan :=
  .get fun s =>
    let w := s.me.qword q s.site.n
    let p := s.pair col q
    let cell := cellOf s.site.arr s.site.row col
    Plan.when (!es.isEmpty) <| Plan.all
      [ setPair col q { p with pr := (p.pr + es.length) % 8192 },
        Plan.each (List.range es.length) (fun i => cellWrite k (s.cellAddr col (qwElem w (p.pr + i))) (es.getD i [])),
        after k rankPointer (.micro (.pair cell s.site.ctx q p.stamp true es.length)) ]

end Sys2Proof.Machine
end

