-- ==== Sys2Proof/Machine/ASlot.lean ====
section
/-! DEFINITION. The A slot's integer instructions (R101-R111): each reads its sources in each executing cell and leaves its result in the late-write buffer. -/

namespace Sys2Proof.Machine

/-- One-source, two-source and three-source instructions: the read format, the latency, the result. -/
def aUnary (o : AUn) (fmt : RdFmt) (lat : Nat) (f : VReg → VReg) : Plan :=
  inRowAlways o.g fun c => .get fun s => putA c lat o.d (f (s.src fmt c o.imm o.a))

def aBinary (o : ABin) (fmt : RdFmt) (lat : Nat) (f : VReg → VReg → VReg) : Plan :=
  inRowAlways o.g fun c => .get fun s => putA c lat o.d (f (s.src fmt c o.imm o.a) (s.src fmt c o.imm o.b))

def aTernary (o : ATern) (fmt : RdFmt) (lat : Nat) (f : VReg → VReg → VReg → VReg) : Plan :=
  inRowAlways o.g fun c => .get fun s => putA c lat o.d (f (s.src fmt c o.imm o.a) (s.src fmt c o.imm o.b) (s.src fmt c o.imm o.c))

def ityFmt (t : BitVec 3) : RdFmt := .int (ityWidth t)

/-! ## Element-wise arithmetic (R103) -/

def execAAdd (t : BitVec 3) (o : ABin) : State → Host.Outcome State Fault Refusal := (aBinary o (ityFmt t) 1 (vAdd t)).step
def execASub (t : BitVec 3) (o : ABin) : State → Host.Outcome State Fault Refusal := (aBinary o (ityFmt t) 1 (vSub t)).step
def execAdds (t : BitVec 3) (o : ABin) : State → Host.Outcome State Fault Refusal := (aBinary o (ityFmt t) 1 (vAdds t)).step
def execSubs (t : BitVec 3) (o : ABin) : State → Host.Outcome State Fault Refusal := (aBinary o (ityFmt t) 1 (vSubs t)).step
def execAMul (t : BitVec 3) (o : ABin) : State → Host.Outcome State Fault Refusal := (aBinary o (ityFmt t) 2 (vMul t)).step
def execAMulh (t : BitVec 3) (o : ABin) : State → Host.Outcome State Fault Refusal := (aBinary o (ityFmt t) 2 (vMulh t)).step
def execMad (t : BitVec 3) (o : ATern) : State → Host.Outcome State Fault Refusal := (aTernary o (ityFmt t) 2 (vMad t)).step
def execAbs (t : BitVec 3) (o : AUn) : State → Host.Outcome State Fault Refusal := (aUnary o (ityFmt t) 1 (vAbs t)).step
def execNeg (t : BitVec 3) (o : AUn) : State → Host.Outcome State Fault Refusal := (aUnary o (ityFmt t) 1 (vNeg t)).step
def execAMin (t : BitVec 3) (o : ABin) : State → Host.Outcome State Fault Refusal := (aBinary o (ityFmt t) 1 (vMin t)).step
def execAMax (t : BitVec 3) (o : ABin) : State → Host.Outcome State Fault Refusal := (aBinary o (ityFmt t) 1 (vMax t)).step

/-! ## Logic and shifts (R104) -/

def execAAnd (o : ABin) : State → Host.Outcome State Fault Refusal := (aBinary o (.int 32) 1 fun a b => a &&& b).step
def execAOr (o : ABin) : State → Host.Outcome State Fault Refusal := (aBinary o (.int 32) 1 fun a b => a ||| b).step
def execAXor (o : ABin) : State → Host.Outcome State Fault Refusal := (aBinary o (.int 32) 1 fun a b => a ^^^ b).step
def execAndn (o : ABin) : State → Host.Outcome State Fault Refusal := (aBinary o (.int 32) 1 fun a b => a &&& ~~~b).step
def execNot (o : AUn) : State → Host.Outcome State Fault Refusal := (aUnary o (.int 32) 1 fun a => ~~~a).step
def execAShl (t : BitVec 3) (o : ABin) : State → Host.Outcome State Fault Refusal := (aBinary o (ityFmt t) 1 (vShl t)).step
def execAShr (t : BitVec 3) (o : ABin) : State → Host.Outcome State Fault Refusal := (aBinary o (ityFmt t) 1 (vShr t)).step
def execASra (t : BitVec 3) (o : ABin) : State → Host.Outcome State Fault Refusal := (aBinary o (ityFmt t) 1 (vSra t)).step

/-! ## Compare, select, move (R105, R106) -/

/-- A compare in one cell: its predicates written under the combining type (R105, R83). -/
def aCompare (c : ACmpF) (conds : State → Nat → List Bool) : Plan :=
  .get fun s =>
    Plan.each s.selCols fun col => .get fun s =>
      let p := (s.here col).p
      let g := p.getLsbD c.qg.toNat != c.qn
      match combine c.ctype g (reduceConds c.red (conds s col)) (p.getLsbD c.p1.toNat) (p.getLsbD c.p2.toNat) with
      | some (v1, v2) =>
        let m1 : BitVec 8 := 1#8 <<< c.p1.toNat
        let m2 : BitVec 8 := 1#8 <<< c.p2.toNat
        let val : BitVec 8 := (if v1 then m1 else 0) ||| (if v2 then m2 else 0)
        putCell col 1 1 (.p (m1 ||| m2)) .no (val.setWidth 256)
      | none => .skip

def execACmp (t : BitVec 3) (c : ACmpF) (a b : Src) (imm : BitVec 32) : State → Host.Outcome State Fault Refusal :=
  (aCompare c fun s col => vConds t c.cond (s.src (ityFmt t) col imm a) (s.src (ityFmt t) col imm b)).step

def execASel (t : BitVec 3) (o : ATern) : State → Host.Outcome State Fault Refusal := (aTernary o (ityFmt t) 1 (vSel t)).step
def execAMov (o : AUn) : State → Host.Outcome State Fault Refusal := (aUnary o (.int 32) 1 fun a => a).step

/-! ## The scalar group (R107) -/

/-- A write of an S register (no latch, R93). -/
def putS (col lat : Nat) (d : BitVec 4) (v : Lane) : Plan := putCell col 1 lat (.s d) .no (v.setWidth 256)

def sBinary (o : SBin) (lat : Nat) (f : Lane → Lane → Lane) : Plan :=
  inRowAlways o.g fun c => .get fun s => putS c lat o.d (f ((s.here c).sreg o.a) (s.ssrc c o.imm o.b))

/-- A scalar shift right (R107): by 32 or more, nothing but the sign is left. -/
def laneShr (arith : Bool) (a b : Lane) : Lane := if arith then a.sshiftRight b.toNat else a >>> b.toNat

def execSadd (o : SBin) : State → Host.Outcome State Fault Refusal := (sBinary o 1 fun a b => a + b).step
def execSsub (o : SBin) : State → Host.Outcome State Fault Refusal := (sBinary o 1 fun a b => a - b).step
def execSmul (o : SBin) : State → Host.Outcome State Fault Refusal := (sBinary o 2 fun a b => a * b).step
def execSand (o : SBin) : State → Host.Outcome State Fault Refusal := (sBinary o 1 fun a b => a &&& b).step
def execSor (o : SBin) : State → Host.Outcome State Fault Refusal := (sBinary o 1 fun a b => a ||| b).step
def execSxor (o : SBin) : State → Host.Outcome State Fault Refusal := (sBinary o 1 fun a b => a ^^^ b).step
def execSshl (o : SBin) : State → Host.Outcome State Fault Refusal := (sBinary o 1 fun a b => if 32 ≤ b.toNat then 0 else a <<< b.toNat).step
def execSshr (arith : Bool) (o : SBin) : State → Host.Outcome State Fault Refusal :=
  (sBinary o 1 fun a b => if 32 ≤ b.toNat then (if arith && a.msb then BitVec.allOnes 32 else 0) else laneShr arith a b).step
def execSli (g : Guard) (d : BitVec 4) (v : SSrc) (imm : BitVec 32) : State → Host.Outcome State Fault Refusal :=
  (inRowAlways g fun c => .get fun s => putS c 1 d (s.ssrc c imm v)).step
def execSget (g : Guard) (d : BitVec 4) (lane : BitVec 3) (a : Src) (imm : BitVec 32) : State → Host.Outcome State Fault Refusal :=
  (inRowAlways g fun c => .get fun s => putS c 1 d (BitVec.ofNat 32 (elem 32 lane.toNat (s.src (.int 32) c imm a)))).step
def execScmp (c : ACmpF) (a : BitVec 4) (b : SSrc) (imm : BitVec 32) : State → Host.Outcome State Fault Refusal :=
  (aCompare c fun s col => [condHolds c.cond ((s.here col).sreg a) (s.ssrc col imm b)]).step

/-! ## Permute, broadcast, reduce, scan, count, base (R108-R111) -/

def execPerm (g : Guard) (d : Dst) (a : Src) (sel : BitVec 24) : State → Host.Outcome State Fault Refusal :=
  (inRowAlways g fun c => .get fun s => putA c 1 d (vPerm sel (s.src (.int 32) c 0 a))).step
def execPermv (o : ABin) : State → Host.Outcome State Fault Refusal := (aBinary o (.int 32) 1 vPermv).step
def execBcast (t : BitVec 3) (k : BitVec 5) (o : AUn) : State → Host.Outcome State Fault Refusal := (aUnary o (ityFmt t) 1 (vBcast t k.toNat)).step
def execBcasts (t : BitVec 3) (g : Guard) (d : Dst) (b : SSrc) (imm : BitVec 32) : State → Host.Outcome State Fault Refusal :=
  (inRowAlways g fun c => .get fun s => putA c 1 d (vSplat t (s.ssrc c imm b))).step
def execRed (op : BitVec 3) (t : BitVec 3) (o : AUn) : State → Host.Outcome State Fault Refusal := (aUnary o (ityFmt t) 2 (vRed op t)).step
def execScan (op : BitVec 3) (ex : Bool) (t : BitVec 3) (o : AUn) : State → Host.Outcome State Fault Refusal := (aUnary o (ityFmt t) 2 (vScan op ex t)).step
def execPopc (t : BitVec 3) (o : AUn) : State → Host.Outcome State Fault Refusal := (aUnary o (ityFmt t) 1 (vPopc t)).step
def execClz (t : BitVec 3) (o : AUn) : State → Host.Outcome State Fault Refusal := (aUnary o (ityFmt t) 1 (vClz t)).step
def execBset (g : Guard) (k : BitVec 2) (b : SSrc) (imm : BitVec 32) : State → Host.Outcome State Fault Refusal :=
  (inRowAlways g fun c => .get fun s => putCell c 1 2 (.b k) .no ((s.ssrc c imm b).setWidth 256)).step

end Sys2Proof.Machine
end

