-- ==== Sys2Proof/Machine/AFloat.lean ====
section
/-! DEFINITION. The A slot's FP32 instructions (R131-R141) and conversions, with the strays of the narrowing ones (R142-R146). -/

namespace Sys2Proof.Machine

def fUnary (o : AUn) (lat : Nat) (f : Nat → Nat) : Plan := aUnary o .f32 lat (f32Un f)
def fBinary (o : ABin) (lat : Nat) (f : Nat → Nat → Nat) : Plan := aBinary o .f32 lat (f32Bin f)
def fTernary (o : ATern) (lat : Nat) (f : Nat → Nat → Nat → Nat) : Plan := aTernary o .f32 lat (f32Tern f)

/-! ## Arithmetic (R132-R134) -/

def execFadd (rm : BitVec 2) (o : ABin) : State → Host.Outcome State Fault Refusal := (fBinary o 3 (f32Add (.ofBits rm))).step
def execFsub (rm : BitVec 2) (o : ABin) : State → Host.Outcome State Fault Refusal := (fBinary o 3 (f32Sub (.ofBits rm))).step
def execFmul (rm : BitVec 2) (o : ABin) : State → Host.Outcome State Fault Refusal := (fBinary o 3 (f32Mul (.ofBits rm))).step
def execFma (rm : BitVec 2) (o : ATern) : State → Host.Outcome State Fault Refusal := (fTernary o 4 (f32Fma (.ofBits rm) false false)).step
def execFms (rm : BitVec 2) (o : ATern) : State → Host.Outcome State Fault Refusal := (fTernary o 4 (f32Fma (.ofBits rm) false true)).step
def execFnma (rm : BitVec 2) (o : ATern) : State → Host.Outcome State Fault Refusal := (fTernary o 4 (f32Fma (.ofBits rm) true false)).step
def execFnms (rm : BitVec 2) (o : ATern) : State → Host.Outcome State Fault Refusal := (fTernary o 4 (f32Fma (.ofBits rm) true true)).step
def execFmin (o : ABin) : State → Host.Outcome State Fault Refusal := (fBinary o 1 (f32MinMax true)).step
def execFmax (o : ABin) : State → Host.Outcome State Fault Refusal := (fBinary o 1 (f32MinMax false)).step
def execFabs (o : AUn) : State → Host.Outcome State Fault Refusal := (fUnary o 1 fun a => a % 2 ^ 31).step
def execFneg (o : AUn) : State → Host.Outcome State Fault Refusal := (fUnary o 1 fun a => (a + 2 ^ 31) % 2 ^ 32).step

/-! ## Compare and classify (R135, R136) -/

def execFcmp (c : ACmpF) (a b : Src) (imm : BitVec 32) : State → Host.Outcome State Fault Refusal :=
  (aCompare c fun s col =>
    let x := s.src .f32 col imm a
    let y := s.src .f32 col imm b
    (List.range 8).map fun l => f32Cond c.cond.toNat (elem 32 l x) (elem 32 l y)).step
def execFclass (o : AUn) : State → Host.Outcome State Fault Refusal := (fUnary o 1 f32Class).step

/-! ## Rounding and exponents (R137-R141) -/

def execFrnd (rm : BitVec 2) (o : AUn) : State → Host.Outcome State Fault Refusal := (fUnary o 2 (f32Round (.ofBits rm))).step
def execFexp2f (o : AUn) : State → Host.Outcome State Fault Refusal := (fUnary o 6 f32Exp2).step
/-- SB of `fexpins` is read as I32 lanes (R131, R139). -/
def execFexpins (rm : BitVec 2) (o : ABin) : State → Host.Outcome State Fault Refusal :=
  (inRowAlways o.g fun c => .get fun s =>
    putA c 3 o.d (f32Bin (fun a n => f32ExpIns (.ofBits rm) a (asSigned 32 n)) (s.src .f32 c o.imm o.a) (s.src (.int 32) c o.imm o.b))).step
def execFgetexp (o : AUn) : State → Host.Outcome State Fault Refusal := (fUnary o 2 f32GetExp).step
def execFrcp (rm : BitVec 2) (o : AUn) : State → Host.Outcome State Fault Refusal := (fUnary o 6 (f32Rcp (.ofBits rm))).step
def execFrsq (rm : BitVec 2) (o : AUn) : State → Host.Outcome State Fault Refusal := (fUnary o 6 (f32Rsq (.ofBits rm))).step

/-! ## Widening and same-width conversions (R143) -/

/-- Lane l := f (element 8p + l of width w). -/
def cvtWiden (w p : Nat) (f : Nat → Nat) (a : VReg) : VReg := mkElems 32 fun l => f (elem w (8 * p + l) a)

def execCvtF32Bf16 (p : BitVec 2) (o : AUn) : State → Host.Outcome State Fault Refusal :=
  (aUnary o .bf16 2 (cvtWiden 16 p.toNat fun e => e * 65536)).step
def execCvtF32I (rm : BitVec 2) (t : BitVec 3) (p : BitVec 2) (o : AUn) : State → Host.Outcome State Fault Refusal :=
  (aUnary o (ityFmt t) 2 (cvtWiden (ityWidth t) p.toNat fun e => rndBin 23 (.ofBits rm) (Frac.ofInt (ityVal t e) 1))).step
def execCvtI32F32 (rm : BitVec 2) (o : AUn) : State → Host.Outcome State Fault Refusal := (fUnary o 2 (f32ToI32 (.ofBits rm))).step
def execCvtF32Ps8 (p : BitVec 2) (o : AUn) : State → Host.Outcome State Fault Refusal :=
  (aUnary o .ps8 2 (cvtWiden 8 p.toNat f32OfPs8)).step
def execCvtI32I (t : BitVec 3) (p : BitVec 2) (o : AUn) : State → Host.Outcome State Fault Refusal :=
  (aUnary o (ityFmt t) 2 (cvtWiden (ityWidth t) p.toNat fun e => wrapInt 32 (ityVal t e))).step

/-! ## Narrowing conversions (R144-R146) -/

/-- What a narrowing conversion does in a cell: the width of its elements, its part, its list, how long after te the strays are written, its latency, the zero
code of a stray, the source lanes as read, and the converted element of each lane (none for a stray). -/
structure Narrow where
  g : Guard
  w : Nat
  p : Nat
  q : Nat
  k : Nat
  lat : Nat
  zero : Nat
  d : Dst
  base : SSrc
  imm : BitVec 32
  lanes : State → Nat → List Nat
  conv : State → Nat → List (Option Nat)

/-- The old value of a destination, read as a source as of the bundle; zero for `_` (R142). -/
def Bank.destVal (b : Bank) (d : Dst) : VReg :=
  match b.dest d with
  | .v i => b.vreg i
  | .o i => b.oreg i
  | _ => 0

def Narrow.strays (n : Narrow) (s : State) (col : Nat) : Nat := ((n.conv s col).filter Option.isNone).length

/-- A list is fit for strays: a fit cell queue of 8-byte elements (R145). -/
def strayFit (s : State) (q : Nat) : Bool := let w := s.me.qword q s.site.n; s.fit q && qwKind w == 0 && qwEsz w == 1

/-- The check of R146 in one cell. -/
def Narrow.check (n : Narrow) (s : State) (col : Nat) : Option Chk :=
  let cnt := n.strays s col
  let cell := cellOf s.site.arr s.site.row col
  if !strayFit s n.q then some { code := 0x12, sub := min cnt 255, addr := cell }
  else if (s.pair col n.q).room (qwDepth (s.me.qword n.q s.site.n)) < cnt then some { code := 0x13, sub := min cnt 255, addr := cell }
  else none

/-- The entries a cell appends, in ascending element order (R118, R119, R145). -/
def Narrow.entries (n : Narrow) (s : State) (col : Nat) : List (List Byte) :=
  let b := s.ssrc col n.imm n.base
  let lanes := n.lanes s col
  let conv := n.conv s col
  (List.range 8).filterMap fun l =>
    if (conv.getD l none).isNone then
      some (natBytes 4 ((b.toNat + 8 * n.p + l) % 2 ^ 32) ++ natBytes 4 (lanes.getD l 0))
    else none

def Narrow.effect (n : Narrow) (col : Nat) : Plan :=
  .get fun s =>
    let old := (s.here col).destVal n.d
    let es := (n.conv s col).map fun e => e.getD n.zero
    .both (appendCell col n.q n.k (n.entries s col)) (putA col n.lat n.d (setGroup n.w n.p old es))

def Narrow.plan (n : Narrow) : Plan := inRow n.g n.check n.effect

def srcLanes (fmt : RdFmt) (a : Src) (imm : BitVec 32) (s : State) (col : Nat) : List Nat := elems 32 (s.src fmt col imm a)

def narrowOf (o : ANarrow) (w zcode : Nat) (fmt : RdFmt) (conv : Nat → Option Nat) : Narrow :=
  { g := o.g, w, p := o.part.toNat, q := o.qw.toNat, k := 3, lat := 2, zero := zcode, d := o.d, base := o.base, imm := o.imm,
    lanes := srcLanes fmt o.a o.imm, conv := fun s col => (srcLanes fmt o.a o.imm s col).map conv }

def quantOf (o : AQuant) (zcode : Nat) (conv : Nat → Nat → Option Nat) : Narrow :=
  { g := o.g, w := 8, p := o.part.toNat, q := o.qw.toNat, k := 4, lat := 3, zero := zcode, d := o.d, base := o.base, imm := o.imm,
    lanes := srcLanes .f32 o.a o.imm,
    conv := fun s col => List.zipWith conv (srcLanes .f32 o.a o.imm s col) (srcLanes .f32 o.s o.imm s col) }

def narrowI32 (w : Nat) (v : Nat) : Option Nat := intFits w (asSigned 32 v)

def execCvtBf16F32 (rm : BitVec 2) (o : ANarrow) : State → Host.Outcome State Fault Refusal :=
  (narrowOf o 16 0 .f32 (narrowF32Bf16 (.ofBits rm))).plan.step
def execCvtI8F32 (rm : BitVec 2) (o : ANarrow) : State → Host.Outcome State Fault Refusal :=
  (narrowOf o 8 0 .f32 (narrowF32Int 8 (.ofBits rm))).plan.step
def execCvtI16F32 (rm : BitVec 2) (o : ANarrow) : State → Host.Outcome State Fault Refusal :=
  (narrowOf o 16 0 .f32 (narrowF32Int 16 (.ofBits rm))).plan.step
def execCvtPs8F32 (o : ANarrow) : State → Host.Outcome State Fault Refusal := (narrowOf o 8 0x77 .f32 narrowF32Ps8).plan.step
def execCvtI8I32 (o : ANarrow) : State → Host.Outcome State Fault Refusal := (narrowOf o 8 0 (.int 32) (narrowI32 8)).plan.step
def execCvtI16I32 (o : ANarrow) : State → Host.Outcome State Fault Refusal := (narrowOf o 16 0 (.int 32) (narrowI32 16)).plan.step
def execQuantI8 (rm : BitVec 2) (o : AQuant) : State → Host.Outcome State Fault Refusal := (quantOf o 0 (quantI8Elem (.ofBits rm))).plan.step
def execQuantPs8 (o : AQuant) : State → Host.Outcome State Fault Refusal := (quantOf o 0x77 quantPs8Elem).plan.step

/-- The narrowing conversion an instruction is, if it is one: what ROW_EXECUTE checks before the M slot (R146, R158). -/
def narrowOfInstr : Instr → Option Narrow
  | .cvtBf16F32 rm o => some (narrowOf o 16 0 .f32 (narrowF32Bf16 (.ofBits rm)))
  | .cvtI8F32 rm o => some (narrowOf o 8 0 .f32 (narrowF32Int 8 (.ofBits rm)))
  | .cvtI16F32 rm o => some (narrowOf o 16 0 .f32 (narrowF32Int 16 (.ofBits rm)))
  | .cvtPs8F32 o => some (narrowOf o 8 0x77 .f32 narrowF32Ps8)
  | .cvtI8I32 o => some (narrowOf o 8 0 (.int 32) (narrowI32 8))
  | .cvtI16I32 o => some (narrowOf o 16 0 (.int 32) (narrowI32 16))
  | .quantI8 rm o => some (quantOf o 0 (quantI8Elem (.ofBits rm)))
  | .quantPs8 o => some (quantOf o 0x77 quantPs8Elem)
  | _ => none

end Sys2Proof.Machine
end

