-- ==== Sys2Proof/Machine/QSlot.lean ====
section
/-! DEFINITION. The Q slot: control, loops, scalar arithmetic, compares, parameters, flags, row masks, time, fences, barrier waits and system registers (R78-R89). -/

namespace Sys2Proof.Machine

def setPc (pc : Nat) : Plan := modMe fun c => { c with pc, widePc := 0 }

/-! ## Branches, calls and returns (R79) -/

/-- The position `br.x` and `call.x` go to: a value of 2^16 or more keeps all its bits for the fault it meets where it would issue (R79). -/
def setPcX (v : XWord) : Plan := modMe fun c => if v.toNat < 2 ^ 16 then { c with pc := v.toNat, widePc := 0 } else { c with pc := 0xFFFF, widePc := v.toNat }

/-- The next position. It is 2^16 after a bundle that ends at the last halfword of a window of 65,536 (log 21). -/
def Ctx.nextPos (c : Ctx) : Nat := if c.widePc = 0 then c.pc else c.widePc

/-- The next PC pushed. CS is 16 bits wide (R76): of a next position of 2^16, which R79 gives neither a wrap nor a fault, the entry takes the low 16 bits (DESIGN CHOICE,
log 21). -/
def pushCall : Plan := modMe fun c => { c with cs := smSet c.cs c.depth (c.nextPos % 2 ^ 16), depth := c.depth + 1 }

def callCheck (s : State) : Option Chk := if 16 ≤ s.me.depth then some { code := 0x04, sub := 0, addr := noAddr } else none
def retCheck (s : State) : Option Chk := if s.me.depth = 0 then some { code := 0x04, sub := 1, addr := noAddr } else none

def execBr (g : Guard) (t : BitVec 16) : State → Host.Outcome State Fault Refusal := (atIssueAlways g (setPc t.toNat)).step
def execBrX (g : Guard) (xa : BitVec 5) : State → Host.Outcome State Fault Refusal :=
  (atIssueAlways g (.get fun s => setPcX (s.x xa))).step
def execCall (g : Guard) (t : BitVec 16) : State → Host.Outcome State Fault Refusal :=
  (atIssue g noStall callCheck (.both pushCall (setPc t.toNat))).step
def execCallX (g : Guard) (xa : BitVec 5) : State → Host.Outcome State Fault Refusal :=
  (atIssue g noStall callCheck (.get fun s => .both pushCall (setPcX (s.x xa)))).step
def execRet (g : Guard) : State → Host.Outcome State Fault Refusal :=
  (atIssue g noStall retCheck (modMe fun c => { c with pc := smGet 0 c.cs (c.depth - 1), widePc := 0, depth := c.depth - 1 })).step

/-! ## The next bundle of a context (R44-R48) -/

def dictEntry (a i : Nat) : Nat := a * 786432 + i * 48

/-- What stands at a code position: a bundle and the next position, or a fault. -/
inductive Fetched where
  | bad (code sub addr : Nat) (wide : Bool)
  | found (b : BitVec 384) (next : Nat)
  deriving DecidableEq, Repr

/-- A halfword of the context's code window. -/
def codeWord (s : State) (a : Nat) (c : Ctx) (i : Nat) : Nat := s.number .code (a * 131072 + (c.cb + i) * 2) 2

def fetchBundle (s : State) (a k : Nat) : Fetched :=
  let c := s.ctx a k
  let w := codeWord s a c c.pc
  if c.widePc ≠ 0 then .bad 0x02 1 c.widePc true
  else if c.csz ≤ c.pc then .bad 0x02 1 noAddr false
  else if w = 0 then .found idleBundle (c.pc + 1)
  else if w < c.dsz then .found (bundleOfBytes (s.bytes .dict (dictEntry a (c.db + w)) 48)) (c.pc + 1)
  else if w = 0xFFFE then .bad 0x03 0 noAddr false
  else if w = 0xFFFF then
    let b := bundleOfBytes (s.bytes .code (a * 131072 + (c.cb + c.pc + 1) * 2) 48)
    if c.csz ≤ c.pc + 24 then .bad 0x02 1 noAddr false else if bundleLegal b then .found b (c.pc + 25) else .bad 0x03 1 noAddr false
  else .bad 0x02 0 noAddr false

/-- The instructions of a bundle; a bundle of the stores is legal (R61, R72, R75). -/
def instrsOf (b : BitVec 384) : List (Slot × Instr) := (bundleInstrs b).getD []

/-- The members of the unit of an east chain besides the one a step acts for: the partner array (R38). -/
def chainPartner (a role : Nat) : Option Nat := if role = 2 then some (a + 1) else if role = 3 then some (a - 1) else none

/-- The context of the partner array that is chained with a context: while the partner runs the same task. -/
def chainMate (s : State) (a k : Nat) : Option (Nat × Nat) :=
  let c := s.ctx a k
  if c.state == .free then none
  else
    match chainPartner a c.role with
    | some b => ((List.range 4).find? fun j => (s.ctx b j).tid == c.tid && (s.ctx b j).part == c.part && (s.ctx b j).state != .free).map fun j => (b, j)
    | none => none

/-! ## Loops (R80) -/

def loopCheck (k : BitVec 3) (s : State) : Option Chk :=
  let l := s.me.loop k.toNat
  if l.stop = l.start then some { code := 0x05, sub := 0, addr := noAddr } else none

/-- A level started over: index at start, count at end - start. -/
def LoopLevel.restart (l : LoopLevel) : LoopLevel := { l with index := l.start, count := l.stop - l.start }

def Ctx.setLoop (c : Ctx) (k : Nat) (l : LoopLevel) : Ctx := { c with loops := smSet c.loops k l }

/-- One turn of a level (R80): the level after it, and whether it branches. -/
def LoopLevel.turn (l : LoopLevel) : LoopLevel × Bool :=
  if l.count - 1 ≠ 0 then ({ l with count := l.count - 1, index := l.index + 1 }, true) else (l.restart, false)

/-- The two members of a chain, or the one context (R39). -/
def unitMembers (s : State) : List (Nat × Nat) :=
  let me := s.me
  (s.site.arr, s.site.ctx) ::
    match chainPartner s.site.arr me.role with
    | some b =>
      match (List.range 4).find? fun k => (s.ctx b k).tid == me.tid && (s.ctx b k).state != .free with
      | some k => [(b, k)]
      | none => []
    | none => []

/-- An iteration boundary of level `k` (R80, R347): with a checkpoint requested at a level at or above `k`, every member of the unit becomes Saving, and its
save is looked after from here on. -/
def boundary (k : Nat) : Plan :=
  .get fun s =>
    let c := s.me
    Plan.when (c.state != .saving && c.preq.any (fun r => r.mode == 1 && decide (k ≤ r.lq)) && decide (k < c.nlev))
      (Plan.each (unitMembers s) fun (a, kk) =>
        .both (modCtx a kk fun c => { c with state := .saving })
          (afterAt 0 rankEnd { arr := a, ctx := kk } (.instr .checkpointSave)))

def execLoop (g : Guard) (k : BitVec 3) (t : BitVec 16) : State → Host.Outcome State Fault Refusal :=
  (atIssue g noStall (loopCheck k)
    (.both (modMe fun c =>
        let (l, branch) := (c.loop k.toNat).turn
        let c := c.setLoop k.toNat l
        if branch then { c with pc := t.toNat, widePc := 0 } else c)
      (boundary k.toNat))).step

def execLbrk (g : Guard) (k : BitVec 3) (t : BitVec 16) : State → Host.Outcome State Fault Refusal :=
  (atIssueAlways g (modMe fun c => { c.setLoop k.toNat (c.loop k.toNat).restart with pc := t.toNat, widePc := 0 })).step

def LoopLevel.field (l : LoopLevel) (f : BitVec 2) : BitVec 32 :=
  match f.toNat with
  | 0 => l.index
  | 1 => l.count
  | 2 => l.start
  | _ => l.stop

def execLidx (g : Guard) (xd : BitVec 5) (k : BitVec 3) (f : BitVec 2) : State → Host.Outcome State Fault Refusal :=
  (atIssueAlways g (.get fun s => putX 1 xd (((s.me.loop k.toNat).field f).setWidth 64))).step

def lidxSetCheck (k : BitVec 3) (xa xb : BitVec 5) (s : State) : Option Chk :=
  if k.toNat < s.me.nlev then some { code := 0x05, sub := 1, addr := noAddr }
  else if ((s.x xb).setWidth 32).toNat < ((s.x xa).setWidth 32).toNat then some { code := 0x05, sub := 2, addr := noAddr }
  else none

def execLidxSet (g : Guard) (k : BitVec 3) (xa xb : BitVec 5) : State → Host.Outcome State Fault Refusal :=
  (atIssue g noStall (lidxSetCheck k xa xb)
    (.get fun s =>
      let start : BitVec 32 := (s.x xa).setWidth 32
      let stop : BitVec 32 := (s.x xb).setWidth 32
      modMe fun c => c.setLoop k.toNat { index := start, count := stop - start, start, stop })).step

/-! ## Task and debug control (R81); `task.end` is with the scheduler -/

def execYield (g : Guard) : State → Host.Outcome State Fault Refusal := (atIssueAlways g (modMe fun c => { c with yielded := true })).step
def execTrap (g : Guard) (n : BitVec 8) : State → Host.Outcome State Fault Refusal := (atIssueAlways g (ctxFault 0x06 n.toNat noAddr false)).step
def execBrk (g : Guard) : State → Host.Outcome State Fault Refusal :=
  (atIssueAlways g (.get fun s => Plan.when (s.me.dbg.getLsbD 0) (ctxFault 0x07 0 noAddr false))).step
def execMark (g : Guard) (n : BitVec 8) : State → Host.Outcome State Fault Refusal := (atIssueAlways g (modMe fun c => { c with phase := n })).step

/-! ## Scalar arithmetic (R82) -/

def qBin (o : QRRR) (lat : Nat) (f : XWord → XWord → XWord) : Plan :=
  atIssueAlways o.g (.get fun s => putX lat o.xd (f (s.x o.xa) (s.x o.xb)))

def qImm (o : QRRI) (f : XWord → XWord → XWord) : Plan :=
  atIssueAlways o.g (.get fun s => putX 1 o.xd (f (s.x o.xa) (o.imm.signExtend 64)))

def qCount (n : QCount) (s : State) : Nat :=
  match n with
  | .reg xb => (s.x xb).toNat % 64
  | .imm k => k.toNat

def qShiftBy (o : QShift) (f : XWord → Nat → XWord) : Plan :=
  atIssueAlways o.g (.get fun s => putX 1 o.xd (f (s.x o.xa) (qCount o.n s)))

/-- The high 64 bits of the signed 128-bit product. -/
def mulHighS (a b : XWord) : XWord := BitVec.ofInt 64 (a.toInt * b.toInt / 2 ^ 64)
/-- The high 64 bits of the unsigned 128-bit product. -/
def mulHighU (a b : XWord) : XWord := BitVec.ofNat 64 (a.toNat * b.toNat / 2 ^ 64)

def execQAdd (o : QRRR) : State → Host.Outcome State Fault Refusal := (qBin o 1 fun a b => a + b).step
def execQAddi (o : QRRI) : State → Host.Outcome State Fault Refusal := (qImm o fun a b => a + b).step
def execQSub (o : QRRR) : State → Host.Outcome State Fault Refusal := (qBin o 1 fun a b => a - b).step
def execQMul (o : QRRR) : State → Host.Outcome State Fault Refusal := (qBin o 2 fun a b => a * b).step
def execQMulh (o : QRRR) : State → Host.Outcome State Fault Refusal := (qBin o 2 mulHighS).step
def execQMulhu (o : QRRR) : State → Host.Outcome State Fault Refusal := (qBin o 2 mulHighU).step
def execQAnd (o : QRRR) : State → Host.Outcome State Fault Refusal := (qBin o 1 fun a b => a &&& b).step
def execQAndi (o : QRRI) : State → Host.Outcome State Fault Refusal := (qImm o fun a b => a &&& b).step
def execQOr (o : QRRR) : State → Host.Outcome State Fault Refusal := (qBin o 1 fun a b => a ||| b).step
def execQOri (o : QRRI) : State → Host.Outcome State Fault Refusal := (qImm o fun a b => a ||| b).step
def execQXor (o : QRRR) : State → Host.Outcome State Fault Refusal := (qBin o 1 fun a b => a ^^^ b).step
def execQXori (o : QRRI) : State → Host.Outcome State Fault Refusal := (qImm o fun a b => a ^^^ b).step
def execQShl (o : QShift) : State → Host.Outcome State Fault Refusal := (qShiftBy o fun a n => a <<< n).step
def execQShr (o : QShift) : State → Host.Outcome State Fault Refusal := (qShiftBy o fun a n => a >>> n).step
def execQSra (o : QShift) : State → Host.Outcome State Fault Refusal := (qShiftBy o fun a n => a.sshiftRight n).step
def execQMin (o : QRRR) : State → Host.Outcome State Fault Refusal := (qBin o 1 fun a b => if a.toInt ≤ b.toInt then a else b).step
def execQMax (o : QRRR) : State → Host.Outcome State Fault Refusal := (qBin o 1 fun a b => if a.toInt ≤ b.toInt then b else a).step
def execQMinu (o : QRRR) : State → Host.Outcome State Fault Refusal := (qBin o 1 fun a b => if a.toNat ≤ b.toNat then a else b).step
def execQMaxu (o : QRRR) : State → Host.Outcome State Fault Refusal := (qBin o 1 fun a b => if a.toNat ≤ b.toNat then b else a).step
def execQMov (g : Guard) (xd xa : BitVec 5) : State → Host.Outcome State Fault Refusal := (atIssueAlways g (.get fun s => putX 1 xd (s.x xa))).step
def execQLi (g : Guard) (xd : BitVec 5) (imm : BitVec 32) : State → Host.Outcome State Fault Refusal := (atIssueAlways g (putX 1 xd (imm.signExtend 64))).step
def execQLih (g : Guard) (xd : BitVec 5) (imm : BitVec 32) : State → Host.Outcome State Fault Refusal :=
  (atIssueAlways g (.get fun s => putX 1 xd (imm ++ (s.x xd).setWidth 32))).step
def execQSel (o : QRRR) (neg : Bool) (k : BitVec 3) : State → Host.Outcome State Fault Refusal :=
  (atIssueAlways o.g (.get fun s => putX 1 o.xd (if s.me.qreg k != neg then s.x o.xa else s.x o.xb))).step

/-! ## Compares (R83) -/

def qCompare (c : QCmpF) (cond : State → Bool) : Plan :=
  .get fun s =>
    let m := s.me
    match combine c.ctype (m.qreg c.qg != c.qn) (cond s) (m.qreg c.p1) (m.qreg c.p2) with
    | some (v1, v2) => .both (putSeq 0 1 (.q c.p1) (if v1 then 1 else 0)) (putSeq 0 1 (.q c.p2) (if v2 then 1 else 0))
    | none => .skip

def execQCmp (c : QCmpF) (xa xb : BitVec 5) : State → Host.Outcome State Fault Refusal :=
  (qCompare c fun s => condHolds c.cond (s.x xa) (s.x xb)).step
def execQCmpi (c : QCmpF) (xa : BitVec 5) (simm : BitVec 15) : State → Host.Outcome State Fault Refusal :=
  (qCompare c fun s => condHolds c.cond (s.x xa) (simm.signExtend 64)).step

/-! ## Parameters and task information (R85) -/

def execLdparam (g : Guard) (xd : BitVec 5) (k : BitVec 4) : State → Host.Outcome State Fault Refusal :=
  (atIssueAlways g (.get fun s => putX 2 xd (BitVec.ofNat 64 (s.recField s.me.part s.me.launch (80 + 8 * k.toNat) 8)))).step

/-- Field `f` of the task (R85). -/
def taskField (s : State) (f : BitVec 4) : XWord :=
  let c := s.me
  match f.toNat with
  | 0 => BitVec.ofNat 64 s.site.arr
  | 1 => BitVec.ofNat 64 s.site.ctx
  | 2 => BitVec.ofNat 64 c.part
  | 3 => c.tag
  | 4 => BitVec.ofNat 64 c.task
  | 5 => BitVec.ofNat 64 c.h
  | 6 => BitVec.ofNat 64 c.role
  | 7 => BitVec.ofNat 64 c.dsz
  | 8 => BitVec.ofNat 64 c.csz
  | 9 => BitVec.ofNat 64 c.nlev
  | _ => c.arg

def execLdtask (g : Guard) (xd : BitVec 5) (f : BitVec 4) : State → Host.Outcome State Fault Refusal :=
  (atIssueAlways g (.get fun s => putX 2 xd (taskField s f))).step

/-! ## Edge flags (R86) -/

def flagCheck (d : BitVec 6) (s : State) : Option Chk :=
  if s.me.h = 32 && decide (d.toNat < 34) then some { code := 0x01, sub := 3, addr := noAddr } else none

/-- The aggregate of predicate `k` for bundle `m` of the ring. -/
def Ctx.flagAgg (c : Ctx) (m k : Nat) : FlagAgg := (smGet [] c.ring (m % 64)).getD k { any := false, all := false, count := 0 }

def execFlagRd (g : Guard) (xd : BitVec 5) (mode : BitVec 2) (k : BitVec 3) (d : BitVec 6) : State → Host.Outcome State Fault Refusal :=
  (atIssue g noStall (flagCheck d)
    (.get fun s =>
      putX 1 xd (if s.site.n < d.toNat then 0 else BitVec.ofNat 64 ((s.me.flagAgg (s.site.n - d.toNat) k.toNat).read mode)))).step

/-! ## Row masks and time (R87) -/

def execWset (g : Guard) (k : BitVec 4) (imm : BitVec 32) : State → Host.Outcome State Fault Refusal :=
  (atIssueAlways g (putSeq 0 1 (.w k) (imm.setWidth 64))).step
def execWmov (g : Guard) (k : BitVec 4) (xa : BitVec 5) : State → Host.Outcome State Fault Refusal :=
  (atIssueAlways g (.get fun s => putSeq 0 1 (.w k) (((s.x xa).setWidth 32).setWidth 64))).step
def execWrd (g : Guard) (xd : BitVec 5) (k : BitVec 4) : State → Host.Outcome State Fault Refusal :=
  (atIssueAlways g (.get fun s => putX 1 xd ((s.me.wreg k).setWidth 64))).step
def execTickRd (g : Guard) (xd : BitVec 5) : State → Host.Outcome State Fault Refusal :=
  (atIssueAlways g (.get fun s => putX 1 xd (BitVec.ofNat 64 s.tick))).step
def execGtickRd (g : Guard) (xd : BitVec 5) : State → Host.Outcome State Fault Refusal :=
  (atIssueAlways g (.get fun s => putX 1 xd (BitVec.ofNat 64 s.now))).step
def execCtimeRd (g : Guard) (xd : BitVec 5) : State → Host.Outcome State Fault Refusal :=
  (atIssueAlways g (.get fun s => putX 1 xd (BitVec.ofNat 64 (s.me.seqOf s.site.n)))).step

/-! ## Fences and barrier waits (R88, R289) -/

/-- An ordering point of this bundle in the context's off-domain requests: scope 0 dom, 1 pkg, 2 sys. It never stalls issue. -/
def placeFence (scope : Nat) : Plan := .get fun s => modMe fun c => { c with fences := c.fences ++ [(s.site.n, scope)] }

def execFenceDom (g : Guard) : State → Host.Outcome State Fault Refusal := (atIssueAlways g (placeFence 0)).step
def execFencePkg (g : Guard) : State → Host.Outcome State Fault Refusal := (atIssueAlways g (placeFence 1)).step
def execFenceSys (g : Guard) : State → Host.Outcome State Fault Refusal := (atIssueAlways g (placeFence 2)).step

/-- An operand that must name a 32-byte barrier object of the window (R88, R229). -/
def objCheck (off : Nat) (s : State) : Option Chk :=
  if off % 32 ≠ 0 then some { code := 0x11, sub := 0, addr := off }
  else if s.inMyWin off 32 then none
  else some { code := 0x14, sub := 0, addr := off }

/-- The line of the object `wait.b` looks at is uncorrectable (R228). -/
def waitLineBad (off : Nat) (s : State) : Bool := s.marked 2 (s.myWin off / 64)

/-- `wait.b` reads its object: fault 0x44 where its line is uncorrectable (R228). -/
def waitBCheck (xa : BitVec 5) (s : State) : Option Chk :=
  match objCheck (s.x xa).toNat s with
  | some f => some f
  | none => if waitLineBad (s.x xa).toNat s then some { code := 0x44, sub := 0, addr := noAddr } else none

def waitBStall (xa : BitVec 5) (s : State) : Option StallCause :=
  if (waitBCheck xa s).isNone && !s.objComplete (s.myWin (s.x xa).toNat) then some .barrier else none

/-- `wait.b`: once the object is complete the bundle issues and everything the object counted is visible to it, since a counted access has performed at its
point before it is counted (R293, R294). -/
def execWaitB (g : Guard) (xa : BitVec 5) : State → Host.Outcome State Fault Refusal := (atIssue g (waitBStall xa) (waitBCheck xa) .skip).step

/-! ## System registers (R89) -/

def sysReg (s : State) (num : BitVec 12) : XWord :=
  let c := s.me
  match num.toNat with
  | 0 => BitVec.ofNat 64 (c.role * 4096 + c.part * 256 + s.site.ctx * 64 + s.site.arr)
  | 1 => c.tag
  | 2 => c.fid.setWidth 64
  | 3 => c.phase.setWidth 64
  | 4 => BitVec.ofNat 64 c.depth
  | 5 => BitVec.ofNat 64 (c.dsz * 2 ^ 16 + c.db)
  | 6 => BitVec.ofNat 64 (c.csz * 2 ^ 16 + c.cb)
  | _ => c.dbg.setWidth 64

def execSysRd (g : Guard) (xd : BitVec 5) (num : BitVec 12) : State → Host.Outcome State Fault Refusal :=
  (atIssueAlways g (.get fun s => putX 2 xd (sysReg s num))).step

/-- Only DBGCTL holds RW bits (R89). -/
def execSysWr (g : Guard) (num : BitVec 12) (xa : BitVec 5) : State → Host.Outcome State Fault Refusal :=
  (atIssueAlways g (.get fun s => Plan.when (num == 0x010) (modMe fun c => { c with dbg := (s.x xa).setWidth 2 }))).step

end Sys2Proof.Machine
end

