-- ==== Sys2Proof/Machine/MSlot.lean ====
section
/-! DEFINITION. The M slot: cell-store loads and stores (R147-R153), cw (R154), queue instructions (R158-R162) and the strait (R163-R166). -/

namespace Sys2Proof.Machine

/-- An M slot that acts only in its rows. -/
def mRow (g : Guard) (check : State → Nat → Option Chk) (eff : Nat → Plan) : Plan := twoPart .skip (inRow g check eff)

/-! ## Loads and stores (R148, R149, R153) -/

/-- The offset of an access (R148). -/
def memOff (s : State) (col : Nat) (sadr : BitVec 4) (off : BitVec 16) : Nat := ((s.here col).sreg sadr + off.signExtend 32).toNat

/-- The check of an access of `n` bytes (R148): alignment, then the window. -/
def cellCheck (s : State) (a n : Nat) : Option Chk :=
  if a % n ≠ 0 then some { code := 0x11, sub := 0, addr := a }
  else if s.me.csSize < a + n then some { code := 0x10, sub := 0, addr := a }
  else none

/-- The late-write entry of an M-slot result, due four bundles on (R97), with LM (R93). -/
def mEntry (s : State) (col : Nat) (d : Dst) (lat : Nat) (val : VReg) : LwbEntry :=
  { due := s.site.n + lat, n := s.site.n, slot := 2, dest := (s.here col).dest d, latch := .lm, val }

/-- A cell-store read at te + 1 whose value enters the late-write buffer (R149, R99). -/
def cellLoad (col addr size : Nat) (spread : Bool) (d : Dst) : Plan :=
  .get fun s =>
    after 1 rankRead (.micro (.cellRead (cellOf s.site.arr s.site.row col) s.site.ctx addr size spread (mEntry s col d 4 0)))

def loadPlan (o : MLoad) (n : Nat) (spread : Bool) : Plan :=
  mRow o.g (fun s c => cellCheck s (memOff s c o.sadr o.off) n) fun c => .get fun s =>
    cellLoad c (s.cellAddr c (memOff s c o.sadr o.off)) n spread o.d

def storePlan (o : MStore) (n : Nat) : Plan :=
  mRow o.g (fun s c => cellCheck s (memOff s c o.sadr o.off) n) fun c => .get fun s =>
    cellWrite 2 (s.cellAddr c (memOff s c o.sadr o.off)) (vBytes (s.src (.int 32) c 0 o.v) n)

def execLd (o : MLoad) : State → Host.Outcome State Fault Refusal := (loadPlan o 32 false).step
def execLdW (o : MLoad) : State → Host.Outcome State Fault Refusal := (loadPlan o 4 false).step
def execSt (o : MStore) : State → Host.Outcome State Fault Refusal := (storePlan o 32).step
def execStW (o : MStore) : State → Host.Outcome State Fault Refusal := (storePlan o 4).step
def execLdB (o : MLoad) : State → Host.Outcome State Fault Refusal := (loadPlan o 4 true).step

/-! ## Queue instructions (R158-R162) -/

/-- Stall and check of the issue part, for ISSUE_SELECT. -/
def queueIssueStall (k kind : Nat) (inp : Bool) (s : State) : Option StallCause :=
  let q := s.me.qwState k
  if qwKind (s.me.qword k s.site.n) = kind && s.fit k && (if inp then decide (q.fill < 1) else decide (q.room < 1)) then some .queue else none

/-- The check at issue of an `ldq` or `stq` on a shared queue. Of a word of that kind that is not VALID the spec gives two places: R160 (a word that is not fit, at issue) and R161
(in each cell). A word that names no queue is taken to have no engine operation at issue, so it faults in the executing cells (DESIGN CHOICE, log 21). -/
def queueIssueCheck (k kind : Nat) (s : State) : Option Chk :=
  if qwKind (s.me.qword k s.site.n) = kind && qwValid (s.me.qword k s.site.n) && !s.fit k then some badWord else none

/-- What the sequencer does at issue for an `ldq` or `stq` (R159): on a shared queue of the kind it takes, it stalls until one element is there or free, reserves
the position for the whole array, and the pointer moves when the last row has had its access. -/
def queueIssue (k kind : Nat) (inp : Bool) : Plan :=
  issuePart (queueIssueStall k kind inp) (queueIssueCheck k kind)
    (.get fun s =>
      let q := s.me.qwState k
      let x := s.site
      if qwKind q.word = kind && s.fit k then
        Plan.all
          [ modArr x.arr fun v => { v with waves := v.waves.map fun w => if w.uid == x.wave then { w with qpos := if inp then q.cr else q.pr, qres := some (k, q.stamp, !inp) } else w },
            modMyQ k (if inp then QW.takeIn 1 else QW.takeOut 1),
            after (s.me.h + (if inp then 1 else 2)) rankPointer (.micro (.word k q.stamp (!inp) 1 (some x.wave))) ]
      else .skip)

/-- The check of `ldq` in one cell. -/
def ldqCheck (k : Nat) (s : State) (col : Nat) : Option Chk :=
  let w := s.me.qword k s.site.n
  if !s.fit k || 2 ≤ qwKind w then some badWord
  else if qwKind w = 0 && decide ((s.pair col k).fill < 1) then some { badWord with sub := 1 } else none

def ldqCell (d : Dst) (k col : Nat) : Plan :=
  .get fun s =>
    let w := s.me.qword k s.site.n
    let e := eszBytes (qwEsz w)
    let cell := cellOf s.site.arr s.site.row col
    if qwKind w = 0 then
      let p := s.pair col k
      Plan.all
        [ setPair col k { p with cr := (p.cr + 1) % 8192 },
          cellLoad col (s.cellAddr col (qwElem w p.cr)) e false d,
          after 1 rankPointer (.micro (.pair cell s.site.ctx k p.stamp false 1)) ]
    else cellLoad col (s.cellAddr col (qwElem w s.site.qpos)) e false d

def execLdq (g : Guard) (d : Dst) (k : BitVec 4) : State → Host.Outcome State Fault Refusal :=
  (twoPart (queueIssue k.toNat 1 true) (inRow g (ldqCheck k.toNat) (ldqCell d k.toNat))).step

/-- The check of `stq` in one cell; `extra` strays of the same bundle on the list are counted before it (R158). -/
def stqCheck (k extra : Nat) (s : State) (col : Nat) : Option Chk :=
  let w := s.me.qword k s.site.n
  if !s.fit k || qwKind w = 1 || qwKind w = 3 then some badWord
  else if qwKind w = 0 && decide ((s.pair col k).room (qwDepth w) < extra + 1) then some { badWord with sub := 2 } else none

def stqCell (k : Nat) (v : Src) (col : Nat) : Plan :=
  .get fun s =>
    let w := s.me.qword k s.site.n
    let bs := vBytes (s.src (.int 32) col 0 v) (eszBytes (qwEsz w))
    if qwKind w = 0 then appendCell col k 2 [bs] else cellWrite 2 (s.cellAddr col (qwElem w s.site.qpos)) bs

def execStq (g : Guard) (k : BitVec 4) (v : Src) : State → Host.Outcome State Fault Refusal :=
  (twoPart (queueIssue k.toNat 2 false) (inRow g (stqCheck k.toNat 0) (stqCell k.toNat v))).step

/-- The fill `qpeek` goes by, and the position of its element 0 (R158, R161). -/
def peekFill (s : State) (col k : Nat) : Nat :=
  if qwKind (s.me.qword k s.site.n) = 0 then (s.pair col k).fill else (s.me.qwState k).fill
def peekBase (s : State) (col k : Nat) : Nat :=
  if qwKind (s.me.qword k s.site.n) = 0 then (s.pair col k).cr else (s.me.qwState k).cr

def peekKindCheck (k : Nat) (s : State) (_ : Nat) : Option Chk :=
  if !s.fit k || 2 ≤ qwKind (s.me.qword k s.site.n) then some badWord else none

def qpeekCheck (k j : Nat) (s : State) (col : Nat) : Option Chk :=
  match peekKindCheck k s col with
  | some f => some f
  | none => if peekFill s col k ≤ j then some { badWord with sub := 1 } else none

def execQpeek (g : Guard) (d : Dst) (k : BitVec 4) (j : BitVec 12) : State → Host.Outcome State Fault Refusal :=
  (mRow g (qpeekCheck k.toNat j.toNat) fun c => .get fun s =>
    let w := s.me.qword k.toNat s.site.n
    cellLoad c (s.cellAddr c (qwElem w (peekBase s c k.toNat + j.toNat))) (eszBytes (qwEsz w)) false d).step

/-- An M-slot value delivered to its register and LM (R93). -/
def putM (col lat : Nat) (d : Dst) (val : VReg) : Plan := .get fun s => modHere col fun b => b.addLate (mEntry s col d lat val)

def execQpeekN (g : Guard) (d : Dst) (k : BitVec 4) : State → Host.Outcome State Fault Refusal :=
  (mRow g (peekKindCheck k.toNat) fun c => .get fun s => putM c 4 d (mkElems 32 fun _ => peekFill s c k.toNat)).step

/-! ## The communication register (R154, R94) -/

/-- C written by bundle `n`: its value from that bundle on. The history keeps every write a neighbour read can still name. -/
def Bank.writeC (b : Bank) (n : Nat) (v : VReg) : Bank := { b with chist := (n + 3, v) :: b.chist.take 80, dirty := markDirty b.dirty 102 }

def execCw (g : Guard) (v : Src) : State → Host.Outcome State Fault Refusal :=
  (mRow g noRowCheck fun c => .get fun s => modHere c fun b => b.writeC s.site.n (s.src (.int 32) c 0 v)).step

/-! ## The strait (R163-R165) -/

/-- The cell bonded to a cell: same row and column of the other die's array (R163). -/
def bonded (cell : Nat) : Nat := if cell / 256 % 8 < 4 then cell + 1024 else cell - 1024

/-- Free entries of a cell's outgoing FIFO: removals count from the tick after (R165). -/
def straitFree (s : State) (cell : Nat) : Nat :=
  let c := s.cellx cell
  16 - (c.strait.length + (c.freed.filter fun u => decide (s.ttick (cell / 2048) ≤ u)).length)

/-- Whether a cell's outgoing FIFO holds entries of another context. R164 does not say from when an entry counts as held: here it is from its push on, as R165 counts it against
the free entries, though it lands 2 ticks later (DESIGN CHOICE, log 21). -/
def straitOther (s : State) (cell : Nat) : Bool := (s.cellx cell).strait.any fun e => e.ctx != s.site.ctx

def straitCheck (s : State) (col : Nat) : Option Chk :=
  let cell := cellOf s.site.arr s.site.row col
  if (s.arr (bonded cell / 256)).owner == (s.arr (cell / 256)).owner then none else some { badWord with sub := 5 }

def vpushCheck (s : State) (col : Nat) : Option Chk :=
  let cell := cellOf s.site.arr s.site.row col
  match straitCheck s col with
  | some f => some f
  | none =>
    if straitOther s cell then some { badWord with sub := 5 }
    else if straitFree s cell < 1 then some { badWord with sub := 4 } else none

/-- The launch of the context a step acts for has completed or has been killed: its entries leave the strait, those of bundles still descending as they come (R165). -/
def launchOver (s : State) : Bool := ((s.part s.me.part).launch s.me.launch).any fun l => l.state == .completed || l.state == .killed

def execVpush (g : Guard) (v : Src) : State → Host.Outcome State Fault Refusal :=
  (mRow g vpushCheck fun c => .get fun s => Plan.when (!launchOver s) <|
    modCell (cellOf s.site.arr s.site.row c) fun x =>
      { x with strait := x.strait ++ [{ ctx := s.site.ctx, launch := s.me.launch, lands := s.tick + 2, val := s.src (.int 32) c 0 v }] }).step

def vpopCheck (s : State) (col : Nat) : Option Chk :=
  match straitCheck s col with
  | some f => some f
  | none =>
    match (s.cellx (bonded (cellOf s.site.arr s.site.row col))).strait with
    | e :: _ => if e.ctx == s.site.ctx && decide (e.lands < s.tick) then none else some { badWord with sub := 3 }
    | [] => some { badWord with sub := 3 }

def execVpop (g : Guard) (d : Dst) : State → Host.Outcome State Fault Refusal :=
  (mRow g vpopCheck fun c => .get fun s =>
    after 1 rankRead (.micro (.straitPop (cellOf s.site.arr s.site.row c) s.site.ctx (mEntry s c d 3 0)))).step

def execVfree (g : Guard) (d : Dst) : State → Host.Outcome State Fault Refusal :=
  (mRow g straitCheck fun c => .get fun s =>
    let cell := cellOf s.site.arr s.site.row c
    putM c 1 d (mkElems 32 fun _ => if straitOther s cell then 0 else straitFree s cell)).step

/-- `vfree.in` counts the entries landed before te, those a `vpop` of this bundle could take; R165 does not say whether one landing at te itself is counted as of te
(DESIGN CHOICE, log 21). -/
def execVfreeIn (g : Guard) (d : Dst) : State → Host.Outcome State Fault Refusal :=
  (mRow g straitCheck fun c => .get fun s =>
    let q := (s.cellx (bonded (cellOf s.site.arr s.site.row c))).strait
    putM c 1 d (mkElems 32 fun _ => (q.filter fun e => e.ctx == s.site.ctx && decide (e.lands < s.tick)).length)).step

/-! ## What ROW_EXECUTE and ISSUE_SELECT ask of an M slot -/

/-- The check of an M slot in one cell (R148, R158, R161, R165); `extra q` is the number of strays of the same bundle on list `q` of this cell. -/
def mCellCheck (i : Instr) (extra : Nat → Nat) (s : State) (col : Nat) : Option Chk :=
  match i with
  | .ld o => cellCheck s (memOff s col o.sadr o.off) 32
  | .ldW o | .ldB o => cellCheck s (memOff s col o.sadr o.off) 4
  | .st o => cellCheck s (memOff s col o.sadr o.off) 32
  | .stW o => cellCheck s (memOff s col o.sadr o.off) 4
  | .ldq _ _ k => ldqCheck k.toNat s col
  | .stq _ k _ => stqCheck k.toNat (extra k.toNat) s col
  | .qpeek _ _ k j => qpeekCheck k.toNat j.toNat s col
  | .qpeekN _ _ k => peekKindCheck k.toNat s col
  | .vpush .. => vpushCheck s col
  | .vpop .. => vpopCheck s col
  | .vfree .. | .vfreeIn .. => straitCheck s col
  | _ => none

def mStall (i : Instr) (s : State) : Option StallCause :=
  match i with
  | .ldq _ _ k => queueIssueStall k.toNat 1 true s
  | .stq _ k _ => queueIssueStall k.toNat 2 false s
  | _ => none

def mIssueCheck (i : Instr) (s : State) : Option Chk :=
  match i with
  | .ldq _ _ k => queueIssueCheck k.toNat 1 s
  | .stq _ k _ => queueIssueCheck k.toNat 2 s
  | _ => none

end Sys2Proof.Machine
end

