-- ==== Sys2Proof/Machine/Scratch.lean ====
section
/-! DEFINITION. The tower scratchpad as its engines see it (R223-R227, R235-R237): writes with the watch ranges they touch (R207-R209), barrier-object counts,
and the faults of engine operations. -/

namespace Sys2Proof.Machine

/-! ## Watch ranges (R207, R208) -/

def wrGen (w : BitVec 192) : Nat := (w.extractLsb' 160 32).toNat
def wrTower (w : BitVec 192) : Nat := (w.extractLsb' 130 3).toNat
def wrSpace (w : BitVec 192) : Nat := (w.extractLsb' 128 2).toNat
def wrLimit (w : BitVec 192) : Nat := (w.extractLsb' 64 52).toNat
def wrBase (w : BitVec 192) : Nat := (w.extractLsb' 0 52).toNat

def wrMake (gen tower space limit base : Nat) : BitVec 192 :=
  BitVec.ofNat 192 (gen % 2 ^ 32 * 2 ^ 160 + tower % 8 * 2 ^ 130 + space % 4 * 2 ^ 128 + limit % 2 ^ 52 * 2 ^ 64 + base % 2 ^ 52)

/-- GEN advanced by one. -/
def wrBump (w : BitVec 192) : BitVec 192 := wrMake (wrGen w + 1) (wrTower w) (wrSpace w) (wrLimit w) (wrBase w)

/-- A write of bytes `lo` to `lo + n - 1` of a space touches the range. -/
def wrHit (w : BitVec 192) (space tower lo n : Nat) : Bool :=
  wrSpace w == space && (space == 2 || wrTower w == tower) && decide (0 < n) && decide (lo ≤ wrLimit w) && decide (wrBase w < lo + n)

/-- A write as R209 tells it from others: its task, bundle and position; task 0 for one that nothing counts. -/
structure WriteId where
  tid : Nat := 0
  n : Nat := 0
  p : Nat := 0
  deriving DecidableEq, Repr

/-- Every watch range of partition `p` that a write touches advances (R208). -/
def bumpWatch (p space tower lo n : Nat) (w : WriteId := {}) : Plan :=
  .get fun s =>
    let hits := (s.part p).watch.filter fun (_, w) => wrHit w space tower lo n
    Plan.when (!hits.isEmpty) <| modPart p fun v =>
      { v with watch := v.watch.map (fun (k, w) => (k, if wrHit w space tower lo n then wrBump w else w)),
               watchAt := hits.foldl (fun m (k, _) => smSet m k ({ tick := s.now, tid := w.tid, n := w.n, p := w.p } :: (smGet [] m k).filter fun e => decide (s.now < e.tick + 64))) v.watchAt }

/-- Advances made certain at every kennel unit: an object has counted their writes, or a fence has been passed behind them (R209). -/
def settleWatch (which : Advance → Bool) : Plan :=
  .get fun s => Plan.each ((List.range 16).filter fun p => (s.part p).watchAt.any fun e => e.2.any which) fun p =>
    modPart p fun v => { v with watchAt := v.watchAt.map fun (k, es) => (k, es.map fun e => if which e then { e with sure := true } else e) }

/-- Task `tid` has read bytes of a space in bundle `n`: it has observed the writes there whose advances are not yet certain (R292). -/
def observe (p space tower lo len tid n : Nat) : Plan :=
  .get fun s =>
    let hits := (s.part p).watch.filter fun (k, w) => wrHit w space tower lo len && !(smGet [] (s.part p).watchAt k).isEmpty
    Plan.when (!hits.isEmpty && tid != 0) <| modPart p fun v =>
      { v with watchAt := v.watchAt.map fun (k, es) =>
          if hits.any fun h => h.1 == k then (k, es.map fun e => if e.sure then e else { e with seen := (tid, n) :: e.seen }) else (k, es) }

/-- The partitions of which a scratchpad address lies in the window. -/
def windowParts (s : State) (addr : Nat) : List Nat :=
  (List.range 16).filter fun p =>
    let v := s.part p
    let t := addr / 2 ^ 31
    let base := smGet 0 v.wbase t
    v.live && decide (base ≤ addr % 2 ^ 31) && decide (addr % 2 ^ 31 < base + smGet 0 v.wsize t)

/-- Lines of 2^`sh` bytes written whole are good again (R228, R322). -/
def unmark (kind sh lo n : Nat) : Plan :=
  .get fun s => Plan.when (s.marks.any fun m => m.1 == kind && decide (lo ≤ m.2 * 2 ^ sh) && decide ((m.2 + 1) * 2 ^ sh ≤ lo + n))
    (.edit (.marks (s.marks.filter fun m => !(m.1 == kind && decide (lo ≤ m.2 * 2 ^ sh) && decide ((m.2 + 1) * 2 ^ sh ≤ lo + n)))))

/-- Lines of a bank that is being mirrored have been written: they stand in the spare too (R410). -/
def mirrorWrite (addr n : Nat) : Plan :=
  .get fun s =>
    let t := addr / 2 ^ 31
    let lines := (List.range ((addr % 64 + n + 63) / 64)).map fun i => addr / 64 + i
    Plan.when ((s.tower t).spares.any fun m => !m.done) <| modTower t fun v =>
      { v with spares := v.spares.map fun m =>
          { m with reached := ((lines.filter fun l => l % 256 == m.bank && decide (m.next ≤ l / 256 % 131072)).map fun l => l / 256 % 131072) ++ m.reached } }

/-- Bytes written to the scratchpad, by either port (R227), with the watch ranges they touch. R208 does not say what one write is: here each such write advances GEN by one, however
many lines it has, and an arrival at an object, which writes its count and its status byte, by two (DESIGN CHOICE, log 21). -/
def scratchWrite (addr : Nat) (bs : List Byte) (w : WriteId := {}) : Plan :=
  .get fun s =>
    .both (.both (.both (writeBytes .scratch addr bs) (mirrorWrite addr bs.length)) (unmark 2 6 addr bs.length))
      (Plan.each (windowParts s addr) fun p =>
        bumpWatch p 1 (addr / 2 ^ 31) (addr % 2 ^ 31 - smGet 0 (s.part p).wbase (addr / 2 ^ 31)) bs.length w)

/-- A line of the scratchpad read by a task's engine. -/
def observeLine (addr len tid n : Nat) : Plan :=
  .get fun s => Plan.each (windowParts s addr) fun p => observe p 1 (addr / 2 ^ 31) (addr % 2 ^ 31 - smGet 0 (s.part p).wbase (addr / 2 ^ 31)) len tid n

/-- A control-port write `k` tower ticks from now (R227). -/
def scratchWriteIn (k addr : Nat) (bs : List Byte) : Plan := after k rankControl (.micro (.write .scratch addr bs))

/-! ## Faults of engine operations (R360, R363) -/

/-- The partition of a task that context `k` of array `a` runs or has run. -/
def State.partOf (s : State) (a k tid : Nat) : Option Nat := if (s.ctxOf a k tid).tid = tid then some (s.ctxOf a k tid).part else s.taskPart tid

/-- A fault of an engine operation that task `tid` fired from context `k` of array `a`, which the task may have left; none once its partition is gone. -/
def taskFault (a k tid : Nat) (f : FaultRec) : Plan :=
  .get fun s => Plan.each (s.partOf a k tid).toList fun p => raiseFaultFor p tid a k f

/-- A fault charged to context `k` of array `a` for task `tid`, recorded in its context record. -/
def chargeFault (a k tid n code sub addr : Nat) : Plan :=
  .get fun s => taskFault a k tid { kind := 1, unit := a, ctx := k, code, sub, addr, seq := n, pos := (s.ctx a k).pc }

/-- `n` bytes have been read through either port: an uncorrectable line among them is an event of its bank, and the fault `f` where it was read (R228). -/
def scratchRead (addr n : Nat) (f : Plan) : Plan :=
  .get fun s =>
    match (List.range (if n = 0 then 0 else (addr + n - 1) / 64 - addr / 64 + 1)).find? fun i => s.marked 2 (addr / 64 + i) with
    | some i => .both (lineLost 2 (addr / 64 + i)) f
    | none => .skip

/-- A read of the control port for something task `tid` fired from context `k` of array `a` in bundle `n`. -/
def controlRead (a k tid n addr len : Nat) : Plan := scratchRead addr len (chargeFault a k tid n 0x44 0 noAddr)

/-- A fault of an engine operation of the bundle a step acts for, recorded by the engine of a kind. -/
def engineFault (kind unit tid code sub addr : Nat) : Plan :=
  .get fun s =>
    let x := s.site
    taskFault x.arr x.ctx tid { kind, unit, ctx := x.ctx, code, sub, addr, seq := x.n, pos := (s.ctx x.arr x.ctx).pc }

/-! ## Barrier objects (R235, R236) -/

/-- One arrival at an object (R236): `bytes` counted when UNIT = 0, `ops` when UNIT = 1. The count is read first, with `f` where its line is uncorrectable (R228). -/
def objArrive (addr bytes ops : Nat) (f : Plan := .skip) : Plan :=
  .both (scratchRead addr 32 f) <| .get fun s =>
    let b := s.byte .scratch addr
    let count := (s.number .scratch (addr + 16) 8 + (if b.getLsbD 2 then ops else bytes)) % 2 ^ 64
    let expect := s.number .scratch (addr + 24) 8
    let done : Byte := if expect ≤ count then 2 else 0
    let above : Byte := if expect < count then 8 else 0
    Plan.when (b.getLsbD 0 && (decide (0 < ops) || !b.getLsbD 2)) <|
      .both (scratchWrite (addr + 16) (natBytes 8 count)) (scratchWrite addr [(b &&& ~~~2) ||| done ||| above])

/-- An arrival at the object at an offset of a partition's window in a tower, at the end of this tick or later: the event BO_ARRIVAL. Counts come after the other control-port
writes of their tick and the reads of `bo.rd`, and before what `bo.init` writes (R236, R237). `a`, `k`, `tid` and `n` name the task and the bundle whose operation arrives;
task 0 stands for none. -/
def countAt (tick t p off bytes ops : Nat) (a k tid n : Nat := 0) : Plan :=
  .get fun s =>
    .edit (.due (insertDue { tick := max tick s.now, rank := rankControl, ord := 2, dom := none,
                             site := { arr := a, ctx := k, row := tid, wave := n, a := t, b := p, c := off, n := bytes, pos := ops }, act := .instr .boArrival } s.due))

def execBoArrival : State → Host.Outcome State Fault Refusal :=
  (Plan.get fun s =>
    let x := s.site
    Plan.when (s.inWin x.a x.b x.c 32)
      (objArrive (s.winAddr x.a x.b x.c) x.n x.pos (Plan.when (x.row != 0) (chargeFault x.arr x.ctx x.row x.wave 0x44 0 noAddr)))).step

/-! ## Values that a cell gets back -/

/-- A value read at a fixed tick after its row enters the late-write buffer of the task that read it, `site.a` (R98, R99): a task that has taken the context since, no earlier
than H ticks after the other's end, gets nothing (R81). -/
def lateInto (cell ctx : Nat) (e : LwbEntry) : Plan :=
  .get fun s => Plan.when ((s.ctx s.site.arr ctx).tid == s.site.a) (modBank cell ctx fun b => b.addLate e)

/-! ## Pointer advances of engine operations -/

/-- A move of a word of a task that has left its context, noted for its return. -/
def QW.lateBy (prod left : Bool) (n : Nat) (q : QW) : QW :=
  if !left then q else if prod then { q with ppLate := q.ppLate + n } else { q with cpLate := q.cpLate + n }

/-- PP or CP of a word moved by an engine operation of task `tid`, and one operation less when `last`. -/
def engineAdvance (a k tid q stamp : Nat) (prod last : Bool) (count : Nat) : Plan :=
  .get fun s =>
    let c := s.ctxOf a k tid
    Plan.when (c.tid == tid && (c.qwState q).stamp == stamp)
      (modQOf a k tid q fun w => let w := (w.advance prod count).lateBy prod ((s.ctx a k).tid != tid) count; if last then w.opDone else w)

end Sys2Proof.Machine
end

