-- ==== Sys2Proof/Machine/Passes.lean ====
section
/-! DEFINITION. Matrix passes after they have fired (R175-R180, R192-R201, R213-R221): the west feeder, the products cell by cell, the landings, the error
counters, and the delta pass with its kennel entry. -/

namespace Sys2Proof.Machine

/-! ## The fidelity word and the rails (R197-R200) -/

def fidLs1 (f : BitVec 16) : Nat := (f.extractLsb' 0 2).toNat
def fidLs2 (f : BitVec 16) : Nat := (f.extractLsb' 2 2).toNat
def fidBudget (f : BitVec 16) : Nat := (f.extractLsb' 4 4).toNat
def fidDelta (f : BitVec 16) : Bool := f.getLsbD 8

/-- The arrays a unit of height `h` spans (R36). -/
def spanned (a h : Nat) : List Nat := if h = 32 then [a, a + 4] else [a]

/-- Both slice rails of every domain stand at or above a requirement (R200). -/
def railsOk (s : State) (a h l1 l2 : Nat) : Bool :=
  (spanned a h).all fun b => decide ((s.arr b).ls1.level ≤ l1) && decide ((s.arr b).ls2.level ≤ l2)

/-! ## The feeder's order (R175, R178, R179, R215) -/

/-- The rows a pass streams in all: M-rows, then correction rows once their number is known. -/
def Pass.rows (p : Pass) : Nat := p.mrows + (if p.nsKnown then 2 * p.ns else 0)
def Pass.finished (p : Pass) : Bool := decide (p.rows ≤ p.landed) && (p.kennel.isNone || p.nsKnown) && p.known

/-- DONE of an `mmd` (R219) from the FEND it leaves. -/
def Pass.doneTick (p : Pass) (f : Nat) : Nat := f + p.h + 19 + p.mrows

/-- Every M-row of a pass has formed its products by tower tick `u` (R199). -/
def Pass.formed (p : Pass) (u : Nat) : Bool :=
  match p.fend with
  | some f => decide (p.rows ≤ p.entered) && decide (f + p.h + 13 < u)
  | none => false

/-- FEND left by a list of passes, if all of it is known. -/
def fendOf (base : Nat) : List Pass → Option Nat
  | [] => some base
  | p :: ps =>
    match p.fend with
    | some f => fendOf (max base f) ps
    | none => none

/-- FEND of an array as a pass that fired at `fired` finds it: the passes that fired before it. Of a gang's pass and one of its upper array that fire at one tick the spec
gives no order; the upper array's own goes first (DESIGN CHOICE, log 21). -/
def fendBefore (s : State) (a uid fired : Nat) : Option Nat :=
  let own := (s.arr a).passes.takeWhile fun p => p.uid != uid
  let gang := if a % 8 < 4 then [] else (s.arr (a - 4)).passes.filter fun p => p.h == 32 && decide (p.fired < fired)
  fendOf (s.arr a).fend (own ++ gang)

/-- FEND of the upper array of a gang as a gang pass finds it. -/
def fendUpper (s : State) (a fired : Nat) : Option Nat :=
  fendOf (s.arr (a + 4)).fend ((s.arr (a + 4)).passes.filter fun p => decide (p.fired ≤ fired))

def kennelKey (part name : Nat) : Nat := part * 65536 + name
def State.kennel (s : State) (t key : Nat) : Kennel := smGet {} (s.tower t).kennels key
def modKennel (t key : Nat) (f : Kennel → Kennel) : Plan :=
  modTower t fun v => { v with kennels := smSet v.kennels key (f (smGet {} v.kennels key)) }

/-- The invocations of an entry that fired before a pass and have not finished, on whichever array of the tower the entry was bound to then. -/
def mmdsBefore (s : State) (a key uid : Nat) : List Pass :=
  (List.range 8).flatMap fun i => (s.arr (a / 8 * 8 + i)).passes.filter fun q => q.kennel == some key && decide (q.uid < uid)

/-- P + 16 for an `mmd` (R215): from DONE of the entry's latest invocation; none while DONE of one before it is not known yet. -/
def mmdReady (s : State) (a : Nat) (p : Pass) : Option Nat :=
  match p.kennel with
  | none => some 0
  | some key =>
    (mmdsBefore s a key p.uid).foldl (fun r q =>
      match r, q.fend with
      | some r, some f => some (max r (q.doneTick f + 16))
      | _, _ => none) (some ((s.kennel (towerOf a) key).done + 16))

def modPass (a uid : Nat) (f : Pass → Pass) : Plan :=
  modArr a fun v => { v with passes := v.passes.map fun p => if p.uid == uid then f p else p }

/-- The pass of an array with an identifier. -/
def Arr.pass? (v : Arr) (uid : Nat) : Option Pass := v.passes.find? fun p => p.uid == uid
def Arr.mrow? (v : Arr) (pass i : Nat) : Option MRow := v.mrows.find? fun m => m.pass == pass && m.i == i
def modMRow (a uid : Nat) (f : MRow → MRow) : Plan :=
  modArr a fun v => { v with mrows := v.mrows.map fun m => if m.uid == uid then f m else m }

/-- The decision of an `mmd`, or nothing: as of 16 ticks before its first M-row (R215), and at once where its start becomes known later than that. -/
def scheduleDecision (a : Nat) (p : Pass) (s0 : Nat) : Plan :=
  Plan.when (p.kennel.isSome && !p.decided) (atTower (towerOf a) (s0 - 16) rankDecide { arr := a, ctx := p.ctx, n := p.n, a := p.uid } (.instr .mmdDecision))

/-- DONE of an `mmd` that leaves FEND `f`, noted in its entry. -/
def noteDone (a : Nat) (p : Pass) (f : Nat) : Plan :=
  match p.kennel with
  | some key => modKennel (towerOf a) key fun k => { k with done := p.doneTick f }
  | none => .skip

/-- A pass's start is fixed: its next row enters row 0 at `s0`. -/
def startPass (a : Nat) (p : Pass) (s0 : Nat) : Plan :=
  let start := s0 - p.entered
  let fend := if p.kennel.isSome && !p.nsKnown then none else some (start + p.rows)
  Plan.all
    [ modPass a p.uid fun q => { q with known := true, start, fend },
      (match fend with
       | some f => .both (Plan.each (spanned a p.h) fun b => modArr b fun v => { v with fend := max v.fend f }) (noteDone a p f)
       | none => .skip),
      scheduleDecision a p s0 ]

/-- The downstream pass that takes what an upstream pass forwards. -/
def takerOf (s : State) (a uid : Nat) : Option Pass := (s.arr (a + 1)).passes.find? fun q => q.source == some (a, uid)

/-- A pass takes forwarded rows from one that still has to start: it starts with it (R179). -/
def waitsUpstream (s : State) (p : Pass) : Bool :=
  match p.source with
  | some (b, up) => ((s.arr b).pass? up).any fun q => !q.known
  | none => false

/-- The start of a pass, as soon as FEND and DONE are known (R175, R178, R179, R215). A forwarding pass and the downstream pass that takes its rows start together, in
fire and at a RESUME (R180), each M-row 2 ticks later downstream: a downstream pass that was stopped `lag` rows behind goes on that much earlier against the upstream one.
One whose partner streams nothing more starts on its own. -/
def resolvePass (a uid : Nat) : Plan :=
  .get fun s =>
    match (s.arr a).pass? uid with
    | none => .skip
    | some p =>
      if p.known || waitsUpstream s p then .skip
      else
        match fendBefore s a uid p.fired, mmdReady s a p with
        | some f, some r =>
          let base := max (p.base + p.h) (max f r)
          if p.h = 32 then
            match fendUpper s a p.fired with
            | some g => startPass a p (max base g)
            | none => .skip
          else if p.fwd then
            match takerOf s a uid with
            | some q =>
              if q.known then startPass a p base
              else match fendBefore s (a + 1) q.uid q.fired with
              | some g =>
                let lag := p.entered - q.entered
                let s0 := max base (max (q.base + q.h) g + lag - 2)
                .both (startPass a p s0) (startPass (a + 1) q (s0 + 2 - lag))
              | none => .skip
            | none => startPass a p base
          else startPass a p base
        | _, _ => .skip

/-! ## Reading the operands (R175, R226, R264) -/

/-- The offset in the ring space of line `m` of the elements of M-row `i` (8 lines an element). -/
def Pass.lineAddr (p : Pass) (i m : Nat) : Nat := p.qaddr + (p.qpos + (if p.h = 32 then 2 * i else i) + m / 8) % p.qdepth * 512 + m % 8 * 64

/-- Array `a` holds the bank of a scratchpad address at tower tick `u` (R224). -/
def holdsBank (a addr u : Nat) : Bool := (addr / 64 + u) % 8 == a % 8

/-- The bytes of a row of `n` zero bytes with 64 bytes put at an offset. -/
def putBytes (bs : List Byte) (off : Nat) (xs : List Byte) : List Byte := bs.take off ++ xs ++ bs.drop (off + xs.length)

/-- Bytes the west feeder or the kennel unit has read for a pass: fault 0x44 in its context's record for an uncorrectable line (R228, R363). -/
def passRead (a : Nat) (p : Pass) (addr n : Nat) : Plan :=
  scratchRead addr n (chargeFault a p.ctx p.tid p.n 0x44 0 noAddr)

/-- One line of an M-row read at its own tick; of a row whose tick is not known yet, kept aside. -/
def feedReadPlan (a pass i m : Nat) : Plan :=
  .get fun s =>
    match (s.arr a).pass? pass, (s.arr a).mrow? pass i with
    | some p, some w =>
      Plan.when (!w.entered) (.both (passRead a p (p.lineAddr i m) 64) (modMRow a w.uid fun w => { w with bytes := putBytes w.bytes (64 * m) (s.bytes .scratch (p.lineAddr i m) 64) }))
    | some p, none => modPass a pass fun q => { q with early := smSet q.early (16 * i + m) (s.bytes .scratch (p.lineAddr i m) 64) }
    | none, _ => .skip

/-- The tick at which the feeder of array `a` reads a line of M-row `i`: the one from w_i - 16 to w_i - 9 at which the array holds its bank. -/
def lineTick (a : Nat) (p : Pass) (i m : Nat) : Nat :=
  let u := p.start + i - 16
  u + ((List.range 8).find? fun d => holdsBank a (p.lineAddr i m) (u + d)).getD 0

/-- The lines of an M-row. -/
def Pass.lines (p : Pass) : List Nat := List.range (if p.h = 32 then 16 else 8)

/-- The lines of an M-row that array `a` reads at tower tick `u`. -/
def linesAt (a : Nat) (p : Pass) (i u : Nat) : List Nat := p.lines.filter fun m => lineTick a p i m == u

/-- The bytes of an M-row set up at tower tick `u`: zero, but for lines whose tick has passed while the start was not known, which stand as they did at that tick (R175). -/
def earlyBytes (a : Nat) (p : Pass) (i u : Nat) : List Byte :=
  (p.lines.filter fun m => decide (lineTick a p i m < u)).foldl (fun bs m => putBytes bs (64 * m) (smGet (List.replicate 64 0) p.early (16 * i + m)))
    (List.replicate (64 * p.lines.length) 0)

/-- The feed record popped for a `.walk` M-row, or a zero record where the walker ended short (R264); its bytes and its RV word. -/
def recordBytes (r : List Byte) : List Byte := r.take 512
def recordRv (r : List Byte) : Nat := leNat (r.drop 512) % 65536

/-- An M-row of a pass is set up at w_i - 16: its feed records leave the feed, or its lines begin to be read. -/
def openMRow (a : Nat) (p : Pass) (i : Nat) : Plan :=
  .get fun s =>
    let per := if p.h = 32 then 2 else 1
    let w := s.arr a
    let held := if p.walk then min per (p.feedN - i * per) else 0
    let recs := w.walker.feed.take held
    let bytes := if p.qk.isSome then earlyBytes a p i (s.ttick (towerOf a)) else recs.flatMap recordBytes
    let rv := recordRv (recs.getD 0 []) + 65536 * recordRv (recs.getD 1 [])
    withUid fun uid =>
      Plan.all
        [ modArr a fun v =>
            { v with walker := { v.walker with feed := v.walker.feed.drop held, feedRes := v.walker.feedRes - held },
                     mrows := v.mrows ++ [{ uid, pass := p.uid, i, enter := p.start + i, row := some (p.arow + i), ready := p.walk,
                                            bytes := bytes ++ List.replicate (per * 512 - bytes.length) 0, rv := BitVec.ofNat 32 rv }] },
          Plan.when p.qk.isSome (Plan.each (p.lines.filter fun m => decide (lineTick a p i m < s.ttick (towerOf a))) fun m => passRead a p (p.lineAddr i m) 64),
          atTower (towerOf a) (p.start + i) rankMRow { arr := a, ctx := p.ctx, n := p.n, a := p.uid, b := i } (.instr .mRowEnter) ]

/-! ## The delta pass (R215-R219) -/

/-- The weight scale exponent of an entry's mode: X0 - 511 (R215). -/
def kennelX0 (k : Kennel) : Nat := if k.mode then 511 else 505

/-- The exponent j of SCALE = 2^j (R204). -/
def kennelJ (k : Kennel) : Nat := k.scale / 2 ^ 23 % 256 - 127

/-- Round to the nearest integer, ties to even, of d / 2^j. -/
def rneDiv (d : Int) (j : Nat) : Int := rndInt .rne (Frac.ofInt d (2 ^ j))

def asI8 (b : Byte) : Int := b.toInt
def asI16 (lo hi : Byte) : Int := (hi ++ lo).toInt

/-- The elements of an M-row of `mmd` on the delta path: activation, new x_prev, and for a stray its d (R217). -/
def deltaElem (j : Nat) (x p : Int) : Int × Int × Option Int :=
  let d := x - p
  let dq := rneDiv d j
  if -128 ≤ dq ∧ dq ≤ 127 then (dq, p + 2 ^ j * dq, none) else (0, x, some d)

/-- A correction entry (R217). -/
def corrEntry (i k : Nat) (d : Int) : Nat := i % 256 * 2 ^ 24 + k % 1024 * 2 ^ 14 + (d % 1024).toNat

def byteOfInt (v : Int) : Byte := BitVec.ofInt 8 v

/-- Row `i` of an `mmd` worked out at w_i - 9: the operand is read, strays found, the band row to load kept with it (R216, R217). -/
def kennelLoadPlan (a pass i : Nat) : Plan :=
  .get fun s =>
    match (s.arr a).pass? pass, (s.arr a).mrow? pass i with
    | some p, some w =>
      if w.ready then .skip
      else
        let t := towerOf a
        let k := s.kennel t (p.kennel.getD 0)
        let win := s.winAddr t p.part
        let g := if p.h = 32 then 2 else 1
        let e := 512 * g
        let xs := (List.range e).map fun m => asI8 (w.bytes.getD m 0)
        let last := i + 1 == p.mrows
        let fin : Nat → Plan := fun ns =>
          Plan.when last <| Plan.all
            [ modPass a pass fun q => { q with nsKnown := true, fend := some (q.start + q.mrows + 2 * ns) },
              Plan.each (spanned a p.h) (fun b => modArr b fun v => { v with fend := max v.fend (p.start + p.mrows + 2 * ns) }),
              noteDone a p (p.start + p.mrows + 2 * ns) ]
        if p.delta then
          let j := kennelJ k
          let ps := (List.range e).map fun m => asI16 (s.byte .scratch (win (k.xprev + 1024 * g * i + 2 * m))) (s.byte .scratch (win (k.xprev + 1024 * g * i + 2 * m + 1)))
          let rs := (List.range e).map fun m => deltaElem j (xs.getD m 0) (ps.getD m 0)
          let strays := (List.range e).filterMap fun m => (rs.getD m (0, 0, none)).2.2.map fun d => (m, d)
          let y := (List.range 512).map fun c =>
            (BitVec.ofNat 54 (s.number .scratch (win (k.yprev + 4096 * i + 8 * c)) 8)).toInt
          Plan.all
            [ passRead a p (win (k.xprev + 1024 * g * i)) (1024 * g), passRead a p (win (k.yprev + 4096 * i)) 4096,
              modMRow a w.uid fun w => { w with ready := true, nsAt := p.ns, scale := j, y, bytes := rs.map fun r => byteOfInt r.1 },
              modPass a pass fun q => { q with ns := q.ns + strays.length, xnew := smSet q.xnew i (rs.map fun r => r.2.1) },
              Plan.each (List.range strays.length) (fun m =>
                let (kk, d) := strays.getD m (0, 0)
                atTick (s.now + 1) rankControl (some t) { arr := a, ctx := p.ctx, n := p.n }
                  (.micro (.write .scratch (win (k.yprev + p.mrows * 4096 + 4 * (p.ns + m))) (natBytes 4 (corrEntry i kk d))))),
              fin (p.ns + strays.length) ]
        else
          Plan.all
            [ modMRow a w.uid fun w => { w with ready := true },
              modPass a pass fun q => { q with xnew := smSet q.xnew i xs },
              fin 0 ]
    | _, _ => .skip

/-- A correction row (R218): read back from its entry, value l or h at element K of an otherwise zero row. -/
def kennelCorrPlan (a pass m : Nat) : Plan :=
  .get fun s =>
    match (s.arr a).pass? pass with
    | none => .skip
    | some p =>
      let t := towerOf a
      let k := s.kennel t (p.kennel.getD 0)
      let e := s.number .scratch (s.winAddr t p.part (k.yprev + p.mrows * 4096 + 4 * (m / 2))) 4
      let row := e / 2 ^ 24
      let kk := e / 2 ^ 14 % 1024
      let d := (BitVec.ofNat 10 e).toInt
      let h := rneDiv d 7
      let g := if p.h = 32 then 2 else 1
      let ok := decide (row < p.mrows) && decide (kk < 512 * g)
      let v := if m % 2 = 0 then d - 128 * h else h
      let bytes := (List.range (512 * g)).map fun c => if ok && c == kk then byteOfInt v else 0
      let i := p.mrows + m
      withUid fun uid =>
        let w : MRow :=
          { uid, pass := p.uid, i, enter := p.start + i, row := if ok then some (p.arow + row) else none, scale := if m % 2 = 0 then 0 else 7, bytes }
        Plan.all
          [ passRead a p (s.winAddr t p.part (k.yprev + p.mrows * 4096 + 4 * (m / 2))) 4,
            modArr a fun v => { v with mrows := v.mrows ++ [w] },
            atTower t (p.start + i) rankMRow { arr := a, ctx := p.ctx, n := p.n, a := p.uid, b := i } (.instr .mRowEnter) ]

/-- GEN of a watch range as the kennel unit sees it at a decision (R209): advances of the last 64 ticks that nothing orders before it may be seen or not, a free choice.
The 64 are counted in global ticks: the writes come from every tower, and R209 names no tower's ticks (DESIGN CHOICE, log 4). -/
def genSeen (gen : Nat) (recent : List Advance) (now draw : Nat) : Nat :=
  let young := (recent.filter fun e => !e.sure && decide (now < e.tick + 64)).length
  gen + 2 ^ 32 - Config.freeUpTo draw young

/-- What a decision of an `mmd` finds now: whether it takes the refresh path, SGEN of both arrays and GEN (R215). -/
def decisionNow (s : State) (a : Nat) (p : Pass) : Bool × Nat × Nat × Nat :=
  let k := s.kennel (towerOf a) (p.kennel.getD 0)
  let w := smGet 0 (s.part p.part).watch k.wix
  let gen := genSeen (wrGen w) (smGet [] (s.part p.part).watchAt k.wix) s.now s.free % 2 ^ 32
  let sgen2 := if p.h = 32 then (s.arr (a + 4)).sgen else k.pgen2
  (k.inv == 0 || decide (k.period ≤ k.inv) || k.errseen || k.sforce || k.bforce || k.pgen != (s.arr a).sgen || k.pgen2 != sgen2 || (wrSpace w != 0 && k.wgen != gen),
    (s.arr a).sgen, sgen2, gen)

/-- What the decision of a waiting `mmd` would find at this tick, kept for the 16 ticks in which it may turn out to be the decision's. -/
def peekPlan (a pass : Nat) : Plan :=
  .get fun s =>
    match (s.arr a).pass? pass with
    | none => .skip
    | some p =>
      let u := s.ttick (towerOf a)
      .both (modPass a pass fun q => { q with peeks := (u, decisionNow s a p) :: q.peeks.filter fun e => decide (u < e.1 + 16) }) (.edit (.free (s.free + 1)))

/-- MMD_DECISION: the kennel unit takes the refresh path or the delta path, by what stood at d = s - 16 (R215). A decision left over from before a RESUME, whose tick is no
longer the pass's s - 16, is none. -/
def execMmdDecision : State → Host.Outcome State Fault Refusal :=
  (Plan.get fun s =>
    let a := s.site.arr
    let t := towerOf a
    match (s.arr a).pass? s.site.a with
    | none => .skip
    | some p =>
      let key := p.kennel.getD 0
      let k := s.kennel t key
      let (refresh, sgen, sgen2, gen) := match p.peeks.find? fun e => e.1 + 16 == p.start with
        | some e => e.2
        | none => decisionNow s a p
      Plan.when (!p.decided && p.known && decide (p.start ≤ s.ttick t + 16)) <| Plan.all
        [ modPass a p.uid fun q => { q with decided := true, delta := !refresh, ns := 0, entryWas := some (k.pgen, k.pgen2, k.wgen, k.sforce, k.bforce, k.errseen), peeks := [] },
          if p.dead then modKennel t key fun k => { k with errseen := false }
          else modKennel t key fun k => { k with pgen := sgen, pgen2 := sgen2, wgen := gen, errseen := false, sforce := false, bforce := false },
          .edit (.free (s.free + 1)) ]).step

/-- KENNEL_WRITEBACK (R219): band row `i` and x_prev row `i` written at L + 1 + i; at DONE the entry's counts. -/
def execKennelWriteback : State → Host.Outcome State Fault Refusal :=
  (Plan.get fun s =>
    let a := s.site.arr
    let t := towerOf a
    let i := s.site.b
    match (s.arr a).pass? s.site.a with
    | none => .skip
    | some p =>
      let key := p.kennel.getD 0
      let k := s.kennel t key
      let g := if p.h = 32 then 2 else 1
      let win := s.winAddr t p.part
      if i < p.mrows then
        let r := s.accRow (accKey (if p.h = 32 then a + 4 else a) (p.arow + i))
        let y := (List.range 512).flatMap fun c => natBytes 8 ((r.x % 1024) * 2 ^ 54 + (smGet 0 r.n c % 2 ^ 54).toNat)
        let big := (List.range 512).any fun c => decide (2 ^ 52 ≤ (smGet 0 r.n c).natAbs)
        Plan.all
          [ scratchWrite (win (k.yprev + 4096 * i)) y,
            scratchWrite (win (k.xprev + 1024 * g * i)) ((List.range (512 * g)).flatMap fun m => natBytes 2 ((smGet [] p.xnew i).getD m 0 % 65536).toNat),
            modPass a p.uid fun q => { q with bforce := q.bforce || big || r.ovf },
            afterAt 1 (if i + 1 < p.mrows then rankControl else rankEngine) { s.site with b := i + 1 } (.instr .kennelWriteback) ]
      else
        Plan.all
          [ modKennel t key fun k =>
              { k with inv := if p.delta then min (k.inv + 1) 255 else 1, nstray := min p.ns 65535, sforce := k.sforce || decide (k.slim < p.ns),
                       bforce := k.bforce || p.bforce },
            modArr a fun v => { v with passes := v.passes.filter fun q => q.uid != p.uid } ]).step

/-! ## The feeder's tick -/

/-- An array whose rows have stopped under the leash (R360). -/
def Arr.stopped (v : Arr) (u : Nat) : Bool :=
  match v.ta with
  | some ta => decide (ta + 6 ≤ u)
  | none => false

/-- What the feeder does for row `i` of a pass at tower tick `u`. -/
def feedRow (a : Nat) (p : Pass) (i u : Nat) : Plan :=
  .get fun s =>
    let w := p.start + i
    if i < p.mrows then
      match (s.arr a).mrow? p.uid i with
      | none =>
        if w ≤ u + 16 then
          .both (openMRow a p i)
            (if p.qk.isSome then
               .both (Plan.each (linesAt a p i u) fun m => after 0 rankPortRead (.micro (.feedRead a p.uid i m)))
                 (Plan.when (p.kennel.isSome && decide (w ≤ u + 9)) (after 0 rankDecide (.micro (.kennelLoad a p.uid i))))
             else .skip)
        else .skip
      | some m =>
        if !m.entered && m.ready && m.enter != w then
          .both (modMRow a m.uid fun m => { m with enter := w }) (atTower (towerOf a) w rankMRow { arr := a, ctx := p.ctx, n := p.n, a := p.uid, b := i } (.instr .mRowEnter))
        else if p.qk.isSome && !m.entered && !m.ready && decide (u ≤ m.enter) && decide (m.enter ≤ u + 16) then
          .both (Plan.when (decide (u + 9 ≤ w)) (Plan.each (linesAt a p i u) fun m => after 0 rankPortRead (.micro (.feedRead a p.uid i m))))
            (Plan.when (p.kennel.isSome && w == u + 9) (after 0 rankDecide (.micro (.kennelLoad a p.uid i))))
        else .skip
    else
      match (s.arr a).mrow? p.uid i with
      | none => Plan.when (decide (w ≤ u + 8 + (i - p.mrows) % 2)) (after 0 rankPortRead (.micro (.kennelCorr a p.uid (i - p.mrows))))
      | some _ => .skip

/-- What the feeder reads for a pass whose start is not known: the lines, of the rows it might set up by then, whose banks the array holds; and what its decision would
find. FEND behind an `mmd` is known 10 ticks before it at the latest (R215, R218), so seven rows are enough. -/
def readAhead (a : Nat) (p : Pass) (u : Nat) : Plan :=
  .both
    (Plan.when p.qk.isSome (Plan.each ((List.range 7).filter fun j => decide (p.entered + j < p.mrows)) fun j =>
      Plan.each (p.lines.filter fun m => holdsBank a (p.lineAddr (p.entered + j) m) u) fun m => after 0 rankPortRead (.micro (.feedRead a p.uid (p.entered + j) m))))
    (Plan.when (p.kennel.isSome && !p.decided) (after 0 rankDecide (.micro (.peek a p.uid))))

/-- The west feeder of an array at one tick: starts fixed, M-rows set up, the lines of this tick read; it goes on while any pass is left. -/
def feedTickPlan (a : Nat) : Plan :=
  .get fun s =>
    let u := s.ttick (towerOf a)
    if (s.arr a).stopped u || (s.arr a).passes.isEmpty then .skip
    else
      Plan.all
        [ Plan.each ((s.arr a).passes.map (·.uid)) (resolvePass a),
          .get (fun s =>
            Plan.each ((s.arr a).passes.filter fun p => p.known) fun p =>
              Plan.each ((List.range p.rows).filter fun i => decide (p.entered ≤ i) && decide (p.start + i ≤ u + 17)) fun i => feedRow a p i u),
          .get (fun s => Plan.each ((s.arr a).passes.filter fun p => !p.known) fun p => readAhead a p u),
          after 1 rankFeed (.micro (.feedTick a)) ]

/-- The least FEND a list of passes can leave, each in its turn no sooner than H after it fired: an `mmd` whose strays are not all counted is taken to find no more. -/
def soonestFend (base : Nat) (ps : List Pass) : Nat :=
  ps.foldl (fun f p =>
    match p.fend with
    | some e => max f e
    | none => if p.known then max f (p.start + p.mrows + 2 * p.ns) else max f (p.base + p.h) + (p.mrows - p.entered)) base

/-- The soonest start of a pass whose start is not known. -/
def soonestStart (s : State) (a : Nat) (p : Pass) : Nat :=
  let own := soonestFend (s.arr a).fend ((s.arr a).passes.takeWhile fun q => q.uid != p.uid)
  let upper := if p.h = 32 then soonestFend (s.arr (a + 4)).fend ((s.arr (a + 4)).passes.filter fun q => decide (q.fired ≤ p.fired)) else 0
  let gang := if a % 8 < 4 then 0 else soonestFend 0 ((s.arr (a - 4)).passes.filter fun q => q.h == 32 && decide (q.fired < p.fired))
  let ready := match p.kennel with
    | none => 0
    | some key => (mmdsBefore s a key p.uid).foldl (fun r q => max r (q.doneTick (soonestFend 0 [q]) + 16)) ((s.kennel (towerOf a) key).done + 16)
  max (max (p.base + p.h) own) (max (max upper gang) ready)

/-- The lines the feeder of an array reads at tower tick `u`, by their number in the scratchpad (R225). Behind an `mmd` a pass's start may not be known yet as its first lines
would be read: the feeder is taken to read them, ahead of every other agent, at the soonest start that what has been found so far allows (DESIGN CHOICE, log 21). -/
def feederLines (s : State) (a u : Nat) : List Nat :=
  (s.arr a).passes.flatMap fun p =>
    if p.qk.isSome then
      let w := fun i => if p.known then p.start + i else soonestStart s a p + (i - p.entered)
      ((List.range p.mrows).filter fun i => decide (p.entered ≤ i) && decide (w i ≤ u + 16) && decide (u + 9 ≤ w i)).flatMap fun i =>
        (p.lines.filter fun m => holdsBank a (p.lineAddr i m) u).map fun m => p.lineAddr i m / 64
    else []

/-! ## Entering, products (R175-R177, R191-R194) -/

/-- What M-row bytes a downstream pass takes: those forwarded, zero beyond them (R179). -/
def forwarded (p : Pass) (i : Nat) (w : MRow) : List Byte := if p.source.isSome then smGet w.bytes p.fwdRows i else w.bytes

/-- An M-row of a forwarding pass on its way to the pass that takes it. -/
def forwardRow (a : Nat) (p : Pass) (i : Nat) (bytes : List Byte) : Plan :=
  .get fun s =>
    match if p.fwd then takerOf s a p.uid else none with
    | some q => modPass (a + 1) q.uid fun q => { q with fwdRows := smSet q.fwdRows i bytes }
    | none => .skip

/-- M_ROW_ENTER: a row of a pass enters row 0, unless the array has stopped (R175, R180). Only a `.walk` pass sets the row-valid word of its array: a `.walk` pass's M-row
forwarded into a downstream member carries none there, so ROWSRC 17 reads the mask 0 in it (R266 speaks of the pass's own array; DESIGN CHOICE, log 21). -/
def execMRowEnter : State → Host.Outcome State Fault Refusal :=
  (Plan.get fun s =>
    let a := s.site.arr
    let t := towerOf a
    let u := s.ttick t
    match (s.arr a).pass? s.site.a, (s.arr a).mrow? s.site.a s.site.b with
    | some p, some w =>
      if (s.arr a).stopped u || w.entered || w.enter != u then .skip
      else
        let acc := if p.h = 32 then a + 4 else a
        let key := accKey acc (p.arow + p.entered)
        Plan.all
          [ modMRow a w.uid fun m => { m with entered := true, enter := u, bytes := forwarded p w.i m },
            forwardRow a p w.i w.bytes,
            modPass a p.uid fun q => { q with entered := q.entered + 1 },
            Plan.when p.walk (modArr a fun v => { v with rv := (u, w.rv) }),
            (match p.qk with
             | some q =>
               Plan.when (decide (w.i < p.mrows))
                 (after 1 rankPointer (.micro (.engineWord a p.ctx p.tid q p.stamp false (w.i + 1 == p.mrows) (if p.h = 32 then 2 else 1))))
             | none => .skip),
            Plan.when (p.kennel.isSome && decide (w.i < p.mrows))
              (after 4 rankAccWrite (.micro (.accLand key w.y (kennelX0 (s.kennel t (p.kennel.getD 0)))))),
            after 0 rankProduct (.micro (.diag a w.uid 0)),
            Plan.each (List.range 16) fun c =>
              afterAt (c + p.h + 4) rankLanding { s.site with b := w.uid, c } (.instr .passLanding) ]
    | _, _ => .skip).step

/-- The stationary plane of a cell (R167): the address of its first byte. -/
def planeAddr (cell plane : Nat) : Nat := (cell * 2 + plane) * 1024
def State.stationary (s : State) (cell : Nat) : Nat := if (s.cellx cell).plane1 then 1 else 0

/-- The delivered sum of one slice (R192): exact while its rail has stood at nominal, else what the slice delivers, clamped. -/
def sliceSum (exact bound draw : Nat) (below : Bool) : Nat := if below then min (Config.sliceDelivers draw exact) bound else exact

/-- One column of one cell (R192, R194): P, and which slices show an observed error. -/
def columnSum (ts : List Int) (draw : Nat) (b1 b2 : Bool) : Int × Bool × Bool :=
  let bound := 7 * ts.length
  let g := (ts.map fun t => t / 64).foldl (· + ·) 0
  let lo := ts.map fun t => (t % 64).toNat
  let l1 := (lo.map fun v => v % 8).foldl (· + ·) 0
  let l2 := (lo.map fun v => v / 8).foldl (· + ·) 0
  let d1 := sliceSum l1 bound (2 * draw) b1
  let d2 := sliceSum l2 bound (2 * draw + 1) b2
  (64 * g + d1 + 8 * d2, l1 % 7 != d1 % 7, l2 % 7 != d2 % 7)

/-- Columns of a cell in a mode (R172). -/
def PMode.cols : PMode → Nat
  | .ps8 => 32
  | .i8 => 16
  | .bf16 => 8

/-- The terms of column `n` of a cell (R176, R191), the exponent of 2 of their scale above -283, and whether the column is marked non-finite. A BF16 plane word whose g byte
is 0, of a plane loaded in another form (R167), gives the least scale there is. -/
def cellTerms (s : State) (mode : PMode) (plane : Nat) (sl : List Byte) (n : Nat) : List Int × Nat × Bool :=
  match mode with
  | .ps8 => ((List.range 32).map fun k => ps8Value (s.byte .plane (plane + 32 * n + k)).toNat * asI8 (sl.getD k 0), 277, false)
  | .i8 => ((List.range 32).map fun k => asI8 (s.byte .plane (plane + 32 * n + k)) * asI8 (sl.getD k 0), 283, false)
  | .bf16 =>
    let es := (List.range 16).map fun k => leNat [sl.getD (2 * k) 0, sl.getD (2 * k + 1) 0]
    let e := bf16GroupExp es
    let word := s.number .plane (plane + 68 * n) 4
    let wt := fun k =>
      let v := (BitVec.ofNat 32 (s.number .plane (plane + 68 * n + 4 + 4 * k) 4)).toInt
      max (-65535) (min 65535 v)
    ((List.range 16).map fun k => bf16Align e (es.getD k 0) * wt k, e + word % 256 - 1, bf16NonFinite es || word.testBit 31)

/-- What one cell adds to an M-row: for each of its columns P at its scale in units of 2^-283, the non-finite marks and the observed errors. -/
def cellAdds (s : State) (p : Pass) (w : MRow) (r c cell : Nat) : List (Int × Bool × Bool × Bool) :=
  let taking := p.taking.testBit (16 * r + c) && (!p.walk || w.rv.getLsbD r)
  let sl := (w.bytes.drop (32 * r)).take 32
  let plane := planeAddr cell (s.stationary cell)
  (List.range p.mode.cols).map fun n =>
    let (ts, e, nf) := cellTerms s p.mode plane sl n
    let ts := if taking then ts else ts.map fun _ => 0
    let (v, e1, e2) := columnSum ts (((w.uid * 512 + 16 * r + c) * 32) + n) (if r < 16 then p.below1 else p.upBelow1) (if r < 16 then p.below2 else p.upBelow2)
    (v * 2 ^ (e + w.scale), taking && nf, e1, e2)

/-- The products of the cells on anti-diagonal `d` of an M-row, formed `d` ticks after it entered row 0. -/
def diagPlan (a uid d : Nat) : Plan :=
  .get fun s =>
    match (s.arr a).mrows.find? fun w => w.uid == uid with
    | none => .skip
    | some w =>
      match (s.arr a).pass? w.pass with
      | none => .skip
      | some p0 =>
        let p := { p0 with below1 := p0.below1 || (s.arr a).ls1.level != 0, below2 := p0.below2 || (s.arr a).ls2.level != 0,
                           upBelow1 := p0.upBelow1 || (s.arr (a + 4)).ls1.level != 0, upBelow2 := p0.upBelow2 || (s.arr (a + 4)).ls2.level != 0 }
        let cells := (List.range p.h).filterMap fun r => if r ≤ d ∧ d - r < 16 then some (r, d - r) else none
        let adds := cells.map fun (r, c) => (c, cellOf a r c, cellAdds s p w r c (cellOf a r c))
        let sums := adds.foldl (fun m (c, _, vs) =>
          let old := smGet [] m c
          smSet m c ((List.range vs.length).map fun n => old.getD n 0 + (vs.getD n (0, false, false, false)).1)) w.sums
        let marks := adds.flatMap fun (c, _, vs) =>
          (List.range vs.length).filterMap fun n => if (vs.getD n (0, false, false, false)).2.1 then some (32 * c + n) else none
        let errs := adds.flatMap fun (_, cell, vs) =>
          vs.flatMap fun (_, _, e1, e2) => (if e1 then [(cell, 1)] else []) ++ (if e2 then [(cell, 2)] else [])
        Plan.all
          [ modPass a p.uid fun q => { q with below1 := p.below1, below2 := p.below2, upBelow1 := p.upBelow1, upBelow2 := p.upBelow2 },
            modMRow a uid fun m => { m with sums, marks := m.marks ++ marks, errs := m.errs ++ errs },
            Plan.when (decide (d < p.h + 14)) (after 1 rankProduct (.micro (.diag a uid (d + 1)))) ]

/-! ## Landings (R125, R177, R194-R201) -/

/-- An exact quotient truncated toward zero. -/
def truncDiv (v : Int) (d : Nat) : Int := if v < 0 then -((v.natAbs / d : Nat) : Int) else (v.natAbs / d : Nat)

/-- A value of units 2^-283 as an increment of N in a row whose exponent is X (R125). -/
def scaleToRow (v : Int) (x : Nat) : Int := if x ≤ 228 then v * 2 ^ (228 - x) else truncDiv v (2 ^ (x - 228))

/-- An integer kept in 54 bits by saturation (R125). -/
def sat54 (v : Int) : Int × Bool :=
  if v < -(2 ^ 53) then (-(2 ^ 53), true) else if 2 ^ 53 - 1 < v then (2 ^ 53 - 1, true) else (v, false)

def AccRow.addTo (r : AccRow) (col : Nat) (v : Int) : AccRow :=
  let (m, o) := sat54 (smGet 0 r.n col + v)
  { r with n := smSet r.n col m, ovf := r.ovf || o }

/-- One row of a pass lands in one column block. -/
def landColumn (p : Pass) (w : MRow) (acc c : Nat) : Plan :=
  match w.row with
  | none => .skip
  | some row =>
    Plan.when (p.colsel.getLsbD c) <| modAcc (accKey acc row) fun r =>
      let vs := smGet [] w.sums c
      let r := (List.range vs.length).foldl (fun r n => r.addTo (32 * c + p.acol + n) (scaleToRow (vs.getD n 0) r.x)) r
      if w.marks.any fun m => m / 32 == c then { r with nfi := true } else r

/-- A pass is done with once the errors of its last landing have been counted. -/
def endPass (a uid : Nat) : Plan := afterAt 0 rankCount { arr := a } (.micro (.passEnd a uid))
def passEndPlan (a uid : Nat) : Plan := modArr a fun v => { v with passes := v.passes.filter fun q => q.uid != uid }

/-- The last landing of an `mmd`: its write-back begins at the next tick (R219); nothing is written back for a killed task (R221). -/
def afterLast (a : Nat) (p : Pass) : Plan :=
  if p.kennel.isSome then
    if p.dead then endPass a p.uid
    else afterAt 1 rankControl { arr := a, ctx := p.ctx, n := p.n, a := p.uid, b := 0 } (.instr .kennelWriteback)
  else endPass a p.uid

/-- PASS_LANDING: the sums of one column block land, its observed errors are counted, and with block 15 the row is done. -/
def execPassLanding : State → Host.Outcome State Fault Refusal :=
  (Plan.get fun s =>
    let a := s.site.arr
    let c := s.site.c
    match (s.arr a).pass? s.site.a, (s.arr a).mrows.find? fun w => w.uid == s.site.b with
    | some p, some w =>
      let errs := w.errs.filter fun (cell, _) => cell % 16 == c
      Plan.all
        [ landColumn p w (if p.h = 32 then a + 4 else a) c,
          Plan.when (!errs.isEmpty) (.both
            (modArr a fun v => { v with errsNow := v.errsNow ++ errs.map fun (cell, sl) => (cell, sl, p.uid) })
            (after 0 rankCount (.micro (.errCount a)))),
          Plan.when (c == 15) (Plan.all
            [ modArr a fun v => { v with mrows := v.mrows.filter fun m => m.uid != w.uid },
              modPass a p.uid fun q => { q with landed := q.landed + 1 },
              .get fun s =>
                match (s.arr a).pass? p.uid with
                | some q => Plan.when q.finished (afterLast a q)
                | none => .skip ]) ]
    | _, _ => .skip).step

/-- Observed errors in the order R201 counts them in: by cell, LS1 before LS2. -/
def insertErr (e : Nat × Nat × Nat) : List (Nat × Nat × Nat) → List (Nat × Nat × Nat)
  | [] => [e]
  | f :: rest => if f.1 < e.1 || (f.1 == e.1 && decide (f.2.1 ≤ e.2.1)) then f :: insertErr e rest else e :: f :: rest

def sat32 (v : Nat) : Nat := min v (2 ^ 32 - 1)

/-- One observed error counted (R195, R201, R220), in the array whose cell erred and in the task that issued the pass, which may have ended. The two members of an east chain
count each its own, in its context; the spec does not say how a chain's one task counts (DESIGN CHOICE, log 21). -/
def countError (a : Nat) (e : Nat × Nat × Nat) : Plan :=
  .get fun s =>
    let (cell, sl, uid) := e
    let b := cell / 256
    match (s.arr a).pass? uid with
    | none => modArr b fun v => if sl = 1 then { v with aerr1 := sat32 (v.aerr1 + 1) } else { v with aerr2 := sat32 (v.aerr2 + 1) }
    | some p =>
      let c := s.ctxOf a p.ctx p.tid
      let live := c.tid == p.tid
      let t1 := if sl = 1 then sat32 (c.terr1 + 1) else c.terr1
      let t2 := if sl = 1 then c.terr2 else sat32 (c.terr2 + 1)
      let above := live && decide (0 < c.threshold) && decide (c.threshold ≤ t1 + t2)
      Plan.all
        [ modArr b fun v => if sl = 1 then { v with aerr1 := sat32 (v.aerr1 + 1) } else { v with aerr2 := sat32 (v.aerr2 + 1) },
          Plan.when live (modCtxOf a p.ctx p.tid fun c => { c with terr1 := t1, terr2 := t2, threshold := if above then 2 * c.threshold else c.threshold }),
          (match p.kennel with
           | some key => modKennel (towerOf a) key fun k => { k with errseen := true }
           | none => .skip),
          Plan.when above (chargeFault a p.ctx p.tid p.n 0x70 sl cell) ]

def errCountPlan (a : Nat) : Plan :=
  .get fun s =>
    let es := (s.arr a).errsNow.foldr insertErr []
    .both (modArr a fun v => { v with errsNow := [] }) (Plan.each es (countError a))

/-- SLICE_RAIL_SETTLE (R200): a slice rail reaches its target; `site.b` is the slice, `site.c` the end of the move it belongs to. -/
def execSliceRailSettle : State → Host.Outcome State Fault Refusal :=
  (Plan.get fun s =>
    modArr s.site.arr fun v =>
      let settle := fun (r : Rail) => if r.moving == some s.site.c then { r with level := r.target, moving := none } else r
      if s.site.b = 1 then { v with ls1 := settle v.ls1 } else { v with ls2 := settle v.ls2 }).step

end Sys2Proof.Machine
end

