-- ==== Sys2Proof/Machine/TSlot.lean ====
section
/-! DEFINITION. The T slot: the planes (R168-R170), matrix passes and the delta pass as they fire (R173-R179, R213-R215), and the band instructions of the
accumulator store (R184-R189). -/

namespace Sys2Proof.Machine

/-- A Frac times an integer. -/
def fracTimes (n : Int) (x : Frac) : Frac := { neg := decide (n < 0) != x.neg, num := n.natAbs * x.num, den := x.den }

/-! ## The planes -/

/-- SGEN of the issuing array, and of the upper array of a gang, advances at issue (R168). -/
def advanceSgen : Plan := .get fun s => Plan.each (spanned s.site.arr s.me.h) fun b => modArr b fun v => { v with sgen := (v.sgen + 1) % 2 ^ 64 }

/-- Chunks of a form (R169). -/
def chunksOf (form : Nat) : Nat := if form = 0 then 32 else if form = 1 then 16 else 8

def ldwAddr (s : State) (col : Nat) (v : Src) (off : BitVec 16) : Nat := (elem 32 0 (s.src (.int 32) col 0 v) + off.toNat) % 2 ^ 32

def ldwCheck (form : BitVec 2) (v : Src) (off : BitVec 16) (s : State) (col : Nat) : Option Chk :=
  cellCheck s (ldwAddr s col v off) (32 * chunksOf form.toNat)

/-- The plane of a cell that loads write. -/
def shadowPlane (s : State) (cell : Nat) : Nat := 1 - s.stationary cell

def execLdw (g : Guard) (form : BitVec 2) (v : Src) (off : BitVec 16) : State → Host.Outcome State Fault Refusal :=
  (twoPart advanceSgen (inRow g (ldwCheck form v off) fun c => .get fun s =>
    let cell := cellOf s.site.arr s.site.row c
    let a := s.cellAddr c (ldwAddr s c v off)
    Plan.each (List.range (chunksOf form.toNat)) fun j =>
      after (1 + j) rankRead (.micro (.chunk form.toNat cell (shadowPlane s cell) j (a + 32 * j))))).step

/-- One column of aligned BF16 weights (R128, R167): the word with g and NF, then sixteen I32. -/
def alignedColumn (es : List Nat) : List Byte :=
  let g := bf16GroupExp es
  natBytes 4 (g + (if bf16NonFinite es then 2 ^ 31 else 0)) ++ es.flatMap fun e => natBytes 4 (bf16Align g e % 2 ^ 32).toNat

/-- Chunk `j` of an `ldw`, read from the cell store and on its way into the plane (R169). -/
def chunkPlan (form cell plane j addr : Nat) : Plan :=
  .get fun s =>
    let bs := s.bytes .cell addr 32
    let base := planeAddr cell plane
    let es := (List.range 16).map fun k => leNat [bs.getD (2 * k) 0, bs.getD (2 * k + 1) 0]
    let k := if form = 2 then 2 else 1
    let data := if form = 2 then alignedColumn es else bs
    let at' := if form = 2 then base + 68 * j else base + 32 * j
    let used := if form = 0 then 1024 else if form = 1 then 512 else 544
    Plan.all
      [ afterOrd k rankEngineWrite (.micro (.write .plane at' data)),
        Plan.when (j == 0) (afterOrd k rankEngineWrite (.micro (.write .plane (base + used) (List.replicate (1024 - used) 0)))),
        Plan.when (j + 1 == chunksOf form) (afterOrd k rankEngineWrite (.micro (.planeDone cell))) ]

def execFlip (g : Guard) : State → Host.Outcome State Fault Refusal :=
  (twoPart advanceSgen (inRowAlways g fun c => .get fun s =>
    modCell (cellOf s.site.arr s.site.row c) fun x => { x with plane1 := !x.plane1, shready := false })).step

/-! ## Firing a pass -/

/-- The rows of a window by CTXMAX are the context's `arSize` (R182). -/
def rowCheck (arow n : Nat) (s : State) : Option Chk := if s.me.arSize < arow + n then some { code := 0x10, sub := 1, addr := arow } else none

def cntOf (cnt : BitVec 8) : Nat := if cnt = 0 then 256 else cnt.toNat
/-- The declared count of a pass of `cnt'` M-rows. -/
def passCount (s : State) (cnt' : Nat) : Nat := if s.me.h = 32 then 2 * cnt' else cnt'

/-- A tower queue of 512-byte elements fit for a pass (R174). -/
def passWordOk (s : State) (k : Nat) : Bool :=
  s.fit k && qwKind (s.me.qword k s.site.n) == 3 && qwEsz (s.me.qword k s.site.n) == 4

/-- Feed records held and not reserved (R264). -/
def feedFill (s : State) : Nat := (s.arr s.site.arr).walker.feed.length - (s.arr s.site.arr).walker.feedRes
def ownsWalker (s : State) : Bool := (s.arr s.site.arr).walker.owner == some s.site.ctx

def passStall (o : TPass) (s : State) : Option StallCause :=
  let c := passCount s (cntOf o.cnt)
  if !railsOk s s.site.arr s.me.h (fidLs1 s.me.fid) (fidLs2 s.me.fid) then some .rail
  else if o.walk then (if ownsWalker s && !(s.arr s.site.arr).walker.ended && decide (feedFill s < c) then some .queue else none)
  else if passWordOk s o.qw.toNat && decide ((s.me.qwState o.qw.toNat).fill < c) then some .queue else none

def passCheck (o : TPass) (s : State) : Option Chk :=
  if o.walk && !ownsWalker s then some { code := 0x60, sub := 5, addr := 0 }
  else if !o.walk && !passWordOk s o.qw.toNat then some badWord
  else rowCheck o.arow.toNat (cntOf o.cnt) s

/-- The feeder of an array is at work from this tick on. -/
def startFeeder (a : Nat) : Plan :=
  .get fun s => Plan.when (!(s.due.any fun d => d.act == .micro (.feedTick a))) (afterAt 0 rankFeed { arr := a } (.micro (.feedTick a)))

/-- A fired pass joins its array's feeder. -/
def firePass (p : Pass) : Plan :=
  .get fun s => .both (modArr s.site.arr fun v => { v with passes := v.passes ++ [p] }) (startFeeder s.site.arr)

/-- The parts of a pass every pass instruction fills alike. -/
def newPass (s : State) (uid : Nat) (mode : PMode) (opcode arow acol cnt : Nat) : Pass :=
  let c := s.me
  { uid, ctx := s.site.ctx, n := s.site.n, tid := c.tid, part := c.part, h := c.h, mode, opcode, arow := c.arBase + arow, acol, mrows := cnt, fired := s.tick, base := s.tick,
    colsel := s.site.cols, ls1 := fidLs1 c.fid, ls2 := fidLs2 c.fid }

/-- The queue a pass reads: its reserved first position, its setting, its ring. -/
def Pass.withQueue (p : Pass) (s : State) (k : Nat) : Pass :=
  let q := s.me.qwState k
  { p with qk := some k, qpos := q.cr, stamp := q.stamp, qaddr := s.myWin (qwBase q.word), qdepth := qwDepth q.word }

def passIssue (mode : PMode) (opcode : Nat) (o : TPass) : Plan :=
  issuePart (passStall o) (passCheck o)
    (.get fun s => withUid fun uid =>
      let cnt := cntOf o.cnt
      let c := passCount s cnt
      let p := { newPass s uid mode opcode o.arow.toNat o.acol.toNat cnt with fwd := o.fwd && s.me.role == 2 }
      if o.walk then
        let held := min c (feedFill s)
        .both (modArr s.site.arr fun v => { v with walker := { v.walker with feedRes := v.walker.feedRes + held } })
          (firePass { p with walk := true, feedN := held })
      else .both (modMyQ o.qw.toNat (QW.takeIn c)) (firePass (p.withQueue s o.qw.toNat)))

/-- The taking-part bits of the pass of the bundle a step acts for (R176). -/
def takePart (c : Nat) : Plan :=
  .get fun s =>
    let x := s.site
    modArr x.arr fun v =>
      { v with passes := v.passes.map fun p => if p.ctx == x.ctx && p.n == x.n && p.tid == x.a then { p with taking := p.taking ||| 2 ^ (16 * x.row + c) } else p }

def passPlan (mode : PMode) (opcode : Nat) (o : TPass) : Plan := twoPart (passIssue mode opcode o) (inRowAlways o.g takePart)

def execMmPs8 (o : TPass) : State → Host.Outcome State Fault Refusal := (passPlan .ps8 0x08 o).step
def execMmI8 (o : TPass) : State → Host.Outcome State Fault Refusal := (passPlan .i8 0x09 o).step
def execMmBf16 (o : TPass) : State → Host.Outcome State Fault Refusal := (passPlan .bf16 0x0A o).step

/-! ## The downstream pass of an east chain (R179): it stalls as its partner does (R38), and both stall while the rails of either's array stand below its pass (R200) -/

def modeOf (m : Nat) : PMode := if m = 0 then .ps8 else if m = 1 then .i8 else .bf16

/-- The forwarding pass that fired at this tick in the partner of a downstream member. -/
def forwardingPass (s : State) : Option Pass :=
  if s.me.role = 3 then (s.arr (s.site.arr - 1)).passes.find? fun p => p.fwd && p.fired == s.tick && p.tid == s.me.tid else none

/-- A pass instruction that forwards its stream. -/
def forwardsRows (i : Instr) : Bool :=
  match i with
  | .mmPs8 o | .mmI8 o | .mmBf16 o => o.fwd
  | _ => false

/-- The pass of an `mm.chain` takes rows: its partner's has fired at this tick, or the bundle its partner issues with it forwards one. -/
def chainFeeds (s : State) : Bool :=
  (forwardingPass s).isSome || (s.me.role == 3 && (chainMate s s.site.arr s.site.ctx).any fun (b, j) =>
    match fetchBundle s b j with
    | .found bundle _ => (instrsOf bundle).any fun e => forwardsRows e.2
    | .bad .. => false)

/-- A pass fires only with its domain's rails settled at or above its requirement, that of an `mm.chain` too (R200). -/
def chainStall (s : State) : Option StallCause :=
  if chainFeeds s && !railsOk s s.site.arr s.me.h (fidLs1 s.me.fid) (fidLs2 s.me.fid) then some .rail else none

def execMmChain (g : Guard) (mode : BitVec 2) (arow : BitVec 8) (acol : BitVec 9) (cnt : BitVec 8) : State → Host.Outcome State Fault Refusal :=
  (twoPart
    (issuePart chainStall (rowCheck arow.toNat (cntOf cnt))
      (.get fun s =>
        match forwardingPass s with
        | some u => withUid fun uid =>
            firePass { newPass s uid (modeOf mode.toNat) 0x0C arow.toNat acol.toNat (cntOf cnt) with source := some (s.site.arr - 1, u.uid) }
        | none => .skip))
    (inRowAlways g takePart)).step

/-! ## The delta pass (R213, R214) -/

def mmdKey (s : State) (name : BitVec 16) : Nat := kennelKey s.me.part name.toNat
def mmdEntry (s : State) (name : BitVec 16) : Kennel := s.kennel (towerOf s.site.arr) (mmdKey s name)

def mmdRail (s : State) : Nat × Nat := if fidDelta s.me.fid then (fidLs1 s.me.fid, fidLs2 s.me.fid) else (0, 0)

def mmdStall (cnt : BitVec 8) (qw : BitVec 4) (s : State) : Option StallCause :=
  if !railsOk s s.site.arr s.me.h (mmdRail s).1 (mmdRail s).2 then some .rail
  else if passWordOk s qw.toNat && decide ((s.me.qwState qw.toNat).fill < passCount s (cntOf cnt)) then some .queue else none

def mmdCheck (arow cnt : BitVec 8) (qw : BitVec 4) (name : BitVec 16) (s : State) : Option Chk :=
  let k := mmdEntry s name
  if !passWordOk s qw.toNat then some badWord
  else match rowCheck arow.toNat (cntOf cnt) s with
  | some f => some f
  | none =>
    if !k.valid then some { code := 0x71, sub := 0, addr := name.toNat }
    else if k.arr != s.site.arr || k.gang != (s.me.h == 32) then some { code := 0x71, sub := 3, addr := noAddr }
    else if cnt.toNat != k.mrows then some { code := 0x71, sub := 4, addr := noAddr } else none

def execMmd (arow cnt : BitVec 8) (qw : BitVec 4) (name : BitVec 16) : State → Host.Outcome State Fault Refusal :=
  (twoPart
    (issuePart (mmdStall cnt qw) (mmdCheck arow cnt qw name)
      (.get fun s => withUid fun uid =>
        let k := mmdEntry s name
        let c := passCount s (cntOf cnt)
        let p := newPass s uid (if k.mode then .i8 else .ps8) 0x0B arow.toNat 0 (cntOf cnt)
        Plan.all
          [ firePass { p.withQueue s qw.toNat with kennel := some (mmdKey s name), ls1 := (mmdRail s).1, ls2 := (mmdRail s).2 },
            modMyQ qw.toNat (QW.takeIn c) ]))
    (inRowAlways { neg := false, reg := 0 } takePart)).step

/-! ## Band instructions (R184-R189) -/

/-- The array whose accumulator store a context's row window lies in (R178). -/
def accArr (s : State) : Nat := if s.me.h = 32 then s.site.arr + 4 else s.site.arr
/-- Band row `row + r` of the window in the row a step acts in. -/
def bandKey (s : State) (row : Nat) : Nat := accKey (accArr s) (s.me.arBase + row + s.site.row)
def bandCheck (rows : List Nat) (s : State) : Option Chk := (rows.filterMap fun r => rowCheck r s.me.h s).head?

def bandPlan (g : Guard) (rows : List Nat) (check : State → Nat → Option Chk) (eff : Nat → Plan) : Plan :=
  twoPart (issuePart noStall (bandCheck rows) .skip) (inRow g check eff)

def AccRow.get (r : AccRow) (col : Nat) : Int := smGet 0 r.n col

def execAccZero (g : Guard) (arow : BitVec 8) (x : BitVec 10) : State → Host.Outcome State Fault Refusal :=
  (bandPlan g [arow.toNat] noRowCheck fun c => .get fun s =>
    afterOrd 2 rankAccWrite (.micro (.accSet (bandKey s arow.toNat) x.toNat ((List.range 32).map fun i => (32 * c + i, 0)) false false))).step

/-- An accumulator read at te + 1 whose value enters the late-write buffer, due four bundles on (R186). -/
def accReadPlan (d : Dst) (arow : BitVec 8) (acol c : Nat) (st : Bool) : Plan :=
  .get fun s =>
    after 1 rankRead (.micro (.accRead (bandKey s arow.toNat) (32 * c + acol) st (cellOf s.site.arr s.site.row c) s.site.ctx
      { due := s.site.n + 4, n := s.site.n, slot := 3, dest := (s.here c).dest d, latch := .no, val := 0 }))

def execAccRd (g : Guard) (d : Dst) (arow : BitVec 8) (acol : BitVec 9) : State → Host.Outcome State Fault Refusal :=
  (bandPlan g [arow.toNat] noRowCheck fun c => accReadPlan d arow acol.toNat c false).step
def execAccRdSt (g : Guard) (d : Dst) (arow : BitVec 8) : State → Host.Outcome State Fault Refusal :=
  (bandPlan g [arow.toNat] noRowCheck fun c => accReadPlan d arow 0 c true).step

/-- `acc.wr` (R185). Of an element whose column lies beyond the store's 512 the spec says nothing: it is dropped (DESIGN CHOICE, log 21). -/
def execAccWr (g : Guard) (v : Src) (arow : BitVec 8) (acol : BitVec 9) (x : BitVec 10) : State → Host.Outcome State Fault Refusal :=
  (bandPlan g [arow.toNat] noRowCheck fun c => .get fun s =>
    let val := s.src (.int 64) c 0 v
    let vals := (List.range 4).map fun l => (32 * c + acol.toNat + l, (BitVec.ofNat 54 (elem 64 l val)).toInt)
    afterOrd 2 rankAccWrite (.micro (.accSet (bandKey s arow.toNat) x.toNat (vals.filter fun e => decide (e.1 < 512)) false false))).step

def execAccCp (g : Guard) (drow arow : BitVec 8) : State → Host.Outcome State Fault Refusal :=
  (bandPlan g [arow.toNat, drow.toNat] noRowCheck fun c => .get fun s =>
    after 1 rankRead (.micro (.accCopy (bandKey s arow.toNat) (bandKey s drow.toNat) c))).step

def cvtAddr (s : State) (col : Nat) (v : Src) : Nat := elem 32 0 (s.src (.int 32) col 0 v)

def execAccCvt (g : Guard) (rm : BitVec 2) (toI32 : Bool) (v : Src) (arow : BitVec 8) (acol : BitVec 9) : State → Host.Outcome State Fault Refusal :=
  (bandPlan g [arow.toNat] (fun s c => cellCheck s (cvtAddr s c v) 32) fun c => .get fun s =>
    .both (noteWrite 3)
      (after 1 rankRead (.micro (.accConvert (bandKey s arow.toNat) (32 * c + acol.toNat) toI32 rm (s.cellAddr c (cvtAddr s c v)))))).step

def execAccScl (g : Guard) (drow arow : BitVec 8) (acol : BitVec 9) (v : Src) : State → Host.Outcome State Fault Refusal :=
  (bandPlan g [arow.toNat, drow.toNat] noRowCheck fun c => .get fun s =>
    after 1 rankRead (.micro (.accScale (bandKey s arow.toNat) (bandKey s drow.toNat) (32 * c + acol.toNat) (s.src .f32 c 0 v)))).step

/-! ### What a band access does at its tick -/

def accSetPlan (key x : Nat) (vals : List (Nat × Int)) (ovf nfi : Bool) : Plan :=
  modAcc key fun r => { r with x, ovf, nfi, n := vals.foldl (fun m (c, v) => smSet m c v) r.n }

/-- An element read out (R181): X in bits 63:54, N in bits 53:0; a column beyond the store's 512 reads a free value (log 21). -/
def accElem (r : AccRow) (col draw : Nat) : Nat :=
  if col < 512 then r.x % 1024 * 2 ^ 54 + (r.get col % 2 ^ 54).toNat else Config.freeUpTo draw (2 ^ 64 - 1)

def accReadAt (key col : Nat) (st : Bool) (cell ctx : Nat) (e : LwbEntry) : Plan :=
  .get fun s =>
    let r := s.accRow key
    let val : VReg :=
      if st then BitVec.ofNat 256 (r.x % 1024 + (if r.ovf then 1024 else 0) + (if r.nfi then 2048 else 0))
      else mkElems 64 fun l => accElem r (col + l) (s.free + l)
    .both (lateInto cell ctx { e with val }) (.edit (.free (s.free + 4)))

def accCopyPlan (src dst block : Nat) : Plan :=
  .get fun s =>
    let r := s.accRow src
    afterOrd 1 rankAccWrite (.micro (.accSet dst r.x ((List.range 32).map fun i => (32 * block + i, r.get (32 * block + i))) r.ovf r.nfi))

/-- One converted lane (R188). -/
def cvtLane (r : AccRow) (toI32 : Bool) (rm : BitVec 2) (n : Int) : Nat :=
  let v := Frac.ofIntExp n ((r.x : Int) - 511)
  if toI32 then
    if r.nfi then 0 else (max (-2147483648) (min 2147483647 (rndInt (.ofBits rm) v)) % 4294967296).toNat
  else if r.nfi then f32DefaultNan else if n = 0 then 0 else rndBin 23 (.ofBits rm) v

def accConvertPlan (key col : Nat) (toI32 : Bool) (rm : BitVec 2) (addr : Nat) : Plan :=
  .get fun s =>
    let r := s.accRow key
    after 2 rankCellWrite (.micro (.write .cell addr ((List.range 8).flatMap fun l => natBytes 4 (cvtLane r toI32 rm (r.get (col + l))))))

def accScalePlan (src dst col : Nat) (scales : VReg) : Plan :=
  .get fun s =>
    let r := s.accRow src
    afterOrd 2 rankAccAdd (.micro (.accAdd dst ((List.range 8).map fun l => (col + l, r.get (col + l))) r.x r.ovf r.nfi scales))

/-- One scaled value added (R189); OVF of the source row goes along with a value that is added. -/
def AccRow.addScaled (d : AccRow) (col : Nat) (n : Int) (xr : Nat) (ovf nfi : Bool) (s : Nat) : AccRow :=
  match f32Val s with
  | .fin f =>
    if nfi then { d with nfi := true }
    else
      let d := { d with ovf := d.ovf || ovf }
      let v := fracTimes n f
      let v := Frac.mul v (Frac.ofIntExp 1 ((xr : Int) - (d.x : Int)))
      d.addTo col (truncDiv v.toInt v.den)
  | _ => { d with nfi := true }

def accAddPlan (dst : Nat) (vals : List (Nat × Int)) (xr : Nat) (ovf nfi : Bool) (scales : VReg) : Plan :=
  modAcc dst fun d => (List.range vals.length).foldl (fun d l => let (c, n) := vals.getD l (0, 0); d.addScaled c n xr ovf nfi (elem 32 l scales)) d

/-- The band row an `mmd` loads with M-row i (R216, R217). -/
def accLandPlan (key : Nat) (y : List Int) (x : Nat) : Plan :=
  modAcc key fun r => { r with x, ovf := false, nfi := false, n := (List.range 512).map fun c => (c, y.getD c 0) }

/-! ## What ROW_EXECUTE and ISSUE_SELECT ask of a T slot -/

def tCellCheck (i : Instr) (s : State) (col : Nat) : Option Chk :=
  match i with
  | .ldw _ form v off => ldwCheck form v off s col
  | .accCvt _ _ _ v _ _ => cellCheck s (cvtAddr s col v) 32
  | _ => none

def tStall (i : Instr) (s : State) : Option StallCause :=
  match i with
  | .mmPs8 o | .mmI8 o | .mmBf16 o => passStall o s
  | .mmChain .. => chainStall s
  | .mmd _ cnt qw _ => mmdStall cnt qw s
  | _ => none

def tIssueCheck (i : Instr) (s : State) : Option Chk :=
  match i with
  | .mmPs8 o | .mmI8 o | .mmBf16 o => passCheck o s
  | .mmChain _ _ arow _ cnt => rowCheck arow.toNat (cntOf cnt) s
  | .mmd arow cnt qw name => mmdCheck arow cnt qw name s
  | .accZero _ arow _ | .accRd _ _ arow _ | .accRdSt _ _ arow | .accWr _ _ arow _ _ | .accCvt _ _ _ _ arow _ => bandCheck [arow.toNat] s
  | .accCp _ drow arow | .accScl _ drow arow _ _ => bandCheck [arow.toNat, drow.toNat] s
  | _ => none

/-- The requirement a waiting pass puts on the slice rails (R199). -/
def tRail (i : Instr) (s : State) : Option (Nat × Nat) :=
  match i with
  | .mmPs8 _ | .mmI8 _ | .mmBf16 _ => some (fidLs1 s.me.fid, fidLs2 s.me.fid)
  | .mmChain .. => if chainFeeds s then some (fidLs1 s.me.fid, fidLs2 s.me.fid) else none
  | .mmd .. => some (mmdRail s)
  | _ => none

end Sys2Proof.Machine
end

