-- ==== Sys2Proof/Machine/Leases.lean ====
section
/-! DEFINITION. Power leases and the sled ring (R377-R382). -/

namespace Sys2Proof.Machine

/-! ## Allowances -/

def dieOf (a : Nat) : Nat := a / 4
/-- The standing allowance of an array (R377). -/
def allowance (s : State) (a : Nat) : Nat :=
  match (s.arr a).owner with
  | some p => smGet 0 (s.part p).sa a
  | none => 0

/-- The contexts whose leases count on an array: its own, and for an upper array those of gangs of the lower one. -/
def leaseCtxs (s : State) (a : Nat) : List Ctx :=
  (List.range 4).map (s.ctx a) ++ (if a % 8 < 4 then [] else ((List.range 4).map (s.ctx (a - 4))).filter fun c => c.h == 32)

def Ctx.leaseLevel (c : Ctx) : Nat :=
  match c.lease with
  | some l => l.level
  | none => 0

/-- The declared level of an array in units of 250 mW (R377). -/
def declared (s : State) (a : Nat) : Nat := allowance s a + ((leaseCtxs s a).map Ctx.leaseLevel).foldl (· + ·) 0

/-- What a request that one die of a gang has granted holds on an array: the lower array's die grants `lo`, the upper's `hi`. -/
def Ctx.halfGranted (upper : Bool) (c : Ctx) : Nat :=
  match c.acq with
  | some r => if (if upper then r.hi else r.lo).isSome then r.level else 0
  | none => 0

/-- The level an array is committed to: what is declared, and the gang requests its die has granted while the other die has still to (R377). -/
def committed (s : State) (a : Nat) : Nat :=
  declared s a + (((List.range 4).map fun k => (s.ctx a k).halfGranted false)
    ++ (if a % 8 < 4 then [] else ((List.range 4).map fun k => (s.ctx (a - 4) k).halfGranted true))).foldl (· + ·) 0

/-! ## `pwr.acq`, `pwr.rel` -/

def acqCheck (level : BitVec 7) (s : State) : Option Chk :=
  let c := s.me
  if (spanned s.site.arr c.h).any fun b => decide (96 < allowance s b + level.toNat) then some { code := 0x31, sub := 0, addr := noAddr }
  else if (c.lease.isSome || c.saved.isSome) && c.granted != s.site.n + 1 then some { code := 0x31, sub := 1, addr := noAddr }
  else none

def acqStall (level : BitVec 7) (s : State) : Option StallCause :=
  if (acqCheck level s).isSome then none
  else if s.me.granted == s.site.n + 1 && decide (s.me.grantTick < s.now) then none else some .power

/-- The request a waiting `pwr.acq` files (R378). -/
def fileAcq (a k : Nat) (level : BitVec 7) (lease : BitVec 12) : Plan :=
  .get fun s =>
    let c := s.ctx a k
    Plan.when (c.acq.isNone && c.granted != c.ctime + 1)
      (modCtx a k fun c => { c with acq := some { level := level.toNat, ticks := (lease.toNat + 1) * 1250, filed := s.now } })

/-- `pwr.acq`: while its bundle waits its request stands with the die; the bundle issues after the grant, which has made the lease run (R380). -/
def execPwrAcq (g : Guard) (level : BitVec 7) (lease : BitVec 12) : State → Host.Outcome State Fault Refusal :=
  (Plan.get fun s =>
    .both (Plan.when (s.guardQ g && (acqStall level s).isSome) (fileAcq s.site.arr s.site.ctx level lease))
      (atIssue g (acqStall level) (acqCheck level) .skip)).step

/-- The lease word of R353: VALID, the ticks left, LEVEL; it is also what a checkpoint keeps. -/
def leaseWord (s : State) (c : Ctx) : Nat :=
  match c.lease, c.saved with
  | some l, _ => 2 ^ 63 + min (l.expiry - s.now) (2 ^ 24 - 1) * 2 ^ 16 + l.level
  | none, some (level, ticks) => 2 ^ 63 + min ticks (2 ^ 24 - 1) * 2 ^ 16 + level
  | none, none => 0

def execPwrRelRd (g : Guard) (xd : BitVec 5) : State → Host.Outcome State Fault Refusal :=
  (atIssueAlways g (.get fun s => putX 2 xd (BitVec.ofNat 64 (leaseWord s s.me)))).step

/-- `pwr.rel`: the lease the context holds ends later (R381); one released already goes by its first release. -/
def execPwrRel (g : Guard) : State → Host.Outcome State Fault Refusal :=
  (atIssueAlways g (.get fun s =>
    let x := s.site
    Plan.when (s.me.lease.isSome && s.me.released.isNone)
      (.both (modMe fun c => { c with released := some x.n })
        (afterAt s.me.h rankEvent { arr := x.arr, ctx := x.ctx, n := x.n } (.instr .leaseReleaseEffect))))).step

/-! ## The end of a lease (R381) -/

/-- Units that come back to the die of an array, to join the token at its next visit. -/
def giveBack (b level : Nat) : Plan := modMod fun m => { m with dieBack := smSet m.dieBack (dieOf b) (smGet 0 m.dieBack (dieOf b) + level) }

/-- The lease of a context ends. -/
def endLease (a k : Nat) : Plan :=
  .get fun s =>
    let c := s.ctx a k
    match c.lease with
    | some l => .both (Plan.each (spanned a c.h) fun b => giveBack b l.level) (modCtx a k fun c => { c with lease := none, released := none })
    | none => .skip

/-- A request named on the token at a die. -/
def markOn (d a k : Nat) : Nat := d * 256 + ctxKey a k

/-- The request of a context given up: what one die of a gang has granted comes back there, and the token's mark goes with it (R378). -/
def dropAcq (a k : Nat) : Plan :=
  .get fun s =>
    match (s.ctx a k).acq with
    | none => .skip
    | some r =>
      Plan.all
        [ Plan.when r.lo.isSome (giveBack a r.level), Plan.when r.hi.isSome (giveBack (a + 4) r.level),
          modMod fun m => { m with tokenMark := m.tokenMark.filter fun key => key % 256 != ctxKey a k },
          modCtx a k fun c => { c with acq := none } ]

/-- LEASE_EXPIRY (R381): the lease whose expiry is `site.c` ends. -/
def execLeaseExpiry : State → Host.Outcome State Fault Refusal :=
  (Plan.get fun s =>
    let x := s.site
    Plan.when ((s.ctx x.arr x.ctx).lease.any fun l => l.expiry == x.c) (endLease x.arr x.ctx)).step

/-- Every product of the passes a context fired before bundle `n` has been formed by tower tick `u`. -/
def productsDone (s : State) (a k n u : Nat) : Bool :=
  (s.arr a).passes.all fun p => p.ctx != k || decide (n ≤ p.n) || p.formed (u + 1)

/-- LEASE_RELEASE_EFFECT (R381): the later of issue + H and the last product of the context's earlier passes. A lease kept over a stop ends all the same: it is not
asked for again. -/
def execLeaseReleaseEffect : State → Host.Outcome State Fault Refusal :=
  (Plan.get fun s =>
    let x := s.site
    if (s.ctx x.arr x.ctx).released ≠ some x.n then .skip
    else if productsDone s x.arr x.ctx x.n (s.ttick (towerOf x.arr)) then
      Plan.all
        [ endLease x.arr x.ctx, Plan.when (s.ctx x.arr x.ctx).saved.isSome (dropAcq x.arr x.ctx),
          modCtx x.arr x.ctx fun c => { c with saved := none, released := none } ]
    else afterAt 1 rankEvent x (.instr .leaseReleaseEffect)).step

/-- A lease taken off a context that stops, to be asked for again when it goes on (R382); the units return. -/
def saveLease (a k : Nat) : Plan :=
  .get fun s =>
    let c := s.ctx a k
    .both (dropAcq a k)
      (match c.lease with
       | some l => .both (endLease a k) (modCtx a k fun d => { d with saved := some (l.level, l.expiry - s.now), released := c.released })
       | none => .skip)

/-- A context that goes on asks again for the lease it held (R351). -/
def reaskLease (a k : Nat) : Plan :=
  .get fun s =>
    match (s.ctx a k).saved with
    | some (level, ticks) => modCtx a k fun c => { c with acq := some { level, ticks, filed := s.now } }
    | none => .skip

/-! ## The token (R378) -/

/-- A request waiting at a die: the tick it was filed, its array at that die, its context; `arr` is the array that runs its stream. -/
structure DieReq where
  filed : Nat
  at' : Nat
  ctx : Nat
  arr : Nat
  deriving DecidableEq, Repr

/-- Arrival order: by tick of the stall, ties to the lower array, then to the lower context. -/
def DieReq.before (e f : DieReq) : Bool :=
  decide (e.filed < f.filed) || (e.filed == f.filed && (decide (e.at' < f.at') || (e.at' == f.at' && decide (e.ctx < f.ctx))))

def insertReq (e : DieReq) : List DieReq → List DieReq
  | [] => [e]
  | f :: rest => if e.before f then e :: f :: rest else f :: insertReq e rest

/-- The requests a die has still to grant, in arrival order: those of its own arrays, and of gangs whose upper array is one of them. -/
def dieRequests (s : State) (d : Nat) : List DieReq :=
  let slots := (List.range 4).flatMap fun q => (List.range 4).map fun k => (4 * d + q, k)
  let own := slots.filterMap fun (b, k) => ((s.ctx b k).acq.filter fun r => r.lo.isNone).map fun r => ({ filed := r.filed, at' := b, ctx := k, arr := b } : DieReq)
  let up := if d % 2 = 0 then [] else slots.filterMap fun (b, k) =>
    ((s.ctx (b - 4) k).acq.filter fun r => (s.ctx (b - 4) k).h == 32 && r.hi.isNone).map fun r => ({ filed := r.filed, at' := b, ctx := k, arr := b - 4 } : DieReq)
  (own ++ up).foldl (fun l e => insertReq e l) []

def reqLevel (s : State) (e : DieReq) : Nat :=
  match (s.ctx e.arr e.ctx).acq with
  | some r => r.level
  | none => 0

/-- The units the waiting requests of a die need. -/
def dieNeed (s : State) (d : Nat) : Nat := ((dieRequests s d).map (reqLevel s)).foldl (· + ·) 0

/-- A request granted by one die; with its last grant the lease runs from now (R380). -/
def grantReq (e : DieReq) : Plan :=
  .get fun s =>
    let c := s.ctx e.arr e.ctx
    match c.acq with
    | none => .skip
    | some r =>
      let r := if e.at' = e.arr then { r with lo := some s.now } else { r with hi := some s.now }
      if r.lo.isSome && (c.h != 32 || r.hi.isSome) then
        let expiry := s.now + r.ticks
        Plan.all
          [ modCtx e.arr e.ctx fun c =>
              { c with acq := none, lease := some { level := r.level, expiry }, granted := if c.saved.isSome then c.granted else c.ctime + 1,
                       grantTick := s.now, saved := none },
            atTick expiry rankEvent none { arr := e.arr, ctx := e.ctx, c := expiry } (.instr .leaseExpiry) ]
      else modCtx e.arr e.ctx fun c => { c with acq := some r }

/-- The requests of a die granted in order from the units it holds, none ahead of one that cannot be: its array's level stays within AMAX (R377). -/
def fillReqs (d : Nat) : List DieReq → Plan
  | [] => .skip
  | e :: rest =>
    .get fun s =>
      let level := reqLevel s e
      let held := smGet 0 s.mod.dieHeld d
      Plan.when (decide (level ≤ held) && decide (committed s e.at' + level ≤ 96)) <| Plan.all
        [ modMod fun m => { m with dieHeld := smSet m.dieHeld d (held - level),
                                   tokenMark := if m.tokenMark = some (markOn d e.arr e.ctx) then none else m.tokenMark },
          grantReq e, fillReqs d rest ]

/-- Another die's request is marked: this one keeps no unit for its own. -/
def markElsewhere (s : State) (d : Nat) : Bool := s.mod.tokenMark.any fun key => key / 256 != d

/-- A visit counted on a request at a die; after 32 it marks the token. -/
def countVisit (d : Nat) (e : DieReq) : Plan :=
  .get fun s =>
    let own := e.at' == e.arr
    let n := ((s.ctx e.arr e.ctx).acq.map fun r => if own then r.visits + 1 else r.visitsHi + 1).getD 0
    .both (modCtx e.arr e.ctx fun c => { c with acq := c.acq.map fun r => if own then { r with visits := n } else { r with visitsHi := n } })
      (Plan.when (s.mod.tokenMark.isNone && decide (32 ≤ n)) (modMod fun m => { m with tokenMark := some (markOn d e.arr e.ctx) }))

/-- TOKEN_VISIT (R378): the die returns what no waiting request of its needs, takes units for those, grants them in order and passes the token on. While trip 2 stands over
its tower it grants none (R384); a removed tower holds nothing. -/
def execTokenVisit : State → Host.Outcome State Fault Refusal :=
  (Plan.get fun s =>
    let d := s.site.a
    let need := if markElsewhere s d || (s.tower (d / 2)).removed then 0 else dieNeed s d
    let had := smGet 0 s.mod.dieHeld d
    let kept := min had need
    let back := smGet 0 s.mod.dieBack d + (had - kept)
    let off := min s.mod.owed back
    let free := s.mod.carried + (back - off)
    let take := min free (need - kept)
    Plan.all
      [ modMod fun m => { m with carried := free - take, owed := m.owed - off, dieBack := smSet m.dieBack d 0, dieHeld := smSet m.dieHeld d (kept + take) },
        Plan.when (decide (0 < need) && decide ((s.tower (d / 2)).trip < 2)) (fillReqs d (dieRequests s d)),
        .get fun s => Plan.each (dieRequests s d) (countVisit d),
        atTick (s.now + (if d = 15 then 80 else 78)) rankEvent none { a := (d + 1) % 16 } (.instr .tokenVisit) ]).step

/-- The ring total set: more units join the token, fewer are kept off it as they return (R378, R384). -/
def setRing (total less : Nat) : Plan :=
  modMod fun m =>
    let old := m.ringTotal - m.ringLess
    let new := total - less
    if old ≤ new then
      let off := min m.owed (new - old)
      { m with ringTotal := total, ringLess := less, owed := m.owed - off, carried := m.carried + (new - old - off) }
    else { m with ringTotal := total, ringLess := less, owed := m.owed + (old - new) }

end Sys2Proof.Machine
end

