-- ==== Sys2Proof/Machine/Loaders.lean ====
section
/-! DEFINITION. The data port of the tower scratchpad (R224-R226) and the edge loaders `lrow` and `srow` (R231, R232, R366). -/

namespace Sys2Proof.Machine

/-! ## The leash at an engine (R358) -/

/-- The global tick at which the leash reached an engine of a partition. -/
def Part.engineTa (v : Part) (kind unit : Nat) : Option Nat := (v.stops.find? fun e => e.kind == kind && e.unit == unit).map (·.ta)
/-- The leash has reached an engine by now. -/
def engineHeld (s : State) (p kind unit : Nat) : Bool :=
  match (s.part p).engineTa kind unit with
  | some ta => decide (ta ≤ s.now)
  | none => false

/-- The tick an engine counts its stop in: an array's engines and its walker their tower's, since their rows and lines stretch with it (R385); a copy engine and a stack
stop with a frame. -/
def engineTick (s : State) (kind unit : Nat) : Nat := if kind = 5 || kind = 6 then s.now else s.ttick (towerOf unit)

/-- An engine of a partition has stopped under the leash (R358). -/
def engineStopped (s : State) (p kind unit : Nat) : Bool :=
  (s.part p).stops.any fun e => e.kind == kind && e.unit == unit && decide (e.ts ≤ engineTick s kind unit)

/-! ## The accounts (R43) -/

/-- The account of a launch of a partition changed. -/
def modAccount (p tag : Nat) (f : Account → Account) : Plan := modPart p fun v => { v with accounts := smSet v.accounts tag (f (smGet {} v.accounts tag)) }

/-! ## The data port -/

def Micro.isPort (t : Nat) (d : Due) : Bool := d.act == .instr .dataPortPerform && d.site.a == t

/-- A line presented to a tower's data port at this tick. -/
def presentLine (t : Nat) (l : LineReq) : Plan :=
  .get fun s =>
    .both (modTower t fun v => { v with lines := v.lines ++ [l] })
      (Plan.when (!(s.due.any (Micro.isPort t))) (atTick s.now rankPort (some t) { arr := t * 8, a := t } (.instr .dataPortPerform)))

def lineBank (addr : Nat) : Nat := addr / 64 % 256
def LineUse.isRead : LineUse → Bool
  | .lrow .. | .walkRead .. | .copyRead .. | .dynRead .. | .hostRead .. => true
  | .srow .. | .walkWrite .. | .copyWrite .. | .dynWrite .. | .landing .. | .mpLanding .. | .report .. | .peerWrite .. | .hostWrite .. => false

/-- The array of a tower that holds the bank of an address at tower tick `u` (R224). -/
def bankHolder (t addr u : Nat) : Nat := t * 8 + (addr / 64 + u) % 8

/-- A request that may perform at tower tick `u`: its array holds its bank, and the feeder leaves the bank free, or reads the line it reads. -/
def lineReady (s : State) (t u : Nat) (l : LineReq) : Bool :=
  (l.rank == 6 || holdsBank l.arr l.addr u)
    && (feederLines s (bankHolder t l.addr u) u).all fun x => x % 256 != lineBank l.addr || (l.use.isRead && x == l.addr / 64)

/-- Whether `m` goes before `l` in a bank: by rank, then by the issue of their bundles; of what is left the one presented first goes first (log 14). -/
def lineBefore (m l : LineReq) : Bool := decide (m.rank < l.rank) || (m.rank == l.rank && decide (m.order < l.order))

/-- A request put among others in their order. -/
def insertLine (l : LineReq) : List LineReq → List LineReq
  | [] => [l]
  | m :: rest => if lineBefore l m then l :: m :: rest else m :: insertLine l rest

/-- Two requests one bank cannot serve at one tick: it serves one line, and reads of one line together (R224, R225). -/
def lineClash (m l : LineReq) : Bool := lineBank m.addr == lineBank l.addr && !(m.use.isRead && l.use.isRead && m.addr / 64 == l.addr / 64)

/-- The requests that perform at one tick, of those that may. -/
def lineServed (ready : List LineReq) : List LineReq :=
  (ready.foldl (fun q l => insertLine l q) []).foldl (fun w l => if w.any fun m => lineClash m l then w else w ++ [l]) []

/-- A request performs at a tick (R225). -/
def lineWins (ready : List LineReq) (l : LineReq) : Bool := (lineServed ready).contains l

/-- The ticks a request has waited beyond its uncontended tick (R225). -/
def lineWaits (l : LineReq) (u : Nat) : Nat :=
  if l.rank = 6 then u - l.presented else u - (l.presented + ((List.range 8).find? fun d => holdsBank l.arr l.addr (l.presented + d)).getD 0)

/-- A line performs; one that no launch fired books its waits nowhere (log 14). A write of the tower's own domain comes before the reads of its tick (R227); an off-domain one is seen by no read of the tick it performs at (R284). -/
def performLine (t : Nat) (u : Nat) (l : LineReq) : Plan :=
  .both
    (Plan.when (decide (0 < lineWaits l u) && decide (l.tag < 2 ^ 64)) (modAccount l.part l.tag fun a => { a with conflict := a.conflict + lineWaits l u }))
    (match l.use with
     | .srow _ _ _ _ data | .walkWrite _ _ _ data | .copyWrite _ _ data => .both (scratchWrite l.addr data) (atTick 0 rankPort (some t) { arr := l.arr } (.micro (.lineWritten l.use)))
     | .dynWrite _ | .landing _ | .mpLanding .. | .report .. | .peerWrite .. | .hostWrite .. => atTick 0 rankEnd (some t) { arr := l.arr } (.micro (.lineWritten l.use))
     | _ => atTick 0 rankPortRead (some t) { arr := l.arr } (.micro (.lineRead l.addr l.use)))

/-- DATA_PORT_PERFORM: every request of a tower that performs at this tick does (R225). -/
def execDataPortPerform : State → Host.Outcome State Fault Refusal :=
  (Plan.get fun s =>
    let t := s.site.a
    let u := s.ttick t
    let ready := (s.tower t).lines.filter (lineReady s t u)
    let wins := ready.filter (lineWins ready)
    Plan.all
      [ modTower t fun v => { v with lines := v.lines.filter (fun l => !wins.contains l), portUse := (u, wins.map fun l => lineBank l.addr) },
        Plan.each wins (performLine t u),
        .get fun s => Plan.when (!(s.tower t).lines.isEmpty) (afterAt 1 rankPort { arr := t * 8, a := t } (.instr .dataPortPerform)) ]).step

/-! ## Row loads and stores -/

def rowMultiple (v : XWord) : Bool := v.toNat % 512 == 0

/-- The window offset of row `r`'s block, evaluated without bound (R12, R231). -/
def blockOff (xa xb : XWord) (r : Nat) : Nat := xa.toNat + r * xb.toNat

def loaderWordOk (s : State) (k kind : Nat) : Bool := s.fit k && qwKind (s.me.qword k s.site.n) == kind && qwEsz (s.me.qword k s.site.n) == 2

/-- The checks of `lrow` (KIND 1) and `srow` (KIND 2) at issue (R231, R232). -/
def loaderCheck (kind : Nat) (k : BitVec 4) (xa xb : BitVec 5) (s : State) : Option Chk :=
  let a := s.x xa
  let b := s.x xb
  if !loaderWordOk s k.toNat kind then some badWord
  else if !rowMultiple a then some { code := 0x11, sub := 0, addr := a.toNat }
  else if !rowMultiple b then some { code := 0x11, sub := 0, addr := b.toNat }
  else
    match (List.range s.me.h).find? fun r => !s.inMyWin (blockOff a b r) 512 with
    | some r => some { code := 0x14, sub := 0, addr := blockOff a b r }
    | none => none

def loaderStall (kind : Nat) (k : BitVec 4) (s : State) : Option StallCause :=
  let q := s.me.qwState k.toNat
  if loaderWordOk s k.toNat kind && (if kind = 1 then decide (q.room < 1) else decide (q.fill < 1)) then some .queue else none

/-- A loader operation as it fires: its position reserved, its rows to be presented one a tick (R231, R232). -/
def fireLoader (store : Bool) (k : Nat) (xa xb : BitVec 5) : Plan :=
  .get fun s => withUid fun uid =>
    let c := s.me
    let q := c.qwState k
    let pos := if store then q.cr else q.pr
    let op : LoadOp :=
      { uid, ctx := s.site.ctx, n := s.site.n, tid := c.tid, tag := c.tag.toNat, part := c.part, order := s.site.wave, store, h := c.h, k, q := pos, stamp := q.stamp,
        cellOff := c.csBase + qwElem q.word pos, base := s.myWin (s.x xa).toNat, stride := (s.x xb).toNat, fired := s.tick }
    Plan.all
      [ modArr s.site.arr fun v => { v with loads := v.loads ++ [op] },
        modMyQ k (if store then QW.takeIn 1 else QW.takeOut 1),
        afterAt 0 rankRow { arr := s.site.arr, ctx := s.site.ctx, n := s.site.n } (.micro (.loadRow s.site.arr uid 0)) ]

def execLrow (g : Guard) (k : BitVec 4) (xa xb : BitVec 5) : State → Host.Outcome State Fault Refusal :=
  (atIssue g (loaderStall 1 k) (loaderCheck 1 k xa xb) (fireLoader false k.toNat xa xb)).step
def execSrow (g : Guard) (k : BitVec 4) (xa xb : BitVec 5) : State → Host.Outcome State Fault Refusal :=
  (atIssue g (loaderStall 2 k) (loaderCheck 2 k xa xb) (fireLoader true k.toNat xa xb)).step

def modLoad (a uid : Nat) (f : LoadOp → LoadOp) : Plan :=
  modArr a fun v => { v with loads := v.loads.map fun o => if o.uid == uid then f o else o }

def Arr.load? (v : Arr) (uid : Nat) : Option LoadOp := v.loads.find? fun o => o.uid == uid

/-- The scratchpad address of line `m` of row `r`'s block. -/
def LoadOp.line (o : LoadOp) (r m : Nat) : Nat := o.base + r * o.stride + 64 * m

/-- The lines of a row presented. -/
def presentRow (a : Nat) (o : LoadOp) (r rank : Nat) (use : Nat → LineUse) : Plan :=
  .get fun s =>
    let t := towerOf a
    let b := physArr a r
    Plan.each (List.range 8) fun m =>
      presentLine t { arr := b, rank, order := o.order * 64 + r, addr := o.line r m, presented := s.ttick t, part := o.part, tag := o.tag, use := use m }

/-- Row `r` of a loader operation at its tick te: an `lrow` presents its lines, an `srow` reads its cells' positions at te + 1. Nothing is presented once the
leash has reached the loaders (R366). The next row follows a tick later. -/
def loadRowPlan (a uid r : Nat) : Plan :=
  .get fun s =>
    match (s.arr a).load? uid with
    | none => .skip
    | some o =>
      if engineHeld s o.part 3 a then .skip
      else
        let act :=
          if o.presented.getLsbD r then .skip
          else if o.store then
            .both (modLoad a uid fun o => { o with presented := o.presented ||| (1#32 <<< r) }) (after 1 rankRead (.micro (.storeRow a uid r)))
          else
            .both (modLoad a uid fun o => { o with presented := o.presented ||| (1#32 <<< r), marks := smSet o.marks r (s.ttick (towerOf a)) })
              (presentRow a o r 2 fun m => .lrow a uid r m)
        .both act
          (Plan.when (decide (r + 1 < o.h)) (after 1 rankRow (.micro (.loadRow a uid (r + 1)))))

/-- `n` bytes of the cell store have been read: an uncorrectable word among them is an event of its row, and the fault `f` of cell `cell` (R150). The spec gives no width of
the word that is uncorrectable; 32 aligned bytes are one here, good again once they are written whole (DESIGN CHOICE, log 21). -/
def cellStoreRead (addr n : Nat) (f : Nat → Plan) : Plan :=
  .get fun s =>
    match (List.range (if n = 0 then 0 else (addr + n - 1) / 32 - addr / 32 + 1)).find? fun i => s.marked 3 (addr / 32 + i) with
    | some i => .both (lineLost 3 (addr / 32 + i)) (f ((addr / 32 + i) / 1024))
    | none => .skip

/-- An access of a row to the cell store has read a word marked uncorrectable: fault 0x44 in the context that read it. -/
def cellUncorrectable (addr n : Nat) : Plan :=
  cellStoreRead addr n fun cell => .get fun s =>
    let x := s.site
    raiseFaultFor s.me.part s.me.tid x.arr x.ctx { kind := 2, unit := x.arr, ctx := x.ctx, code := 0x44, rowv := true, row := x.row, cell, seq := x.n, pos := x.pos }

/-- An `srow` row's 512 bytes, read at te + 1, go to the port at te + 2. -/
def storeRowPlan (a uid r : Nat) : Plan :=
  .get fun s =>
    match (s.arr a).load? uid with
    | none => .skip
    | some o =>
      let bs := (List.range 16).flatMap fun c => s.bytes .cell (cellOf a r c * 32768 + o.cellOff) 32
      .both
        (Plan.each (List.range 16) fun c => cellStoreRead (cellOf a r c * 32768 + o.cellOff) 32 fun cell =>
          taskFault a o.ctx o.tid { kind := 3, unit := a, ctx := o.ctx, code := 0x44, row := r, cell, seq := o.n })
        (after 1 rankPointer (.micro (.storeLines a uid r bs)))

/-- The lines of an `srow` row presented; with the last row CP moves, at t + H + 1 (R232). A row the leash catches first is left undone (R366). -/
def storeLinesPlan (a uid r : Nat) (bs : List Byte) : Plan :=
  .get fun s =>
    match (s.arr a).load? uid with
    | none => .skip
    | some o =>
      if engineHeld s o.part 3 a then modLoad a uid fun o => { o with presented := o.presented &&& ~~~(1#32 <<< r) }
      else
        Plan.all
          [ modLoad a uid fun o => { o with marks := smSet o.marks r 1 },
            presentRow a o r 3 fun m => .srow a uid r m ((bs.drop (64 * m)).take 64),
            Plan.when ((List.range o.h).all fun i => i == r || (o.marks.any fun e => e.1 == i)) (engineAdvance a o.ctx o.tid o.k o.stamp false true 1) ]

/-- The operation has every row done: an `lrow`'s PP moves at the tick after its last row write (R231); its record goes. -/
def finishLoad (a uid : Nat) : Plan :=
  .get fun s =>
    match (s.arr a).load? uid with
    | none => .skip
    | some o =>
      let all := (List.range o.h).all fun r => o.rows.getLsbD r
      Plan.when all <| Plan.all
        [ Plan.when (!o.store) (after 1 rankPointer (.micro (.engineWord a o.ctx o.tid o.k o.stamp true true 1))),
          modArr a fun v => { v with loads := v.loads.filter fun p => p.uid != uid } ]

/-- Line `m` of a row of an `lrow` read; with its eighth line the row's write is due at e_r = max(te + 16, last delivery + 1) (R231). -/
def lrowLine (a uid r m addr : Nat) : Plan :=
  .get fun s =>
    let u := s.ttick (towerOf a)
    .both (modLoad a uid fun o => { o with lines := smSet o.lines (8 * r + m) (s.bytes .scratch addr 64) })
      (.get fun s =>
        match (s.arr a).load? uid with
        | none => .skip
        | some o =>
          let full := (List.range 8).all fun m => o.lines.any fun e => e.1 == 8 * r + m
          Plan.when full
            (atTower (towerOf a) (max (smGet 0 o.marks r + 16) (u + 9)) rankEngineWrite { arr := a, ctx := o.ctx, n := o.n, a := uid, b := r } (.instr .lrowRowWrite)))

/-- LROW_ROW_WRITE: a row's cells take their 32 bytes at ring position q (R231). -/
def execLrowRowWrite : State → Host.Outcome State Fault Refusal :=
  (Plan.get fun s =>
    let a := s.site.arr
    let r := s.site.b
    match (s.arr a).load? s.site.a with
    | none => .skip
    | some o =>
      let bs := (List.range 8).flatMap fun m => smGet [] o.lines (8 * r + m)
      Plan.all
        [ Plan.each (List.range 16) fun c =>
            .both (writeBytes .cell (cellOf a r c * 32768 + o.cellOff) ((bs.drop (32 * c)).take 32)) (unmark 3 5 (cellOf a r c * 32768 + o.cellOff) 32),
          modArr a fun v => { v with lastWrite := smSet v.lastWrite o.tid (max (smGet 0 v.lastWrite o.tid) (s.ttick (towerOf a))) },
          modLoad a o.uid fun o => { o with rows := o.rows ||| (1#32 <<< r), lines := o.lines.filter fun e => e.1 / 8 != r },
          finishLoad a o.uid ]).step

/-- A line of an `srow` has been written; a row is done with its eighth. -/
def srowLine (a uid r m : Nat) : Plan :=
  .both (modLoad a uid fun o =>
      let lines := smSet o.lines (8 * r + m) []
      let full := (List.range 8).all fun m => lines.any fun e => e.1 == 8 * r + m
      { o with lines, rows := if full then o.rows ||| (1#32 <<< r) else o.rows })
    (finishLoad a uid)

end Sys2Proof.Machine
end

