-- ==== Sys2Proof/Machine/Tasks.lean ====
section
/-! DEFINITION. Launches and tasks: the launch record (R18-R24), placement (R337-R340), starting a task (R341, R342, R23), its end (R81) and its kill (R348). -/

namespace Sys2Proof.Machine

/-! ## The launch record (R18-R20) -/

/-- Bits `lo` to `lo + n - 1` of a launch record. -/
def recBits (r : List Byte) (lo n : Nat) : Nat := leNat r / 2 ^ lo % 2 ^ n
def recFmt (r : List Byte) : Nat := recBits r 0 16
def recPart (r : List Byte) : Nat := recBits r 16 4
def recPrio (r : List Byte) : Nat := recBits r 24 4
def recKill (r : List Byte) : Bool := recBits r 28 1 == 1
def recGang (r : List Byte) : Bool := recBits r 29 1 == 1
def recChain (r : List Byte) : Bool := recBits r 30 1 == 1
def recFid (r : List Byte) : Nat := recBits r 32 16
def recNlev (r : List Byte) : Nat := recBits r 48 3
def recCtxmax (r : List Byte) : Nat := recBits r 52 4
def recNin (r : List Byte) : Nat := recBits r 56 8
def recTag (r : List Byte) : Nat := recBits r 64 64
def recDslot (r : List Byte) : Nat := recBits r 128 16
def recCslot (r : List Byte) : Nat := recBits r 144 16
def recEntry (r : List Byte) : Nat := recBits r 160 32
def recArrmask (r : List Byte) : Nat := recBits r 192 64
def recKind (r : List Byte) (i : Nat) : Nat := recBits r (256 + 64 * i + 62) 2
def recTrip (r : List Byte) (i : Nat) : Nat := recBits r (256 + 64 * i + 24) 32
def recCost (r : List Byte) (i : Nat) : Nat := recBits r (256 + 64 * i) 24
def recIn (r : List Byte) (k : Nat) : Nat := recBits r (1664 + 32 * k) 32
def recSave (r : List Byte) : Nat := recBits r 1920 64

/-- The record of a launch of a partition. -/
def State.record (s : State) (p launch : Nat) : List Byte :=
  match (s.part p).launch launch with
  | some l => l.record
  | none => []

/-- The priority class (R34). -/
def classOf (prio : Nat) : Nat := prio / 4

/-! ## Units (R24) -/

/-- The arrays of the unit whose lower or upstream array is `u`. -/
def unitArrays (r : List Byte) (u : Nat) : List Nat := if recGang r then [u, u + 4] else if recChain r then [u, u + 1] else [u]

/-- `u` can be the lower or upstream array of a unit of this record's kind. -/
def unitLower (r : List Byte) (u : Nat) : Bool :=
  if recGang r then decide (u % 8 < 4) else if recChain r then u % 2 == 0 else true

/-- The eligible units of a record in partition `p`, ascending. -/
def eligibleUnits (s : State) (p : Nat) (r : List Byte) : List Nat :=
  (List.range 64).filter fun u =>
    unitLower r u && (unitArrays r u).all fun a => (s.arr a).owner == some p && (recArrmask r).testBit a

/-- The arrays of a unit that run an instruction stream (R28). -/
def streamArrays (r : List Byte) (u : Nat) : List Nat := if recGang r then [u] else unitArrays r u

/-- A unit's kind: single array, gang, chain. -/
def unitKind (r : List Byte) : Nat := if recGang r then 1 else if recChain r then 2 else 0

/-! ## Tasks of a partition -/

def modTask (p uid : Nat) (f : Task → Task) : Plan :=
  modPart p fun v => { v with tasks := v.tasks.map fun t => if t.uid == uid then f t else t }
def modLaunch (p uid : Nat) (f : Launch → Launch) : Plan :=
  modPart p fun v => { v with launches := v.launches.map fun l => if l.uid == uid then f l else l }

def State.taskRecord (s : State) (p : Nat) (t : Task) : List Byte := s.record p t.launch

/-- The pending tasks of a unit: its list holds 16 (R340). -/
def pendingOn (s : State) (p u kind : Nat) : List Task :=
  (s.part p).tasks.filter fun t => t.state == .pending && t.unit == u && unitKind (s.taskRecord p t) == kind

/-- Wake the scheduler of a partition, or of a unit, at this tick or the next that its rank allows. -/
def wakePlacement (p : Nat) : Plan :=
  .get fun s => Plan.when (!(s.due.any fun d => d.act == .instr .placement && d.site.a == p)) (atTick (s.now + 1) rankSchedule none { a := p } (.instr .placement))
def wakeUnit (u : Nat) : Plan :=
  .get fun s => Plan.when (!(s.due.any fun d => d.act == .instr .taskStart && d.site.arr == u))
    (atTick (s.now + 1) rankSchedule (some (towerOf u)) { arr := u } (.instr .taskStart))

/-! ## Completion (R26) -/

/-- A launch with no task left and none waiting to be placed has completed; the strait entries it pushed leave (R165). R165 gives no tick for that: they leave as the launch
settles, and their places are free at once, to the checks of that same tick too (DESIGN CHOICE, log 21). -/
def settleLaunch (p uid : Nat) : Plan :=
  .get fun s =>
    match (s.part p).launch uid with
    | none => .skip
    | some l =>
      Plan.when (l.state == .placed && l.live == 0) <|
        .both (modLaunch p uid fun l => { l with state := if l.killed && l.ended == 0 then .killed else .completed })
          (.get fun s => Plan.each (s.cells.filter fun (_, c) => c.strait.any fun e => e.launch == uid) fun (k, _) =>
            modCell k fun c => { c with strait := c.strait.filter fun e => e.launch != uid })

/-- One task less of a launch. -/
def taskGone (p uid : Nat) (killed : Bool) : Plan :=
  .get fun s =>
    match (s.part p).task uid with
    | none => .skip
    | some t =>
      Plan.when (t.state != .ended && t.state != .killed) <| Plan.all
        [ modTask p uid fun t => { t with state := if killed then .killed else .ended },
          modLaunch p t.launch fun l => { l with live := l.live - 1, ended := if killed then l.ended else l.ended + 1, killed := l.killed || killed },
          settleLaunch p t.launch,
          wakePlacement p ]

/-! ## Windows (R147, R182, R81) -/

def csSizeOf (ctxmax : Nat) : Nat := if ctxmax = 1 then 32768 else if ctxmax = 2 then 16384 else 8192
def arSizeOf (ctxmax : Nat) : Nat := if ctxmax = 1 then 256 else if ctxmax = 2 then 128 else 64

/-- The cell-store or row windows taken on an array: base and size. -/
def takenWindows (s : State) (a : Nat) (rows : Bool) : List (Nat × Nat) :=
  ((List.range 4).filterMap fun k =>
    let c := s.ctx a k
    if c.state == .free then none
    else some (if rows then (if c.h == 32 && !c.upper then c.arLow else c.arBase, c.arSize) else (c.csBase, c.csSize)))
  ++ ((s.arr a).held.filter fun h => h.rows == rows).map fun h => (h.base, h.size)

def overlaps (a b : Nat × Nat) : Bool := decide (a.1 < b.1 + b.2) && decide (b.1 < a.1 + a.2)

/-- The lowest free base on every array of a list, a multiple of the size. -/
def lowestBase (s : State) (arrs : List Nat) (rows : Bool) (size total : Nat) : Option Nat :=
  (((List.range (total / size)).map fun i => i * size).find? fun b => arrs.all fun a => (takenWindows s a rows).all fun w => !overlaps (b, size) w)

/-- A base is free on an array. -/
def baseFree (s : State) (a : Nat) (rows : Bool) (base size : Nat) : Bool := (takenWindows s a rows).all fun w => !overlaps (base, size) w

/-- A context that can take a task at this tick: H ticks after the end of the last one (R81), and no bundle of that one is still on its way, as one held up by the leash is
(log 15). -/
def ctxFree (s : State) (a k : Nat) : Bool :=
  (s.ctx a k).state == .free && decide ((s.ctx a k).freeFrom ≤ s.ttick (towerOf a)) && (s.arr a).waves.all (fun w => w.ctx != k)
    && (a % 8 < 4 || (s.arr (a - 4)).waves.all fun w => w.ctx != k || w.h != 32)

/-! ## Choosing what starts (R341, R342) -/

/-- A declared input is resident for a unit (R20, R39). -/
def inputResident (s : State) (p : Nat) (arrs : List Nat) (d : Nat) : Bool :=
  if d / 2 ^ 31 = 1 then arrs.all fun a => (List.range 256).all fun c => (s.cellx (a * 256 + c)).shready
  else arrs.all fun a => s.inWin (towerOf a) p (d % 2 ^ 31) 32 && s.objComplete (s.winAddr (towerOf a) p (d % 2 ^ 31))

/-- The save slots of its unit a launch's started tasks hold (R350). -/
def slotsTaken (s : State) (p : Nat) (t : Task) : List Nat :=
  ((s.part p).tasks.filter fun v => v.launch == t.launch && v.unit == t.unit && (v.state == .running || v.state == .checkpointed)).map (·.slot)

/-- Where a task would start: its context on each member, its cell-store and row bases. -/
structure Spot where
  k : Nat
  k2 : Nat
  cs : Nat
  cs2 : Nat
  ar : Nat
  ar2 : Nat
  slot : Nat
  deriving DecidableEq, Repr

/-- The place R342 gives a pending task now, if every condition holds. -/
def startSpot (s : State) (p : Nat) (t : Task) : Option Spot :=
  let r := s.taskRecord p t
  let arrs := unitArrays r t.unit
  let cs := csSizeOf (recCtxmax r)
  let ar := arSizeOf (recCtxmax r)
  let up := (s.arr t.unit).gate == .up && arrs.all fun a => (s.arr a).gate == .up
  let taken := slotsTaken s p t
  if !up || (s.part p).leash || !(t.inputs.all (inputResident s p arrs)) || decide (recCtxmax r ≤ taken.length) then none
  else do
    let slot ← (List.range (recCtxmax r)).find? fun i => !taken.contains i
    if recGang r then
      let k ← (List.range 4).find? fun k => arrs.all fun a => ctxFree s a k
      let c ← lowestBase s arrs false cs 32768
      let lo ← lowestBase s [t.unit] true ar 256
      let hi ← lowestBase s [t.unit + 4] true ar 256
      pure { k, k2 := k, cs := c, cs2 := c, ar := hi, ar2 := lo, slot }
    else if recChain r then
      let k ← (List.range 4).find? fun k => ctxFree s t.unit k
      let k2 ← (List.range 4).find? fun k => ctxFree s (t.unit + 1) k
      let c ← lowestBase s [t.unit] false cs 32768
      let c2 ← lowestBase s [t.unit + 1] false cs 32768
      let w ← lowestBase s [t.unit] true ar 256
      let w2 ← lowestBase s [t.unit + 1] true ar 256
      pure { k, k2, cs := c, cs2 := c2, ar := w, ar2 := w2, slot }
    else
      let k ← (List.range 4).find? fun k => ctxFree s t.unit k
      let c ← lowestBase s [t.unit] false cs 32768
      let w ← lowestBase s [t.unit] true ar 256
      pure { k, k2 := k, cs := c, cs2 := c, ar := w, ar2 := w, slot }

/-- A checkpointed task can go back to its own context and window bases now (R351), and its walker's feed has room for its records beside those others have reserved (R264; log 15); a member of a chain that had ended (R81) asks for nothing. -/
def resumeReady (s : State) (p : Nat) (t : Task) : Bool :=
  let r := s.taskRecord p t
  let arrs := unitArrays r t.unit
  let cs := csSizeOf (recCtxmax r)
  let ar := arSizeOf (recCtxmax r)
  let up := arrs.all fun a => (s.arr a).gate == .up
  let walker := t.walkers.all fun (a, w) => (s.arr a).walker.owner.isNone && decide ((s.arr a).walker.feed.length + (w.feed.length - w.feedRes) ≤ 16)
  let left := fun (a k : Nat) => (s.ctxOf a k t.uid).tid != t.uid || (s.ctxOf a k t.uid).state == .free
  let place :=
    if recGang r then
      arrs.all (fun a => ctxFree s a t.ctx && baseFree s a false t.csBase cs) && baseFree s (t.unit + 4) true t.arBase ar && baseFree s t.unit true t.arBase2 ar
    else if recChain r then
      (left t.unit t.ctx || (ctxFree s t.unit t.ctx && baseFree s t.unit false t.csBase cs && baseFree s t.unit true t.arBase ar))
        && (left (t.unit + 1) t.ctx2 || (ctxFree s (t.unit + 1) t.ctx2 && baseFree s (t.unit + 1) false t.csBase2 cs && baseFree s (t.unit + 1) true t.arBase2 ar))
    else ctxFree s t.unit t.ctx && baseFree s t.unit false t.csBase cs && baseFree s t.unit true t.arBase ar
  up && !(s.part p).leash && !t.gateHold && walker && place

/-- Whether a task can start, or go on, on its unit now. -/
def canStart (s : State) (p : Nat) (t : Task) : Bool :=
  match t.state with
  | .pending => (startSpot s p t).isSome
  | .checkpointed => resumeReady s p t
  | _ => false

/-- The requirement of a fired pass of a unit whose products are not all formed equals a task's (R341). -/
def fidMatches (s : State) (r : List Byte) (u : Nat) : Bool :=
  (unitArrays r u).any fun a => (s.arr a).passes.any fun p =>
    !p.formed (s.ttick (towerOf a)) && p.ls1 == recFid r % 4 && p.ls2 == recFid r / 4 % 4

/-- R341's order: higher class, then matching fidelity, then earlier placement. -/
def taskRank (s : State) (p : Nat) (t : Task) : Nat :=
  let r := s.taskRecord p t
  ((3 - classOf (recPrio r)) * 2 + (if fidMatches s r t.unit then 0 else 1)) * 2 ^ 64 + t.order

/-- The tasks waiting on a unit, pending or checkpointed, in R341's order: the first. -/
def firstTask (s : State) (p : Nat) (ts : List Task) : Option Task :=
  ts.foldl (fun best t => match best with
    | none => some t
    | some b => if taskRank s p t < taskRank s p b then some t else some b) none

def waitingOn (s : State) (p u kind : Nat) : List Task :=
  (s.part p).tasks.filter fun t => (t.state == .pending || t.state == .checkpointed) && t.unit == u && unitKind (s.taskRecord p t) == kind

/-! ## Starting (R23, R74, R342) -/

def imageOf (v : Part) (kind slot arr : Nat) : Option Image := v.images.find? fun i => i.kind == kind && i.slot == slot && i.arr == arr

/-- Loop levels as a task starts with them (R23). -/
def startLoops (ranges : List (Nat × Nat)) : SMap LoopLevel :=
  (List.range ranges.length).map fun i =>
    let (lo, hi) := ranges.getD i (0, 0)
    (i, { index := BitVec.ofNat 32 lo, count := BitVec.ofNat 32 (hi - lo), start := BitVec.ofNat 32 lo, stop := BitVec.ofNat 32 hi })

/-- The context a task starts with (R23): every register zero but those R23 excepts. -/
def freshCtx (s : State) (p : Nat) (t : Task) (a role : Nat) (cs ar arLow slot : Nat) : Ctx :=
  let r := s.taskRecord p t
  let v := s.part p
  let d := (imageOf v 0 (recDslot r) a).getD { kind := 0, slot := 0, arr := a, base := 0, size := 0 }
  let c := (imageOf v 1 (recCslot r) a).getD { kind := 1, slot := 0, arr := a, base := 0, size := 0 }
  let fid := BitVec.ofNat 16 (recFid r)
  { state := .ready, part := p, tid := t.uid, launch := t.launch, tag := BitVec.ofNat 64 (recTag r), task := t.number, arg := t.arg, role,
    h := if role = 1 then 32 else 16, nlev := recNlev r, prio := recPrio r, fid, started := s.now, freeFrom := s.ttick (towerOf a), loops := startLoops t.ranges,
    pc := if t.entry < 2 ^ 16 then t.entry else 0xFFFF, widePc := if t.entry < 2 ^ 16 then 0 else t.entry,
    threshold := if fidBudget fid = 15 then 0 else 2 ^ fidBudget fid, csBase := cs, csSize := csSizeOf (recCtxmax r), arBase := ar, arSize := arSizeOf (recCtxmax r), arLow,
    db := d.base, dsz := d.size, cb := c.base, csz := c.size, slot, nsave := t.nsave }

/-- The banks of a context on an array as a task starts with them: every register zero, P0 true, every DIRTY bit set (R23, R92). -/
def freshBanks (a k : Nat) : Plan := Plan.each (List.range 256) fun c => .edit (.dropBank (bankKey (a * 256 + c) k))

/-- The row window at task start (R182). -/
def freshRows (a base size : Nat) : Plan := Plan.each (List.range size) fun i => .edit (.dropAcc (accKey a (base + i)))

/-- The selector of an array looks at its contexts `k` ticks on; the arrays of one tick go in their order (log 3). -/
def selectAt (k a : Nat) : Plan :=
  .get fun s =>
    .edit (.due (insertDue { tick := s.now + k, rank := rankIssue, ord := 64 + a, dom := some (towerOf a), site := { arr := a }, act := .instr .issueSelect } s.due))

/-- An array's selector is at work from this tick on. -/
def wakeIssue (a : Nat) : Plan :=
  .get fun s => Plan.when (!(s.due.any fun d => d.act == .instr .issueSelect && d.site.arr == a)) (selectAt 0 a)

/-- The context a task left is still needed: the task is checkpointed, or engine operations it fired go on. -/
def keepGhost (s : State) (a : Nat) (g : Ctx) : Bool :=
  ((s.part g.part).task g.tid).any (fun t => t.state == .checkpointed) || decide (s.ttick (towerOf a) < g.freeFrom + 64) || g.st.any (fun e => e.2.probing)
    || s.reqs.any (fun r => r.tid == g.tid) || (s.tower (towerOf a)).descs.any (fun d => d.tid == g.tid) || (s.arr a).passes.any (fun p => p.tid == g.tid)
    || (s.arr a).loads.any (fun o => o.tid == g.tid) || (List.range 8).any fun k => (s.stack k).progs.any fun m => m.tid == g.tid

/-- A context is about to be given to another task: what its last task left there is kept aside while it is needed. -/
def bury (a k : Nat) : Plan :=
  .get fun s =>
    let c := s.ctx a k
    modArr a fun v => { v with ghosts := ((if c.tid = 0 || c.upper then [] else [c]) ++ v.ghosts).filter (keepGhost s a) }

/-- A context bound to a task on each member of its unit. -/
def placeCtxs (p : Nat) (t : Task) (sp : Spot) (mk : Nat → Nat → Nat → Nat → Nat → Nat → Ctx) : Plan :=
  .get fun s =>
    let r := s.taskRecord p t
    let u := t.unit
    if recGang r then
      let lower := mk u 1 sp.cs sp.ar sp.ar2 sp.slot
      Plan.all
        [ bury u sp.k, .edit (.ctx (ctxKey u sp.k) lower), bury (u + 4) sp.k,
          .edit (.ctx (ctxKey (u + 4) sp.k)
            { state := .ready, upper := true, freeFrom := s.ttick (towerOf u), part := p, tid := t.uid, launch := t.launch, tag := lower.tag, role := 1, h := 32, prio := lower.prio, csBase := sp.cs,
              csSize := lower.csSize, arBase := sp.ar, arSize := lower.arSize }),
          wakeIssue u, wakeIssue (u + 4) ]
    else if recChain r then
      Plan.all
        [ bury u sp.k, bury (u + 1) sp.k2, .edit (.ctx (ctxKey u sp.k) (mk u 2 sp.cs sp.ar 0 sp.slot)), .edit (.ctx (ctxKey (u + 1) sp.k2) (mk (u + 1) 3 sp.cs2 sp.ar2 0 sp.slot)),
          wakeIssue u, wakeIssue (u + 1) ]
    else Plan.all [ bury u sp.k, .edit (.ctx (ctxKey u sp.k) (mk u 0 sp.cs sp.ar 0 sp.slot)), wakeIssue u ]

/-- The members of a unit with their context and row window: array, context, base, size. -/
def memberWindows (r : List Byte) (u : Nat) (sp : Spot) : List (Nat × Nat × Nat × Nat) :=
  let size := arSizeOf (recCtxmax r)
  if recGang r then [(u, sp.k, sp.ar2, size), (u + 4, sp.k, sp.ar, size)]
  else if recChain r then [(u, sp.k, sp.ar, size), (u + 1, sp.k2, sp.ar2, size)] else [(u, sp.k, sp.ar, size)]

def taskAt (t : Task) (sp : Spot) (members : Nat) : Task :=
  { t with state := .running, members, ctx := sp.k, ctx2 := sp.k2, csBase := sp.cs, csBase2 := sp.cs2, arBase := sp.ar, arBase2 := sp.ar2, slot := sp.slot }

/-- A pending task starts (R23, R342): it is Ready from this tick. -/
def startTask (p : Nat) (t : Task) (sp : Spot) : Plan :=
  .get fun s =>
    let r := s.taskRecord p t
    Plan.all
      [ modTask p t.uid fun t => taskAt t sp (if recChain r then 2 else 1),
        Plan.each (memberWindows r t.unit sp) (fun (a, k, base, size) => .both (freshBanks a k) (freshRows a base size)),
        placeCtxs p t sp (fun a role cs ar low slot => freshCtx s p t a role cs ar low slot) ]

/-! ## Placement (R22, R337-R340) -/

/-- Part `k` of `P` of a range [0, TRIP) (R22). -/
def partRange (k n trip : Nat) : Nat × Nat := (k * trip / n, (k + 1) * trip / n)

/-- The spatial levels of a record: the dies level and the arrays level, if any. -/
def diesLevel (r : List Byte) : Option Nat := (List.range (recNlev r)).find? fun i => recKind r i == 2
def arraysLevel (r : List Byte) : Option Nat := (List.range (recNlev r)).find? fun i => recKind r i == 1

/-- The loop ranges of a task: the given range on each spatial level, the whole range elsewhere (R23). -/
def taskRanges (r : List Byte) (dies arrs : Option (Nat × Nat)) : List (Nat × Nat) :=
  (List.range (recNlev r)).map fun i =>
    match recKind r i with
    | 1 => arrs.getD (0, recTrip r i)
    | 2 => dies.getD (0, recTrip r i)
    | _ => (0, recTrip r i)

/-- The tasks a launch places, in part order: unit and loop ranges (R22, R339). -/
def launchParts (r : List Byte) (units : List Nat) : List (Nat × List (Nat × Nat)) :=
  match diesLevel r, arraysLevel r with
  | none, none => (units.take 1).map fun u => (u, taskRanges r none none)
  | none, some i =>
    let n := min (recTrip r i) units.length
    (List.range n).map fun k => (units.getD k 0, taskRanges r none (some (partRange k n (recTrip r i))))
  | some d, inner =>
    let dies := (List.range 16).filter fun x => units.any fun u => dieOf u == x
    let pd := min (recTrip r d) dies.length
    let used := dies.take pd
    let onDie := fun x => units.filter fun u => dieOf u == x
    let fewest := (used.map fun x => (onDie x).length).foldl min 64
    (List.range pd).flatMap fun k =>
      let dr := some (partRange k pd (recTrip r d))
      let us := onDie (used.getD k 0)
      match inner with
      | none => (us.take 1).map fun u => (u, taskRanges r dr none)
      | some i =>
        let n := min (recTrip r i) fewest
        (List.range n).map fun q => (us.getD q 0, taskRanges r dr (some (partRange q n (recTrip r i))))

/-- The input descriptors a launch declares. -/
def recInputs (r : List Byte) : List Nat := (List.range (recNin r)).map (recIn r)

/-- The entry at the front of a partition's queue: highest class, then oldest (R337). -/
def queuePrio (s : State) (p uid : Nat) : Nat :=
  match (s.part p).launch uid, (s.part p).task uid with
  | some l, _ => recPrio l.record
  | none, some t => recPrio (s.taskRecord p t)
  | none, none => 0

def queueFront (s : State) (p : Nat) : Option Nat :=
  (s.part p).queue.foldl (fun best u => match best with
    | none => some u
    | some b => if classOf (queuePrio s p b) < classOf (queuePrio s p u) then some u else some b) none

def leaveQueue (p uid : Nat) : Plan := modPart p fun v => { v with queue := v.queue.filter fun u => u != uid }

/-- A launch placed in full in one tick, if every unit has room (R340). -/
def placeLaunch (p : Nat) (l : Launch) : Plan :=
  .get fun s =>
    let r := l.record
    let parts := launchParts r (eligibleUnits s p r)
    let room := parts.all fun (u, _) => decide ((pendingOn s p u (unitKind r)).length < 16)
    Plan.when room <| Plan.all
      [ leaveQueue p l.uid,
        modLaunch p l.uid (fun l => { l with state := .placed, placedTasks := parts.length, nextTask := parts.length, live := l.live + parts.length }),
        Plan.each (List.range parts.length) (fun i =>
          let (u, ranges) := parts.getD i (0, [])
          .both (withUid fun uid => modPart p fun v =>
            { v with tasks := v.tasks ++ [{ uid, launch := l.uid, number := i, unit := u, entry := recEntry r, ranges, inputs := recInputs r, state := .pending, order := uid }] })
            (wakeUnit u)) ]

/-- A posted task placed on its unit, if the list has room (R339, R340). -/
def placePosted (p : Nat) (t : Task) : Plan :=
  .get fun s =>
    let r := s.taskRecord p t
    let n := fun u => (pendingOn s p u (unitKind r)).length
    let u := if t.any then (eligibleUnits s p r).foldl (fun b u => if n u < n b then u else b) ((eligibleUnits s p r).headD 0) else t.unit
    Plan.when (decide (n u < 16)) <| Plan.all
      [ leaveQueue p t.uid,
        .get fun s => modTask p t.uid fun t => { t with state := .pending, unit := u, order := s.uid },
        withUid fun _ => wakeUnit u ]

/-- PLACEMENT: the scheduler places the entry at the front of a partition's queue (R337-R340). -/
def execPlacement : State → Host.Outcome State Fault Refusal :=
  (Plan.get fun s =>
    let p := s.site.a
    .both
      (match queueFront s p with
       | none => .skip
       | some uid =>
         match (s.part p).launch uid, (s.part p).task uid with
         | some l, _ => placeLaunch p l
         | none, some t => placePosted p t
         | none, none => leaveQueue p uid)
      (.get fun s => Plan.when (!(s.part p).queue.isEmpty) (atTick (s.now + 1) rankSchedule none s.site (.instr .placement)))).step

/-! ## The end of a task (R81) -/

/-- An in-flight bundle of a context that could still write a cell store. -/
def couldWrite (w : Wave) : Bool :=
  match bundleInstrs w.bundle with
  | none => false
  | some is => is.any fun (_, i) =>
    match i with
    | .st _ | .stW _ | .stq .. | .accCvt .. | .cvtBf16F32 .. | .cvtI8F32 .. | .cvtI16F32 .. | .cvtPs8F32 .. | .cvtI8I32 .. | .cvtI16I32 .. | .quantI8 ..
    | .quantPs8 .. => true
    | _ => false

/-- The array that runs the stream of a context: the lower array for the upper member of a gang. -/
def streamArr (s : State) (a k : Nat) : Nat := if (s.ctx a k).upper then a - 4 else a

/-- The windows of an ended task stay taken until they are released. -/
def holdWindows (s : State) (a k : Nat) : List HeldWindow :=
  let c := s.ctx a k
  [ { rows := false, stream := streamArr s a k, ctx := k, tid := c.tid, base := c.csBase, size := c.csSize },
    { rows := true, stream := streamArr s a k, ctx := k, tid := c.tid, base := if c.h == 32 && !c.upper then c.arLow else c.arBase, size := c.arSize } ]

/-- Whether a held window can be released at tower tick `u`: the tick after the last write of its task into a cell store, or its last landing. -/
def windowDone (s : State) (u : Nat) (h : HeldWindow) : Bool :=
  let v := s.arr h.stream
  if h.rows then v.passes.all fun p => p.tid != h.tid || (p.finished)
  else
    decide (smGet 0 v.lastWrite h.tid < u) && v.loads.all (fun o => o.tid != h.tid)
      && v.waves.all (fun w => !(w.tid == h.tid && couldWrite w))

/-- CELL_STORE_WINDOW_RELEASE (R81): the windows of an ended task that are done with are free; others are looked at again next tick. -/
def execCellStoreWindowRelease : State → Host.Outcome State Fault Refusal :=
  (Plan.get fun s =>
    let a := s.site.arr
    let u := s.ttick (towerOf a)
    let mine := (s.arr a).held.filter fun h => h.tid == s.site.a
    let left := mine.filter fun h => !windowDone s u h
    Plan.all
      [ modArr a fun v =>
          { v with held := v.held.filter (fun h => h.tid != s.site.a || left.contains h), lastWrite := if left.isEmpty then smDel v.lastWrite s.site.a else v.lastWrite },
        Plan.when (!left.isEmpty) (after 1 rankEvent (.instr .cellStoreWindowRelease)),
        wakeUnit a, wakeUnit (if a % 8 < 4 then a else a - 4), wakeUnit (a - a % 2) ]).step

/-- The walker of an array freed, as `walk.stop` frees it: unreserved feed records are discarded (R262, R263). -/
def freeWalker (a : Nat) : Plan :=
  modArr a fun v =>
    { v with walker := { v.walker with owner := none, running := false, loading := false, epoch := v.walker.epoch + 1, need := [], flight := [], res := none,
                                        feed := v.walker.feed.take v.walker.feedRes } }

/-- Who holds a pin: a task on an array; its stream register goes with it. -/
def pinHolder (a tid : Nat) : Nat := tid * 64 + a

/-- The pins a task's streams on an array hold are released (R254, R316). -/
def unpinTask (a tid : Nat) : Plan :=
  modTower (towerOf a) fun v =>
    { v with pins := (v.pins.map fun p => { p with holders := p.holders.filter fun (x, _) => x != pinHolder a tid }).filter fun p => !p.holders.isEmpty }

/-- A context given up by its task: Free from now, to be taken again from tick `ready`; its windows stay held until they are done with. -/
def vacate (a k ready : Nat) : Plan :=
  .get fun s =>
    let c := s.ctx a k
    let b := streamArr s a k
    Plan.all
      [ modArr a fun v => { v with held := v.held ++ holdWindows s a k },
        Plan.when ((s.arr b).walker.owner == some k && !c.upper) (freeWalker b),
        dropAcq a k, endLease a k, unpinTask a c.tid,
        modCtx a k (fun c => { c with state := .free, freeFrom := ready, saved := none, released := none, preq := [], killed := false }),
        afterAt 1 rankEvent { arr := a, a := c.tid } (.instr .cellStoreWindowRelease),
        wakeUnit a ]

/-- The members of a context's stream that go with it: a gang's upper context. -/
def withUpper (s : State) (a k : Nat) : List Nat := if (s.ctx a k).h == 32 then [a, a + 4] else [a]

/-- `task.end` (R81): its bundle has issued in full; the context is Free at this tick and starts a new task no earlier than te + H. -/
def execTaskEnd (g : Guard) : State → Host.Outcome State Fault Refusal :=
  (atIssueAlways g (.get fun s =>
    let a := s.site.arr
    let k := s.site.ctx
    let c := s.me
    Plan.all
      [ Plan.each (withUpper s a k) fun b => vacate b k (s.tick + c.h),
        modTask c.part c.tid fun t => { t with members := t.members - 1 },
        .get fun s =>
          match (s.part c.part).task c.tid with
          | some t => Plan.when (t.members == 0) (taskGone c.part c.tid false)
          | none => .skip ])).step

/-! ## Kills (R348) -/

/-- The contexts of a task: array and context number of each stream. -/
def taskCtxs (s : State) (p : Nat) (t : Task) : List (Nat × Nat) :=
  let r := s.taskRecord p t
  ((unitArrays r t.unit).flatMap fun a => (List.range 4).map fun k => (a, k)).filter fun (a, k) =>
    let c := s.ctx a k
    c.tid == t.uid && c.state != .free && !c.upper

/-- An `mmd` whose last landing is still to come leaves every field of its entry but ERRSEEN as before the invocation (R221). -/
def undoMmd (t : Nat) (p : Pass) : Plan :=
  match p.kennel, p.entryWas with
  | some key, some (pgen, pgen2, wgen, sforce, bforce, _) =>
    Plan.when (!p.finished && !p.dead) (modKennel t key fun k => { k with pgen, pgen2, wgen, sforce, bforce })
  | _, _ => .skip

/-- The memory programs of a task end with their frame (R332, R348). -/
def stopProgs (tid : Nat) : Plan :=
  Plan.each (List.range 8) fun k => modStack k fun v =>
    { v with progs := v.progs.map fun m => if m.tid == tid && !m.dead then { m with stop := some (min (m.stop.getD (v.frame + 1)) (v.frame + 1)) } else m }

/-- A descriptor stopped by a kill is done with once the lines it has presented have completed (R245). -/
def Desc.over (d : Desc) : Bool := d.stopped && decide (d.next ≤ d.landed)

/-- What a task began is given up: its pending register writes are discarded, its `mmd`s write nothing back, its copies present no further line, its
memory programs end with their frame, its walker is freed and its lease forfeited (R348, R221). -/
def abandonTask (a k tid : Nat) : Plan :=
  .get fun s =>
    Plan.all
      [ Plan.when ((s.ctx a k).tid == tid) (Plan.all [dropAcq a k, endLease a k, modCtx a k fun c => { c with pend := [], preq := [] }]),
        Plan.each ((s.arr a).passes.filter fun q => q.tid == tid) (undoMmd (towerOf a)),
        modArr a (fun v => { v with passes := v.passes.map fun q => if q.tid == tid then { q with dead := true } else q }),
        modTower (towerOf a) (fun v => { v with descs := (v.descs.map fun d => if d.tid == tid then { d with stopped := true } else d).filter fun d => !d.over }),
        stopProgs tid,
        Plan.when ((s.ctx a k).tid == tid && (s.arr a).walker.owner == some k) (freeWalker a) ]

/-- A running or Halted task killed: from the next tick it issues nothing and what it began is given up; its contexts are freed when that has ended. -/
def killTask (p : Nat) (t : Task) : Plan :=
  .get fun s =>
    .both
      (Plan.each (taskCtxs s p t) fun (a, k) =>
        .both (.both (modCtx a k fun c => { c with killed := true, killedAt := s.now, preq := [] }) (Plan.when ((s.arr a).walker.owner == some k) (freeWalker a)))
          (afterAt 1 rankEvent { arr := a, ctx := k, a := t.uid } (.instr .killedContextFree)))
      (.both (stopProgs t.uid) (taskGone p t.uid true))

/-- A checkpointed, pending or queued task killed: it leaves its list, its save slot and its window bases; what a checkpointed one left running is given up, and its pins
are released (R245, R316, R332). -/
def dropTask (p : Nat) (t : Task) : Plan :=
  .get fun s => Plan.all
    [ leaveQueue p t.uid, taskGone p t.uid true,
      Plan.when (t.state == .checkpointed)
        (Plan.each (unitArrays (s.taskRecord p t) t.unit) fun a => .both (abandonTask a t.ctx t.uid) (unpinTask a t.uid)) ]

/-- The engine work a killed context waits for: its bundles, its landings, its copy lines, its memory programs. -/
def killSettled (s : State) (a k tid : Nat) : Bool :=
  let c := s.ctx a k
  let u := s.ttick (towerOf a)
  decide (c.lastIssue + c.h ≤ u || !c.issued) && (s.arr a).passes.all (fun p => p.tid != tid)
    && (s.tower (towerOf a)).descs.all (fun d => d.tid != tid) && (List.range 8).all fun k => (s.stack k).progs.all fun m => m.tid != tid || ((m.ended || m.dead) && decide (m.nrd ≤ m.rdDone))

/-- KILLED_CONTEXT_FREE (R348). -/
def execKilledContextFree : State → Host.Outcome State Fault Refusal :=
  (Plan.get fun s =>
    let a := s.site.arr
    let k := s.site.ctx
    .both (abandonTask a k s.site.a)
      (.get fun s =>
        if (s.ctx a k).tid != s.site.a || (s.ctx a k).state == .free then .skip
        else if killSettled s a k s.site.a then
          Plan.each (withUpper s a k) fun b =>
            .both (vacate b k (s.ttick (towerOf a))) (afterAt 0 rankEvent { arr := b, a := s.site.a } (.instr .cellStoreWindowRelease))
        else after 1 rankEvent (.instr .killedContextFree))).step

end Sys2Proof.Machine
end

