-- ==== Sys2Proof/Machine/Objects.lean ====
section
/-! DEFINITION. E-slot instructions over queue words, barrier objects and counters (R202, R233-R237), posting tasks (R246, R247), and `dict.load` (R75). -/

namespace Sys2Proof.Machine

/-- A sequencer write of an E-slot instruction. -/
def putXE (lat : Nat) (xd : BitVec 5) (val : XWord) : Plan := putSeq 4 lat (.x xd) val

/-! ## Queue control words (R233, R234) -/

/-- A word is busy (R233). -/
def wordBusy (k : Nat) (s : State) : Bool :=
  let q := s.me.qwState k
  decide (0 < q.ops) || (q.used.any fun u => decide (s.tick < u + s.me.h + 4))

def qwSetStall (k : BitVec 4) (s : State) : Option StallCause := if wordBusy k.toNat s then some .queue else none

/-- The word `qw.set` writes: OWNP and OWNC are the issuing task's (R233). -/
def qwSetWord (s : State) (lo hi : XWord) : BitVec 128 :=
  let w : BitVec 128 := hi ++ lo
  (w &&& ~~~(0x3F#128 <<< 42)) ||| (BitVec.ofNat 128 (s.me.part % 16) <<< 44) ||| (BitVec.ofNat 128 (s.site.ctx % 4) <<< 42)

def execQwSet (g : Guard) (k : BitVec 4) (xa xb : BitVec 5) : State → Host.Outcome State Fault Refusal :=
  (atIssue g (qwSetStall k) noCheck (.get fun s =>
    let w := qwSetWord s (s.x xa) (s.x xb)
    let n := s.site.n
    modMyQ k.toNat fun q =>
      { q with word := w, stamp := n + 1, old := ((q.stamp, q.word) :: q.old).take 64, pr := qwPP w, cr := qwCP w })).step

def execQwRd (g : Guard) (k : BitVec 4) (xa xb : BitVec 5) : State → Host.Outcome State Fault Refusal :=
  (atIssueAlways g (.get fun s =>
    let w := s.me.qword k.toNat s.site.n
    .both (putXE 1 xa (w.extractLsb' 0 64)) (putXE 1 xb (w.extractLsb' 64 64)))).step

/-! ## Barrier objects (R237) -/

def boCheck (xa : BitVec 5) (s : State) : Option Chk := objCheck (s.x xa).toNat s

/-- The object `bo.init` leaves (R237). -/
def objImage (unit : Bool) (tag expect : XWord) : List Byte :=
  natBytes 8 (1 + (if unit then 4 else 0) + (if expect = 0 then 2 else 0)) ++ natBytes 8 tag.toNat ++ natBytes 8 0 ++ natBytes 8 expect.toNat

def execBoInit (g : Guard) (unit : Bool) (xa xb : BitVec 5) : State → Host.Outcome State Fault Refusal :=
  (atIssue g noStall (boCheck xa) (.get fun s =>
    after 2 (rankControl + 1) (.micro (.write .scratch (s.myWin (s.x xa).toNat) (objImage unit s.me.tag (s.x xb)))))).step

/-- COUNT of an object as a `bo.rd` of this tick finds it (R227, R237): every write of the tick has been made, but no count of it; a `bo.init` whose write is due at the tick has
written 0. -/
def boCount (s : State) (addr : Nat) : Nat :=
  let init := s.due.any fun d => d.tick == s.now && (match d.act with
    | .micro (.write .scratch dst bs) => d.rank == rankControl + 1 && dst == addr && bs.length == 32
    | _ => false)
  if init then 0 else s.objCount addr

def boReadPlan (addr : Nat) (xa : BitVec 5) : Plan :=
  .get fun s => .both (controlRead s.site.arr s.site.ctx s.me.tid s.site.n addr 32) (putXE 2 xa (BitVec.ofNat 64 (boCount s addr)))

/-- `bo.rd` reads through the control port, whose reads come after the writes of their tick (R227): its read is made after them, and before the counts of the tick. -/
def execBoRd (g : Guard) (xa xb : BitVec 5) : State → Host.Outcome State Fault Refusal :=
  (atIssue g noStall (boCheck xb) (.get fun s =>
    .edit (.due (insertDue { tick := s.now, rank := rankControl, ord := 1, dom := none, site := s.site, act := .micro (.boRead (s.myWin (s.x xb).toNat) xa) } s.due)))).step

/-! ## Counters (R202) -/

def railWord (v : Arr) : Nat :=
  v.ls1.level + 4 * v.ls2.level + 16 * v.ls1.target + 64 * v.ls2.target + (if v.ls1.moving.isSome || v.ls2.moving.isSome then 256 else 0)

def ctrValue (s : State) (sel : BitVec 8) (up : Bool) : Nat :=
  let c := s.me
  let v := if up then s.arr (s.site.arr + 4) else s.arr s.site.arr
  let ofArr := fun n => if up && c.h != 32 then 0 else n
  match sel.toNat with
  | 0 => c.terr1
  | 1 => c.terr2
  | 2 => ofArr v.aerr1
  | 3 => ofArr v.aerr2
  | 4 => ofArr (railWord v)
  | 5 => c.rstall
  | _ => ofArr v.nmis

def execCtrRd (g : Guard) (xa : BitVec 5) (sel : BitVec 8) (up : Bool) : State → Host.Outcome State Fault Refusal :=
  (atIssueAlways g (.get fun s => putXE 2 xa (BitVec.ofNat 64 (ctrValue s sel up)))).step

/-! ## Posting tasks (R246, R247) -/

/-- An operand that must name a 64-byte record of the window. -/
def recCheck (off : Nat) (s : State) : Option Chk :=
  if off % 64 ≠ 0 then some { code := 0x11, sub := 0, addr := off }
  else if s.inMyWin off 64 then none
  else some { code := 0x14, sub := 0, addr := off }

def postCheck (xa : BitVec 5) (s : State) : Option Chk := recCheck (s.x xa).toNat s

/-- The launch queue of a partition holds 64 entries, reservations included (R28, R247). -/
def queueFull (s : State) (p : Nat) : Bool := decide (64 ≤ (s.part p).queue.length + (s.part p).reserved)

def postStall (xa : BitVec 5) (s : State) : Option StallCause :=
  if (postCheck xa s).isNone && queueFull s s.me.part then some .queue else none

/-- An input descriptor obeys R20 for every tower that holds an eligible unit. -/
def inputOk (s : State) (p : Nat) (units : List Nat) (d : Nat) : Bool :=
  if d / 2 ^ 31 = 1 then d == 2 ^ 31
  else d % 32 == 0 && units.all fun u => s.inWin (towerOf u) p d 32

/-- A post record obeys R246. -/
def postRecordOk (s : State) (p : Nat) (r : List Byte) (b : List Byte) : Bool :=
  let flags := fieldAt b 4 4
  let nin := flags / 128 % 16
  let ins := fieldsAt b 16 4 8
  let units := eligibleUnits s p r
  flags / 2048 == 0 && decide (nin ≤ 8) && fieldAt b 48 16 == 0
    && ((List.range 8).all fun i => if i < nin then inputOk s p units (ins.getD i 0) else ins.getD i 0 == 0)
    && (flags.testBit 6 || units.contains (flags % 64))

/-- A post record taken 16 ticks after its post fired (R247), or after the last byte of a copy (R243): a task queued a tick later, or fault 0x01, sub-code 4, and the entry
given back; a copy's record that leaves the window raises 0x14 (R223). -/
def postPlan (p launch a k off tid n : Nat) : Plan :=
  .get fun s =>
    let r := s.record p launch
    let b := s.bytes .scratch (s.winAddr (towerOf a) p off) 64
    let flags := fieldAt b 4 4
    let inside := s.inWin (towerOf a) p off 64
    .both (controlRead a k tid n (s.winAddr (towerOf a) p off) 64) <|
    if inside && postRecordOk s p r b then
      after 1 rankControl (.micro (.queueTask p launch (fieldAt b 0 4) (flags % 64) (flags.testBit 6) (fieldAt b 8 8) ((fieldsAt b 16 4 8).take (flags / 128 % 16))))
    else
      Plan.all
        [ modPart p fun v => { v with reserved := v.reserved - 1 },
          modLaunch p launch fun l => { l with live := l.live - 1 },
          raiseFaultFor p tid a k
            { kind := 1, unit := a, ctx := k, code := if inside then 0x01 else 0x14, sub := if inside then 4 else 0, addr := off, seq := n, pos := (s.ctx a k).pc },
          settleLaunch p launch ]

/-- A posted task enters its partition's launch queue (R29). -/
def queueTaskPlan (p launch entry target : Nat) (any : Bool) (arg : Nat) (inputs : List Nat) : Plan :=
  .get fun s =>
    let r := s.record p launch
    let n := match (s.part p).launch launch with
      | some l => l.nextTask
      | none => 0
    Plan.all
      [ modLaunch p launch (fun l => { l with nextTask := l.nextTask + 1 }),
        withUid fun uid => modPart p fun v =>
          { v with queue := v.queue ++ [uid], reserved := v.reserved - 1,
                   tasks := v.tasks ++ [{ uid, launch, number := n, unit := target, any, entry, arg := BitVec.ofNat 64 arg, ranges := taskRanges r none none, inputs,
                                          state := .queued, order := uid }] },
        wakePlacement p ]

/-- A post fires: its queue entry is reserved and its record will be read 16 ticks on. -/
def firePost (off : Nat) : Plan :=
  .get fun s =>
    Plan.all
      [ modPart s.me.part fun v => { v with reserved := v.reserved + 1 },
        modLaunch s.me.part s.me.launch fun l => { l with live := l.live + 1 },
        after 16 rankPortRead (.micro (.post s.me.part s.me.launch s.site.arr s.site.ctx off s.me.tid s.site.n)) ]

def execTaskPost (g : Guard) (xa : BitVec 5) : State → Host.Outcome State Fault Refusal :=
  (atIssue g (postStall xa) (postCheck xa) (.get fun s => firePost (s.x xa).toNat)).step

/-! ## `dict.load` (R75) -/

def dictCheck (xa : BitVec 5) (n : BitVec 15) (s : State) : Option Chk :=
  let off := (s.x xa).toNat
  if off % 64 ≠ 0 then some { code := 0x11, sub := 0, addr := off }
  else if !s.inMyWin off (48 * n.toNat) then some { code := 0x14, sub := 0, addr := off }
  else if s.me.dsz < n.toNat then some { code := 0x01, sub := 2, addr := noAddr }
  else none

def execDictLoad (g : Guard) (xa : BitVec 5) (n : BitVec 15) : State → Host.Outcome State Fault Refusal :=
  (atIssue g noStall (dictCheck xa n) (.get fun s =>
    after 16 rankPortRead (.micro (.dictRead s.site.arr n.toNat (s.myWin (s.x xa).toNat) 0 [] (dictEntry s.site.arr s.me.db) s.me.tid)))).step

/-- An entry that may stand at index `j` of a dictionary (R61, R72). -/
def dictEntryOk (j : Nat) (bs : List Byte) : Bool := if j = 0 then bs.all (· == 0) else bundleLegal (bundleOfBytes bs)

/-- Source entry `j` read at t + 16 + j; when all are read, the first write or the fault follows at t + 16 + n (R75). -/
def dictReadPlan (a n src j : Nat) (got : List (List Byte)) (base tid : Nat) : Plan :=
  .get fun s =>
    let got := got ++ [s.bytes .scratch (src + 48 * j) 48]
    .both (controlRead a s.site.ctx tid s.site.n (src + 48 * j) 48) <|
    if j + 1 < n then after 1 rankPortRead (.micro (.dictRead a n src (j + 1) got base tid))
    else
      match (List.range n).find? fun i => !dictEntryOk i (got.getD i []) with
      | some i => after 1 rankEvent (.micro (.charge a s.site.ctx tid s.site.n 0x01 0 i))
      | none => Plan.each (List.range n) fun i => after (1 + i) rankEvent (.micro (.write .dict (base + 48 * i) (got.getD i [])))

/-! ## What ISSUE_SELECT asks of these instructions -/

def objectsStall (i : Instr) (s : State) : Option StallCause :=
  match i with
  | .qwSet _ k _ _ => qwSetStall k s
  | .taskPost _ xa => postStall xa s
  | .lrow _ k _ _ => loaderStall 1 k s
  | .srow _ k _ _ => loaderStall 2 k s
  | _ => none

def objectsCheck (i : Instr) (s : State) : Option Chk :=
  match i with
  | .boInit _ _ xa _ => boCheck xa s
  | .boRd _ _ xb => boCheck xb s
  | .taskPost _ xa => postCheck xa s
  | .dictLoad _ xa n => dictCheck xa n s
  | .lrow _ k xa xb => loaderCheck 1 k xa xb s
  | .srow _ k xa xb => loaderCheck 2 k xa xb s
  | _ => none

end Sys2Proof.Machine
end

