-- ==== Sys2Proof/Machine/Translate.lean ====
section
/-! DEFINITION. Physical memory and address translation (R301-R318, R320, R321): the physical map, DRAM coordinates under a partition's hash masks, extents, range
entries, the page table, permissions, and the caches that hold translations. -/

namespace Sys2Proof.Machine

/-! ## DRAM coordinates (R320, R321) -/

def parity (n : Nat) : Bool := ((List.range 40).map fun i => n.testBit i).foldl (· != ·) false

/-- HMB[i] and HMP[j] of a partition on a stack; their reset values are 2^(14 + i) and 0 (R321). -/
def hmbOf (k : Stack) (p i : Nat) : Nat := smGet (2 ^ (14 + i)) k.hmb (p * 4 + i)
def hmpOf (k : Stack) (p j : Nat) : Nat := smGet 0 k.hmp (p * 6 + j)

/-- A line of HBM: its stack and, in the stack, pseudo-channel index (channel * 2 + pseudo-channel), bank, row and column. -/
structure Coord where
  stack : Nat
  pc : Nat
  bank : Nat
  row : Nat
  col : Nat
  deriving DecidableEq, Repr

def stackOfPa (pa : Nat) : Nat := pa / 2 ^ 36 % 8

/-- The coordinates of the line of an HBM address as partition `p`'s masks map it (R320). -/
def coordOf (s : State) (p pa : Nat) : Coord :=
  let l := pa / 64 % 2 ^ 33
  let k := s.stack (stackOfPa pa)
  let bit := fun (i m : Nat) => if l.testBit i != parity (l &&& m) then 2 ^ 0 else 0
  { stack := stackOfPa pa,
    pc := ((List.range 6).map fun j => bit j (hmpOf k p j) * 2 ^ j).foldl (· + ·) 0,
    bank := ((List.range 4).map fun i => bit (10 + i) (hmbOf k p i) * 2 ^ i).foldl (· + ·) 0,
    row := l / 2 ^ 14 % 2 ^ 16, col := l / 2 ^ 6 % 16 }

/-- The address in the HBM space of a line. -/
def Coord.cell (c : Coord) : Nat := ((((c.stack * 64 + c.pc) * 16 + c.bank) * 65536 + c.row) * 16 + c.col) * 64

/-! ## The physical map (R301) -/

def isHbm (pa : Nat) : Bool := decide (pa < 2 ^ 39)
def isDeep (pa : Nat) : Bool := decide (2 ^ 40 ≤ pa) && decide (pa < 2 ^ 40 + 2 ^ 41)
def isHost (pa : Nat) : Bool := decide (2 ^ 51 ≤ pa) && decide (pa < 2 ^ 52)
def mapped (pa : Nat) : Bool := isHbm pa || isDeep pa || isHost pa

/-- Where a byte of mapped memory is. -/
def physAt (s : State) (p pa : Nat) : Space × Nat :=
  if isHbm pa then (.hbm, (coordOf s p pa).cell + pa % 64) else if isDeep pa then (.deep, pa - 2 ^ 40) else (.host, pa - 2 ^ 51)

def physByte (s : State) (p pa : Nat) : Byte := s.byte (physAt s p pa).1 (physAt s p pa).2
def physBytes (s : State) (p pa n : Nat) : List Byte := (List.range n).map fun i => physByte s p (pa + i)

/-- Bytes written at a physical address, by any agent on any path, with the watch ranges they touch (R208). -/
def physWrite (p pa : Nat) (bs : List Byte) (w : WriteId := {}) : Plan :=
  .get fun s =>
    .both (Plan.each bs.zipIdx fun (v, i) => .edit (.byte (physAt s p (pa + i)).1 (physAt s p (pa + i)).2 v))
      (.both (Plan.each ((List.range 16).filter fun q => (s.part q).live) fun q => bumpWatch q 2 0 pa bs.length w)
        (Plan.when (!s.marks.isEmpty) (Plan.each (List.range (bs.length / 64)) fun i =>
          let at' := physAt s p ((pa + 63) / 64 * 64 + 64 * i)
          let whole := decide ((pa + 63) / 64 * 64 + 64 * i + 64 ≤ pa + bs.length)
          Plan.when whole (if isHbm pa then unmark 0 6 at'.2 64 else if isDeep pa then unmark 1 6 at'.2 64 else .skip))))

/-- Bytes lie inside one extent of a partition (R302); an extent's limit is its first byte beyond. -/
def inExtent (v : Part) (pa n : Nat) : Bool := v.ext.any fun (base, limit) => decide (base ≤ pa) && decide (pa + n ≤ limit)

/-! ## Range entries (R304) -/

def reGen (e : BitVec 256) : Nat := (e.extractLsb' 224 32).toNat
def rePbase (e : BitVec 256) : Nat := (e.extractLsb' 164 52).toNat
def reLimit (e : BitVec 256) : Nat := (e.extractLsb' 104 56).toNat
def reBase (e : BitVec 256) : Nat := (e.extractLsb' 44 56).toNat
def reValid (e : BitVec 256) : Bool := e.getLsbD 0
/-- R, W and A as bits 0, 1 and 2. -/
def rePerms (e : BitVec 256) : Nat := (e.extractLsb' 1 3).toNat

def rangeHit (v : Part) (va : Nat) : Option Nat :=
  (List.range 64).find? fun i => let e := smGet 0 v.ranges i; reValid e && decide (reBase e ≤ va) && decide (va ≤ reLimit e)

/-! ## The page table (R306-R309) -/

/-- A translation: the physical address, R W A, and the page it comes from (size 0 for a range entry). -/
structure Xlat where
  pa : Nat
  perms : Nat
  page : Nat := 0
  size : Nat := 0
  deriving DecidableEq, Repr

def levelIndex (n va : Nat) : Nat :=
  match n with
  | 0 => va / 2 ^ 39 % 2 ^ 17
  | 1 => va / 2 ^ 30 % 512
  | 2 => va / 2 ^ 21 % 512
  | _ => va / 2 ^ 12 % 512

def pteAddr (e : Nat) : Nat := e / 4096 % 2 ^ 40 * 4096
def pteLeaf (n e : Nat) : Bool := n == 3 || e.testBit 10
def ptePerms (e : Nat) : Nat := e / 128 % 8
def leafSize (n e : Nat) : Nat := if n = 1 then 2 ^ 30 else if n = 2 then 2 ^ 21 else if e.testBit 11 then 2 ^ 16 else 2 ^ 12

/-- A valid entry is malformed (R308). -/
def pteMalformed (n e : Nat) : Bool :=
  e / 2 ^ 52 != 0 || e / 2 % 64 != 0 || (e.testBit 10 && (n == 0 || n == 3)) || (e.testBit 11 && n != 3)
    || (!pteLeaf n e && ptePerms e != 0) || (pteLeaf n e && n != 0 && pteAddr e % leafSize n e != 0)

/-- The entry of a level for an address. -/
def pteAt (s : State) (p table n va : Nat) : Nat := leNat (physBytes s p (table + 8 * levelIndex n va) 8)

/-- The level-3 entry a 64 KiB page is translated by: the 16 that cover it may differ, and then any one of those that are valid leaves of 64 KiB (R309, log 4). -/
def pte64 (s : State) (p table va own : Nat) : Nat :=
  let ok := ((List.range 16).map fun i => pteAt s p table 3 (va / 2 ^ 16 * 2 ^ 16 + i * 4096)).filter fun e => e.testBit 0 && e.testBit 11 && !pteMalformed 3 e
  if ok.all (· == own) then own else ok.getD (Config.freeUpTo s.free (ok.length - 1)) own

/-- A walk from a level (R306-R308): fault code and sub-code, or the translation. `fuel` is the levels left. -/
def walkTable (s : State) (p va : Nat) : Nat → Nat → Nat → Except (Nat × Nat) Xlat
  | 0, _, _ => .error (0x20, 0)
  | fuel + 1, n, table =>
    if !inExtent (s.part p) (table + 8 * levelIndex n va) 8 then .error (0x21, 3)
    else if !mapped (table + 8 * levelIndex n va) then .error (0x20, 0x11)
    else
      let e := pteAt s p table n va
      if !e.testBit 0 then .error (0x20, n)
      else if pteMalformed n e then .error (0x20, 8 + n)
      else if pteLeaf n e && n != 0 then
        let e := if n = 3 && e.testBit 11 then pte64 s p table va e else e
        let z := leafSize n e
        .ok { pa := pteAddr e + va % z, perms := ptePerms e, page := va / z * z, size := z }
      else walkTable s p va fuel (n + 1) (pteAddr e)

def ptEnabled (v : Part) : Bool := v.ctrl.getLsbD 0
def ptRoot (v : Part) : Nat := v.ctrl.toNat / 2 ^ 20 % 2 ^ 32 * 2 ^ 20

/-- The checks after an address is found (R301, R302), for `n` bytes. -/
def checkPhys (v : Part) (n : Nat) (x : Xlat) : Except (Nat × Nat) Xlat :=
  if !mapped x.pa then .error (0x20, 0x11) else if !inExtent v x.pa n then .error (0x21, 3) else .ok x

/-- The translation of `n` bytes at a virtual address by range entry or, on a miss, a walk of the page table as it stands (R303). -/
def translate (s : State) (p va n : Nat) : Except (Nat × Nat) Xlat :=
  let v := s.part p
  if 2 ^ 56 ≤ va then .error (0x20, 0x10)
  else
    match rangeHit v va with
    | some i =>
      let e := smGet 0 v.ranges i
      checkPhys v n { pa := rePbase e + (va - reBase e), perms := rePerms e }
    | none =>
      if !ptEnabled v then .error (0x20, 0)
      else
        match walkTable s p va 4 0 (ptRoot v) with
        | .error f => .error f
        | .ok x => checkPhys v n x

/-- The page-table entries a walk from a level reads, in order. -/
def walkReads (s : State) (p va : Nat) : Nat → Nat → Nat → List Nat
  | 0, _, _ => []
  | fuel + 1, n, table =>
    let at' := table + 8 * levelIndex n va
    if !inExtent (s.part p) at' 8 || !mapped at' then []
    else
      let e := pteAt s p table n va
      at' :: (if !e.testBit 0 || pteMalformed n e || (pteLeaf n e && n != 0) then [] else walkReads s p va fuel (n + 1) (pteAddr e))

/-- The physical addresses of the page-table entries that translating an address reads; none for one a range entry hits (R303). -/
def tableReads (s : State) (p va : Nat) : List Nat :=
  let v := s.part p
  if 2 ^ 56 ≤ va ∨ (rangeHit v va).isSome ∨ !ptEnabled v then [] else walkReads s p va 4 0 (ptRoot v)

/-- The uncorrectable line a physical address lies in, by its kind and number (R322). -/
def lostLineAt (s : State) (p pa : Nat) : Option (Nat × Nat) :=
  let x := physAt s p pa
  let m := if isHbm pa then (0, x.2 / 64) else (1, x.2 / 64)
  if (isHbm pa || isDeep pa) && s.marked m.1 m.2 then some m else none

/-! ## The cache over the deep tier (R336) -/

/-- A stack's part of a partition's deep-tier cache, in bytes (R336). -/
def cacheBytes (v : Part) (k : Nat) : Nat := ((v.cachex.filter fun e => stackOfPa e.1 == k).map fun e => e.2 - e.1).foldl (· + ·) 0
def deepStack (pa : Nat) : Nat := (pa - 2 ^ 40) / 2 ^ 38 % 8

/-- A deep-tier cache access: the tags of its set after it (R336). Its data stand as the port answers them, in the deep tier's own bytes (log 19). -/
def cacheTouch (st p pa : Nat) (write : Bool) : Plan :=
  .get fun s =>
    let sets := cacheBytes (s.part p) st / 2048 / 4
    let line := (pa - 2 ^ 40) / 2048
    Plan.when (decide (0 < sets)) <| modStack st fun k =>
      let key := fun w => (p * 2 ^ 28 + line % sets) * 4 + w
      let ways := [0, 1, 2, 3]
      match ways.find? fun w => k.cache.any fun e => e.1 == key w && e.2.1 == line with
      | some w =>
        let dirty := (smGet (line, false, 0) k.cache (key w)).2.1
        { k with cache := smSet k.cache (key w) (line, dirty || write, s.now) }
      | none =>
        let age := fun w => (k.cache.find? fun e => e.1 == key w).map fun e => e.2.2.2 + 1
        let victim := ways.foldl (fun b w => if (age w).getD 0 < (age b).getD 0 then w else b) 0
        { k with cache := smSet k.cache (key victim) (line, write, s.now) }

/-- The lines of a physical range, as far as they lie in cached deep-tier memory, go through the cache. -/
def deepTouch (p pa n : Nat) (write : Bool) : Plan :=
  Plan.when (isDeep pa && decide (0 < n)) (Plan.each (List.range ((pa + n - 1) / 2048 - pa / 2048 + 1)) fun i => cacheTouch (deepStack pa) p (pa / 2048 * 2048 + 2048 * i) write)

/-- What an access needs (R310). -/
inductive Access where
  | read
  | write
  | atom
  | atomFetch
  | none
  deriving DecidableEq, Repr

/-- The fault of an access a translation does not permit (R310). -/
def permFault (a : Access) (perms : Nat) : Option (Nat × Nat) :=
  match a with
  | .read => if perms.testBit 0 then none else some (0x21, 0)
  | .write => if perms.testBit 1 then none else some (0x21, 1)
  | .atom => if perms.testBit 1 && perms.testBit 2 then none else some (0x21, 2)
  | .atomFetch => if perms.testBit 0 && perms.testBit 1 && perms.testBit 2 then none else some (0x21, 2)
  | .none => none

def permitted (a : Access) (x : Except (Nat × Nat) Xlat) : Except (Nat × Nat) Xlat :=
  match x with
  | .error f => .error f
  | .ok x => match permFault a x.perms with
    | some f => .error f
    | none => .ok x

/-! ## The caches of a tower (R311, R313) -/

/-- A cached page that covers an address, if the cache still holds it: which entries it keeps is open (log 16). -/
def cachedPage (s : State) (t p va : Nat) : Option Pin :=
  match (s.tower t).pages.find? fun e => e.part == p && decide (e.page ≤ va) && decide (va < e.page + e.size) with
  | some e => if Config.freeUpTo s.free 1 = 1 then some e else none
  | none => none

def pinXlat (e : Pin) (va : Nat) : Xlat := { pa := e.pa + (va - e.page), perms := e.perms, page := e.page, size := e.size }

/-- A page enters the page cache of a tower, which holds 4,096. -/
def cachePage (t p va : Nat) (x : Xlat) : Plan :=
  Plan.when (decide (0 < x.size)) <| modTower t fun v =>
    { v with pages := ({ part := p, page := x.page, size := x.size, pa := x.pa - (va - x.page), perms := x.perms, holders := [] }
        :: v.pages.filter fun e => !(e.part == p && e.page == x.page && e.size == x.size)).take 4096 }

/-- A range entry used enters the range cache of a tower, which holds 64. -/
def cacheRange (t p i : Nat) : Plan :=
  .get fun s =>
    let e := (p, i, reGen (smGet 0 (s.part p).ranges i))
    modTower t fun v => { v with ranges := (e :: v.ranges.filter fun r => !(r.1 == p && r.2.1 == i)).take 64 }

/-- Every cached page of a partition that meets a virtual range leaves every tower (R314). -/
def dropPages (p lo hi : Nat) : Plan :=
  Plan.each (List.range 8) fun t => modTower t fun v =>
    { v with pages := v.pages.filter fun e => !(e.part == p && decide (e.page ≤ hi) && decide (lo < e.page + e.size)) }

/-- Pins of a partition of a kind, over all towers (R314). -/
def pinsIn (s : State) (p : Nat) (which : Pin → Bool) : Nat :=
  ((List.range 8).map fun t => ((s.tower t).pins.filter fun e => e.part == p && which e).length).foldl (· + ·) 0

end Sys2Proof.Machine
end

