-- ==== Sys2Proof/Machine/Kennels.lean ====
section
/-! DEFINITION. Binding, clearing and reading kennel entries (R203-R212). -/

namespace Sys2Proof.Machine

/-! ## The bind record (R211) -/

structure BindRec where
  xprev : Nat
  yprev : Nat
  scale : Nat
  slim : Nat
  period : Nat
  mrows : Nat
  flags : Nat
  wix : Nat
  wbase : Nat
  wlen : Nat
  zero : Bool
  deriving DecidableEq, Repr

def bindRec (b : List Byte) : BindRec :=
  { xprev := fieldAt b 0 4, yprev := fieldAt b 4 4, scale := fieldAt b 8 4, slim := fieldAt b 12 2, period := fieldAt b 14 1, mrows := fieldAt b 15 1,
    flags := fieldAt b 16 1, wix := fieldAt b 17 1, wbase := fieldAt b 24 8, wlen := fieldAt b 32 8,
    zero := fieldAt b 18 6 == 0 && fieldAt b 40 24 == 0 }

def BindRec.rows (r : BindRec) : Nat := if r.mrows = 0 then 256 else r.mrows
def BindRec.wset (r : BindRec) : Bool := r.flags.testBit 1
def BindRec.wspace (r : BindRec) : Nat := r.flags / 4 % 4
def BindRec.mode (r : BindRec) : Bool := r.flags.testBit 0

/-- The limits of R211 in a window of `win` bytes for a unit of `g` arrays. -/
def BindRec.ok (r : BindRec) (win g : Nat) : Bool :=
  r.zero && r.flags / 16 == 0 && r.xprev % 64 == 0 && decide (r.xprev + r.rows * 1024 * g ≤ win) && r.yprev % 64 == 0
    && decide (r.yprev + r.rows * (4096 + 2048 * g) ≤ win) && ((List.range 8).any fun j => r.scale == (127 + j) * 2 ^ 23) && decide (1 ≤ r.period)
    && decide (r.wix ≤ 63)
    && decide (1 ≤ r.wlen)
    && (if r.wset then (r.wspace == 1 || r.wspace == 2) && (r.wspace != 1 || decide (r.wbase + r.wlen ≤ win)) else r.wspace == 0)

/-- The physical image of a watched virtual range through the one range entry that holds it (R212). -/
def BindRec.image (r : BindRec) (v : Part) : Option Nat :=
  match rangeHit v r.wbase with
  | some i =>
    let e := smGet 0 v.ranges i
    if r.wbase + r.wlen ≤ reLimit e + 1 then some (rePbase e + (r.wbase - reBase e)) else none
  | none => none

/-! ## Actions on entries -/

/-- An action on an entry of partition `site.a` in the tower of the array, due at the tick its earlier `mmd`s allow: `site.b` 0 bind, 1 clear, 2 report;
`site.c` the name; `site.pos` the record's offset; `bytes` the bind record; `site.qpos` the first identifier no earlier `mmd` has; `site.rowOn` a gang. -/
def entryAction (kind name off : Nat) (bytes : List Byte) (limit wait : Nat) (gang : Bool) : Plan :=
  .get fun s =>
    afterAt wait rankControl { s.site with a := s.me.part, b := kind, c := name, pos := off, bytes, qpos := limit, rowOn := gang } (.instr .kennelEntryAction)

/-- An `mmd` on an entry that was in flight when an action was issued has not finished (R212). -/
def mmdFlying (s : State) (t key limit : Nat) : Bool :=
  (List.range 8).any fun i => (s.arr (8 * t + i)).passes.any fun q => q.kennel == some key && decide (q.uid < limit)

/-- Valid entries of a partition in a tower, and names with a binding on its way. -/
def entriesHeld (s : State) (t p : Nat) : List Nat :=
  ((s.tower t).kennels.filterMap fun (key, k) => if k.valid && key / 65536 == p then some (key % 65536) else none)
    ++ s.due.filterMap fun d =>
      if d.act == .instr .kennelEntryAction && d.site.b == 0 && d.site.a == p && towerOf d.site.arr == t then some d.site.c else none

/-- The bind record read 16 ticks after issue and checked: sub-codes 2, 5, 1 in that order (R212). -/
def knBindPlan (a off name tid limit : Nat) (gang : Bool) : Plan :=
  .get fun s =>
    let k := s.site.ctx
    Plan.each (s.partOf a k tid).toList fun p =>
    let t := towerOf a
    let bytes := s.bytes .scratch (s.winAddr t p off) 64
    let r := bindRec bytes
    let held := entriesHeld s t p
    let fail := fun sub => chargeFault a k tid s.site.n 0x71 sub off
    .both (controlRead a k tid s.site.n (s.winAddr t p off) 64) <|
    if !r.ok (s.winSize t p) (if gang then 2 else 1) then fail 2
    else if r.wset && r.wspace == 2 && (r.image (s.part p)).isNone then fail 5
    else if !held.contains name && decide (smGet 0 (s.part p).kenn t ≤ held.eraseDups.length) then fail 1
    else entryAction 0 name off bytes limit 4 gang

/-- The entry image of R204, 40 bytes. -/
def kennelImage (k : Kennel) : List Byte :=
  let b := fun (x : Bool) (n : Nat) => if x then 2 ^ n else 0
  natBytes 40
    (k.pgen % 2 ^ 64 * 2 ^ 256 + k.wgen % 2 ^ 32 * 2 ^ 224 + k.scale % 2 ^ 32 * 2 ^ 192 + k.yprev % 2 ^ 32 * 2 ^ 160 + k.xprev % 2 ^ 32 * 2 ^ 128
      + k.slim % 2 ^ 16 * 2 ^ 112 + k.nstray % 2 ^ 16 * 2 ^ 96 + k.name % 2 ^ 16 * 2 ^ 80 + k.period % 256 * 2 ^ 72 + k.inv % 256 * 2 ^ 64
      + k.mrows % 256 * 2 ^ 56 + k.arr % 64 * 2 ^ 50 + k.wix % 64 * 2 ^ 44 + k.part % 16 * 2 ^ 40
      + b k.errseen 39 + b k.sforce 38 + b k.bforce 37 + b k.mode 35 + b k.gang 34 + b k.valid 0)

/-- The entry a bind record makes for array `a`. -/
def boundEntry (r : BindRec) (a p name : Nat) (gang : Bool) : Kennel :=
  { valid := true, scale := r.scale, yprev := r.yprev, xprev := r.xprev, slim := r.slim, name, period := r.period, mrows := r.mrows, arr := a, wix := r.wix,
    part := p, mode := r.mode, gang }

/-- The watch range of a bind record set, its GEN kept (R212); the range entry that holds a physical image is recorded (R315). The image is that of the tick the entry is
written at; 0 stands for one that a MAP has removed from the record's read to that tick, of which the spec says nothing (DESIGN CHOICE, log 21). -/
def bindWatch (r : BindRec) (p t : Nat) : Plan :=
  modPart p fun v =>
    let base := if r.wspace = 2 then (r.image v).getD 0 else r.wbase
    { v with watch := smSet v.watch r.wix (wrMake (wrGen (smGet 0 v.watch r.wix)) t r.wspace (base + r.wlen - 1) base),
             watchVia := (match rangeHit v r.wbase with
               | some i => if r.wspace = 2 then smSet v.watchVia r.wix i else smDel v.watchVia r.wix
               | none => smDel v.watchVia r.wix) }

/-- KENNEL_ENTRY_ACTION (R212): at max(t + 20, P). `In flight' is taken as of the instruction's issue: an `mmd` fired after it, before t + 20, holds it up no more, and the entry
is replaced or cleared under that `mmd`, whose last write-back uses the new or reset fields; only its DONE goes on to bound the next start (R215) (DESIGN CHOICE, log 21). -/
def execKennelEntryAction : State → Host.Outcome State Fault Refusal :=
  (Plan.get fun s =>
    let x := s.site
    let t := towerOf x.arr
    let key := kennelKey x.a x.c
    if mmdFlying s t key x.qpos then afterAt 1 rankControl x (.instr .kennelEntryAction)
    else
      match x.b with
      | 0 =>
        let r := bindRec x.bytes
        .both (modKennel t key fun k => { boundEntry r x.arr x.a x.c x.rowOn with done := k.done })
          (Plan.when r.wset (bindWatch r x.a t))
      | 1 =>
        if mmdFlying s t key s.uid then modKennel t key fun k => { done := k.done }
        else modTower t fun v => { v with kennels := smDel v.kennels key }
      | _ =>
        let k := s.kennel t key
        scratchWrite (s.winAddr t x.a x.pos) (if k.valid then kennelImage k ++ List.replicate 24 0 else List.replicate 64 0)).step

def execKnBind (g : Guard) (xa : BitVec 5) (name : BitVec 16) : State → Host.Outcome State Fault Refusal :=
  (atIssue g noStall (postCheck xa) (.get fun s =>
    after 16 rankPortRead (.micro (.knBind s.site.arr (s.x xa).toNat name.toNat s.me.tid s.uid (s.me.h == 32))))).step

def execKnInv (g : Guard) (name : BitVec 16) : State → Host.Outcome State Fault Refusal :=
  (atIssueAlways g (.get fun s => entryAction 1 name.toNat 0 [] s.uid 20 false)).step

/-- `kn.inv.all` names the entries that are valid as it issues; one bound between the issue and t + 20 stands (DESIGN CHOICE, log 21). -/
def execKnInvAll (g : Guard) : State → Host.Outcome State Fault Refusal :=
  (atIssueAlways g (.get fun s =>
    Plan.each ((s.tower (towerOf s.site.arr)).kennels.filter fun (key, k) => k.valid && key / 65536 == s.me.part) fun (key, _) =>
      entryAction 1 (key % 65536) 0 [] s.uid 20 false)).step

def execKnStat (g : Guard) (xa : BitVec 5) (name : BitVec 16) : State → Host.Outcome State Fault Refusal :=
  (atIssue g noStall (postCheck xa) (.get fun s => entryAction 2 name.toNat (s.x xa).toNat [] s.uid 20 false)).step

end Sys2Proof.Machine
end

