-- ==== Sys2Proof/Machine/Walker.lean ====
section
/-! DEFINITION. The walker (R257-R280): starting and stopping it, the frame its instructions stand in, and their meanings. An instruction runs at its begin tick
(`site.issue`), and those that read or write memory run again when they complete. -/

namespace Sys2Proof.Machine

def State.walker (s : State) : Walker := (s.arr s.site.arr).walker
def modWalkerOf (a : Nat) (f : Walker → Walker) : Plan := modArr a fun v => { v with walker := f v.walker }
def modWalker (f : Walker → Walker) : Plan := .get fun s => modWalkerOf s.site.arr f

/-- The word at the PC of an array's walker (R258). -/
def walkWord (s : State) (a : Nat) : Lane := smGet 0 (s.arr a).walker.pstore (s.arr a).walker.pc

/-- G0 reads 0 (R258). -/
def Walker.reg (w : Walker) (i : BitVec 4) : Lane := if i = 0 then 0 else smGet 0 w.g i.toNat
def State.g (s : State) (i : BitVec 4) : Lane := s.walker.reg i
def Walker.setReg (w : Walker) (i : BitVec 4) (v : Lane) : Walker := if i = 0 then w else { w with g := smSet w.g i.toNat v }
def putG (d : BitVec 4) (v : Lane) : Plan := modWalker fun w => w.setReg d v

def Walker.stgByte (w : Walker) (i : Nat) : Byte := w.stg.getD i 0
/-- STG with bytes put in from an offset. -/
def Walker.putStg (w : Walker) (off : Nat) (bs : List Byte) : Walker :=
  { w with stg := (List.range 512).map fun i => if off ≤ i ∧ i < off + bs.length then bs.getD (i - off) 0 else w.stgByte i }
def Walker.stgAll (w : Walker) : List Byte := (List.range 512).map w.stgByte

/-! ## The frame of an instruction -/

/-- An act of the walker at the site of its program. -/
def walkAfter (k : Nat) (begin : Bool) : Plan :=
  .get fun s =>
    let a := s.site.arr
    afterAt k rankWalk { arr := a, ctx := s.walker.owner.getD 0, n := s.walker.startN, issue := begin, c := s.walker.epoch } (.walk a)

/-- A walker stopped where it stands; its PC keeps its value (R263). A program being read is read on, and begins when the walker may go on (R261). -/
def Walker.halted (w : Walker) : Walker :=
  if w.loading then { w with running := false } else { w with running := false, epoch := w.epoch + 1, need := [], got := [], flight := [] }
def haltWalker (a : Nat) : Plan := modWalkerOf a Walker.halted

/-- A walker fault (R280), recorded by the walker and charged to its owner. -/
def walkFault (sub addr : Nat) : Plan :=
  .get fun s =>
    .both (engineFault 7 s.site.arr s.me.tid 0x60 sub addr) (haltWalker s.site.arr)

/-- The instruction completes and the next begins a tick later; the one at PLEN - 1 runs off the end (R270, R279). -/
def walkNext : Plan :=
  .get fun s =>
    if s.walker.pc + 1 < s.walker.plen then .both (modWalker fun w => { w with pc := w.pc + 1, need := [], got := [], res := none }) (walkAfter 1 true)
    else .both (modWalker fun w => { w with offend := true, res := none }) (walkFault 2 s.walker.plen)

/-- A scalar or control instruction of one tick (R270). -/
def walkOne (eff : Plan) : Plan := .both eff walkNext

/-- A branch (R270). -/
def walkTo (t : BitVec 8) : Plan := .both (modWalker fun w => { w with pc := t.toNat }) (walkAfter 1 true)

/-- The window offset an instruction names (R270). -/
def walkAddr (s : State) (a : BitVec 4) (i : BitVec 12) : Nat := (s.g a + i.signExtend 32).toNat

/-- A line the walker presents to the data port at rank 4 (R225, R271). -/
def walkLineReq (s : State) (off : Nat) (use : LineUse) : LineReq :=
  { arr := s.site.arr, rank := 4, order := s.uid, addr := s.myWin off, presented := s.tick, part := s.me.part, tag := s.me.tag.toNat, use }
def walkPresent (off : Nat) (lb : Bool) : Plan :=
  .get fun s => withUid fun _ => presentLine (towerOf s.site.arr) (walkLineReq s off (.walkRead s.site.arr off s.walker.epoch lb))

/-- The lines that hold `n` bytes from an offset. -/
def linesOf (off n : Nat) : List Nat := if n = 0 then [] else (List.range ((off + n - 1) / 64 - off / 64 + 1)).map fun i => (off / 64 + i) * 64

/-- The bytes of the lines an instruction has got. -/
def gotBytes (w : Walker) (off n : Nat) : List Byte :=
  (List.range n).map fun i => ((w.got.find? fun l => l.1 == (off + i) / 64 * 64).map fun l => l.2.getD ((off + i) % 64) 0).getD 0

/-- A read of `n` bytes: at its begin tick it is checked, lines in LBUF hit, the others are read; it completes `extra` + 1 ticks after the last delivery, or
after its begin tick (R271, R279). -/
def walkRead (lb : Bool) (off n align extra : Nat) (eff : List Byte → Plan) : Plan :=
  .get fun s =>
    if !s.site.issue then .both (eff (gotBytes s.walker off n)) walkNext
    else if 0 < n ∧ off % align ≠ 0 then walkFault 3 off
    else if 0 < n && !s.inMyWin off n then walkFault 4 off
    else
      let w := s.walker
      let lines := linesOf off n
      let hits := if lb then w.lbuf.filter fun l => lines.contains l.1 else []
      let miss := lines.filter fun l => !(hits.any fun h => h.1 == l)
      let fresh := miss.filter fun l => !(lb && w.flight.contains l)
      Plan.all
        [ modWalker fun w => { w with got := hits, need := miss, needLb := lb, extra, flight := if lb then w.flight ++ fresh else w.flight },
          Plan.each fresh fun l => walkPresent l lb,
          Plan.when miss.isEmpty (walkAfter (1 + extra) false) ]

/-- A line delivered to the walker: it enters LBUF in place of the earliest, and the instruction that awaits it goes on with its last (R271). -/
def walkLinePlan (a off epoch : Nat) (lb : Bool) (data : List Byte) : Plan :=
  .get fun s =>
    let w := (s.arr a).walker
    if w.epoch ≠ epoch then .skip
    else
      let mine := w.needLb == lb && w.need.contains off
      .both
        (modWalkerOf a fun w =>
          { w with lbuf := if lb then (w.lbuf ++ [(off, data)]).drop (w.lbuf.length + 1 - 16) else w.lbuf, flight := if lb then w.flight.filter (· != off) else w.flight,
                   got := if mine then w.got ++ [(off, data)] else w.got, need := if mine then w.need.filter (· != off) else w.need })
        (Plan.when (mine && w.need.length == 1) (walkAfter (1 + w.extra) false))

/-! ## Starting (R259, R261) -/

def walkStartCheck (xa : BitVec 5) (s : State) : Option Chk :=
  match postCheck xa s with
  | some f => some f
  | none => if s.walker.owner == some s.site.ctx then some { code := 0x60, sub := 6, addr := (s.x xa).toNat } else none

def walkStartStall (xa : BitVec 5) (s : State) : Option StallCause :=
  if (postCheck xa s).isNone && (s.walker.owner.isSome && s.walker.owner != some s.site.ctx) then some .queue else none

def execWalkStart (g : Guard) (xa : BitVec 5) : State → Host.Outcome State Fault Refusal :=
  (atIssue g (walkStartStall xa) (walkStartCheck xa) (.get fun s =>
    let e := s.walker.epoch + 1
    .both (modWalker fun w => { w with owner := some s.site.ctx, running := false, loading := true, ended := false, clamp := false, nemit := 0, epoch := e, startN := s.site.n })
      (after 16 rankPortRead (.micro (.walkRecord s.site.arr (s.x xa).toNat s.me.tid e))))).step

/-- A fault as the program is read: the walker is Free again. The record's PC names the faulting instruction; a bad record has none, and PC is 0 (log 10). -/
def walkLoadFault (a tid sub addr pc : Nat) : Plan :=
  .get fun s =>
    let x := s.site
    .both (taskFault a x.ctx tid { kind := 7, unit := a, ctx := x.ctx, code := 0x60, sub, addr, seq := x.n, pos := pc }) (freeWalker a)

/-- A read of the control port for the walker of an array (R228). -/
def walkPortRead (a tid addr n : Nat) : Plan :=
  .get fun s => scratchRead addr n (taskFault a s.site.ctx tid { kind := 7, unit := a, ctx := s.site.ctx, code := 0x44, addr := noAddr, seq := s.site.n })

/-- The walk record read (R259, R261 step 4). -/
def walkRecordPlan (a off tid epoch : Nat) : Plan :=
  .get fun s =>
    let p := s.me.part
    let b := s.bytes .scratch (s.winAddr (towerOf a) p off) 64
    let prog := fieldAt b 0 4
    let plen := fieldAt b 4 2
    if (s.arr a).walker.epoch ≠ epoch then .skip
    else .both (walkPortRead a tid (s.winAddr (towerOf a) p off) 64) <|
    if prog % 64 = 0 ∧ 1 ≤ plen ∧ plen ≤ 256 ∧ fieldAt b 6 2 = 0 ∧ s.inWin (towerOf a) p prog (4 * plen) then
      .both (modWalkerOf a fun w => { w with pstore := [] })
        (after 1 rankPortRead (.micro (.walkProgram a 0 prog tid epoch plen ((List.range 14).map fun i => BitVec.ofNat 32 (fieldAt b (8 + 4 * i) 4)))))
    else walkLoadFault a tid 0 off 0

/-- The target of a walker branch. -/
def walkTarget : Instr → Option Nat
  | .wBCond _ _ _ t => some t.toNat
  | .wB t => some t.toNat
  | .wDloop _ t => some t.toNat
  | _ => none

/-- A word that may stand in a program of `plen` instructions (R269). -/
def walkLegal (plen : Nat) (w : Lane) : Bool :=
  match decodeW w with
  | some i => (match walkTarget i with
    | some t => decide (t < plen)
    | none => true)
  | none => false

/-- The program validated, and instruction 0 at once (R261). -/
def walkBeginPlan (a tid epoch plen : Nat) (gs : List Lane) : Plan :=
  .get fun s =>
    let w := (s.arr a).walker
    if w.epoch ≠ epoch then .skip
    else
      match (List.range plen).find? fun i => !walkLegal plen (smGet 0 w.pstore i) with
      | some i => walkLoadFault a tid 1 i i
      | none =>
        let held := engineHeld s s.me.part 7 a
        .both (modWalkerOf a fun w =>
            { owner := w.owner, running := !held, g := gs.zipIdx.map fun (v, i) => (i + 1, v), plen, pstore := w.pstore, feed := w.feed, feedRes := w.feedRes, epoch := w.epoch, startN := w.startN })
          (Plan.when (!held) (walkAfter 0 true))

/-- Program line `m` read; after the last, one step more validates the program and begins it, or faults (R261 steps 5 and 6). -/
def walkProgramPlan (a m prog tid epoch plen : Nat) (gs : List Lane) : Plan :=
  .get fun s =>
    let w := (s.arr a).walker
    let count := min 16 (plen - 16 * m)
    let base := s.winAddr (towerOf a) s.me.part (prog + 64 * m)
    let words := (List.range count).map fun i => BitVec.ofNat 32 (s.number .scratch (base + 4 * i) 4)
    if w.epoch ≠ epoch then .skip
    else if plen ≤ 16 * m then walkBeginPlan a tid epoch plen gs
    else .both (walkPortRead a tid base (4 * count)) <|
      .both (modWalkerOf a fun w => { w with pstore := (List.range count).foldl (fun m' i => smSet m' (16 * m + i) (words.getD i 0)) w.pstore })
        (if 16 * (m + 1) < plen then after 1 rankPortRead (.micro (.walkProgram a (m + 1) prog tid epoch plen gs))
         else after 1 rankWalk (.micro (.walkProgram a (m + 1) prog tid epoch plen gs)))

/-! ## Stopping (R262, R263) -/

/-- What an instruction in progress had reserved is given back: it takes effect whole or not at all (R263). -/
def abandonWalk (a : Nat) : Plan :=
  .get fun s =>
    let w := (s.arr a).walker
    match w.res, w.owner with
    | some (q, stamp, prod), some k =>
      .both (Plan.when (((s.ctx a k).qwState q).stamp == stamp)
          (modQ a k q fun v => if prod then { v with pr := (v.pr + 8191) % 8192, ops := v.ops - 1 } else { v with cr := (v.cr + 8191) % 8192, ops := v.ops - 1 }))
        (modWalkerOf a fun w => { w with res := none })
    | _, _ => .skip

def walkStatus (w : Walker) : Nat :=
  (w.reg 1).toNat * 2 ^ 32 + w.nemit % 65536 * 65536 + (if w.clamp then 4 else 0) + (if w.ended then 2 else 0) + 1

def walkStopPlan (xa : BitVec 5) : Plan :=
  .get fun s =>
    if s.walker.owner == some s.site.ctx then
      Plan.all [ putXE 2 xa (BitVec.ofNat 64 (walkStatus s.walker)), abandonWalk s.site.arr, freeWalker s.site.arr ]
    else putXE 2 xa 0

def walkStopStall (s : State) : Option StallCause := if s.walker.owner == some s.site.ctx && !s.walker.ended then some .queue else none

def execWalkStop (g : Guard) (xa : BitVec 5) : State → Host.Outcome State Fault Refusal := (atIssueAlways g (walkStopPlan xa)).step
def execWalkStopW (g : Guard) (xa : BitVec 5) : State → Host.Outcome State Fault Refusal := (atIssue g walkStopStall noCheck (walkStopPlan xa)).step

/-! ## Scalar and control instructions (R270) -/

def execWNop : State → Host.Outcome State Fault Refusal := (walkOne .skip).step
def execWLi (d : BitVec 4) (i : BitVec 18) : State → Host.Outcome State Fault Refusal := (walkOne (putG d (i.signExtend 32))).step
def execWLih (d : BitVec 4) (i : BitVec 14) : State → Host.Outcome State Fault Refusal :=
  (walkOne (.get fun s => putG d (i ++ (s.g d).setWidth 18))).step
def execWAdd (d a b : BitVec 4) : State → Host.Outcome State Fault Refusal := (walkOne (.get fun s => putG d (s.g a + s.g b))).step
def execWAddi (d a : BitVec 4) (i : BitVec 12) : State → Host.Outcome State Fault Refusal :=
  (walkOne (.get fun s => putG d (s.g a + i.signExtend 32))).step
def execWSub (d a b : BitVec 4) : State → Host.Outcome State Fault Refusal := (walkOne (.get fun s => putG d (s.g a - s.g b))).step
def execWAnd (d a b : BitVec 4) : State → Host.Outcome State Fault Refusal := (walkOne (.get fun s => putG d (s.g a &&& s.g b))).step
def execWShl (d a : BitVec 4) (n : BitVec 5) : State → Host.Outcome State Fault Refusal := (walkOne (.get fun s => putG d (s.g a <<< n.toNat))).step
def execWShr (d a : BitVec 4) (n : BitVec 5) : State → Host.Outcome State Fault Refusal := (walkOne (.get fun s => putG d (s.g a >>> n.toNat))).step

def walkCond (c : BitVec 2) (a b : Lane) : Bool :=
  match c.toNat with
  | 0 => a == b
  | 1 => a != b
  | 2 => decide (a.toNat < b.toNat)
  | _ => decide (b.toNat ≤ a.toNat)

def execWBCond (c : BitVec 2) (a b : BitVec 4) (t : BitVec 8) : State → Host.Outcome State Fault Refusal :=
  (Plan.get fun s => if walkCond c (s.g a) (s.g b) then walkTo t else walkNext).step
def execWB (t : BitVec 8) : State → Host.Outcome State Fault Refusal := (walkTo t).step
def execWDloop (a : BitVec 4) (t : BitVec 8) : State → Host.Outcome State Fault Refusal :=
  (Plan.get fun s => .both (putG a (s.g a - 1)) (if s.g a - 1 = 0 then walkNext else walkTo t)).step

/-! ## Loads and prefetch (R271, R272) -/

def execWLdW (d a : BitVec 4) (i : BitVec 12) : State → Host.Outcome State Fault Refusal :=
  (Plan.get fun s => walkRead true (walkAddr s a i) 4 4 0 fun bs => putG d (BitVec.ofNat 32 (leNat bs))).step
def execWLdH (d a : BitVec 4) (i : BitVec 12) : State → Host.Outcome State Fault Refusal :=
  (Plan.get fun s => walkRead true (walkAddr s a i) 2 2 0 fun bs => putG d (BitVec.ofNat 32 (leNat bs))).step

def execWPf (a : BitVec 4) (i : BitVec 12) : State → Host.Outcome State Fault Refusal :=
  (walkOne (.get fun s =>
    let off := walkAddr s a i / 64 * 64
    let w := s.walker
    Plan.when (s.inMyWin (walkAddr s a i) 1 && !(w.lbuf.any fun l => l.1 == off) && !w.flight.contains off)
      (.both (walkPresent off true) (modWalker fun w => { w with flight := w.flight ++ [off] })))).step

/-- A word the walker's queue instructions may use. -/
def walkWordOk (s : State) (k : BitVec 4) (eszs : List Nat) : Bool :=
  s.fit k.toNat && qwKind (s.me.qword k.toNat s.site.n) == 3 && eszs.contains (qwEsz (s.me.qword k.toNat s.site.n))

/-- The site of a walker's step sees its owner's words as they stand. -/
def asOfNow (f : State → Plan) : Plan := .get fun s => f { s with site := { s.site with n := s.me.ctime } }

/-- `qpop`: waits for an element, reserves it, reads it at once, and completes with CP's advance (R272). -/
def execWQpop (d k : BitVec 4) : State → Host.Outcome State Fault Refusal :=
  (asOfNow fun s =>
    let q := s.me.qwState k.toNat
    let wide := qwEsz q.word == 1
    if !s.site.issue then
      match s.walker.res with
      | some (kk, stamp, _) =>
        let w := s.walker
        let bs := gotBytes w w.pop (if wide then 8 else 4)
        Plan.all
          [ putG d (BitVec.ofNat 32 (leNat bs)), Plan.when wide (putG (d + 1) (BitVec.ofNat 32 (leNat bs / 2 ^ 32))),
            engineAdvance s.site.arr s.site.ctx s.me.tid kk stamp false true 1, walkNext ]
      | none => .skip
    else if !walkWordOk s k [0, 1] || (wide && d == 15) then walkFault 7 k.toNat
    else if q.fill = 0 then walkAfter 1 true
    else
      let off := qwElem q.word q.cr
      Plan.all
        [ modQ s.site.arr s.site.ctx k.toNat (QW.takeIn 1),
          modWalker fun w => { w with res := some (k.toNat, q.stamp, false), need := [off / 64 * 64], needLb := false, got := [], extra := 0, pop := off },
          walkPresent (off / 64 * 64) false ]).step

/-! ## Pushing records (R273) -/

def feedFull (w : Walker) : Bool := decide (16 ≤ w.feed.length)

/-- A record pushed. -/
def pushRecord (data : List Byte) (rv : Lane) : Plan :=
  modWalker fun w => { w with feed := w.feed ++ [data ++ natBytes 4 rv.toNat], nemit := (w.nemit + 1) % 65536 }

def execWEmit (a b : BitVec 4) (i : BitVec 12) : State → Host.Outcome State Fault Refusal :=
  (Plan.get fun s =>
    if s.site.issue && feedFull s.walker then walkAfter 1 true
    else walkRead false (walkAddr s a i) 512 512 0 fun bs => pushRecord bs (s.g b)).step

def execWEmitS (b : BitVec 4) (c : BitVec 1) : State → Host.Outcome State Fault Refusal :=
  (Plan.get fun s =>
    if feedFull s.walker then walkAfter 1 true
    else walkOne (.both (pushRecord s.walker.stgAll (s.g b)) (Plan.when (c == 1) (modWalker fun w => { w with stg := [] })))).step

/-- One record of an `emitz`: it waits while the feed is full, even with none to push; a record is pushed when there is room, and the `emitz` completes with its last (R263, R273, R279). -/
def emitzPush (a : BitVec 4) : Plan :=
  .get fun s =>
    let w := s.walker
    let m := (s.g a).toNat
    let again := fun k => afterAt k rankWalk { s.site with issue := true, a := a.toNat, c := w.epoch } (.instr .emitzRecordPush)
    if feedFull w then again 1
    else if m ≤ w.ecnt then .both (modWalker fun w => { w with ecnt := 0 }) walkNext
    else if w.ecnt + 1 = m then Plan.all [ pushRecord (List.replicate 512 0) 0, modWalker (fun w => { w with ecnt := 0 }), walkNext ]
    else Plan.all [ pushRecord (List.replicate 512 0) 0, modWalker (fun w => { w with ecnt := w.ecnt + 1 }), again 1 ]

def execWEmitz (a : BitVec 4) : State → Host.Outcome State Fault Refusal := (emitzPush a).step
/-- EMITZ_RECORD_PUSH (R263). -/
def execEmitzRecordPush : State → Host.Outcome State Fault Refusal :=
  (Plan.get fun s => Plan.when (s.walker.running && s.walker.epoch == s.site.c) (emitzPush (BitVec.ofNat 4 s.site.a))).step

/-! ## The comparator (R274) -/

def coords (bs : List Byte) : List Nat := (List.range 16).map fun i => fieldAt bs (2 * i) 2

def execWCwinA (a b : BitVec 4) (l : BitVec 1) (i : BitVec 12) : State → Host.Outcome State Fault Refusal :=
  (Plan.get fun s => walkRead true (walkAddr s a i) 32 32 0 fun bs =>
    modWalker fun w => { w with cwa := coords bs, nwa := min (s.g b).toNat 16, lwa := l == 1 }).step
def execWCwinB (a b : BitVec 4) (l : BitVec 1) (i : BitVec 12) : State → Host.Outcome State Fault Refusal :=
  (Plan.get fun s => walkRead true (walkAddr s a i) 32 32 0 fun bs =>
    modWalker fun w => { w with cwb := coords bs, nwb := min (s.g b).toNat 16, lwb := l == 1 }).step

/-- One more than the largest valid coordinate of a window, 0 for an empty one. -/
def lastPlus (cw : List Nat) (nw : Nat) : Nat := ((List.range nw).map fun i => cw.getD i 0 + 1).foldl max 0

/-- One more than M. -/
def matchBound (w : Walker) : Nat :=
  if w.lwa && w.lwb then 65536
  else min (if w.lwa then 65536 else lastPlus w.cwa w.nwa) (if w.lwb then 65536 else lastPlus w.cwb w.nwb)

def consumed (cw : List Nat) (nw m : Nat) : List Nat := (List.range 16).filter fun i => decide (i < nw) && decide (cw.getD i 0 < m)

/-- The match masks and consumed counts set, as all three comparisons set them. -/
def compareWindows (w : Walker) : Walker :=
  let m := matchBound w
  let ia := consumed w.cwa w.nwa m
  let ib := consumed w.cwb w.nwb m
  let hit := fun (xs : List Nat) (cx : List Nat) (ys : List Nat) (cy : List Nat) =>
    (xs.filter fun i => ys.any fun j => cy.getD j 0 == cx.getD i 0).foldl (fun n i => n + 2 ^ i) 0
  { w with ma := BitVec.ofNat 16 (hit ia w.cwa ib w.cwb), mb := BitVec.ofNat 16 (hit ib w.cwb ia w.cwa), cna := ia.length, cnb := ib.length }

def insertNat (v : Nat) : List Nat → List Nat
  | [] => [v]
  | x :: xs => if v ≤ x then v :: x :: xs else x :: insertNat v xs

/-- The consumed coordinates of both windows, ascending. -/
def consumedValues (w : Walker) : List Nat :=
  let m := matchBound w
  (((consumed w.cwa w.nwa m).map fun i => w.cwa.getD i 0) ++ (consumed w.cwb w.nwb m).map fun i => w.cwb.getD i 0).foldr insertNat []

/-- STG bytes 0-63 from a list of coordinates, unused halfwords 0xFFFF. -/
def putCoords (vs : List Nat) (w : Walker) : Walker := w.putStg 0 ((List.range 32).flatMap fun i => natBytes 2 (vs.getD i 0xFFFF))

def countBits (n k : Nat) : Nat := ((List.range k).filter fun i => n.testBit i).length

def execWIsect (d : BitVec 4) : State → Host.Outcome State Fault Refusal :=
  (walkOne (modWalker fun w => let w := compareWindows w; w.setReg d (BitVec.ofNat 32 (countBits w.ma.toNat 16)))).step
def execWUnion (d : BitVec 4) : State → Host.Outcome State Fault Refusal :=
  (walkOne (modWalker fun w =>
    let vs := (consumedValues w).eraseDups
    (putCoords vs (compareWindows w)).setReg d (BitVec.ofNat 32 vs.length))).step
def execWMerge (d : BitVec 4) : State → Host.Outcome State Fault Refusal :=
  (walkOne (modWalker fun w =>
    let vs := consumedValues w
    (putCoords vs (compareWindows w)).setReg d (BitVec.ofNat 32 vs.length))).step

/-! ## Slices and selection (R275, R276) -/

/-- The bytes of an element of an `nzc` format. -/
def nzcBytes (f : BitVec 4) : Nat :=
  match f.toNat with
  | 0 => 4
  | 1 => 2
  | 2 => 4
  | 3 => 2
  | _ => 1

/-- An element is nonzero (R130). -/
def nzcTest (f : BitVec 4) (v : Nat) : Bool :=
  match f.toNat with
  | 0 => v % 2 ^ 31 != 0
  | 1 => v % 2 ^ 15 != 0
  | 5 => ps8Value v != 0
  | _ => v != 0

def execWNzc (d a f : BitVec 4) (i : BitVec 12) : State → Host.Outcome State Fault Refusal :=
  (Plan.get fun s => walkRead true (walkAddr s a i) 32 32 0 fun bs =>
    let z := nzcBytes f
    let es := (List.range (32 / z)).filter fun e => nzcTest f (fieldAt bs (z * e) z)
    .both (modWalker fun w => { w with bm := BitVec.ofNat 32 (es.foldl (fun n e => n + 2 ^ e) 0) }) (putG d (BitVec.ofNat 32 es.length))).step

/-- The packed elements put where the bits of a mask stand. -/
def expandBits (mask z : Nat) (bs : List Byte) : List Byte :=
  (List.range (32 / z)).flatMap fun e => if mask.testBit e then (bs.drop (z * countBits mask e)).take z else List.replicate z 0

def execWBexp (sl a b : BitVec 4) (z : BitVec 2) (i : BitVec 12) : State → Host.Outcome State Fault Refusal :=
  (Plan.get fun s =>
    let n := 2 ^ z.toNat
    let mask := (s.g b).toNat % 2 ^ (32 / n)
    walkRead true (walkAddr s a i) (countBits mask 32 * n) n 0 fun bs => modWalker fun w => w.putStg (32 * sl.toNat) (expandBits mask n bs)).step

/-- The rank of a candidate of `topk`, NaNs below every number. -/
def topKey (mag : Bool) (v : Nat) : Int :=
  if f32IsNan v then -(2 ^ 40 : Nat) else if mag then ((v % 2 ^ 31 : Nat) : Int) else f32Ord v

/-- Candidates from the highest, ties to the lower index: each comes after those it does not exceed. -/
def insertTop (mag : Bool) (e : Nat × Nat) : List (Nat × Nat) → List (Nat × Nat)
  | [] => [e]
  | f :: rest => if topKey mag f.2 < topKey mag e.2 then e :: f :: rest else f :: insertTop mag e rest

def execWTopk (d a b : BitVec 4) (m : BitVec 1) (i : BitVec 12) : State → Host.Outcome State Fault Refusal :=
  (Plan.get fun s =>
    let n := (s.g b).toNat % 65536
    let k0 := (s.g b).toNat / 65536
    walkRead true (walkAddr s a i) (4 * n) 64 ((n + 15) / 16) fun bs =>
      let beyond := decide (n < k0) || decide (64 < k0)
      let k := if beyond then min n 64 else k0
      let cand := (List.range n).filterMap fun j =>
        let v := fieldAt bs (4 * j) 4
        if v % 2 ^ 31 = 0 then none else some (j, v)
      let top := cand.foldl (fun l e => (insertTop (m == 1) e l).take 64) []
      let entry := fun j => if k ≤ j then (0, 0) else top.getD j (0xFFFFFFFF, 0)
      .both (modWalker fun w => { w.putStg 0 ((List.range 64).flatMap fun j => natBytes 4 (entry j).1 ++ natBytes 4 (entry j).2) with clamp := w.clamp || beyond })
        (putG d (BitVec.ofNat 32 (min k cand.length)))).step

/-! ## Status, pushing to a queue, the end (R277, R278) -/

def walkStat (w : Walker) (sel : BitVec 3) : Nat :=
  match sel.toNat with
  | 0 => w.ma.toNat
  | 1 => w.mb.toNat
  | 2 => w.cna
  | 3 => w.cnb
  | 4 => w.bm.toNat
  | 5 => w.feed.length
  | _ => w.nemit

def execWRds (d : BitVec 4) (sel : BitVec 3) : State → Host.Outcome State Fault Refusal :=
  (walkOne (.get fun s => putG d (BitVec.ofNat 32 (walkStat s.walker sel)))).step

/-- `qpush`: waits for room, reserves a position, presents its eight line writes at once, and completes with PP's advance (R278). -/
def execWQpush (k : BitVec 4) : State → Host.Outcome State Fault Refusal :=
  (asOfNow fun s =>
    let q := s.me.qwState k.toNat
    if !s.site.issue then
      match s.walker.res with
      | some (kk, stamp, _) => .both (engineAdvance s.site.arr s.site.ctx s.me.tid kk stamp true true 1) walkNext
      | none => .skip
    else if !walkWordOk s k [4] then walkFault 7 k.toNat
    else if q.room = 0 then walkAfter 1 true
    else
      let off := qwElem q.word q.pr
      let data := s.walker.stgAll
      Plan.all
        [ modQ s.site.arr s.site.ctx k.toNat (QW.takeOut 1),
          modWalker fun w => { w with res := some (k.toNat, q.stamp, true), need := List.range 8, needLb := false, got := [], extra := 0 },
          Plan.each (List.range 8) fun m => .get fun s => withUid fun _ =>
            presentLine (towerOf s.site.arr)
              (walkLineReq s (off + 64 * m) (.walkWrite s.site.arr m s.walker.epoch ((data.drop (64 * m)).take 64))) ]).step

/-- A line write of a `qpush` has performed. -/
def walkWrotePlan (a m epoch : Nat) : Plan :=
  .get fun s =>
    let w := (s.arr a).walker
    Plan.when (w.epoch == epoch) <|
      .both (modWalkerOf a fun w => { w with need := w.need.filter (· != m) }) (Plan.when (w.need == [m]) (walkAfter 1 false))

/-- `wend` (R278). -/
def execWWend : State → Host.Outcome State Fault Refusal := (modWalker fun w => { w with ended := true, running := false }).step

end Sys2Proof.Machine
end

