-- ==== Sys2Proof/Machine/Requests.lean ====
section
/-! DEFINITION. Off-domain requests (R248, R282-R292, R312, R318): how one is translated, ordered, accepted by its tower's egress, delivered to its point of
coherence, performed there and confirmed. The delays between are free values (log 4). -/

namespace Sys2Proof.Machine

def State.req? (s : State) (uid : Nat) : Option Req := s.reqs.find? fun r => r.uid == uid
def modReq (uid : Nat) (f : Req → Req) : Plan := .get fun s => .edit (.reqs (s.reqs.map fun r => if r.uid == uid then f r else r))
def endReq (uid : Nat) : Plan := .get fun s => .edit (.reqs (s.reqs.filter fun r => r.uid != uid))
def addReq (r : Req) : Plan := .get fun s => .edit (.reqs (s.reqs ++ [r]))

def Req.site (r : Req) : Site := { arr := r.arr, ctx := r.ctx, n := r.n, a := r.uid }
/-- An act for a request after a free delay; a data-class request's delays leave it room to end by E_k, which its `arg` holds (R295). -/
def reqLater (r : Req) (rank : Nat) (act : Act) : Plan :=
  .get fun s =>
    let bound := match r.kind with
      | .exchRead | .exchWrite => (r.arg - s.now) / 16
      | _ => Config.offDomainBound
    withFree (min bound Config.offDomainBound) fun d => afterAt (1 + d) rank r.site act
def reqSoon (k : Nat) (r : Req) (rank : Nat) (act : Act) : Plan := afterAt k rank r.site act

/-! ## Request slots (R248) -/

def Req.needsSlot (r : Req) : Bool :=
  match r.kind with
  | .gather | .scatter | .atom | .message => true
  | _ => false

def slotsFree (s : State) (a : Nat) : Nat := 8192 - (s.reqs.filter fun r => r.arr == a && r.slot).length
/-- Requests made again that wait for a slot: no new operation goes before them. -/
def slotWaiters (s : State) (a : Nat) : List Req := s.reqs.filter fun r => r.arr == a && r.needsSlot && !r.slot && !r.dropped
def slotsFor (s : State) (a n : Nat) : Bool := decide (n ≤ slotsFree s a) && (slotWaiters s a).isEmpty

/-! ## Translating a request (R303, R312, R313, R316) -/

def Req.access (r : Req) : Access :=
  match r.kind with
  | .gather | .copyRead => .read
  | .scatter | .copyWrite => .write
  | .atom => if r.fetch then .atomFetch else .atom
  | _ => .none

/-- What a tower knows of an address without a walk. -/
inductive Look where
  | done (x : Except (Nat × Nat) Xlat)
  | walk

/-- The pin of a page of the table that a stream's element translates from (R316); a range entry that hits goes before it (R303). -/
def findPin (s : State) (t p a tid j va : Nat) : Option Pin :=
  (s.tower t).pins.find? fun e => e.part == p && e.walked && e.holders.contains (pinHolder a tid, j) && decide (e.page ≤ va) && decide (va < e.page + e.size)

def lookup (s : State) (r : Req) (va : Nat) : Look :=
  let t := towerOf r.arr
  let v := s.part r.part
  if 2 ^ 56 ≤ va then .done (.error (0x20, 0x10))
  else
    match rangeHit v va with
    | some _ => .done (permitted r.access (translate s r.part va r.size))
    | none =>
      match (if r.kind = .gather ∨ r.kind = .scatter then findPin s t r.part r.arr r.tid r.j va else none) with
      | some e => .done (permitted r.access (checkPhys v r.size (pinXlat e va)))
      | none =>
        if !ptEnabled v then .done (.error (0x20, 0))
        else match cachedPage s t r.part va with
          | some e => .done (permitted r.access (checkPhys v r.size (pinXlat e va)))
          | none => .walk

/-- Walks in progress in a tower: partition and 4 KiB page. -/
def walksOf (s : State) (t : Nat) : List (Nat × Nat) :=
  (s.reqs.filterMap fun r => match r.target with
    | .virt va => if r.walking && towerOf r.arr == t then some (r.part, va / 4096) else none
    | _ => none).eraseDups

/-! ## Descriptors (R238) -/

def dsSrc (b : List Byte) : Nat := fieldAt b 0 8
def dsDst (b : List Byte) : Nat := fieldAt b 8 8
def dsLen (b : List Byte) : Nat := fieldAt b 16 4
def dsLines (b : List Byte) : Nat := dsLen b / 64
def dsSsp (b : List Byte) : Bool := (fieldAt b 20 1).testBit 0
def dsDsp (b : List Byte) : Bool := (fieldAt b 20 1).testBit 1
def dsCache (b : List Byte) : Bool := (fieldAt b 20 1).testBit 2
def dsSrcTower (b : List Byte) : Nat := fieldAt b 21 1 % 8
def dsDstTower (b : List Byte) : Nat := fieldAt b 21 1 / 16 % 8
def dsFollow (b : List Byte) : Nat := fieldAt b 22 1 % 4
def dsForm (b : List Byte) : Nat := fieldAt b 22 1 / 4 % 4
def dsFarr (b : List Byte) : Nat := fieldAt b 23 1
def dsBoen (b : List Byte) : Bool := (fieldAt b 24 4).testBit 0
def dsBo (b : List Byte) : Nat := fieldAt b 24 4 / 32 * 32
def dsFrec (b : List Byte) : Nat := fieldAt b 28 4

/-- Image bytes of a form: PS8, I8, BF16 (R242). -/
def formBytes (form : Nat) : Nat := if form = 0 then 1024 else if form = 1 then 512 else 256

/-- Both sides lie in the firing tower's window. -/
def dsInTower (b : List Byte) (t : Nat) : Bool := !dsSsp b && !dsDsp b && dsSrcTower b == t && dsDstTower b == t

/-! ## Command words (R329) -/

def cwCmd (w : BitVec 64) : Nat := (w.extractLsb' 60 4).toNat
def cwSkip (w : BitVec 64) : Nat := (w.extractLsb' 51 9).toNat
def cwCh (w : BitVec 64) : Nat := (w.extractLsb' 46 5).toNat
def cwPch (w : BitVec 64) : Nat := (w.extractLsb' 45 1).toNat
def cwBank (w : BitVec 64) : Nat := (w.extractLsb' 41 4).toNat
def cwRow (w : BitVec 64) : Nat := (w.extractLsb' 25 16).toNat
def cwCol (w : BitVec 64) : Nat := (w.extractLsb' 21 4).toNat
/-- The pseudo-channel index. -/
def cwPc (w : BitVec 64) : Nat := cwCh w * 2 + cwPch w
def cwIsRead (w : BitVec 64) : Bool := cwCmd w == 3 || cwCmd w == 4
def cwIsWrite (w : BitVec 64) : Bool := cwCmd w == 5 || cwCmd w == 6
def cwIsCol (w : BitVec 64) : Bool := cwIsRead w || cwIsWrite w

/-! ## Where requests meet -/

/-- Bytes of a memory: the space, the first byte, how many. -/
structure Span where
  sp : Space
  at' : Nat
  size : Nat
  deriving DecidableEq, Repr

def Span.meets (x y : Span) : Bool := x.sp == y.sp && decide (x.at' < y.at' + y.size) && decide (y.at' < x.at' + x.size)
def spansMeet (xs ys : List Span) : Bool := xs.any fun x => ys.any x.meets

/-- The bytes a request touches; none while they are not known. A message to an inbox may take any of its slots until it is delivered. -/
def reqSpans (s : State) (r : Req) : Option (List Span) :=
  match r.target with
  | .unknown | .virt _ => none
  | .window t p off =>
    let inbox := smGet {} (s.part p).inboxes r.p
    if r.kind = .message ∧ (r.stage = .fired ∨ r.stage = .accepted) then some [⟨.scratch, s.winAddr t p inbox.off, 64 * 2 ^ inbox.ldepth⟩]
    else some [⟨.scratch, s.winAddr t p off, r.size⟩]
  | .phys pa => some [⟨(physAt s r.part pa).1, (physAt s r.part pa).2, r.size⟩]
  | .package .. => some []

/-- A request that goes, or may go, where an address is a virtual one. -/
def Req.mayBeVirt (r : Req) : Bool :=
  match r.target with
  | .window .. | .package .. => false
  | _ => true

/-- Two requests touch a common byte, or may: one whose address is not translated yet may touch any byte that has a virtual address (R287, R312). -/
def reqsMeet (s : State) (q r : Req) : Bool :=
  match reqSpans s q, reqSpans s r with
  | some xs, some ys => spansMeet xs ys
  | none, _ => q.target == .unknown || r.mayBeVirt
  | _, none => r.target == .unknown || q.mayBeVirt

/-- The point of coherence a request goes to, as a number (R285): a tower's data port, a pseudo-channel's memory port, a deep-tier port, the host, a package. -/
def reqPoint (s : State) (r : Req) : Nat :=
  match r.target with
  | .window t _ _ => t
  | .phys pa =>
    if isHbm pa then let c := coordOf s r.part pa; 16 + c.stack * 64 + c.pc else if isDeep pa then 1024 + (pa - 2 ^ 40) / 2 ^ 38 else 2048
  | .package k _ _ _ => 4096 + k
  | _ => 8192

def Stage.rank : Stage → Nat
  | .fired => 0
  | .accepted => 1
  | .arrived => 2
  | .performed => 3
  | .acked => 4

/-! ## Order (R287, R290-R292) -/

/-- A request that goes before another of its context in the order of bundles and, in one bundle, of positions. -/
def reqBefore (q r : Req) : Bool :=
  q.arr == r.arr && q.ctx == r.ctx && q.tid == r.tid && (decide (q.n < r.n) || (q.n == r.n && decide (q.uid < r.uid)))

/-- A request has performed at a fence's scope: 0 dom, 1 pkg, 2 sys (R290). The read of an exchange stands until its write does; an atom that fetches reads as well as writes. -/
def doneAtScope (scope : Nat) (q : Req) : Bool :=
  let k := q.stage.rank
  if q.kind = .exchRead then false
  else if (!q.write && q.kind ≠ .message) || (q.kind = .atom && q.fetch && k < 3) then decide (3 ≤ k)
  else
    match q.target with
    | .window t _ _ => decide ((if scope = 0 ∧ t ≠ towerOf q.arr then 1 else 3) ≤ k)
    | .phys pa => decide ((if scope = 0 then 1 else if isHost pa then (if scope = 1 then 2 else 4) else 3) ≤ k)
    | .package .. => decide ((if scope = 0 then 1 else if scope = 1 then 2 else 4) ≤ k)
    | _ => false

/-- Operations of a task of bundles before `n` whose records are still to be read: copies, prefetches, memory programs, and with `exch` exchanges. -/
def unreadOps (s : State) (a tid n : Nat) (exch : Bool) : Bool :=
  s.due.any fun d => decide (d.site.n < n) && (match d.act with
    | .micro (.descRead _ b t _ _) => b == a && t == tid
    | .micro (.mpRecord b _ t _) => b == a && t == tid
    | .micro (.xchRead b _) => exch && b == a && d.site.a == tid
    | _ => false)

/-- Descriptors of a task of bundles before `n` with off-domain lines to come. -/
def openDescs (s : State) (a tid n : Nat) : List Desc :=
  (s.tower (towerOf a)).descs.filter fun d => d.arr == a && d.tid == tid && decide (d.n < n) && !d.stopped && !dsInTower d.bytes (towerOf a)

/-- Every line of a program that has ended or was abandoned has moved. -/
def MemProg.settled (m : MemProg) : Bool := (m.ended || m.dead) && decide (m.nrd ≤ m.rdDone) && decide (m.nwr ≤ m.wrDone)

/-- Memory programs of a task of bundles before `n` with accesses to come. -/
def openProgs (s : State) (a tid n : Nat) : List MemProg :=
  (List.range 8).flatMap fun k => (s.stack k).progs.filter fun g => g.arr == a && g.tid == tid && decide (g.n < n) && !g.settled

/-- COMMIT of a stream register (R249). -/
def stCommit (w : BitVec 256) : Nat := (w.extractLsb' 160 32).toNat

/-- A stopped task, under the leash or checkpointed, has positions of stream operations still to be requested again (R253). -/
def againDue (s : State) (a k tid : Nat) (which : StreamOp → Bool) : Bool :=
  let c := s.ctxOf a k tid
  c.tid == tid && (engineHeld s c.part 4 a || ((s.part c.part).task tid).any fun t => t.state == .checkpointed)
    && c.st.any fun (_, v) => v.ops.any fun o => which o && decide (stCommit v.word < o.first + o.n)

/-- The fences that off-domain accesses of bundle `n` of a task are behind. -/
def fencesBefore (s : State) (a k tid n : Nat) : List (Nat × Nat) := (s.ctxOf a k tid).fences.filter fun e => decide (e.1 < n)

/-- Every fence before bundle `n` of a task lets its accesses go: every off-domain access of the bundles before the fence has performed at its scope (R88, R292). -/
def fencesOpen (s : State) (a k tid n : Nat) : Bool :=
  (fencesBefore s a k tid n).all fun (m, scope) =>
    s.reqs.all (fun q => !(q.arr == a && q.ctx == k && q.tid == tid && decide (q.n < m)) || doneAtScope scope q)
      && !againDue s a k tid (fun o => decide (o.bundle < m)) && !unreadOps s a tid m true && (openDescs s a tid m).isEmpty && (openProgs s a tid m).isEmpty

/-- Lines of one copy, and of one exchange, have no order among themselves. -/
def sameMove (q r : Req) : Bool :=
  q.n == r.n && (match r.kind with
    | .copyRead | .copyWrite | .exchRead | .exchWrite => true
    | _ => false)

/-- An earlier request of the context that this one may not overtake at its point (R287, R394). -/
def overtakes (s : State) (r : Req) : Bool :=
  s.reqs.any fun q =>
    reqBefore q r && decide (q.stage.rank < 3) && !sameMove q r && (if q.kind = .message ∧ r.kind = .message then q.j == r.j else reqsMeet s q r)

/-! ## Operations not yet finished (R287) -/

/-- Lines of a descriptor that are still to be requested meet some bytes, of a request that is, with `virt`, or may be at a virtual address: a virtual line may come to lie anywhere
(R313, R314). They are the lines not presented, and the destinations of those being read; lines requested are requests like others. -/
def descMeets (s : State) (d : Desc) (virt : Bool) (ys : List Span) : Bool :=
  let todo := (List.range (dsLines d.bytes - d.next)).map (· + d.next)
  let reading := (s.reqs.filter fun q => q.kind == .copyRead && q.j == d.uid).map (·.p)
  let side := fun (w : Bool) (is : List Nat) =>
    if if w then dsDsp d.bytes else dsSsp d.bytes then virt && !is.isEmpty
    else is.any fun i =>
      spansMeet [⟨.scratch, s.winAddr (if w then dsDstTower d.bytes else dsSrcTower d.bytes) d.part ((if w then dsDst d.bytes else dsSrc d.bytes) + 64 * i), 64⟩] ys
  side false todo || side true (todo ++ reading)

/-- The lines a memory program's commands read and write, in order (R329, R332): HBM lines by the rows its ACTs open, and the elements of its two queues. -/
def progSpans (s : State) (g : MemProg) : List Span :=
  let st := fieldAt g.record 8 1
  let (_, lines) := g.words.foldl (fun (acc : SMap Nat × List Span) w =>
    let key := cwPc w * 16 + cwBank w
    if cwCmd w = 1 then (smSet acc.1 key (cwRow w), acc.2)
    else if cwIsCol w then
      (acc.1, ⟨.hbm, ({ stack := st, pc := cwPc w, bank := cwBank w, row := smGet 0 acc.1 key, col := cwCol w } : Coord).cell, 64⟩ :: acc.2)
    else acc) ([], [])
  let c := s.ctxOf g.arr g.ctx g.tid
  let elems := fun (q pos n : Nat) => (List.range n).map fun i => (⟨.scratch, s.winAddr (towerOf g.arr) g.part (qwElem (c.qwState q).word (pos + i)), 64⟩ : Span)
  lines ++ elems g.rq g.rpos g.nrd ++ elems g.wq g.wpos g.nwr

/-- Every command word of a program has been read. -/
def MemProg.wordsRead (g : MemProg) : Bool := g.words.length == fieldAt g.record 4 4

/-- A request must wait for operations of its context's earlier bundles that are not finished and touch its bytes, or may: a copy or a program whose record is not read yet, a
descriptor's lines, a program's accesses (R287). -/
def opsHold (s : State) (r : Req) : Bool :=
  let ys := (reqSpans s r).getD []
  unreadOps s r.arr r.tid r.n false
    || (openDescs s r.arr r.tid r.n).any (fun d => descMeets s d r.mayBeVirt ys)
    || (openProgs s r.arr r.tid r.n).any fun g => !g.wordsRead || spansMeet (progSpans s g) ys

/-- A request may be accepted now. -/
def orderOk (s : State) (r : Req) : Bool := decide (r.early ≤ s.ttick (towerOf r.arr)) && fencesOpen s r.arr r.ctx r.tid r.n && !overtakes s r && !opsHold s r

/-! ## Faults of requests (R318) -/

/-- A request faults in its context: its engine records it, and the request waits for RESUME, to be translated and ordered anew (R318, R374). -/
def reqFault (r : Req) (code sub addr : Nat) : Plan :=
  .get fun s =>
    let kind := match r.kind with
      | .copyRead | .copyWrite => 5
      | .exchRead | .exchWrite => 1
      | _ => 4
    let unit := if kind = 5 then towerOf r.arr else r.arr
    Plan.all
      [ modReq r.uid fun q =>
          { q with held := true, walking := false, stage := .fired, cell := none, va := none, target := match q.va with
              | some va => .virt va
              | none => q.target },
        (if kind = 5 then modTower (towerOf r.arr) fun v => { v with descs := v.descs.map fun d => if d.uid == r.j then { d with faulted := true } else d } else .skip),
        raiseFaultFor r.part r.tid r.arr r.ctx { kind, unit, ctx := r.ctx, code, sub, addr, seq := r.n, pos := (s.ctx r.arr r.ctx).pc } ]

/-! ## Going on -/

/-- Writes of a task that a request has passed a fence behind, and others' that the task had read before the fence, are known to every kennel unit (R209, R292). -/
def settleFenced (r : Req) : Plan :=
  .get fun s =>
    let fs := fencesBefore s r.arr r.ctx r.tid r.n
    Plan.when (!fs.isEmpty) (settleWatch fun e => fs.any fun f => (e.tid == r.tid && decide (e.n < f.1)) || e.seen.any fun (tid, n) => tid == r.tid && decide (n < f.1))

/-- A request is accepted by its tower's egress once nothing holds it back. -/
def tryAccept (uid : Nat) : Plan :=
  .get fun s =>
    match s.req? uid with
    | none => .skip
    | some r =>
      if orderOk s r then
        withUid fun serial => Plan.all [ settleFenced r, modReq uid fun q => { q with stage := .accepted, serial }, reqLater r rankEvent (.micro (.advance uid)) ]
      else reqSoon 1 r rankEvent (.micro (.advance uid))

/-- A translated request goes on to be accepted. -/
def translated (r : Req) (va : Nat) (x : Xlat) : Plan :=
  .both (modReq r.uid fun q => { q with target := .phys x.pa, va := some va, walking := false }) (tryAccept r.uid)

/-- An earlier element of a request's own operation has not been translated yet: elements are reached in the order of their positions (R251). -/
def behindElement (s : State) (r : Req) : Bool :=
  (r.kind == .gather || r.kind == .scatter) && s.reqs.any fun q =>
    q.kind == r.kind && q.arr == r.arr && q.tid == r.tid && q.j == r.j && q.gen == r.gen && q.n == r.n && decide (q.p < r.p) && q.stage == .fired && !q.walking && !q.held && !q.dropped

/-- A fired request is translated (R303); what no cache holds waits for a walk, 32 at once in a tower (R312). -/
def tryTranslate (r : Req) (va : Nat) : Plan :=
  .get fun s =>
    let t := towerOf r.arr
    .both (.edit (.free (s.free + 1)))
      (match lookup s r va with
       | .done (.error (c, sub)) => reqFault r c sub va
       | .done (.ok x) => .both (match rangeHit (s.part r.part) va with
           | some i => cacheRange t r.part i
           | none => .skip) (translated r va x)
       | .walk =>
         let ws := walksOf s t
         if ws.contains (r.part, va / 4096) || decide (ws.length < 32) then
           .both (modReq r.uid fun q => { q with walking := true })
             (match s.due.find? fun d => d.act == .instr .tableWalkComplete && d.site.b == r.part && d.site.c == va / 4096 && towerOf d.site.arr == t with
              | some d => atTick d.tick rankEvent (some t) { r.site with b := r.part, c := va / 4096 } (.instr .tableWalkComplete)
              | none => withFree Config.offDomainBound fun d => afterAt (1 + d) rankEvent { r.site with b := r.part, c := va / 4096 } (.instr .tableWalkComplete))
         else reqSoon 1 r rankEvent (.micro (.advance r.uid)))

/-- TABLE_WALK_COMPLETE (R306-R310, R312): the walk reads the table as it stands at its points of coherence, and the request translates or faults; an entry in an uncorrectable
line is fault 0x43 at its address (R322). -/
def execTableWalkComplete : State → Host.Outcome State Fault Refusal :=
  (Plan.get fun s =>
    match s.req? s.site.a with
    | none => .skip
    | some r =>
      match r.target with
      | .virt va =>
        let x := translate s r.part va r.size
        let reads := tableReads s r.part va
        Plan.all <| [ .edit (.free (s.free + 1)), Plan.each reads (fun pa => deepTouch r.part pa 8 false),
          (if r.dropped then endReq r.uid
           else
             match reads.findSome? fun pa => (lostLineAt s r.part pa).map fun m => (pa, m) with
             | some (pa, kind, line) => .both (lineLost kind line) (reqFault r 0x43 0 pa)
             | none =>
               match permitted r.access x with
               | .error (c, sub) => reqFault r c sub va
               | .ok x => .both (cachePage (towerOf r.arr) r.part va x) (translated r va x)) ]
      | _ => .skip).step

/-- The pseudo-channel and row that serve a line: those of a retired pseudo-channel, once the line's row has been copied, lie in reserve rows of the others (R411). -/
def placeOf (k : Stack) (c : Coord) : Nat × Nat :=
  if k.retired = some c.pc ∧ c.row < k.copied / 256 then
    (let q := c.row % 63
     (if q < c.pc then q else q + 1, 0xFC00 + c.row / 63))
  else (c.pc, c.row)

/-- Two atoms that may share an entry of a write queue: of one line, operation and size, neither fetching (R256). -/
def atomsMerge (q r : Req) (line : Nat) : Bool :=
  q.kind == .atom && r.kind == .atom && !q.fetch && !r.fetch && decide (r.op ≤ 5) && q.op == r.op && q.size == r.size && (q.cell.map fun c => c / 64) == some line

/-- The entry an atom merges into: one for its like that no entry of its bytes stands behind. -/
def mergeEntry (s : State) (q : List PortEntry) (r : Req) (cell : Nat) : Option PortEntry :=
  q.find? fun e => (s.req? e.req).any (fun o => atomsMerge o r (cell / 64))
    && ((q.dropWhile fun f => f.req != e.req).drop 1).all fun f => !(decide (f.cell < cell + r.size) && decide (cell < f.cell + f.size))

/-- A memory port's entry for a request (R335). -/
def toPort (r : Req) (pa : Nat) : Plan :=
  .get fun s =>
    let c := coordOf s r.part pa
    let (pc, row) := placeOf (s.stack c.stack) c
    let e : PortEntry := { req := r.uid, part := r.part, write := r.write, bank := c.bank, row, cell := c.cell + pa % 64, size := r.size }
    .both (modReq r.uid fun q => { q with cell := some (c.cell + pa % 64) })
      (modStack c.stack fun k =>
        let q := smGet [] k.ports pc
        { k with ports := smSet k.ports pc (match mergeEntry s q r e.cell with
            | some o => q.map fun f => if f.req == o.req then { f with cell := f.cell / 64 * 64, size := 64, more := f.more ++ [r.uid] } else f
            | none => q ++ [e]) })

/-! ## Trunks (R388, R389) -/

/-- The ports of a trunk, ascending. -/
def trunkPorts (m : Module) (k : Nat) : List Nat := (m.ports.filter fun e => e.2.trunk == some k && !e.2.failed).map fun e => e.1

/-- The trunk toward a package. -/
def trunkTo (m : Module) (pkg : Nat) : Option Nat := (m.trunkPkg.find? fun e => e.2 == pkg && pkg != 0).map fun e => e.1

/-- Bits 527:0 of a flit as a number (R387). -/
def flitBits (f : Flit) : Nat := f.cls % 2 * 2 ^ 527 + f.ph % 2 * 2 ^ 526 + f.kind % 16 * 2 ^ 522 + f.seq % 1024 * 2 ^ 512 + leNat (f.pay.take 64)

/-- CRC-16 with polynomial 0x1021 and initial value 0xFFFF over bits 527:0, the highest first (R387; log 15). -/
def flitCrc (f : Flit) : Nat :=
  (List.range 528).foldl (fun c i =>
    let out := c.testBit 15 != (flitBits f).testBit (527 - i)
    (c * 2 % 65536) ^^^ (if out then 0x1021 else 0)) 0xFFFF

/-- The first of some ports, ascending, from a number on, and round again. -/
def nextPort (ports : List Nat) (turn : Nat) : Option Nat := (ports.find? fun q => decide (turn ≤ q)).or ports.head?

/-- A port sends what waits, while its replay buffer of 64 has room: each flit with its sequence number and its CRC. -/
def pushFlits (port : Nat) : Nat → Module → Module
  | 0, m => m
  | fuel + 1, m =>
    let v := smGet {} m.ports port
    match v.unsent with
    | [] => m
    | f :: rest =>
      if 64 ≤ v.replay.length then m
      else
        let f := { f with seq := v.txSeq }
        let f := { f with crc := flitCrc f }
        pushFlits port fuel
          { m with ports := smSet m.ports port { v with unsent := rest, txSeq := (v.txSeq + 1) % 1024, replay := v.replay ++ [f] }, outputs := m.outputs ++ [.flit port f] }

/-- A flit sent to a package: by the next port of its trunk, round-robin (R389). -/
def sendFlit (pkg : Nat) (f : Flit) : Plan :=
  modMod fun m =>
    match trunkTo m pkg with
    | none => m
    | some k =>
      match nextPort (trunkPorts m k) (smGet 0 m.trunkPtr k) with
      | none => m
      | some port =>
        let v := smGet {} m.ports port
        pushFlits port 1 { m with ports := smSet m.ports port { v with unsent := v.unsent ++ [f] }, trunkPtr := smSet m.trunkPtr k (port + 1) }

/-- The inbox slot an arriving message takes (R393). -/
def inboxSlot (b : Inbox) (m : Nat) : Nat := b.off + m % 2 ^ b.ldepth * 64

/-- Two accesses of one line of a point of coherence. -/
def sameLine (s : State) (q r : Req) : Bool :=
  match reqSpans s q, reqSpans s r with
  | some xs, some ys => xs.any fun x => ys.any fun y => x.sp == y.sp && x.at' / 64 == y.at' / 64
  | _, _ => false

/-- What a request is delivered after: requests its egress accepted earlier for its point are to be delivered, and those of its line performed, before it (R291). -/
def deliverAfter (s : State) (r q : Req) : Bool :=
  towerOf q.arr == towerOf r.arr && q.kind != .host && decide (q.serial < r.serial)
    && ((q.stage == .accepted && reqPoint s q == reqPoint s r) || (q.stage == .arrived && (q.write || r.write) && sameLine s q r))

/-- A dynamic-path line presented to a tower's data port (R225): it is charged to whichever array holds its bank. -/
def presentDynamic (t addr : Nat) (r : Req) (use : LineUse) : Plan :=
  .get fun s => presentLine t
    { arr := t * 8, rank := 6, order := r.order, addr, presented := s.ttick t, part := r.part, tag := s.tagOf r.part r.tid, use }

/-- A request arrives at the point of an address of the package: a memory port, the deep tier's, or the host's. -/
def arriveAt (r : Req) (pa : Nat) : Plan :=
  if isHbm pa then toPort r pa
  else if isDeep pa then reqLater r rankEvent (.instr .deepTierAccess)
  else reqLater r rankEvent (.micro (.perform r.uid))

/-- A request is delivered to its point. -/
def deliver (r : Req) : Plan :=
  .get fun s =>
    if s.reqs.any (deliverAfter s r) then reqSoon 1 r rankEvent (.micro (.advance r.uid))
    else withUid fun arrival =>
      .both (modReq r.uid fun q => { q with stage := .arrived, arrival })
        (match r.target with
         | .window t p off =>
           let line := fun (at' : Nat) => presentDynamic t at' r (if r.write then .dynWrite r.uid else .dynRead r.uid)
           if r.kind = .message then
             let b := smGet {} (s.part p).inboxes r.p
             Plan.all
               [ modPart p fun v => { v with inboxes := smSet v.inboxes r.p { b with reserved := b.reserved + 1 } },
                 modReq r.uid fun q => { q with target := .window t p (inboxSlot b b.reserved) },
                 line (s.winAddr t p (inboxSlot b b.reserved)) ]
           else line (s.winAddr t p off)
         | .phys pa => arriveAt r pa
         | .package k _ _ _ => sendFlit k { crc := 0, cls := if r.kind = .message then 1 else 0, ph := if r.tag then 1 else 0, kind := if r.kind = .message then 2 else 1, seq := 0, pay := r.data }
         | _ => .skip)

/-! ## At the point -/

/-- The bytes a request reads at its point. -/
def reqRead (s : State) (r : Req) : List Byte :=
  match r.target with
  | .window t p off => s.bytes .scratch (s.winAddr t p off) r.size
  | .phys pa => match r.cell with
    | some c => s.bytes .hbm c r.size
    | none => physBytes s r.part pa r.size
  | _ => []

/-- How R209 tells a request's write from others. -/
def Req.writeId (r : Req) : WriteId := { tid := r.tid, n := r.n, p := if r.kind = .copyWrite then r.j * 2 ^ 27 + r.p else r.p }

/-- Bytes written by a request at its point. -/
def reqWrite (r : Req) (bs : List Byte) : Plan :=
  .get fun s => Plan.when (!bs.isEmpty) <|
    match r.target with
    | .window t p off => scratchWrite (s.winAddr t p off) bs r.writeId
    | .phys pa => match r.cell with
      | some c => .both (.both (writeBytes .hbm c bs) (unmark 0 6 c bs.length)) (Plan.each ((List.range 16).filter fun q => (s.part q).live) fun q => bumpWatch q 2 0 pa bs.length r.writeId)
      | none => physWrite r.part pa bs r.writeId
    | _ => .skip

/-- The uncorrectable line a request would read: its fault (R228, R322). -/
def reqUncorrectable (s : State) (r : Req) : Option (Nat × Nat) :=
  match r.target with
  | .window t p off => if s.marked 2 (s.winAddr t p off / 64) then some (0x44, noAddr) else none
  | .phys pa =>
    match r.cell with
    | some c => if s.marked 0 (c / 64) then some (0x43, pa) else none
    | none => if isDeep pa && s.marked 1 ((pa - 2 ^ 40) / 64) then some (0x43, pa) else none
  | _ => none

/-- The write of a gathered element, or of an atom's old value, into its reserved place is on its way to its queue (R251, R255, R284). -/
def presentLanding (r : Req) : Plan :=
  .get fun s =>
    let c := s.ctxOf r.arr r.ctx r.tid
    if r.dropped || c.tid != r.tid then endReq r.uid
    else presentDynamic (towerOf r.arr) (s.winAddr (towerOf r.arr) r.part (qwElem (c.qwState r.qk).word r.qpos)) r (.landing r.uid)

/-- A request takes its next step: it waits for a slot if it was made again, is translated, accepted, delivered. -/
def advancePlan (uid : Nat) : Plan :=
  .get fun s =>
    match s.req? uid with
    | none => .skip
    | some r =>
      if r.held then .skip
      else
        match r.stage with
        | .fired =>
          if r.dropped then endReq uid
          else if r.needsSlot && !r.slot then
            if decide (0 < slotsFree s r.arr) && ((slotWaiters s r.arr).head?.map fun q => q.uid) == some uid then
              .both (modReq uid fun q => { q with slot := true }) (reqSoon 0 r rankEvent (.micro (.advance uid)))
            else reqSoon 1 r rankEvent (.micro (.advance uid))
          else if r.kind = .scatter && r.data.isEmpty then .skip
          else
            match r.target with
            | .unknown => .skip
            | .virt va => if behindElement s r then reqSoon 1 r rankEvent (.micro (.advance uid)) else tryTranslate r va
            | _ => tryAccept uid
        | .accepted => deliver r
        | .performed => if r.kind = .gather then presentLanding r else .skip
        | _ => .skip

end Sys2Proof.Machine
end

