-- ==== Sys2Proof/Machine/Streams.lean ====
section
/-! DEFINITION. Streams (R249-R254) and remote atomics (R255, R256): what they check and reserve, their elements, commits, probes and pins. -/

namespace Sys2Proof.Machine

/-! ## Stream registers (R249) -/

def stField (w : BitVec 256) (lo n : Nat) : Nat := w.toNat / 2 ^ lo % 2 ^ n
/-- A field of a stream register set. -/
def stSet (w : BitVec 256) (lo n v : Nat) : BitVec 256 := BitVec.ofNat 256 (w.toNat - stField w lo n * 2 ^ lo + v % 2 ^ n * 2 ^ lo)

def stBase (w : BitVec 256) : Nat := stField w 192 56
def stSpec (w : BitVec 256) : Nat := stField w 128 32
def stProbed (w : BitVec 256) : Nat := stField w 96 32
def stStride (w : BitVec 256) : Int := (BitVec.ofNat 32 (stField w 64 32)).toInt
def stBo (w : BitVec 256) : Nat := stField w 37 27 * 32
def stBoen (w : BitVec 256) : Bool := w.getLsbD 36
def stReqp (w : BitVec 256) : Bool := w.getLsbD 35
def stDq (w : BitVec 256) : Nat := stField w 31 4
def stIq (w : BitVec 256) : Nat := stField w 27 4
def stEsz (w : BitVec 256) : Nat := stField w 25 2
def stStrided (w : BitVec 256) : Bool := w.getLsbD 24
def stSpace (w : BitVec 256) : Nat := stField w 22 2
def stTower (w : BitVec 256) : Nat := stField w 19 3
def stValid (w : BitVec 256) : Bool := w.getLsbD 0
/-- The element size in bytes. -/
def stElem (w : BitVec 256) : Nat := eszBytes (stEsz w)

/-- A record `strm.set` takes (R250). -/
def stLegal (w : BitVec 256) : Bool :=
  stField w 248 8 == 0 && stField w 1 18 == 0 && decide (stSpace w ≤ 1) && stCommit w == 0 && stSpec w == 0 && stProbed w == 0

def Ctx.stream (c : Ctx) (j : Nat) : Stream := smGet {} c.st j
def modStream (a k j : Nat) (f : Stream → Stream) : Plan := modCtx a k fun c => { c with st := smSet c.st j (f (c.stream j)) }
/-- A stream register of task `tid`, whose context it may have left. -/
def modStreamOf (a k tid j : Nat) (f : Stream → Stream) : Plan := modCtxOf a k tid fun c => { c with st := smSet c.st j (f (c.stream j)) }

/-- The address of the element at a position, given its index (R249). -/
def stAddr (w : BitVec 256) (p idx : Nat) : Nat :=
  if stStrided w then (((stBase w : Int) + p * stStride w) % (2 ^ 64 : Int)).toNat else (stBase w + idx * stElem w) % 2 ^ 64

/-! ## `strm.set` (R250) -/

def strmSetCheck (xa : BitVec 5) (s : State) : Option Chk := objCheck (s.x xa).toNat s

def execStrmSet (g : Guard) (j : BitVec 3) (xa : BitVec 5) : State → Host.Outcome State Fault Refusal :=
  (atIssue g noStall (strmSetCheck xa) (.get fun s =>
    .both (modStream s.site.arr s.site.ctx j.toNat fun v => { v with setPending := true })
      (after 16 rankPortRead (.micro (.strmRead s.site.arr j.toNat (s.x xa).toNat s.me.tid))))).step

/-- Another `strm.set` of a stream register is on its way: what names the register goes on waiting (R250). -/
def setComing (s : State) (a j tid : Nat) : Bool :=
  s.due.any fun d => match d.act with
    | .micro (.strmRead b i _ t) => b == a && i == j && t == tid
    | .micro (.strmTake b i t _) => b == a && i == j && t == tid
    | _ => false

/-- The record of a `strm.set` read 16 ticks after it (R250). -/
def strmReadPlan (a j off tid : Nat) : Plan :=
  .get fun s =>
    let k := s.site.ctx
    let c := s.ctxOf a k tid
    let addr := s.winAddr (towerOf a) c.part off
    let w := BitVec.ofNat 256 (s.number .scratch addr 32)
    if c.tid ≠ tid then .skip
    else .both (controlRead a k tid s.site.n addr 32)
      (if stLegal w then after 1 rankPointer (.micro (.strmTake a j tid w))
       else .both (modStreamOf a k tid j fun v => { v with setPending := setComing s a j tid }) (chargeFault a k tid s.site.n 0x01 6 off))

/-- The reservations an operation of a stream holds beyond COMMIT are given back (R250, R253). -/
def giveBackOp (a k tid : Nat) (w : BitVec 256) (o : StreamOp) : Plan :=
  let left := o.first + o.n - max o.first (stCommit w)
  .both
    (modQOf a k tid (stDq w) fun q =>
      if o.gather then { q with pr := (q.pr + 8192 - left % 8192) % 8192, ops := q.ops - 1 } else { q with cr := (q.cr + 8192 - left % 8192) % 8192, ops := q.ops - 1 })
    (Plan.when (!stStrided w) (modQOf a k tid (stIq w) fun q => { q with cr := (q.cr + 8192 - left % 8192) % 8192, ops := q.ops - 1 }))

/-- A request is one of a stream of a task on an array. -/
def Req.ofStream (a tid j : Nat) (r : Req) : Bool := r.arr == a && r.tid == tid && r.j == j && (r.kind == .gather || r.kind == .scatter)

/-- A request that has not gone out: its address or its data are unread, or it faulted. -/
def Req.unsent (r : Req) : Bool := r.stage == .fired && (r.held || r.target == .unknown || (r.kind == .scatter && r.data.isEmpty))

/-- Every request of a stream still in flight is discarded when it returns, one that has not gone out at once (R250, R253). -/
def dropStream (a tid j : Nat) : Plan :=
  .get fun s => .edit (.reqs ((s.reqs.filter fun r => !(r.ofStream a tid j && r.unsent)).map fun r => if r.ofStream a tid j then { r with dropped := true } else r))

/-- The pins a stream register of a task holds are released (R250, R316). -/
def unpinStream (a tid j : Nat) : Plan :=
  modTower (towerOf a) fun v =>
    { v with pins := (v.pins.map fun p => { p with holders := p.holders.filter fun h => h != (pinHolder a tid, j) }).filter fun p => !p.holders.isEmpty }

def strmTakePlan (a j tid : Nat) (w : BitVec 256) : Plan :=
  .get fun s =>
    let k := s.site.ctx
    let v := (s.ctxOf a k tid).stream j
    Plan.when ((s.ctxOf a k tid).tid == tid) <| Plan.all
      [ Plan.each v.ops (giveBackOp a k tid v.word), dropStream a tid j, unpinStream a tid j,
        modStreamOf a k tid j fun v => { word := w, gen := v.gen + 1, sets := v.sets + 1, setPending := setComing s a j tid } ]

/-! ## `gather` and `scatter` (R251, R317) -/

def State.strm (s : State) (j : BitVec 3) : Stream := s.me.stream j.toNat

def streamWordsOk (s : State) (w : BitVec 256) : Bool :=
  s.fit (stDq w) && qwKind (s.me.qword (stDq w) s.site.n) == 3 && qwEsz (s.me.qword (stDq w) s.site.n) == stEsz w
    && (stStrided w || (s.fit (stIq w) && qwKind (s.me.qword (stIq w) s.site.n) == 3 && qwEsz (s.me.qword (stIq w) s.site.n) == 0))

def streamCheck (j : BitVec 3) (n : Nat) (s : State) : Option Chk :=
  let w := (s.strm j).word
  if !stValid w then some { code := 0x01, sub := 6, addr := noAddr }
  else if !streamWordsOk s w then some badWord
  else if stReqp w && decide (stProbed w < stSpec w + n) then some { code := 0x22, sub := 0, addr := stProbed w }
  else none

def streamStall (gather : Bool) (j : BitVec 3) (n : Nat) (s : State) : Option StallCause :=
  let v := s.strm j
  let w := v.word
  let dq := s.me.qwState (stDq w)
  if v.setPending || (stValid w && streamWordsOk s w && stReqp w && v.probing) then some .queue
  else if (streamCheck j n s).isSome then none
  else if !stStrided w && decide ((s.me.qwState (stIq w)).fill < n) then some .queue
  else if (if gather then decide (dq.room < n) else decide (dq.fill < n)) then some .queue
  else if !slotsFor s s.site.arr n then some .queue else none

/-- The user phase tag of a context's requests (R297, R395). -/
def phaseTag (c : Ctx) : Bool := c.phase.getLsbD 7

/-- The requests of an operation over `n` positions from `first`, with or without their slots. -/
def elementReqs (s : State) (a k tid : Nat) (o : StreamOp) (j first n uid : Nat) (slot : Bool) : List Req :=
  let c := s.ctxOf a k tid
  (List.range n).map fun i =>
    { uid := uid + i, kind := if o.gather then .gather else .scatter, part := c.part, arr := a, ctx := k, n := o.bundle, tid, tag := o.tag,
      target := .unknown, size := stElem (c.stream j).word, write := !o.gather, slot, j, gen := (c.stream j).gen, p := first + i, qk := stDq (c.stream j).word,
      qpos := (o.dq + (first - o.first) + i) % 8192, order := o.order, early := if stBoen (c.stream j).word && slot then s.ttick (towerOf a) + 32 else 0 }

/-- The reads that give an operation's elements their addresses and, for a scatter, their data (R251). -/
def elementReads (a k tid : Nat) (w : BitVec 256) (o : StreamOp) (j gen first n : Nat) : Plan :=
  let site : Site := { arr := a, ctx := k, n := o.bundle, a := tid }
  let per := 1024 / stElem w
  .both
    (Plan.each (List.range ((n + 255) / 256)) fun b =>
      afterAt (16 + b) rankPortRead site (.micro (.streamIdx a j gen (first + 256 * b) (min 256 (n - 256 * b)) ((o.iq + (first - o.first) + 256 * b) % 8192))))
    (Plan.when (!o.gather) (Plan.each (List.range ((n + per - 1) / per)) fun b =>
      afterAt (16 + b) rankPortRead site (.micro (.streamData a j gen (first + per * b) (min per (n - per * b)) ((o.dq + (first - o.first) + per * b) % 8192)))))

/-- A gather or scatter as it fires: its positions, reservations, slots and requests. -/
def fireStream (gather : Bool) (j : BitVec 3) (n : Nat) : Plan :=
  .get fun s =>
    let a := s.site.arr
    let k := s.site.ctx
    let v := s.strm j
    let w := v.word
    let dq := s.me.qwState (stDq w)
    let o : StreamOp := { gather, bundle := s.site.n, order := s.site.wave, tag := phaseTag s.me, first := stSpec w, n, dq := if gather then dq.pr else dq.cr, iq := (s.me.qwState (stIq w)).cr }
    Plan.all
      [ modMyQ (stDq w) (if gather then QW.takeOut n else QW.takeIn n),
        Plan.when (!stStrided w) (modMyQ (stIq w) (QW.takeIn n)),
        modStream a k j.toNat fun v => { v with word := stSet w 128 32 (stSpec w + n), ops := v.ops ++ [o] },
        .edit (.reqs (s.reqs ++ elementReqs s a k s.me.tid o j.toNat o.first n s.uid true)), .edit (.uid (s.uid + n)),
        elementReads a k s.me.tid w o j.toNat v.gen o.first n ]

def execGather (g : Guard) (j : BitVec 3) (n1 : BitVec 12) : State → Host.Outcome State Fault Refusal :=
  (atIssue g (streamStall true j (n1.toNat + 1)) (streamCheck j (n1.toNat + 1)) (fireStream true j (n1.toNat + 1))).step
def execScatter (g : Guard) (j : BitVec 3) (n1 : BitVec 12) : State → Host.Outcome State Fault Refusal :=
  (atIssue g (streamStall false j (n1.toNat + 1)) (streamCheck j (n1.toNat + 1)) (fireStream false j (n1.toNat + 1))).step

/-- The request of a position of a task's stream, of a generation. -/
def streamReq (s : State) (a tid j gen p : Nat) : Option Req := s.reqs.find? fun r => r.ofStream a tid j && r.gen == gen && r.p == p && !r.dropped

/-- A read of the control port by the stream engine of array `a` (R228). -/
def streamRead (a k tid n addr len : Nat) : Plan := scratchRead addr len (taskFault a k tid { kind := 4, unit := a, ctx := k, code := 0x44, seq := n })

/-- The addresses of up to 256 positions: each element is reached, checked, and its request goes out, after those of the positions before it, which share its delay (R251). -/
def streamIdxPlan (a j gen first n iq : Nat) : Plan :=
  withFree Config.offDomainBound fun d => .get fun s =>
    let k := s.site.ctx
    let tid := s.site.a
    let c := s.ctxOf a k tid
    let w := (c.stream j).word
    Plan.each (List.range n) fun i =>
      match streamReq s a tid j gen (first + i) with
      | none => .skip
      | some r =>
        let spot := s.winAddr (towerOf a) c.part (qwElem (c.qwState (stIq w)).word (iq + i))
        let idx := if stStrided w then 0 else s.number .scratch spot 4
        .both (Plan.when (!stStrided w) (streamRead a k tid s.site.n spot 4)) <|
        let at' := stAddr w (first + i) idx
        let e := stElem w
        let target : Target := if stSpace w = 1 then .window (stTower w) c.part at' else .virt at'
        if at' % e ≠ 0 then reqFault r 0x11 0 (first + i)
        else if stSpace w == 1 && !s.inWin (stTower w) c.part at' e then reqFault r 0x14 0 (first + i)
        else .both (modReq r.uid fun q => { q with target, addr := at' }) (reqSoon (1 + d) r rankEvent (.micro (.advance r.uid)))

/-- The data of up to 1,024 bytes of scatter elements read from the data queue (R251). -/
def streamDataPlan (a j gen first n dq : Nat) : Plan :=
  .get fun s =>
    let k := s.site.ctx
    let tid := s.site.a
    let c := s.ctxOf a k tid
    let w := (c.stream j).word
    Plan.each (List.range n) fun i =>
      match streamReq s a tid j gen (first + i) with
      | none => .skip
      | some r =>
        let at' := s.winAddr (towerOf a) c.part (qwElem (c.qwState (stDq w)).word (dq + i))
        .both (streamRead a k tid s.site.n at' (stElem w)) <| .both (modReq r.uid fun q => { q with data := s.bytes .scratch at' (stElem w) }) (reqLater r rankEvent (.micro (.advance r.uid)))

/-! ## Commits (R252) -/

/-- How many positions from `c` on are done. -/
def doneRun (done : List Nat) (c : Nat) : Nat → Nat
  | 0 => 0
  | fuel + 1 => if done.contains c then doneRun done (c + 1) fuel + 1 else 0

/-- How many positions of an operation lie in [lo, hi). -/
def opShare (o : StreamOp) (lo hi : Nat) : Nat := min hi (o.first + o.n) - max lo o.first

/-- Positions done in order commit: COMMIT, the queue pointers each operation moves, the object (R252), whose count settles their writes (R209). -/
def commitStream (a k tid j : Nat) : Plan :=
  .get fun s =>
    let c := s.ctxOf a k tid
    let v := c.stream j
    let w := v.word
    let n := doneRun v.doneAt (stCommit w) v.doneAt.length
    let commit := stCommit w + n
    let past := v.ops.filter fun o => decide (o.first + o.n ≤ commit)
    let left := (s.ctx a k).tid != tid
    let moved := fun (g : Bool) => ((v.ops.filter fun o => o.gather == g).map fun o => opShare o (stCommit w) commit).foldl (· + ·) 0
    Plan.when (decide (0 < n)) <| Plan.all
      [ modStreamOf a k tid j fun v => { v with word := stSet w 160 32 commit, doneAt := v.doneAt.filter fun p => decide (commit ≤ p), ops := v.ops.filter fun o => decide (commit < o.first + o.n) },
        modQOf a k tid (stDq w) fun q =>
          { (((q.advance true (moved true)).lateBy true left (moved true)).advance false (moved false)).lateBy false left (moved false) with ops := q.ops - past.length },
        Plan.when (!stStrided w) (modQOf a k tid (stIq w) fun q => { (q.advance false n).lateBy false left n with ops := q.ops - past.length }),
        Plan.when (stBoen w)
          (if s.inWin (towerOf a) c.part (stBo w) 32 then
             .both (countAt s.now (towerOf a) c.part (stBo w) (n * stElem w) n a k tid ((past.head?.map fun o => o.bundle).getD 0))
               (settleWatch fun e => e.tid == tid && decide (stCommit w ≤ e.p) && decide (e.p < commit) && v.ops.any fun o => o.bundle == e.n)
           else taskFault a k tid { kind := 4, unit := a, ctx := k, code := 0x14, addr := stBo w, seq := ((v.ops.head?.map fun o => o.bundle).getD 0) }) ]

/-- A position is done, if its request is of the stream's present generation and commits have not stopped (R252, R253). -/
def positionDone (r : Req) (land : Plan) : Plan :=
  .get fun s =>
    let c := s.ctxOf r.arr r.ctx r.tid
    let live := c.tid == r.tid && (c.stream r.j).gen == r.gen && !r.dropped && !engineHeld s r.part 4 r.arr
    Plan.all
      [ endReq r.uid,
        Plan.when live (Plan.all
          [ land, modStreamOf r.arr r.ctx r.tid r.j (fun v => { v with doneAt := v.doneAt ++ [r.p] }), commitStream r.arr r.ctx r.tid r.j ]) ]

/-- GATHER_ELEMENT_LAND (R251, R252): the element is written into its reserved position of the data queue. -/
def execGatherElementLand : State → Host.Outcome State Fault Refusal :=
  (Plan.get fun s =>
    match s.req? s.site.a with
    | none => .skip
    | some r =>
      let c := s.ctxOf r.arr r.ctx r.tid
      positionDone r (scratchWrite (s.winAddr (towerOf r.arr) r.part (qwElem (c.qwState r.qk).word r.qpos)) r.data r.writeId)).step

/-- SCATTER_WRITE_CONFIRM (R252). -/
def execScatterWriteConfirm : State → Host.Outcome State Fault Refusal :=
  (Plan.get fun s =>
    match s.req? s.site.a with
    | none => .skip
    | some r => positionDone r .skip).step

/-- On RESUME a stream of a task sets SPEC to COMMIT, gives its reservations back, and makes every position from COMMIT to the old SPEC again, with the phase tag it was
issued with (R253, R297). -/
def restartStream (a k tid j : Nat) : Plan :=
  .get fun s =>
    let v := (s.ctxOf a k tid).stream j
    let w := v.word
    Plan.when (!v.ops.isEmpty) <| Plan.all
      [ dropStream a tid j, Plan.each v.ops (giveBackOp a k tid w),
        modStreamOf a k tid j fun v => { v with gen := v.gen + 1, doneAt := [], ops := [], word := stSet w 128 32 (stCommit w) },
        Plan.each v.ops fun o => .get fun s =>
          let first := max o.first (stCommit w)
          let n := o.first + o.n - first
          let c := s.ctxOf a k tid
          let dq := c.qwState (stDq w)
          let o' : StreamOp := { o with first, n, dq := if o.gather then dq.pr else dq.cr, iq := (c.qwState (stIq w)).cr }
          Plan.all
            [ modQOf a k tid (stDq w) (if o.gather then QW.takeOut n else QW.takeIn n), Plan.when (!stStrided w) (modQOf a k tid (stIq w) (QW.takeIn n)),
              modStreamOf a k tid j fun v => { v with word := stSet v.word 128 32 (first + n), ops := v.ops ++ [o'] },
              .get fun s => .both (.edit (.reqs (s.reqs ++ elementReqs s a k tid o' j first n s.uid false))) (.edit (.uid (s.uid + n))),
              .get fun s => elementReads a k tid w o' j ((s.ctxOf a k tid).stream j).gen first n ] ]

/-! ## `probe` (R254, R316) -/

def probeCheck (j : BitVec 3) (xa xb : BitVec 5) (s : State) : Option Chk :=
  match objCheck (s.x xa).toNat s with
  | some f => some f
  | none =>
    match objCheck (s.x xb).toNat s with
    | some f => some f
    | none =>
      let w := (s.strm j).word
      if !stValid w then some { code := 0x01, sub := 6, addr := noAddr }
      else if !stStrided w && !(s.fit (stIq w) && qwKind (s.me.qword (stIq w) s.site.n) == 3 && qwEsz (s.me.qword (stIq w) s.site.n) == 0) then some badWord
      else none

/-- Indices in a queue beyond CP. -/
def queueFill (q : QW) : Nat := ptrSub (qwPP q.word) (qwCP q.word)

def probeStall (j : BitVec 3) (xa xb : BitVec 5) (n : Nat) (s : State) : Option StallCause :=
  let v := s.strm j
  let w := v.word
  if v.setPending || v.probing then some .queue
  else if (probeCheck j xa xb s).isSome then none
  else if !stStrided w && decide ((queueFill (s.me.qwState (stIq w)) : Int) < (stProbed w : Int) - stCommit w + n) then some .queue else none

/-- What a probe carries from its issue to its end: the stream word, the index word, and the task and setting of the register it belongs to (R254). -/
def probeSite (j : BitVec 3) (xa xb : BitVec 5) (n : Nat) (s : State) : Site :=
  let w := (s.strm j).word
  { s.site with a := j.toNat, b := (s.x xa).toNat, c := (s.x xb).toNat, pos := n, qpos := (s.strm j).sets, row := s.me.tid,
                bytes := natBytes 32 w.toNat ++ natBytes 16 (s.me.qwState (stIq w)).word.toNat }

/-- `probe`: its indices stay in the index queue, which is busy until it has read them (R233). What it counts, it counts at t + 32 or later (R237). -/
def execProbe (g : Guard) (j : BitVec 3) (xa xb : BitVec 5) (n1 : BitVec 12) : State → Host.Outcome State Fault Refusal :=
  (atIssue g (probeStall j xa xb (n1.toNat + 1)) (probeCheck j xa xb) (.get fun s => Plan.all
    [ modStream s.site.arr s.site.ctx j.toNat fun v => { v with probing := true },
      Plan.when (!stStrided (s.strm j).word) (modMyQ (stIq (s.strm j).word) fun q => { q with ops := q.ops + 1 }),
      withFree Config.offDomainBound fun d => afterAt (32 + d) rankControl (probeSite j xa xb (n1.toNat + 1) s) (.instr .probeComplete) ])).step

/-- The page an address pins: its page-table page, or the 4 KiB of a range entry it lies in (log 18). -/
def pageOf (s : State) (p va n : Nat) : Except (Nat × Nat) Pin :=
  match translate s p va n with
  | .error f => .error f
  | .ok x =>
    let size := if x.size = 0 then 4096 else x.size
    .ok { part := p, page := va / size * size, size, pa := x.pa - va % size, perms := x.perms, holders := [], walked := x.size != 0 }

/-- One page of an element pinned for a stream: the pins after it, whether a new one was taken, or the failure. -/
def pinPage (s : State) (t p key j va n : Nat) (pins : List Pin) : Except Nat (List Pin × Nat) :=
  let mine := fun (e : Pin) =>
    e.part == p && decide (e.page ≤ va) && decide (va < e.page + e.size) && e.holders.contains (key, j) && e.walked == (rangeHit (s.part p) va).isNone
  match pins.find? mine with
  | some e => (match checkPhys (s.part p) n (pinXlat e va) with
    | .error (c, _) => .error c
    | .ok _ => .ok (pins, 0))
  | none =>
    match pageOf s p va n with
    | .error (c, _) => .error c
    | .ok e =>
      if pins.any fun f => f.part == p && f.page == e.page && f.size == e.size then
        .ok (pins.map fun f => if f.part == p && f.page == e.page && f.size == e.size then { f with holders := (key, j) :: f.holders } else f, 0)
      else if smGet 0 (s.part p).pinq t ≤ (pins.filter fun f => f.part == p).length ∨ 1024 ≤ pins.length then .error 0x23
      else .ok (pins ++ [{ e with holders := [(key, j)] }], 1)

/-- The pages of one element pinned. -/
def pinElement (s : State) (t p key j va e : Nat) (pins : List Pin) : Except Nat (List Pin × Nat) :=
  let first := min e (4096 - va % 4096)
  match pinPage s t p key j va first pins with
  | .error c => .error c
  | .ok (pins, m) =>
    if first = e then .ok (pins, m)
    else match pinPage s t p key j (va + first) (e - first) pins with
      | .error c => .error c
      | .ok (pins, m') => .ok (pins, m + m')

/-- What a probe finds: the pins it leaves, the pages newly pinned, and the first failure as (position, index, address, code). -/
def probeRun (s : State) (t p key j : Nat) (w : BitVec 256) (idx : Nat → Nat) : List Nat → List Pin → Nat → List Pin × Nat × Option (Nat × Nat × Nat × Nat)
  | [], pins, m => (pins, m, none)
  | pos :: rest, pins, m =>
    let i := if stStrided w then 0 else idx pos
    let va := stAddr w pos i
    if stSpace w = 1 then probeRun s t p key j w idx rest pins m
    else
      match pinElement s t p key j va (stElem w) pins with
      | .ok (pins, k) => probeRun s t p key j w idx rest pins (m + k)
      | .error c => (pins, m, some (pos, i, va, c))

/-- The table entries that translating an address reads (R312): what caches a partition's deep tier is touched, and an uncorrectable line among them is lost to the reader, with `f`. -/
def tableTouch (p va : Nat) (f : Plan) : Plan :=
  .get fun s =>
    let reads := tableReads s p va
    .both (Plan.each reads fun pa => deepTouch p pa 8 false)
      (match reads.findSome? fun pa => lostLineAt s p pa with
       | some (kind, line) => .both (lineLost kind line) f
       | none => .skip)

/-- PROBE_COMPLETE (R254): the pages are pinned, and the report is on its way. A stream register that `strm.set` has rewritten, or whose task has ended or been killed, keeps no pin
of it; a checkpointed task's probe ends once the task has gone on, one of a stopped engine once it does. When a probe reads its indices and the table the spec does not say: all of it
is at this tick, the word of the index queue that of its issue (DESIGN CHOICE, log 18). -/
def execProbeComplete : State → Host.Outcome State Fault Refusal :=
  (Plan.get fun s =>
    let x := s.site
    let c := s.ctxOf x.arr x.ctx x.row
    let t := towerOf x.arr
    match s.partOf x.arr x.ctx x.row with
    | none => .skip
    | some p =>
      let task := (s.part p).task x.row
      let live := c.tid == x.row && (c.stream x.a).sets == x.qpos && task.any fun k => k.state == .running
      if engineHeld s p 4 x.arr || task.any fun k => k.state == .checkpointed then after 1 rankControl (.instr .probeComplete)
      else
        let w := BitVec.ofNat 256 (fieldAt x.bytes 0 32)
        let iq := BitVec.ofNat 128 (fieldAt x.bytes 32 16)
        let spot := fun pos => s.winAddr t p (qwElem iq (qwCP iq + 8192 + pos - stCommit w))
        let idx := fun pos => if stStrided w then 0 else s.number .scratch (spot pos) 4
        let first := stProbed w
        let (pins, m, bad) := probeRun s t p (pinHolder x.arr x.row) x.a w idx ((List.range x.pos).map fun i => first + i) (s.tower t).pins 0
        let (pos, i, va, code) := bad.getD (0, 0, 0, 0)
        let report := natBytes 4 code ++ natBytes 4 pos ++ natBytes 4 i ++ natBytes 4 m ++ natBytes 8 va ++ List.replicate 8 0
        let probed := if bad.isSome then pos else first + x.pos
        let pages := (((List.range (probed - first + (if bad.isSome then 1 else 0))).map fun i => stAddr w (first + i) (idx (first + i))).map fun va => va / 4096 * 4096).eraseDups
        Plan.all
          [ .edit (.free (s.free + 1)),
            Plan.when (!stStrided w) (Plan.each (List.range x.pos) fun i => streamRead x.arr x.ctx x.row x.n (spot (first + i)) 4),
            Plan.when (stSpace w != 1) (Plan.each pages fun va => tableTouch p va (taskFault x.arr x.ctx x.row { kind := 4, unit := x.arr, ctx := x.ctx, code := 0x43, seq := x.n })),
            Plan.when live (modTower t fun v => { v with pins }),
            Plan.when (!stStrided w) (modQOf x.arr x.ctx x.row (stIq w) QW.opDone),
            presentLine t
              { arr := t * 8, rank := 6, order := x.wave, addr := s.winAddr t p x.b, presented := s.ttick t, part := p, tag := s.tagOf p x.row,
                use := .report x.arr x.ctx x.row x.n x.a x.qpos probed x.c (s.winAddr t p x.b) report } ]).step

/-- The report of a probe is written; PROBED and the object move at the same tick (R254). -/
def reportPlan (a k tid n j sets probed bo addr : Nat) (data : List Byte) : Plan :=
  .get fun s => Plan.each (s.partOf a k tid).toList fun p =>
    Plan.all
      [ scratchWrite addr data { tid, n, p := 2 ^ 40 + j },
        Plan.when ((s.ctxOf a k tid).tid == tid && ((s.ctxOf a k tid).stream j).sets == sets)
          (modStreamOf a k tid j fun v => { v with probing := false, word := stSet v.word 96 32 probed }),
        countAt s.now (towerOf a) p bo 32 1 a k tid n, settleWatch fun e => e.tid == tid && e.n == n && e.p == 2 ^ 40 + j ]

/-! ## Remote atomics (R255, R256) -/

def atomSize (o : EAtom) : Nat := if o.dword then 8 else 4

def atomCheck (o : EAtom) (s : State) : Option Chk :=
  let va := (s.x o.xa).toNat
  if va % atomSize o ≠ 0 then some { code := 0x11, sub := 0, addr := va }
  else if o.fetch && !(s.fit o.k.toNat && qwKind (s.me.qword o.k.toNat s.site.n) == 3 && qwEsz (s.me.qword o.k.toNat s.site.n) == 1) then some badWord
  else if o.bo && !s.inMyWin (o.boff.toNat * 32) 32 then some { code := 0x14, sub := 0, addr := o.boff.toNat * 32 }
  else none

def atomStall (o : EAtom) (s : State) : Option StallCause :=
  if (atomCheck o s).isSome then none
  else if !slotsFor s s.site.arr 1 || (o.fetch && decide ((s.me.qwState o.k.toNat).room < 1)) then some .queue else none

/-- An atom as it fires; `op` is MOD. -/
def fireAtom (op : Nat) (o : EAtom) : Plan :=
  .get fun s => withUid fun uid =>
    let c := s.me
    let q := c.qwState o.k.toNat
    let cut := fun (v : XWord) => v.toNat % 2 ^ (8 * atomSize o)
    let r : Req :=
      { uid, kind := .atom, part := c.part, arr := s.site.arr, ctx := s.site.ctx, n := s.site.n, tid := c.tid, tag := phaseTag c, target := .virt (s.x o.xa).toNat,
        size := atomSize o, write := true, slot := true, addr := (s.x o.xa).toNat, op, arg := cut (s.x o.xb), swap := cut (s.x (o.xb + 1)), fetch := o.fetch,
        qk := o.k.toNat, qpos := q.pr, stamp := q.stamp, bo := if o.bo then some (o.boff.toNat * 32) else none, order := s.site.wave,
        early := if o.bo then s.tick + 32 else 0 }
    Plan.all [ Plan.when o.fetch (modMyQ o.k.toNat (QW.takeOut 1)), addReq r, reqLater r rankEvent (.micro (.advance uid)) ]

def execAtom (op : Nat) (o : EAtom) : Plan := atIssue o.g (atomStall o) (atomCheck o) (fireAtom op o)

def execAtomAdd (o : EAtom) : State → Host.Outcome State Fault Refusal := (execAtom 0 o).step
def execAtomMin (o : EAtom) : State → Host.Outcome State Fault Refusal := (execAtom 1 o).step
def execAtomMax (o : EAtom) : State → Host.Outcome State Fault Refusal := (execAtom 2 o).step
def execAtomAnd (o : EAtom) : State → Host.Outcome State Fault Refusal := (execAtom 3 o).step
def execAtomOr (o : EAtom) : State → Host.Outcome State Fault Refusal := (execAtom 4 o).step
def execAtomXor (o : EAtom) : State → Host.Outcome State Fault Refusal := (execAtom 5 o).step
def execAtomSwap (o : EAtom) : State → Host.Outcome State Fault Refusal := (execAtom 6 o).step
def execAtomCas (o : EAtom) : State → Host.Outcome State Fault Refusal := (execAtom 7 o).step

/-- A signed number of `n` bytes. -/
def signedAt (n v : Nat) : Int := (BitVec.ofNat (8 * n) v).toInt

/-- The new value of an atom (R255). -/
def atomNew (op n old v swap : Nat) : Nat :=
  match op with
  | 0 => (old + v) % 2 ^ (8 * n)
  | 1 => if signedAt n v < signedAt n old then v else old
  | 2 => if signedAt n old < signedAt n v then v else old
  | 3 => old &&& v
  | 4 => old ||| v
  | 5 => old ^^^ v
  | 6 => v
  | _ => if old = v then swap else old

/-- An atom's object counts it, and its write is known to every kennel unit (R209, R293). -/
def countAtom (r : Req) : Plan :=
  .get fun s =>
    match r.bo with
    | some off => .both (countAt s.now (towerOf r.arr) r.part off r.size 1 r.arr r.ctx r.tid r.n) (settleWatch fun e => e.tid == r.tid && e.n == r.n)
    | none => .skip

/-- Whether a request goes to host memory. -/
def Req.toHost (r : Req) : Bool :=
  match r.target with
  | .phys pa => isHost pa
  | _ => false

/-- ATOM_PERFORM (R255, R256, R286): read, changed and written at one tick. The object counts it now, one to host memory when the host has acknowledged it, one that
fetches when its old value has landed (R293). -/
def execAtomPerform : State → Host.Outcome State Fault Refusal :=
  (Plan.get fun s =>
    match s.req? s.site.a with
    | none => .skip
    | some r =>
      match r.target with
      | .phys _ =>
        let old := leNat (reqRead s r)
        let done := modReq r.uid fun q => { q with stage := .performed, data := natBytes 8 old }
        .both (reqWrite r (natBytes r.size (atomNew r.op r.size old r.arg r.swap)))
          (if r.fetch then .both done (reqLater r rankEvent (.micro (.atomLand r.uid)))
           else if r.toHost then .both done (reqLater r rankEvent (.micro (.confirm r.uid)))
           else .both (countAtom r) (endReq r.uid))
      | _ => .skip).step

/-- A fetched value goes to its reserved position, after those reserved before it (R255). -/
def atomLandPlan (uid : Nat) : Plan :=
  .get fun s =>
    match s.req? uid with
    | none => .skip
    | some r =>
      let earlier := s.reqs.any fun q => q.kind == .atom && q.fetch && q.arr == r.arr && q.tid == r.tid && q.qk == r.qk && q.stamp == r.stamp && decide (q.uid < uid)
      if earlier then reqSoon 1 r rankEvent (.micro (.atomLand uid)) else presentLanding r

/-- The old value of an atom is written into its queue, and PP advances (R255). -/
def atomLanded (r : Req) : Plan :=
  .get fun s =>
    let c := s.ctxOf r.arr r.ctx r.tid
    Plan.all
      [ endReq r.uid,
        Plan.when (c.tid == r.tid && (c.qwState r.qk).stamp == r.stamp)
          (.both (scratchWrite (s.winAddr (towerOf r.arr) r.part (qwElem (c.qwState r.qk).word r.qpos)) r.data r.writeId) (engineAdvance r.arr r.ctx r.tid r.qk r.stamp true true 1)),
        countAtom r ]

/-- A landing line has performed at the data port. -/
def landPlan (uid : Nat) : Plan :=
  .get fun s =>
    match s.req? uid with
    | none => .skip
    | some r => if r.kind = .atom then atomLanded r else reqSoon 0 r rankEnd (.instr .gatherElementLand)

/-! ## Performing at a point -/

/-- The writes a request's read returns are observed by its task (R292). -/
def reqObserve (s : State) (r : Req) : Plan :=
  match r.target with
  | .window t p off => observe p 1 t off r.size r.tid r.n
  | .phys pa => Plan.each ((List.range 16).filter fun q => (s.part q).live) fun q => observe q 2 0 pa r.size r.tid r.n
  | _ => .skip

/-- What an access does when it performs at its point: a read's value is fixed, a write is written; an atom is its own event. -/
def performPlan (uid : Nat) : Plan :=
  .get fun s =>
    match s.req? uid with
    | none => .skip
    | some r =>
      let behind := r.toHost && s.reqs.any fun q => q.stage == .arrived && decide (q.arrival < r.arrival) && q.toHost
      let got := reqRead s r
      let put := reqWrite r r.data
      let done := modReq uid fun q => { q with stage := .performed }
      if behind then reqSoon 1 r rankEvent (.micro (.perform uid))
      else if (!r.write || r.kind == .atom) && r.kind != .host && (reqUncorrectable s r).isSome then
        match reqUncorrectable s r with
        | some (code, addr) => .both (match r.target, r.cell with
          | .window t p off, _ => lineLost 2 (s.winAddr t p off / 64)
          | _, some c => lineLost 0 (c / 64)
          | _, none => .skip) <| .both (modReq uid fun q => { q with stage := .fired, cell := none }) (reqFault r code 0 addr)
        | none => .skip
      else
        .both (Plan.when (!r.write || r.fetch) (reqObserve s r)) <|
        match r.kind with
        | .atom => reqSoon 0 r rankPort (.instr .atomPerform)
        | .gather => .both (modReq uid fun q => { q with stage := .performed, data := got }) (reqLater r rankEvent (.micro (.advance uid)))
        | .copyRead | .exchRead => .both (modReq uid fun q => { q with stage := .performed, data := got }) (reqLater r rankEvent (.micro (.confirm uid)))
        | .scatter => Plan.all [ put, done, reqLater r rankEvent (.instr .scatterWriteConfirm) ]
        | .copyWrite => Plan.all [ put, done, Plan.when (!r.toHost) (reqSoon 0 r rankPort (.instr .copyLineLand)), reqLater r rankEvent (.micro (.confirm uid)) ]
        | .exchWrite => Plan.all [ put, done, reqLater r rankEvent (.micro (.confirm uid)) ]
        | .message => Plan.all [ put, done, reqSoon 0 r rankPort (.instr .messageArrive) ]
        | .host => Plan.all [ if r.write then put else physWrite r.part (2 ^ 51 + r.arg) got, endReq uid, pushFront [({}, .micro (.hostPiece r.part))] ]

/-! ## What ISSUE_SELECT asks of these instructions -/

def streamsStall (i : Instr) (s : State) : Option StallCause :=
  match i with
  | .gather _ j n => streamStall true j (n.toNat + 1) s
  | .scatter _ j n => streamStall false j (n.toNat + 1) s
  | .probe _ j xa xb n => probeStall j xa xb (n.toNat + 1) s
  | .atomAdd o | .atomMin o | .atomMax o | .atomAnd o | .atomOr o | .atomXor o | .atomSwap o | .atomCas o => atomStall o s
  | .walkStart _ xa => walkStartStall xa s
  | .walkStopW .. => walkStopStall s
  | _ => none

def streamsCheck (i : Instr) (s : State) : Option Chk :=
  match i with
  | .gather _ j n => streamCheck j (n.toNat + 1) s
  | .scatter _ j n => streamCheck j (n.toNat + 1) s
  | .strmSet _ _ xa => strmSetCheck xa s
  | .probe _ j xa xb _ => probeCheck j xa xb s
  | .atomAdd o | .atomMin o | .atomMax o | .atomAnd o | .atomOr o | .atomXor o | .atomSwap o | .atomCas o => atomCheck o s
  | .walkStart _ xa => walkStartCheck xa s
  | .knBind _ xa _ => postCheck xa s
  | .knStat _ xa _ => postCheck xa s
  | _ => none

end Sys2Proof.Machine
end

