-- ==== Sys2Proof/Machine/Copies.lean ====
section
/-! DEFINITION. Copies and tier prefetches (R238-R245): firing them, the tower's copy engine, their lines and their follow-ons. -/

namespace Sys2Proof.Machine

/-! ## Firing (R239) -/

def copyWordOk (s : State) (k : BitVec 4) : Bool := s.fit k.toNat && qwKind (s.me.qword k.toNat s.site.n) == 3 && qwEsz (s.me.qword k.toNat s.site.n) == 3
def copyCheck (k : BitVec 4) (s : State) : Option Chk := if copyWordOk s k then none else some badWord
def copyStall (k : BitVec 4) (n : Nat) (s : State) : Option StallCause :=
  if copyWordOk s k && decide ((s.me.qwState k.toNat).fill < n) then some .queue else none

def fireCopy (tier : Bool) (k : BitVec 4) (n : Nat) : Plan :=
  .get fun s =>
    let q := s.me.qwState k.toNat
    .both (modMyQ k.toNat (QW.takeIn n))
      (afterAt 16 rankPortRead { s.site with a := q.cr, b := q.stamp, rowOn := phaseTag s.me } (.micro (.descRead tier s.site.arr s.me.tid k.toNat n)))

def execCopy (g : Guard) (k n1 : BitVec 4) : State → Host.Outcome State Fault Refusal :=
  (atIssue g (copyStall k (n1.toNat + 1)) (copyCheck k) (fireCopy false k (n1.toNat + 1))).step
def execTierPf (g : Guard) (k n1 : BitVec 4) : State → Host.Outcome State Fault Refusal :=
  (atIssue g (copyStall k (n1.toNat + 1)) (copyCheck k) (fireCopy true k (n1.toNat + 1))).step

/-! ## Descriptors (R238) -/

/-- The bytes of R238 in themselves. -/
def dsWellFormed (tier : Bool) (b : List Byte) : Bool :=
  dsSrc b % 64 == 0 && dsDst b % 64 == 0 && dsLen b % 64 == 0 && dsLen b != 0 && fieldAt b 20 1 / 8 == 0 && (tier || !dsCache b)
    && (!(dsSsp b && dsDsp b) || (tier && dsCache b)) && !(fieldAt b 21 1).testBit 3 && !(fieldAt b 21 1).testBit 7 && dsFollow b != 3 && dsForm b != 3
    && fieldAt b 22 1 / 16 == 0 && (if dsFollow b = 1 then decide (dsFarr b ≤ 7) else dsFarr b == 0) && fieldAt b 24 4 / 2 % 16 == 0
    && (dsFollow b != 2 || dsFrec b % 64 == 0) && fieldAt b 32 32 == 0

/-- A virtual line translates to deep-tier memory, or does not translate at all, which is its own fault later (R239, R244). -/
def deepOrFault (s : State) (p va : Nat) : Bool :=
  match translate s p va 64 with
  | .ok x => isDeep x.pa
  | .error _ => true

/-- Both addresses of a cache prefetch line translate to one deep-tier address of a stack that caches (R244, R336). -/
def cacheLineOk (s : State) (p src dst : Nat) : Bool :=
  match translate s p src 64, translate s p dst 64 with
  | .ok x, .ok y => x.pa == y.pa && decide (0 < cacheBytes (s.part p) (deepStack x.pa))
  | _, _ => true

/-- A descriptor obeys R238, R239, R242 and R244 as it is taken. -/
def descOk (s : State) (d : Desc) : Bool :=
  let b := d.bytes
  let t := towerOf d.arr
  dsWellFormed d.tier b && !(dsBoen b && dsInTower b t)
    && (dsFollow b != 1 || (!dsDsp b && dsDstTower b == t && (s.arr (8 * t + dsFarr b)).owner == some d.part && decide (256 * formBytes (dsForm b) ≤ dsLen b)))
    && (!d.tier || (dsSsp b && dsFollow b == 0 && (List.range (dsLines b)).all (fun i => deepOrFault s d.part (dsSrc b + 64 * i))
      && (!dsCache b || (dsDsp b && (List.range (dsLines b)).all fun i => cacheLineOk s d.part (dsSrc b + 64 * i) (dsDst b + 64 * i)))))

/-- The first window side of a descriptor that leaves its window: its offset. -/
def descOutside (s : State) (d : Desc) : Option Nat :=
  let b := d.bytes
  if !dsSsp b && !s.inWin (dsSrcTower b) d.part (dsSrc b) (dsLen b) then some (dsSrc b)
  else if !dsDsp b && !s.inWin (dsDstTower b) d.part (dsDst b) (dsLen b) then some (dsDst b)
  else if dsBoen b && !s.inWin (towerOf d.arr) d.part (dsBo b) 32 then some (dsBo b)
  else none

/-- A descriptor put in firing order, ties to the lower array (R239). -/
def insertDesc (d : Desc) : List Desc → List Desc
  | [] => [d]
  | e :: rest => if e.fired < d.fired || (e.fired == d.fired && decide (e.arr ≤ d.arr)) then e :: insertDesc d rest else d :: e :: rest

/-- The copy engine of a tower looks for a descriptor at a tower tick. -/
def wakeCopies (t at' : Nat) : Plan := atTower t at' rankEvent { arr := t * 8, a := t } (.instr .copyDescriptorTake)

/-- A task has been killed: what it fired and the engines have not begun does not begin (R245, R348). -/
def killedTask (s : State) (p tid : Nat) : Bool := ((s.part p).task tid).any fun t => t.state == .killed

/-- The descriptors of a `copy` or `tier.pf` read at t + 16 (R239). -/
def descReadPlan (tier : Bool) (a tid k n : Nat) : Plan :=
  .get fun s =>
    let c := s.ctxOf a s.site.ctx tid
    let t := towerOf a
    let w := (c.qwState k).word
    Plan.when (c.tid == tid && !killedTask s c.part tid) <| Plan.all
      [ Plan.each (List.range n) (fun i => withUid fun uid => .get fun s =>
          let off := qwElem w (s.site.a + i)
          let at' := s.winAddr t c.part off
          let d : Desc :=
            { uid, order := s.site.wave, tier, part := c.part, arr := a, ctx := s.site.ctx, n := s.site.n, tid, launch := c.launch, tag := s.site.rowOn, off,
              bytes := s.bytes .scratch at' 64, fired := s.tick - 16 }
          .both (controlRead a s.site.ctx tid s.site.n at' 64) (modTower t fun v => { v with descs := insertDesc d v.descs })),
        afterAt 1 rankPointer s.site (.micro (.engineWord a s.site.ctx tid k s.site.b false true n)),
        .get fun s => wakeCopies t (max (s.ttick t + 1) (s.tower t).cend) ]

def Tower.desc? (v : Tower) (uid : Nat) : Option Desc := v.descs.find? fun d => d.uid == uid
def modDesc (t uid : Nat) (f : Desc → Desc) : Plan := modTower t fun v => { v with descs := v.descs.map fun d => if d.uid == uid then f d else d }

/-- The engine is presenting a descriptor's lines. -/
def Desc.busy (s : State) (t : Nat) (d : Desc) : Bool :=
  d.taken && !d.faulted && !d.stopped && decide (d.next < dsLines d.bytes) && !engineStopped s d.part 5 t

/-- A fault of a descriptor, recorded by the copy engine (R239). -/
def descFault (t : Nat) (d : Desc) (code sub addr : Nat) : Plan :=
  .get fun s => .both (modDesc t d.uid fun d => { d with faulted := true })
    (raiseFaultFor d.part d.tid d.arr d.ctx { kind := 5, unit := t, ctx := d.ctx, code, sub, addr, seq := d.n, pos := (s.ctx d.arr d.ctx).pc })

/-- COPY_DESCRIPTOR_TAKE (R239, R240): the engine takes the next descriptor, checks it, and presents its first line at this tick. After one that faults as it is taken, and so presents
no line, it takes the next a tick later (DESIGN CHOICE, log 14: R240 defines CEND by a last line). -/
def execCopyDescriptorTake : State → Host.Outcome State Fault Refusal :=
  (Plan.get fun s =>
    let t := s.site.a
    let v := s.tower t
    if v.descs.any (Desc.busy s t) then .skip
    else if s.ttick t < v.cend then wakeCopies t v.cend
    else
      match v.descs.find? fun d => !d.taken && !d.stopped && !engineStopped s d.part 5 t with
      | none => .skip
      | some d =>
        .both (modDesc t d.uid fun d => { d with taken := true, inTower := dsInTower d.bytes t })
          (if !descOk s d then .both (descFault t d 0x01 5 d.off) (wakeCopies t (s.ttick t + 1))
           else
             match descOutside s d with
             | some off => .both (descFault t d 0x14 0 off) (wakeCopies t (s.ttick t + 1))
             | none => afterAt 0 rankEvent { arr := d.arr, ctx := d.ctx, n := d.n } (.micro (.copyLine t d.uid)))).step

/-! ## Lines (R240, R241) -/

def copyLineReq (s : State) (t : Nat) (d : Desc) (addr : Nat) (use : LineUse) : LineReq :=
  { arr := d.arr, rank := 5, order := d.uid, addr, presented := s.ttick t, part := d.part, tag := s.tagOf d.part d.tid, use }

/-- The request of one side of a line; with CACHE its destination side fills the cache line and writes nothing (R244, R336). -/
def copySide (d : Desc) (uid line : Nat) (write : Bool) (data : List Byte) : Req :=
  let b := d.bytes
  let off := (if write then dsDst b else dsSrc b) + 64 * line
  let virt := if write then dsDsp b else dsSsp b
  { uid, kind := if write then .copyWrite else .copyRead, part := d.part, arr := d.arr, ctx := d.ctx, n := d.n, order := d.order, tid := d.tid, tag := d.tag,
    early := if dsBoen b then d.fired + 32 else 0,
    target := if virt then .virt off else .window (if write then dsDstTower b else dsSrcTower b) d.part off, size := 64, write,
    data := if dsCache b then [] else data, addr := off, j := d.uid, p := line }

/-- The next line of a descriptor is presented; the engine goes on a tick later, or is free (R240). -/
def copyLinePlan (t uid : Nat) : Plan :=
  .get fun s =>
    match (s.tower t).desc? uid with
    | none => .skip
    | some d =>
      if !d.busy s t then wakeCopies t (s.ttick t)
      else
        let line := d.next
        Plan.all
          [ modDesc t uid fun d => { d with next := line + 1 },
            (if d.inTower then presentLine t (copyLineReq s t d (s.winAddr t d.part (dsSrc d.bytes + 64 * line)) (.copyRead uid line))
             else withUid fun r => .both (addReq (copySide d r line false [])) (reqLater (copySide d r line false []) rankEvent (.micro (.advance r)))),
            (if line + 1 < dsLines d.bytes then after 1 rankEvent (.micro (.copyLine t uid))
             else .both (modTower t fun v => { v with cend := s.ttick t + 1 }) (wakeCopies t (s.ttick t + 1))) ]

/-- A source line of an in-tower copy presented as a write, 8 ticks after its read (R240). -/
def copyPutPlan (t uid line : Nat) (data : List Byte) : Plan :=
  .get fun s =>
    match (s.tower t).desc? uid with
    | none => .skip
    | some d => presentLine t (copyLineReq s t d (s.winAddr t d.part (dsDst d.bytes + 64 * line)) (.copyWrite uid line data))

/-- A line of a descriptor is done with; after the last the follow-on is due at the next tick (R242, R243, R245). -/
def lineLanded (t uid : Nat) : Plan :=
  .get fun s =>
    match (s.tower t).desc? uid with
    | none => .skip
    | some d =>
      let e := { d with landed := d.landed + 1 }
      if e.landed < dsLines d.bytes && !e.over then modDesc t uid fun _ => e
      else
        let x : Site := { arr := d.arr, ctx := d.ctx, n := d.n, a := t, b := d.part, c := d.launch, pos := d.tid, bytes := d.bytes }
        .both (modTower t fun v => { v with descs := v.descs.filter fun d => d.uid != uid })
          (Plan.when (!d.stopped)
            (if dsFollow d.bytes = 1 then afterAt 1 rankEvent x (.instr .shadowLoadFollowon)
             else if dsFollow d.bytes = 2 then afterAt 1 rankPortRead x (.instr .taskPostFollowon) else .skip))

/-- The descriptor's object counts line `line`, which has performed at its destination (R241); the line's write is then known to every kennel unit (R209). -/
def countLine (t : Nat) (d : Desc) (line : Nat) : Plan :=
  .get fun s =>
    .both (modDesc t d.uid fun d => { d with counted := d.counted + 1 })
      (Plan.when (dsBoen d.bytes)
        (.both (countAt s.now t d.part (dsBo d.bytes) 64 (if d.counted + 1 = dsLines d.bytes then 1 else 0) d.arr d.ctx d.tid d.n)
          (settleWatch fun e => e.tid == d.tid && e.n == d.n && e.p == d.uid * 2 ^ 27 + line)))

/-- COPY_LINE_LAND (R241). -/
def execCopyLineLand : State → Host.Outcome State Fault Refusal :=
  (Plan.get fun s =>
    match s.req? s.site.a with
    | none => .skip
    | some r =>
      let t := towerOf r.arr
      match (s.tower t).desc? r.j with
      | none => .skip
      | some d => countLine t d r.p).step

/-- A source line has come back, or a destination has confirmed one. -/
def copyConfirm (r : Req) : Plan :=
  .get fun s =>
    let t := towerOf r.arr
    match (s.tower t).desc? r.j with
    | none => endReq r.uid
    | some d =>
      if r.kind = .copyWrite then Plan.all [ endReq r.uid, Plan.when r.toHost (countLine t d r.p), lineLanded t d.uid ]
      else withUid fun w => Plan.all [ endReq r.uid, addReq (copySide d w r.p true r.data), reqLater (copySide d w r.p true r.data) rankEvent (.micro (.advance w)) ]

/-! ## Follow-ons (R242, R243) -/

/-- A task has been killed: no follow-on of its copies runs (R245). -/
def taskKilled (s : State) (p tid : Nat) : Bool := ((s.part p).task tid).any fun t => t.state == .killed

/-- SHADOW_LOAD_FOLLOWON (R242): SGEN advances at F0; the image of each cell is read as the load goes through it and written 8 ticks later (log 14). -/
def execShadowLoadFollowon : State → Host.Outcome State Fault Refusal :=
  (Plan.get fun s =>
    let b := s.site.bytes
    let t := s.site.a
    let far := 8 * t + dsFarr b
    let z := formBytes (dsForm b)
    Plan.when (!taskKilled s s.site.b s.site.pos) <| .both (modArr far fun v => { v with sgen := (v.sgen + 1) % 2 ^ 64 })
      (Plan.each (List.range 256) fun i =>
        afterAt (i * z / 2048) rankPortRead { arr := far, ctx := s.site.ctx, n := s.site.n, a := s.site.arr, pos := s.site.pos } (.micro (.shadowRead (far * 256 + i) (dsForm b) (s.winAddr t s.site.b (dsDst b + i * z)))))).step

def shadowReadPlan (cell form addr : Nat) : Plan :=
  .get fun s =>
    let x := s.site
    .both (scratchRead addr (formBytes form) (chargeFault x.a x.ctx x.pos x.n 0x44 0 noAddr))
      (after 8 rankEngineWrite (.micro (.shadowWrite cell form (s.bytes .scratch addr (formBytes form)))))

/-- The plane image of a form (R167, R242), padded with zeros. -/
def planeImage (form : Nat) (bs : List Byte) : List Byte :=
  let img := if form = 2 then
      (List.range 8).flatMap fun n => alignedColumn ((List.range 16).map fun k => fieldAt bs (32 * n + 2 * k) 2)
    else bs
  img ++ List.replicate (1024 - img.length) 0

def shadowWritePlan (cell form : Nat) (data : List Byte) : Plan :=
  .get fun s =>
    .both (writeBytes .plane (planeAddr cell (shadowPlane s cell)) (planeImage form data)) (modCell cell fun x => { x with shready := true })

/-- TASK_POST_FOLLOWON (R243): the post record at FREC is read, once the launch queue has an entry free for it (R247, log 14). -/
def execTaskPostFollowon : State → Host.Outcome State Fault Refusal :=
  (Plan.get fun s =>
    let x := s.site
    if taskKilled s x.b x.pos then .skip
    else if queueFull s x.b then after 1 rankPortRead (.instr .taskPostFollowon)
    else Plan.all
      [ modPart x.b fun v => { v with reserved := v.reserved + 1 },
        modLaunch x.b x.c fun l => { l with live := l.live + 1 },
        postPlan x.b x.c x.arr x.ctx (dsFrec x.bytes) x.pos x.n ]).step

/-- What ISSUE_SELECT asks of these instructions. -/
def copiesStall (i : Instr) (s : State) : Option StallCause :=
  match i with
  | .copy _ k n => copyStall k (n.toNat + 1) s
  | .tierPf _ k n => copyStall k (n.toNat + 1) s
  | _ => none

def copiesCheck (i : Instr) (s : State) : Option Chk :=
  match i with
  | .copy _ k _ => copyCheck k s
  | .tierPf _ k _ => copyCheck k s
  | _ => none

end Sys2Proof.Machine
end

