-- ==== Sys2Proof/Machine/Hbm.lean ====
section
/-! DEFINITION. HBM, memory programs and the deep tier (R319-R336). -/

namespace Sys2Proof.Machine

/-! ## Slots and frames (R319, R323, R324) -/

/-- The global tick of absolute slot `x`: a slot is 2 MCK of 1.5 GHz, 5/3 of a global tick; the first tick at or after its instant. -/
def slotTick (x : Nat) : Nat := (5 * x + 2) / 3
def frameTick (f : Nat) : Nat := slotTick (512 * f)

/-- A slot of a channel: its KIND and PART; the reset table where nothing has been set (R324). -/
def slotEntry (tab : SMap Nat) (ch i : Nat) : Nat :=
  smGet (if i < 48 then 3 * 32 else if 256 ≤ i ∧ i < 272 then 4 * 32 else 0) tab (ch * 512 + i)
def slotKind (e : Nat) : Nat := e / 32 % 8
def slotPart (e : Nat) : Nat := e % 16

/-! ## Command words (R329) -/

/-- A word malformed in itself (R329). -/
def cwMalformed (w : BitVec 64) : Bool :=
  decide (8 ≤ cwCmd w) || w.extractLsb' 0 21 != 0 || (cwCmd w != 1 && cwRow w != 0) || (!cwIsCol w && cwCol w != 0)
    || ((cwCmd w == 0 || cwCmd w == 7) && w.extractLsb' 41 10 != 0)

/-! ## Running programs -/

def mpNcmd (m : MemProg) : Nat := fieldAt m.record 4 4
def mpStack (m : MemProg) : Nat := fieldAt m.record 8 1
def mpBoen (m : MemProg) : Bool := (fieldAt m.record 9 1).testBit 0
def mpBo (m : MemProg) : Nat := fieldAt m.record 16 4

/-- The absolute slots of command words after a command at slot `last`: SKIP slots on from the one before, and not before slot `floor`, the first of a frame still to be checked
(R329, R331; log 14). -/
def slotsAfter (floor last : Nat) (ws : List (BitVec 64)) : List Nat :=
  (ws.foldl (fun (acc : Nat × List Nat) w => (max (acc.1 + cwSkip w) floor, acc.2 ++ [max (acc.1 + cwSkip w) floor])) (last, [])).2

/-- The slot of a program's END, once its words are all read and it has its start frame. -/
def MemProg.endSlot (m : MemProg) : Option Nat := if m.wordsRead then m.slots.getLast? else none

def mpUses (m : MemProg) (ch : Nat) : Bool := m.words.any fun w => cwCmd w != 0 && cwCmd w != 7 && cwCh w == ch

/-- A program runs at a slot: from its start frame to the end of the frame that holds its END slot (R325, R331). -/
def MemProg.runsAt (m : MemProg) (x : Nat) : Bool :=
  !m.dead && m.start.any (fun f => decide (512 * f ≤ x)) && m.endSlot.all fun e => decide (x / 512 ≤ e / 512)

/-- The controller has banks of an abandoned program still to close on a channel (R331). -/
def closingFor (k : Stack) (m : MemProg) (ch x : Nat) : Bool :=
  m.dead && k.banks.any fun (key, b) => key / 32 == ch && b.prog == some m.uid && (b.row.isSome || decide (x < b.closed))

/-- A partition has a program running on a channel at a slot, or banks of an abandoned one still to be closed there (R325). -/
def mpRunning (k : Stack) (p ch x : Nat) : Bool := k.progs.any fun m => m.part == p && ((mpUses m ch && m.runsAt x) || closingFor k m ch x)

/-- The refresh watchdog refreshes a pseudo-channel in this frame (R333). -/
def dogHolds (k : Stack) (pc f : Nat) : Bool := k.dog.any fun e => e.1 == pc && decide (e.2 ≤ f) && (f - e.2) % 5 == 0
def dogSlot (k : Stack) (pc x : Nat) : Bool := dogHolds k pc (x / 512) && decide (x % 512 < 192)

/-- The slot table of a frame: the new one from the first boundary after SLOT.SET on (R319, R323). -/
def tableAt (k : Stack) (f : Nat) : SMap Nat :=
  match k.slotsNew.reverse.find? fun n => decide (k.frame < f) && decide (n.1 < frameTick f) with
  | some n => n.2
  | none => k.slots

/-- A slot the dynamic path may use on a channel's pseudo-channel: dynamic, idle, or static with no program of its owner running (R325). -/
def dynSlot (k : Stack) (pc x : Nat) : Bool :=
  let e := slotEntry (tableAt k (x / 512)) (pc / 2) (x % 512)
  !dogSlot k pc x && (slotKind e == 0 || slotKind e == 2 || (slotKind e == 1 && !mpRunning k (slotPart e) (pc / 2) x))

/-- The first slot from `x` on that the dynamic path may not use: by then every bank it opened is closed (R326). Refresh slots open every frame. -/
def dynRunEnd (k : Stack) (pc x : Nat) : Nat := x + ((List.range 513).find? fun i => !dynSlot k pc (x + i)).getD 513

/-- A slot whose line a partition's requests may have: its own, an idle one, or one of a partition that donates. -/
def usableBy (s : State) (k : Stack) (p pc x : Nat) : Bool :=
  let e := slotEntry (tableAt k (x / 512)) (pc / 2) (x % 512)
  dynSlot k pc x && (slotKind e == 0 || slotPart e == p || (s.part (slotPart e)).don)

/-! ## The dynamic path (R335) -/

def bankOf (k : Stack) (pc b : Nat) : DramBank := smGet {} k.banks (pc * 16 + b)
def setBank (st pc b : Nat) (v : DramBank) : Plan := modStack st fun k => { k with banks := smSet k.banks (pc * 16 + b) v }

/-- The slot from which a bank is closed when a column command at `x` is its last. -/
def closeAfter (b : DramBank) (wrote : Bool) (x : Nat) : Nat := max (b.act + 24) (x + (if wrote then 12 else 4)) + 11

/-- A queued request whose bank has its row open and can take a column command at slot `x`, and close in time. -/
def colReady (k : Stack) (pc x stop : Nat) (e : PortEntry) : Bool :=
  let b := bankOf k pc e.bank
  b.prog.isNone && b.row == some e.row && b.part == e.part && decide (b.act + 11 ≤ x) && decide (closeAfter b e.write x ≤ stop)
    && (match k.cols.find? fun c => c.1 == pc * 4 + e.bank / 4 with
      | some c => decide (c.2 + 2 ≤ x)
      | none => true)

/-- A queued request is the oldest of its partition for its row: an open row serves its requests in arrival order (R335). -/
def rowHead (q : List PortEntry) (e : PortEntry) : Bool :=
  (q.takeWhile fun f => f.req != e.req).all fun f => !(f.part == e.part && f.bank == e.bank && f.row == e.row)

/-- The banks of a pseudo-channel that the dynamic path has open. -/
def openRows (k : Stack) (pc : Nat) : Nat := ((List.range 16).filter fun i => (bankOf k pc i).row.isSome && (bankOf k pc i).prog.isNone).length

/-- A queued request whose bank can take an ACT at slot `x`: the rules of R330 between ACTs, and room to serve it and close before the run ends. -/
def actReady (s : State) (k : Stack) (pc x stop : Nat) (e : PortEntry) : Bool :=
  let b := bankOf k pc e.bank
  let acts := smGet [] k.acts pc
  b.row.isNone && decide (b.closed ≤ x) && (decide (b.act = 0) || decide (b.act + 35 ≤ x)) && (match acts with
      | a :: _ => decide (a + 2 ≤ x)
      | [] => true)
    && (match acts.drop 3 with
      | a :: _ => decide (a + 12 ≤ x)
      | [] => true)
    && (List.range (stop - x)).any fun i => decide (11 ≤ i) && decide (closeAfter { act := x } e.write (x + i) ≤ stop) && usableBy s k e.part pc (x + i)

/-- An earlier entry of the queue touches a byte that an entry does (R335). -/
def behindCommon (q : List PortEntry) (e : PortEntry) : Bool :=
  (q.takeWhile fun f => f.req != e.req).any fun f => decide (f.cell < e.cell + e.size) && decide (e.cell < f.cell + f.size)

/-- The requests queued behind one for its row. -/
def rowMates (q : List PortEntry) (e : PortEntry) : Bool := q.any fun f => f.req != e.req && f.part == e.part && f.bank == e.bank && f.row == e.row

/-- A partition is served in slot `x` of a pseudo-channel: one column command to the oldest request ready for it, and, with the slot's row command free, one ACT for the oldest that
can take it. -/
def serveSlot (st pc p x : Nat) (free : Bool) : Plan :=
  .get fun s =>
    let k := s.stack st
    let stop := dynRunEnd k pc x
    let q := smGet [] k.ports pc
    let mine := q.filter fun e => e.part == p
    let col := mine.find? fun e => colReady k pc x stop e && rowHead q e && !behindCommon q e
    let act := if free then mine.find? (actReady s k pc x stop) else none
    .both
      (match col with
       | none => .skip
       | some e =>
         let b := bankOf k pc e.bank
         let last := !rowMates q e || decide (stop < closeAfter b e.write (x + 2 + openRows k pc))
         Plan.all
           [ modStack st fun k => { k with ports := smSet k.ports pc (q.filter fun f => f.req != e.req), cols := smSet k.cols (pc * 4 + e.bank / 4) x },
             setBank st pc e.bank (if last then { b with row := none, closed := closeAfter b e.write x } else { b with col := x, wrote := e.write }),
             Plan.each (e.req :: e.more) performPlan ])
      (match act with
       | none => .skip
       | some e =>
         .both (setBank st pc e.bank { row := some e.row, part := e.part, act := x })
           (modStack st fun k => { k with acts := smSet k.acts pc (x :: (smGet [] k.acts pc).take 7) }))

/-- A slot does something for a partition. -/
def serves (s : State) (k : Stack) (pc p x : Nat) (free : Bool) : Bool :=
  let stop := dynRunEnd k pc x
  let q := smGet [] k.ports pc
  (q.filter fun e => e.part == p).any fun e => (colReady k pc x stop e && rowHead q e && !behindCommon q e) || (free && actReady s k pc x stop e)

/-- The bank that slot `x` precharges: its open row no request is served from any more before the run ends. A slot has one row command, so each open bank's comes that much sooner (R326,
R330). -/
def idleBank (k : Stack) (pc x : Nat) : Option Nat :=
  let stop := dynRunEnd k pc x
  (List.range 16).find? fun i =>
    let b := bankOf k pc i
    b.row.isSome && b.prog.isNone && decide (b.act + 24 ≤ x) && (b.col == 0 || decide (b.col + (if b.wrote then 12 else 4) ≤ x))
      && decide (stop < closeAfter b true (x + 2 + openRows k pc))

/-! ## Memory-program commands (R330, R332) -/

def modProg (st uid : Nat) (f : MemProg → MemProg) : Plan := modStack st fun k => { k with progs := k.progs.map fun m => if m.uid == uid then f m else m }
def Stack.prog? (k : Stack) (uid : Nat) : Option MemProg := k.progs.find? fun m => m.uid == uid

/-- The physical address of a DRAM line under a partition's masks: the inverse of R320, which is one to one. -/
def paOf (k : Stack) (p st pc bank row col : Nat) : Nat :=
  let fix := fun (i m l : Nat) => if parity (l &&& m) then 2 ^ i else 0
  let top := st * 2 ^ 30 + row * 2 ^ 14
  let b := (List.range 4).foldl (fun n i => n ^^^ fix i (hmbOf k p i) top) bank
  let high := top + b * 2 ^ 10 + col * 2 ^ 6
  let low := (List.range 6).foldl (fun n j => n ^^^ fix j (hmpOf k p j) high) pc
  (high + low) * 64

/-- All lines of a program have landed and been written: one completion arrival is on its way (R332). -/
def mpSettle (st uid : Nat) : Plan :=
  .get fun s =>
    match (s.stack st).prog? uid with
    | none => .skip
    | some m =>
      Plan.when (m.ended && !m.dead && !m.completing && !m.sent && m.settled)
        (if mpBoen m then
           .both (modProg st uid fun m => { m with completing := true })
             (withFree Config.offDomainBound fun d => afterAt (1 + d) rankControl { arr := m.arr, ctx := m.ctx, n := m.n, a := st, b := uid } (.instr .mpCompletion))
         else modProg st uid fun m => { m with sent := true })

/-- A fault of a memory program, recorded by its stack's controller. -/
def progFault (st : Nat) (m : MemProg) (code sub addr : Nat) : Plan :=
  .get fun s => taskFault m.arr m.ctx m.tid { kind := 6, unit := st, ctx := m.ctx, code, sub, addr, seq := m.n, pos := (s.ctx m.arr m.ctx).pc }

/-- A command's part in its bank at slot `x`: its row opens, or a precharge starts, of itself or after RDA and WRA (R330). -/
def mpBank (st : Nat) (m : MemProg) (w : BitVec 64) (x : Nat) : Plan :=
  .get fun s =>
    let k := s.stack st
    let pc := cwPc w
    let b := bankOf k pc (cwBank w)
    match cwCmd w with
    | 1 =>
      .both (setBank st pc (cwBank w) { row := some (cwRow w), part := m.part, act := x, prog := some m.uid })
        (modStack st fun k => { k with acts := smSet k.acts pc (x :: (smGet [] k.acts pc).take 7) })
    | 2 => setBank st pc (cwBank w) { b with row := none, closed := x + 11 }
    | 3 | 5 => setBank st pc (cwBank w) { b with col := x, wrote := cwIsWrite w }
    | 4 | 6 => setBank st pc (cwBank w) { b with row := none, closed := closeAfter b (cwIsWrite w) x }
    | _ => .skip

/-- One command performed at its slot `x` (MP_COMMAND). A line read that is uncorrectable is not delivered, so PP never passes its position (R322). -/
def mpCommand (st uid x i : Nat) : Plan :=
  .get fun s =>
    match (s.stack st).prog? uid with
    | none => .skip
    | some m =>
      let w := m.words.getD i 0
      let row := (bankOf (s.stack st) (cwPc w) (cwBank w)).row.getD 0
      let c : Coord := { stack := st, pc := cwPc w, bank := cwBank w, row, col := cwCol w }
      let pa := paOf (s.stack st) m.part st c.pc c.bank c.row c.col
      let site : Site := { arr := m.arr, ctx := m.ctx, n := m.n }
      Plan.all
        [ mpBank st m w x,
          (if cwIsRead w then
             if s.marked 0 (c.cell / 64) then
               Plan.all [ modProg st uid fun m => { m with rdNext := m.rdNext + 1, lost := m.lost.or (some m.rdNext) }, lineLost 0 (c.cell / 64), progFault st m 0x43 0 pa ]
             else .both (modProg st uid fun m => { m with rdNext := m.rdNext + 1 })
               (withFree Config.offDomainBound fun d => afterAt (1 + d) rankPort site (.micro (.mpLand st uid m.rdNext (s.bytes .hbm c.cell 64))))
           else if cwIsWrite w then
             let cx := s.ctxOf m.arr m.ctx m.tid
             let at' := s.winAddr (towerOf m.arr) m.part (qwElem (cx.qwState m.wq).word (m.wpos + m.wrDone))
             Plan.all
               [ scratchRead at' 64 (progFault st m 0x44 0 noAddr), writeBytes .hbm c.cell (s.bytes .scratch at' 64), unmark 0 6 c.cell 64,
                 Plan.each ((List.range 16).filter fun q => (s.part q).live) (fun q => bumpWatch q 2 0 pa 64 { tid := m.tid, n := m.n }),
                 modProg st uid fun m => { m with wrDone := m.wrDone + 1 },
                 afterAt 1 rankPointer site (.micro (.engineWord m.arr m.ctx m.tid m.wq m.wstamp false (m.wrDone + 1 == m.nwr) 1)), mpSettle st uid ]
           else if cwCmd w = 7 then .both (modProg st uid fun m => { m with ended := true }) (mpSettle st uid) else .skip) ]

/-- A read line reaches the tower of its queue: it is presented to the data port once the line before it has performed (R332). -/
def mpLandPlan (st uid idx : Nat) (data : List Byte) : Plan :=
  .get fun s =>
    match (s.stack st).prog? uid with
    | none => .skip
    | some m =>
      if m.lost.any (· ≤ idx) then .skip
      else if m.rdDone ≠ idx then after 1 rankPort (.micro (.mpLand st uid idx data))
      else
        let t := towerOf m.arr
        let at' := s.winAddr t m.part (qwElem ((s.ctxOf m.arr m.ctx m.tid).qwState m.rq).word (m.rpos + idx))
        presentLine t { arr := t * 8, rank := 6, order := m.order, addr := at', presented := s.ttick t, part := m.part, tag := s.tagOf m.part m.tid, use := .mpLanding st uid idx data }

/-- A read line performs in its queue's ring, and PP advances at the next tick (R332). -/
def mpLandedPlan (st uid idx : Nat) (data : List Byte) : Plan :=
  .get fun s =>
    match (s.stack st).prog? uid with
    | none => .skip
    | some m =>
      let at' := s.winAddr (towerOf m.arr) m.part (qwElem ((s.ctxOf m.arr m.ctx m.tid).qwState m.rq).word (m.rpos + idx))
      Plan.all
        [ scratchWrite at' data { tid := m.tid, n := m.n }, modProg st uid fun m => { m with rdDone := m.rdDone + 1 },
          afterAt 1 rankPointer { arr := m.arr, ctx := m.ctx, n := m.n } (.micro (.engineWord m.arr m.ctx m.tid m.rq m.rstamp true (idx + 1 == m.nrd) 1)),
          mpSettle st uid ]

/-- MP_COMPLETION (R332): the object at BO counts 64 bytes or one operation; what the program wrote is then known to every kennel unit (R209). -/
def execMpCompletion : State → Host.Outcome State Fault Refusal :=
  (Plan.get fun s =>
    match (s.stack s.site.a).prog? s.site.b with
    | none => .skip
    | some m =>
      .both (modProg s.site.a m.uid fun m => { m with sent := true })
        (if s.inWin (towerOf m.arr) m.part (mpBo m) 32 then
           .both (countAt s.now (towerOf m.arr) m.part (mpBo m) 64 1 m.arr m.ctx m.tid m.n) (settleWatch fun e => e.tid == m.tid && e.n == m.n)
         else progFault s.site.a m 0x14 0 (mpBo m))).step

/-! ## A slot (R325) -/

def bookSlot (st p ch cls : Nat) : Plan := modStack st fun k =>
  let key := (p * 32 + ch) * 4 + cls
  { k with acct := smSet k.acct key (smGet 0 k.acct key + 1) }

/-- The partitions after the one last served by donation on a channel, round-robin (R325). -/
def donationOrder (last : Nat) : List Nat := (List.range 16).map fun i => (last + 1 + i) % 16

/-- A slot given to the dynamic requests of other partitions, if any can use it. -/
def donate (s : State) (st pc owner x : Nat) (free : Bool) : Option Nat :=
  (donationOrder (smGet 15 (s.stack st).donPtr (pc / 2))).find? fun q => q != owner && serves s (s.stack st) pc q x free

/-- The abandoned programs' banks of a partition on a pseudo-channel that a precharge may now close (R331). -/
def deadBanks (k : Stack) (p pc x : Nat) : List Nat :=
  (List.range 16).filter fun i =>
    let b := bankOf k pc i
    b.row.isSome && k.progs.any (fun m => m.part == p && m.dead && b.prog == some m.uid) && decide (b.act + 24 ≤ x)
      && (b.col == 0 || decide (b.col + (if b.wrote then 12 else 4) ≤ x))

/-- One pseudo-channel's slot (R325): classes 0 static used, 1 dynamic used, 2 received by donation, 3 unused. -/
def pcSlot (st pc x : Nat) : Plan :=
  .get fun s =>
    let k := s.stack st
    let ch := pc / 2
    let e := slotEntry k.slots ch (x % 512)
    let p := slotPart e
    let idle := idleBank k pc x
    let give := fun owner (other : Plan) => match donate s st pc owner x idle.isNone with
      | some q => Plan.all [ bookSlot st q ch 2, modStack st fun k => { k with donPtr := smSet k.donPtr ch q }, serveSlot st pc q x idle.isNone ]
      | none => other
    .both (Plan.each idle.toList fun i => setBank st pc i { bankOf k pc i with row := none, closed := x + 11, col := 0 })
      (if slotKind e == 3 || slotKind e == 4 then .skip
       else if dogSlot k pc x then Plan.when (slotKind e != 0) (bookSlot st p ch 3)
       else if slotKind e = 0 then give 16 .skip
       else if slotKind e = 1 ∧ mpRunning k p ch x then
         match (deadBanks k p pc x).head? with
         | some i => .both (bookSlot st p ch 0) (setBank st pc i { bankOf k pc i with row := none, closed := x + 11 })
         | none =>
           match k.progs.find? fun m => m.part == p && m.runsAt x with
           | none => bookSlot st p ch 3
           | some m =>
             let cmds := (List.range m.words.length).filter fun i =>
               m.slots.getD i 0 == x && cwPc (m.words.getD i 0) == pc && cwCmd (m.words.getD i 0) != 0 && cwCmd (m.words.getD i 0) != 7
             if cmds.isEmpty then bookSlot st p ch 3
             else .both (bookSlot st p ch 0) (Plan.each cmds (mpCommand st m.uid x))
       else if serves s k pc p x idle.isNone then .both (bookSlot st p ch 1) (serveSlot st pc p x idle.isNone)
       else if (s.part p).don then give p (bookSlot st p ch 3)
       else bookSlot st p ch 3)

/-- Programs whose END stands at a slot end there. -/
def endPrograms (st x : Nat) : Plan :=
  .get fun s => Plan.each ((s.stack st).progs.filter fun m => m.runsAt x && !m.ended) fun m =>
    Plan.each ((List.range m.words.length).filter fun i => m.slots.getD i 0 == x && cwCmd (m.words.getD i 0) == 7) (mpCommand st m.uid x)

/-- The banks whose refresh a frame's schedule calls for: four in turn, so that each is refreshed every fourth frame, within 3.9 µs (R333). -/
def dueBanks (f : Nat) : List Nat := (List.range 4).map fun i => (f * 4 + i) % 16

/-- The pseudo-channels refreshed in a frame: those the steward keeps by the schedule, those of the watchdog whole (R333). -/
def refreshed (k : Stack) (f : Nat) : List (Nat × Nat) :=
  (List.range 64).flatMap fun pc =>
    if k.dog.any (fun e => e.1 == pc) then (if dogHolds k pc f then (List.range 16).map fun b => (pc, b) else [])
    else if !k.lost.testBit pc then (dueBanks f).map fun b => (pc, b) else []

/-- The pseudo-channels whose refresh window of frame `f` has passed without the refreshes its schedule called for (R333). -/
def missedRefresh (k : Stack) (f : Nat) : List Nat :=
  (List.range 64).filter fun pc => !(k.dog.any fun e => e.1 == pc) && (dueBanks f).any fun b => smGet 0 k.refAt (pc * 16 + b) != f + 1

/-- The steward's work in a frame: refreshes in the pseudo-channels it keeps (R333), one pseudo-channel retrained (R334). Past the refresh window the watchdog takes over the
pseudo-channels that have missed theirs. -/
def stewardSlot (st x : Nat) : Plan :=
  .get fun s =>
    let k := s.stack st
    let f := x / 512
    Plan.all
      [ Plan.when (x % 512 == 0) (modStack st fun k => { k with refAt := (refreshed k f).foldl (fun m (pc, b) => smSet m (pc * 16 + b) (f + 1)) k.refAt }),
        Plan.when (x % 512 == 48 && !(missedRefresh k f).isEmpty)
          (pushFront [({ a := st, b := ((missedRefresh k f).map fun pc => 2 ^ pc).foldl (· + ·) 0 }, .instr .refreshWatchdog)]),
        Plan.when (x % 512 == 256) (modStack st fun k => { k with training := (k.training + 1) % 64 }) ]

/-- HBM_SLOT: one slot of a stack, in every pseudo-channel (R325, R330, R333-R335). -/
def execHbmSlot : State → Host.Outcome State Fault Refusal :=
  (Plan.get fun s =>
    let st := s.site.a
    let x := s.site.b
    Plan.when (s.stack st).up <| Plan.all
      [ stewardSlot st x, Plan.each (List.range 64) fun pc => pcSlot st pc x, endPrograms st x,
        atTick (slotTick (x + 1)) rankSchedule none { a := st, b := x + 1 } (.instr .hbmSlot) ]).step

/-! ## `mp.run` (R327, R328) -/

def mpQueueOk (s : State) (k : BitVec 4) : Bool := s.fit k.toNat && qwKind (s.me.qword k.toNat s.site.n) == 3 && qwEsz (s.me.qword k.toNat s.site.n) == 3

def mpCheck (xa : BitVec 5) (rq : BitVec 4) (nrd : BitVec 13) (wq : BitVec 4) (nwr : BitVec 13) (s : State) : Option Chk :=
  match postCheck xa s with
  | some f => some f
  | none => if (nrd != 0 && !mpQueueOk s rq) || (nwr != 0 && !mpQueueOk s wq) then some badWord else none

/-- It fires once its queues have room and elements, and no fence holds its accesses back (R88, R160). -/
def mpStall (xa : BitVec 5) (rq : BitVec 4) (nrd : BitVec 13) (wq : BitVec 4) (nwr : BitVec 13) (s : State) : Option StallCause :=
  if (mpCheck xa rq nrd wq nwr s).isSome then none
  else if (nrd != 0 && decide ((s.me.qwState rq.toNat).room < nrd.toNat)) || (nwr != 0 && decide ((s.me.qwState wq.toNat).fill < nwr.toNat))
      || !fencesOpen s s.site.arr s.site.ctx s.me.tid s.site.n then some .queue else none

def execMpRun (g : Guard) (xa : BitVec 5) (rq : BitVec 4) (nrd : BitVec 13) (wq : BitVec 4) (nwr : BitVec 13) : State → Host.Outcome State Fault Refusal :=
  (atIssue g (mpStall xa rq nrd wq nwr) (mpCheck xa rq nrd wq nwr) (.get fun s => withUid fun uid =>
    let c := s.me
    let r := c.qwState rq.toNat
    let w := c.qwState wq.toNat
    let m : MemProg :=
      { uid, part := c.part, arr := s.site.arr, ctx := s.site.ctx, n := s.site.n, tid := c.tid, off := (s.x xa).toNat, issued := s.now, record := [],
        rq := rq.toNat, rstamp := r.stamp, nrd := nrd.toNat, rpos := r.pr, wq := wq.toNat, wstamp := w.stamp, nwr := nwr.toNat, wpos := w.cr, order := s.site.wave, tag := phaseTag s.me }
    Plan.all
      [ Plan.when (nrd != 0) (modMyQ rq.toNat (QW.takeOut nrd.toNat)), Plan.when (nwr != 0) (modMyQ wq.toNat (QW.takeIn nwr.toNat)),
        after 16 rankPortRead (.micro (.mpRecord s.site.arr m.off c.tid m)) ])).step

/-- A stack on which a partition holds an extent (R328). -/
def holdsOn (v : Part) (k : Nat) : Bool := v.ext.any fun (b, l) => decide (b < (k + 1) * 2 ^ 36) && decide (k * 2 ^ 36 < l) && decide (b < l)

/-- A memory-program record obeys R328. -/
def mpRecordOk (s : State) (t p : Nat) (b : List Byte) : Bool :=
  let prog := fieldAt b 0 4
  let ncmd := fieldAt b 4 4
  let flags := fieldAt b 9 1
  prog % 64 == 0 && decide (1 ≤ ncmd) && decide (ncmd ≤ 65536) && s.inWin t p prog (8 * ncmd) && decide (fieldAt b 8 1 ≤ 7) && holdsOn (s.part p) (fieldAt b 8 1)
    && flags / 2 == 0 && fieldAt b 10 6 == 0 && fieldAt b 16 4 % 32 == 0 && (flags == 1 || fieldAt b 16 4 == 0) && fieldAt b 20 44 == 0

/-- The lines a program has read and delivers: those before the first that was uncorrectable. -/
def MemProg.rdEnd (m : MemProg) : Nat := match m.lost with
  | some i => min i m.rdNext
  | none => m.rdNext

/-- The reservations of lines a program has not moved are given back (R328, R331); lines read that have not landed keep theirs. -/
def mpRelease (m : MemProg) : Plan :=
  .get fun s =>
    let c := s.ctxOf m.arr m.ctx m.tid
    Plan.when (c.tid == m.tid) <| .both
      (Plan.when (decide (m.rdEnd < m.nrd) && (c.qwState m.rq).stamp == m.rstamp) (modQOf m.arr m.ctx m.tid m.rq fun q =>
        { q with pr := (q.pr + 8192 - (m.nrd - m.rdEnd)) % 8192, ops := q.ops - (if m.rdDone = m.rdEnd then 1 else 0) }))
      (Plan.when (decide (m.wrDone < m.nwr) && (c.qwState m.wq).stamp == m.wstamp) (modQOf m.arr m.ctx m.tid m.wq fun q =>
        { q with cr := (q.cr + 8192 - (m.nwr - m.wrDone)) % 8192, ops := q.ops - 1 }))

/-- A program put among those of its stack, which stand in the order of issue (R331). -/
def insertProg (m : MemProg) (ps : List MemProg) : List MemProg :=
  let later := fun (o : MemProg) => decide (m.issued < o.issued) || (m.issued == o.issued && decide (m.order < o.order))
  (ps.takeWhile fun o => !later o) ++ m :: ps.dropWhile fun o => !later o

/-- The record of a memory program read at t + 16 (R328); one whose task has been killed does not begin, and one whose stack the leash has reached ends with the frame (R332). -/
def mpRecordPlan (a off tid : Nat) (m : MemProg) : Plan :=
  .get fun s =>
    let t := towerOf a
    let at' := s.winAddr t m.part off
    let b := s.bytes .scratch at' 64
    let st := fieldAt b 8 1
    let stop := if (s.part m.part).stops.any fun e => e.kind == 6 && e.unit == st then some ((s.stack st).frame + 1) else none
    if killedTask s m.part tid then mpRelease m
    else .both (controlRead a s.site.ctx tid m.n at' 64)
      (if mpRecordOk s t m.part b then
         .both (modStack st fun k => { k with progs := insertProg { m with record := b, stop } k.progs }) (after 1 rankPortRead (.micro (.mpLine st m.uid 0)))
       else .both (mpRelease m) (chargeFault a s.site.ctx tid m.n 0x01 7 off))

/-- A line of command words read, one a tick from t + 17 (R328). -/
def mpLinePlan (st uid i : Nat) : Plan :=
  .get fun s =>
    match (s.stack st).prog? uid with
    | none => .skip
    | some m =>
      let n := min 8 (mpNcmd m - 8 * i)
      let at' := s.winAddr (towerOf m.arr) m.part (fieldAt m.record 0 4 + 64 * i)
      let ws := (List.range n).map fun j => BitVec.ofNat 64 (s.number .scratch (at' + 8 * j) 8)
      let floor := 512 * ((s.stack st).frame + 1)
      Plan.all
        [ controlRead m.arr m.ctx m.tid m.n at' (8 * n),
          modProg st uid fun m => { m with words := m.words ++ ws, slots := if m.start.isSome then m.slots ++ slotsAfter floor (m.slots.getLast?.getD floor) ws else m.slots },
          Plan.when (decide (8 * (i + 1) < mpNcmd m)) (after 1 rankPortRead (.micro (.mpLine st uid (i + 1)))) ]

/-! ## The frame check (R330, R331) -/

/-- What the checker knows of a bank: its last ACT, last column command, whether its row is open, the slot its precharge starts. -/
structure ChkBank where
  act : Option Nat := none
  rd : Option Nat := none
  wr : Option Nat := none
  opened : Bool := false
  pre : Option Nat := none
  deriving DecidableEq, Repr

structure ChkState where
  banks : SMap ChkBank := []
  acts : SMap (List (Nat × Nat)) := []
  cols : SMap Nat := []
  rowAt : SMap Nat := []
  colAt : SMap Nat := []
  reads : Nat := 0
  writes : Nat := 0
  deriving DecidableEq, Repr

def since (o : Option Nat) (x gap : Nat) : Bool := match o with
  | some a => decide (a + gap ≤ x)
  | none => true

/-- The first timing rule a command at slot `x` breaks (R330), of the sub-codes that look back. -/
def timingBreach (m : MemProg) (c : ChkState) (i : Nat) (w : BitVec 64) (x : Nat) : Option Nat :=
  let pc := cwPc w
  let b := smGet {} c.banks (pc * 16 + cwBank w)
  let acts := smGet [] c.acts pc
  let isAct := cwCmd w == 1
  let isPre := cwCmd w == 2
  let col := cwIsCol w
  let last := i + 1 == mpNcmd m
  if cwMalformed w || (cwCmd w == 7) != last then some 0
  else if col && b.opened && !since b.act x 11 then some 1
  else if isAct && !b.opened && !since b.pre x 11 then some 2
  else if isPre && b.opened && !since b.act x 24 then some 3
  else if isAct && !since b.act x 35 then some 4
  else if isAct && acts.any (fun a => a.2 != cwBank w && decide (x < a.1 + 2)) then some 5
  else if isAct && (match acts.drop 3 with
    | a :: _ => decide (x < a.1 + 12)
    | [] => false) then some 6
  else if (isPre && b.opened && !since b.wr x 12) || (cwCmd w == 4 && b.opened && !since b.wr (max (b.act.getD 0 + 24) (x + 4)) 12) then some 7
  else if isPre && b.opened && !since b.rd x 4 then some 8
  else if (col && c.cols.any (fun g => g.1 == pc * 4 + cwBank w / 4 && decide (x < g.2 + 2))) || (col && c.colAt.any fun g => g.1 == pc && g.2 == x)
      || ((isAct || isPre) && c.rowAt.any fun g => g.1 == pc && g.2 == x) then some 9
  else if (isAct && b.opened) || ((col || isPre) && !b.opened) then some 10
  else if (cwIsRead w && decide (m.nrd ≤ c.reads)) || (cwIsWrite w && decide (m.nwr ≤ c.writes)) || (cwCmd w == 7 && (c.reads != m.nrd || c.writes != m.nwr)) then some 12
  else none

/-- The checker after a command. -/
def ChkState.after (c : ChkState) (w : BitVec 64) (x : Nat) : ChkState :=
  let pc := cwPc w
  let key := pc * 16 + cwBank w
  let b := smGet {} c.banks key
  let actAt := b.act.getD 0
  match cwCmd w with
  | 1 => { c with banks := smSet c.banks key { act := some x, opened := true }, acts := smSet c.acts pc ((x, cwBank w) :: (smGet [] c.acts pc).take 7), rowAt := smSet c.rowAt pc x }
  | 2 => { c with banks := smSet c.banks key { b with opened := false, pre := some x }, rowAt := smSet c.rowAt pc x }
  | 3 => { c with banks := smSet c.banks key { b with rd := some x }, cols := smSet c.cols (pc * 4 + cwBank w / 4) x, colAt := smSet c.colAt pc x, reads := c.reads + 1 }
  | 4 => { c with banks := smSet c.banks key { b with opened := false, pre := some (max (actAt + 24) (x + 4)) }, cols := smSet c.cols (pc * 4 + cwBank w / 4) x,
                  colAt := smSet c.colAt pc x, reads := c.reads + 1 }
  | 5 => { c with banks := smSet c.banks key { b with wr := some x }, cols := smSet c.cols (pc * 4 + cwBank w / 4) x, colAt := smSet c.colAt pc x, writes := c.writes + 1 }
  | 6 => { c with banks := smSet c.banks key { b with opened := false, pre := some (max (actAt + 24) (x + 12)) }, cols := smSet c.cols (pc * 4 + cwBank w / 4) x,
                  colAt := smSet c.colAt pc x, writes := c.writes + 1 }
  | _ => c

/-- The slot from which the bank an ACT opens is closed, by the commands that follow it: none if none of them starts its precharge. -/
def closedFrom (ws : List (BitVec 64)) (slots : List Nat) (i : Nat) : Option Nat :=
  let w := ws.getD i 0
  ((List.range ws.length).find? fun j =>
      let v := ws.getD j 0
      decide (i < j) && cwPc v == cwPc w && cwBank v == cwBank w && (cwCmd v == 2 || cwCmd v == 4 || cwCmd v == 6)).map fun j =>
    let v := ws.getD j 0
    let x := slots.getD j 0
    (if cwCmd v = 2 then x else max (slots.getD i 0 + 24) (x + (if cwCmd v = 4 then 4 else 12))) + 11

/-- The slot after the run of a partition's static slots a slot stands in (R326). -/
def staticRunEnd (k : Stack) (p ch x : Nat) : Nat :=
  x + ((List.range 513).find? fun i =>
    let e := slotEntry (tableAt k ((x + i) / 512)) ch ((x + i) % 512)
    !(slotKind e == 1 && slotPart e == p) || decide (x / 512 < (x + i) / 512)).getD 513

/-- The 2 MiB region of a row pair. -/
def regionOf (st row : Nat) : Nat := (st * 2 ^ 15 + row / 2) * 2 ^ 21

/-- The fault of command `i` at its slot (R330): code and sub-code. -/
def commandFault (s : State) (st : Nat) (m : MemProg) (slots : List Nat) (c : ChkState) (i : Nat) : Option (Nat × Nat) :=
  let k := s.stack st
  let w := m.words.getD i 0
  let x := slots.getD i 0
  let e := slotEntry (tableAt k (x / 512)) (cwCh w) (x % 512)
  let v := s.part m.part
  let region := regionOf st (cwRow w)
  let late := cwCmd w == 1 && (match closedFrom m.words slots i with
    | some y => decide (staticRunEnd k m.part (cwCh w) x < y)
    | none => true)
  match timingBreach m c i w x with
  | some sub => if sub = 12 ∧ late then some (0x40, 11) else some (0x40, sub)
  | none =>
    if cwCmd w = 0 ∨ cwCmd w = 7 then none
    else if slotKind e == 1 && slotPart e == m.part && late then some (0x40, 11)
    else if cwCmd w = 1 ∧ (!inExtent v region (2 ^ 21) || v.cachex.any (fun r => decide (r.1 ≤ region) && decide (region < r.2))) then some (0x41, 0)
    else if k.retired = some (cwPc w) then some (0x41, 0)
    else if dogSlot k (cwPc w) x then some (0x42, 3)
    else if slotKind e = 3 then some (0x42, 0)
    else if slotKind e = 4 then some (0x42, 1)
    else if slotKind e = 1 ∧ slotPart e = m.part then none
    else some (0x42, 2)

/-- The first failing command of a program among those in frame `f`, with the number of commands that lie before frame f + 1. -/
def frameCheck (s : State) (st : Nat) (m : MemProg) (f : Nat) : Option (Nat × Nat × Nat) :=
  let slots := m.slots
  let go := (List.range m.words.length).foldl (fun (acc : ChkState × Option (Nat × Nat × Nat)) i =>
    let x := slots.getD i 0
    if 512 * (f + 1) ≤ x then acc
    else
      let bad := if x < 512 * f then none else (commandFault s st m slots acc.1 i).map fun (code, sub) => (i, code, sub)
      (acc.1.after (m.words.getD i 0) x, if acc.2.isSome then acc.2 else bad)) ({}, none)
  go.2

/-- A program abandoned at the boundary of frame `g` (R331, R332, R369): what it had reserved and not moved goes back; it performs no command more, and what it has read still lands. -/
def abandonProg (st g : Nat) (m : MemProg) : Plan :=
  Plan.all
    [ mpRelease m, modProg st m.uid fun m => { m with dead := true, nrd := m.rdEnd, nwr := m.wrDone },
      modPart m.part fun v =>
        if v.leash then { v with stopped := v.stopped ++ [{ stack := st, off := m.off, next := m.slots.findIdx fun x => decide (512 * g ≤ x), rd := m.rdEnd, wr := m.wrDone }] } else v ]

/-- A program at the boundary of frame `g`: one whose stop has come is abandoned; one that is done with, its END frame past, leaves. -/
def progFrame (st g uid : Nat) : Plan :=
  .get fun s =>
    let k := s.stack st
    match k.prog? uid with
    | none => .skip
    | some m =>
      if !m.dead && (!m.ended || m.lost.isSome) && m.stop.any (fun f => decide (f ≤ g)) then abandonProg st g m
      else Plan.when ((m.ended && m.sent && m.endSlot.all (fun e => decide (e < 512 * g))) || (m.dead && m.settled && (List.range 32).all fun ch => !closingFor k m ch (512 * g)))
        (modStack st fun k => { k with progs := k.progs.filter fun o => o.uid != uid })

/-- A program that has to be over before the next one of its partition starts is: its END slot lies before frame `f` (R331). -/
def overBefore (o : MemProg) (f : Nat) : Bool := !o.dead && o.stop.isNone && o.start.isSome && o.endSlot.any fun e => decide (e < 512 * f)

/-- Accesses of its context's earlier bundles that a program would touch a common byte with have not performed: it starts in a later frame (R287; log 14). -/
def progHeld (s : State) (m : MemProg) : Bool :=
  let ys := progSpans s m
  s.reqs.any (fun q => q.arr == m.arr && q.tid == m.tid && !q.dropped && decide (q.n < m.n) && decide (q.stage.rank < 3)
      && (!m.wordsRead || match reqSpans s q with
        | some xs => spansMeet xs ys
        | none => true))
    || (openDescs s m.arr m.tid m.n).any (fun d => !m.wordsRead || descMeets s d true ys)
    || (openProgs s m.arr m.tid m.n).any fun o => o.uid != m.uid && (!m.wordsRead || !o.wordsRead || spansMeet (progSpans s o) ys)

/-- The check of frame `f` for one program, in the last tick of the frame before: the first of its partition that may start takes `f` for its start frame, and the commands
of `f` are checked (R331). -/
def progCheck (st f uid : Nat) : Plan :=
  .get fun s =>
    let k := s.stack st
    match k.prog? uid with
    | none => .skip
    | some m =>
      let before := k.progs.takeWhile fun o => o.uid != uid
      let starts := m.start.isNone && before.all (fun o => o.part != m.part || overBefore o f) && decide (m.issued + 2048 ≤ frameTick f) && !m.words.isEmpty && !progHeld s m
      let m := if starts then { m with start := some f, slots := slotsAfter (512 * f) (512 * f) m.words } else m
      Plan.when (!m.dead && !m.ended && m.stop.isNone && m.start.isSome) <|
        .both (modProg st uid fun _ => m)
          (match frameCheck s st m f with
           | none => .skip
           | some (i, code, sub) => .both (modProg st uid fun m => { m with stop := some f }) (progFault st m code sub i))

/-- The checks of frame `f` of a stack. -/
def frameCheckPlan (st f : Nat) : Plan := .get fun s => Plan.each ((s.stack st).progs.map fun m => m.uid) (progCheck st f)

/-! ## Copying to the reserve rows (R411) -/

/-- The lines of a pseudo-channel's rows below the reserve: 64,512 rows of 16 banks of 16 columns. -/
def retiredLines : Nat := 0xFC00 * 256

/-- The training and idle slots of a channel in a frame, in which lines of a retired pseudo-channel are copied (R411). -/
def copySlots (k : Stack) (ch f : Nat) : Nat :=
  ((List.range 512).filter fun i => let e := slotEntry (tableAt k f) ch i; slotKind e == 4 || slotKind e == 0).length

/-- More lines of a retired pseudo-channel have been copied, row by row, how many a frame is open (log 4): at least one, and one in each of its slots at the most; with the last the
copy is done. What waits for the lines of a row copied goes to its new port. -/
def copyRows (st : Nat) : Plan :=
  .get fun s =>
    match (s.stack st).retired with
    | none => .skip
    | some pc =>
      let move := fun (lines : Nat) => modStack st fun k =>
        let k := { k with copied := lines }
        let (go, stay) := (smGet [] k.ports pc).partition fun e => decide (e.row < lines / 256)
        go.foldl (fun (k : Stack) e =>
          let (q, row) := placeOf k { stack := st, pc, bank := e.bank, row := e.row, col := 0 }
          { k with ports := smSet k.ports q (smGet [] k.ports q ++ [{ e with row }]) }) { k with ports := smSet k.ports pc stay }
      let from' := (s.stack st).copied
      Plan.when (decide (from' < retiredLines)) <| withFree (copySlots (s.stack st) (pc / 2) (s.stack st).frame - 1) fun d =>
        .both (move (min retiredLines (from' + 1 + d)))
          (Plan.when (decide (retiredLines ≤ from' + 1 + d)) (pushFront [({ a := (st * 64 + pc) * 36, b := 1 }, .instr .pseudoChannelRetire)]))

/-- FRAME_BOUNDARY (R319, R321, R323, R331). -/
def execFrameBoundary : State → Host.Outcome State Fault Refusal :=
  (Plan.get fun s =>
    let st := s.site.a
    let f := s.site.b
    Plan.when (s.stack st).up <| Plan.all
      [ modStack st (fun k =>
          let ready := k.masksNew.filter fun e => decide (e.1 < s.now)
          let k := ready.foldl (fun (k : Stack) (_, p, bs, ps) =>
            { k with hmb := (List.range 4).foldl (fun m i => smSet m (p * 4 + i) (bs.getD i 0)) k.hmb,
                     hmp := (List.range 6).foldl (fun m j => smSet m (p * 6 + j) (ps.getD j 0)) k.hmp }) k
          { k with frame := f, masksNew := k.masksNew.filter (fun e => !decide (e.1 < s.now)), slotsNew := k.slotsNew.filter (fun n => !decide (n.1 < s.now)),
                   slots := ((k.slotsNew.filter fun n => decide (n.1 < s.now)).getLast?.map fun n => n.2).getD k.slots }),
        .get (fun s => Plan.each ((s.stack st).progs.map fun m => m.uid) (progFrame st f)),
        copyRows st,
        atTick (frameTick (f + 1) - 1) rankDecide none { a := st, b := f + 1 } (.micro (.frameCheck st (f + 1))),
        atTick (frameTick (f + 1)) rankFrame none { a := st, b := f + 1 } (.instr .frameBoundary) ]).step

/-! ## The watchdog and the deep tier (R333, R336) -/

/-- The watchdog takes pseudo-channels over: it refreshes each from the next frame on (R333). `pcs` are bits. -/
def stewardLost (st pcs : Nat) : Plan :=
  modStack st fun k =>
    { k with dog := ((List.range 64).filter fun pc => pcs.testBit pc && !(k.dog.any fun e => e.1 == pc)).foldl (fun d pc => smSet d pc (k.frame + 1)) k.dog }

/-- DEEP_TIER_ACCESS (R336): a request performs at the port over the deep tier, directly or through the partition's cache. -/
def execDeepTierAccess : State → Host.Outcome State Fault Refusal :=
  (Plan.get fun s =>
    match s.req? s.site.a with
    | none => .skip
    | some r =>
      match r.target with
      | .phys pa => .both (cacheTouch (deepStack pa) r.part pa (r.write && !(r.kind == .copyWrite && r.data.isEmpty))) (performPlan r.uid)
      | _ => .skip).step

/-- What ISSUE_SELECT asks of `mp.run`. -/
def hbmStall (i : Instr) (s : State) : Option StallCause :=
  match i with
  | .mpRun _ xa rq nrd wq nwr => mpStall xa rq nrd wq nwr s
  | _ => none

def hbmCheck (i : Instr) (s : State) : Option Chk :=
  match i with
  | .mpRun _ xa rq nrd wq nwr => mpCheck xa rq nrd wq nwr s
  | _ => none

end Sys2Proof.Machine
end

