-- ==== Sys2Proof/Machine/Buckets.lean ====
section
/-! DEFINITION. Windowed counting (R406-R408): buckets, their events and leaks, and the events the part posts to the host (R398). -/

namespace Sys2Proof.Machine

/-! ## Event frames (R398) -/

/-- The body of an event frame; byte 3 and the last four are zero. -/
def eventBody (part fcode sub info gt tag rec : Nat) : List Byte :=
  natBytes 1 part ++ natBytes 1 fcode ++ natBytes 1 sub ++ [0] ++ natBytes 4 info ++ natBytes 8 gt ++ natBytes 8 tag ++ natBytes 4 rec ++ natBytes 4 0

/-- An event that concerns no partition: kinds 2 and 4 name a class and a resource, kind 3 a trip. -/
def moduleEvent (kind info : Nat) : Plan := .get fun s => output (.event 0xFF kind (eventBody 0xFF 0 0 info s.now 0 0))

/-! ## Buckets -/

def bucketKey (cls num : Nat) : Nat := cls * 2 ^ 20 + num
def State.bucket (s : State) (cls num : Nat) : Bucket := smGet {} s.mod.buckets (bucketKey cls num)
def modBucket (cls num : Nat) (f : Bucket → Bucket) : Plan :=
  modMod fun m => { m with buckets := smSet m.buckets (bucketKey cls num) (f (smGet {} m.buckets (bucketKey cls num))) }

/-- The leak period and threshold of a class (R406). -/
def leakPeriod (cls : Nat) : Nat :=
  match cls with
  | 1 => 2 ^ 32
  | 2 => 2 ^ 30
  | 3 => 2 ^ 28
  | 4 => 2 ^ 27
  | _ => 2 ^ 32
def bucketThreshold (cls : Nat) : Nat :=
  match cls with
  | 1 => 8
  | 2 => 16
  | 3 => 64
  | 4 => 32
  | _ => 2

/-- What follows when a resource's fault becomes lasting (R406): its sparing begins, and the host is told. -/
def becomeLasting (cls num : Nat) : Plan :=
  .get fun s =>
    .both (moduleEvent 4 (cls + num * 65536))
      (match cls with
       | 1 => atTick s.now rankEnd none { a := num } (.instr .rowSpare)
       | 2 => atTick s.now rankEnd none { a := num, b := 1 } (.instr .bankMirrorComplete)
       | 3 => atTick s.now rankEnd none { a := num } (.instr .pseudoChannelRetire)
       | 4 => atTick s.now rankEnd none { a := num } (.instr .portSpareAdd)
       | 5 => modBucket 5 num fun b => { b with state := 3 }
       | _ => .skip)

/-- An event of a weight in a bucket (R406, R407): in service it raises LEVEL and may make the fault lasting; afterwards it counts in TOTAL only. -/
def bucketEvent (cls num weight : Nat) : Plan :=
  .get fun s =>
    let b := s.bucket cls num
    let level := min (b.level + weight) 0xFFFF
    .both (modBucket cls num fun b => { b with total := min (b.total + 1) 0xFFFFFFFF, level := if b.state = 0 then level else b.level })
      (Plan.when (b.state == 0 && decide (b.level < bucketThreshold cls) && decide (bucketThreshold cls ≤ level)) (becomeLasting cls num))

/-- BUCKET_LEAK (R406): at a multiple of a class's period every LEVEL of the class falls by one; `site.a` is the class. -/
def execBucketLeak : State → Host.Outcome State Fault Refusal :=
  (Plan.get fun s =>
    let cls := s.site.a
    .both (modMod fun m => { m with buckets := m.buckets.map fun e => if e.1 / 2 ^ 20 == cls then (e.1, { e.2 with level := e.2.level - 1 }) else e })
      (atTick ((s.now / leakPeriod cls + 1) * leakPeriod cls) rankInput none { a := cls } (.instr .bucketLeak))).step

end Sys2Proof.Machine
end

