-- ==== Sys2Proof/Machine/Ecc.lean ====
section
/-! DEFINITION. The line code of HBM and the deep tier (R322): RS(72,64) over GF(2^8), what an error pattern on a line's 72 symbols comes to, and its counting per TSV group. -/

namespace Sys2Proof.Machine

/-- A field element times α, under x^8 + x^4 + x^3 + x^2 + 1. -/
def gfDouble (a : Nat) : Nat := if 2 * a < 256 then 2 * a else (2 * a) ^^^ 0x11D
def gfMul (a b : Nat) : Nat := ((List.range 8).foldl (fun (acc : Nat × Nat) i => (if b.testBit i then acc.1 ^^^ acc.2 else acc.1, gfDouble acc.2)) (0, a)).1

/-- A polynomial times x - r, coefficients from the constant up. -/
def polyStep (r : Nat) (g : List Nat) : List Nat := (List.range (g.length + 1)).map fun k => (if k = 0 then 0 else g.getD (k - 1) 0) ^^^ gfMul r (g.getD k 0)

/-- The generator: the product of x - α^i for i from 0 to 7. -/
def rsGenerator : List Nat := ((List.range 8).foldl (fun (acc : List Nat × Nat) _ => (polyStep acc.2 acc.1, gfDouble acc.2)) ([1], 1)).1

/-- The check bytes of a line: the coefficients of d(x) * x^8 mod the generator. -/
def rsCheck (data : List Nat) : List Nat :=
  data.reverse.foldl (fun rem b =>
    let f := b ^^^ rem.getD 7 0
    (List.range 8).map fun k => (if k = 0 then 0 else rem.getD (k - 1) 0) ^^^ gfMul f (rsGenerator.getD k 0)) (List.replicate 8 0)

/-- 72 symbols that are a code word. -/
def rsWord (w : List Nat) : Bool := rsCheck (w.take 64) == w.drop 64

def symbolErrors (e : List Nat) : Nat := (e.filter fun b => b != 0).length

/-- The bits that errors turn in a line's 72 symbols, from a number. -/
def symbolsOf (n : Nat) : List Nat := (List.range 72).map fun i => n / 256 ^ i % 256

/-- The symbols corrected on each TSV group of a line are counted: symbol s is on DQ s / 2 (R322, R406). -/
def countCorrected (kind line : Nat) (e : List Nat) : Plan :=
  Plan.when (kind == 0) (Plan.each ((List.range 36).filter fun dq => e.getD (2 * dq) 0 != 0 || e.getD (2 * dq + 1) 0 != 0) fun dq =>
    bucketEvent 3 (line / 2 ^ 24 * 36 + dq) 1)

end Sys2Proof.Machine
end

