-- ==== Sys2Proof/Machine/Fabric.lean ====
section
/-! DEFINITION. The Xeard fabric (R387-R396): ports, trunks and flits, exchange supersteps, messages and quiet. What the peers do is an input (log 1). -/

namespace Sys2Proof.Machine

/-! ## Messages (R393, R394) -/

def msgStall (k : BitVec 4) (n : Nat) (s : State) : Option StallCause :=
  if copyWordOk s k && (decide ((s.me.qwState k.toNat).fill < n) || !slotsFor s s.site.arr n) then some .queue else none

/-- The messages of a `msg.send` as they fire; their elements are read 16 ticks on. -/
def fireMessages (k n : Nat) : Plan :=
  .get fun s =>
    let c := s.me
    let q := c.qwState k
    let base : Req :=
      { uid := 0, kind := .message, part := c.part, arr := s.site.arr, ctx := s.site.ctx, n := s.site.n, tid := c.tid, tag := phaseTag c, order := s.site.wave,
        early := s.tick + 32, target := .unknown, size := 64, write := true, slot := true }
    Plan.all
      [ modMyQ k (QW.takeIn n),
        .edit (.reqs (s.reqs ++ (List.range n).map fun i => { base with uid := s.uid + i, qpos := (q.cr + i) % qwDepth q.word })), .edit (.uid (s.uid + n)),
        afterAt 16 rankPortRead { s.site with a := q.cr, b := q.stamp, c := s.uid } (.micro (.msgRead s.site.arr c.tid k n)) ]

def execMsgSend (g : Guard) (k n1 : BitVec 4) : State → Host.Outcome State Fault Refusal :=
  (atIssue g (msgStall k (n1.toNat + 1)) (copyCheck k) (fireMessages k.toNat (n1.toNat + 1))).step

/-- The header of a message sent now, from package `src` (R394): 0xFF when local; a peer's index is what the receiving package knows the sender by, and writes (log 10). -/
def msgHeader (gt a k : Nat) (tag : Bool) (src : Nat) : List Byte :=
  natBytes 8 gt ++ [BitVec.ofNat 8 a, BitVec.ofNat 8 k, if tag then 1 else 0, BitVec.ofNat 8 src, 0, 0, 0, 0]

/-- Where a message goes: an inbox of its own partition here, or of a peer's matching partition; nowhere when there is none. -/
def msgTarget (v : Part) (p dpkg inbox : Nat) : Option Target :=
  if dpkg = 0xFF then
    let b := smGet {} v.inboxes inbox
    if b.set && decide (inbox < 16) then some (.window b.tower p b.off) else none
  else if inbox < 16 then
    (v.peers.find? fun e => e.1 == dpkg).map fun e => .package e.2.1 e.2.2 0 inbox
  else none

/-- The elements of a `msg.send` read at t + 16 (R394). -/
def msgReadPlan (a tid k n : Nat) : Plan :=
  .get fun s =>
    let c := s.ctxOf a s.site.ctx tid
    let w := (c.qwState k).word
    .both
      (Plan.each (List.range n) fun i =>
        match s.req? (s.site.c + i) with
        | none => .skip
        | some r =>
          let at' := s.winAddr (towerOf a) r.part (qwElem w (s.site.a + i))
          let el := s.bytes .scratch at' 64
          let dpkg := fieldAt el 0 2
          let inbox := fieldAt el 2 1
          .both (controlRead a s.site.ctx tid s.site.n at' 64) <|
          match msgTarget (s.part r.part) r.part dpkg inbox with
          | none => reqLater r rankEvent (.instr .messageRefusal)
          | some target =>
            .both (modReq r.uid fun q => { q with target, data := msgHeader s.now a r.ctx r.tag (if dpkg = 0xFF then 0xFF else 0) ++ el.drop 16, p := inbox, j := dpkg * 256 + inbox })
              (reqLater r rankEvent (.micro (.advance r.uid))))
      (afterAt 1 rankPointer s.site (.micro (.engineWord a s.site.ctx tid k s.site.b false true n)))

/-- MESSAGE_REFUSAL (R394): the sender's fault, at the element's ring position. -/
def execMessageRefusal : State → Host.Outcome State Fault Refusal :=
  (Plan.get fun s =>
    match s.req? s.site.a with
    | none => .skip
    | some r =>
      .both (endReq r.uid)
        (raiseFaultFor r.part r.tid r.arr r.ctx
          { kind := 1, unit := r.arr, ctx := r.ctx, code := 0x51, addr := r.qpos, seq := r.n, pos := (s.ctx r.arr r.ctx).pc })).step

/-- A message from a peer: partition `site.b`, inbox `site.c`, peer `site.pos`, the peer's number for it `site.n`. It is delivered as one sent here is, with its source in byte 11; one for
an inbox that does not exist is refused. -/
def peerMessage : Plan :=
  .get fun s =>
    let x := s.site
    let b := smGet {} (s.part x.b).inboxes x.c
    if (s.part x.b).live && b.set then
      withUid fun uid =>
        let r : Req :=
          { uid, kind := .message, part := x.b, arr := b.tower * 8, ctx := 0, n := 0, tid := 0, target := .window b.tower x.b b.off, size := 64, write := true,
            data := (let d := (x.bytes ++ List.replicate 64 0).take 64; d.take 11 ++ [BitVec.ofNat 8 x.pos] ++ d.drop 12), stage := .accepted, serial := uid, order := uid, p := x.c, j := x.pos, op := x.n }
        .both (addReq r) (reqSoon 1 r rankEvent (.micro (.advance uid)))
    else output (.report x.b x.pos 2 [x.n])

/-- MESSAGE_ARRIVE (R393): a message has been written into its inbox and is counted by the inbox's object; one from a peer is acknowledged. With `site.bytes` it is a
peer's message that comes in. -/
def execMessageArrive : State → Host.Outcome State Fault Refusal :=
  (Plan.get fun s =>
    if !s.site.bytes.isEmpty then peerMessage
    else
      match s.req? s.site.a with
      | none => .skip
      | some r =>
        let b := smGet {} (s.part r.part).inboxes r.p
        Plan.all
          [ modPart r.part fun v => { v with inboxes := smSet v.inboxes r.p { b with arrivals := b.arrivals + 1 } },
            countAt s.now b.tower r.part b.object 64 1 r.arr r.ctx r.tid r.n, settleWatch fun e => e.tid == r.tid && e.n == r.n && e.p == r.p, endReq r.uid,
            Plan.when (r.tid == 0) (output (.report r.part r.j 3 [r.op])) ]).step

/-! ## Quiet (R297, R395) -/

/-- Every request of a tag that partition `p` has issued here has performed at sys scope: requests, off-domain descriptors, memory programs, and what is not yet read. -/
def quietHere (s : State) (p : Nat) (tag : Bool) : Bool :=
  s.reqs.all (fun r => !(r.part == p && r.tag == tag && r.tid != 0 && r.kind != .exchRead && r.kind != .exchWrite) || doneAtScope 2 r)
    && !((s.part p).tasks.any fun t => (unitArrays (s.taskRecord p t) t.unit).any fun a => (List.range 4).any fun k => againDue s a k t.uid fun o => o.tag == tag)
    && (List.range 8).all (fun t => (s.tower t).descs.all fun d => !(d.part == p && d.tag == tag && !d.inTower))
    && (List.range 8).all (fun k => (s.stack k).progs.all fun m => !(m.part == p && m.tag == tag) || m.settled)
    && s.due.all fun d => match d.act with
      | .micro (.descRead _ a tid _ _) => !(d.site.rowOn == tag && s.partOf a d.site.ctx tid == some p)
      | .micro (.mpRecord _ _ _ m) => !(m.tag == tag && m.part == p)
      | _ => true

def quietMask (s : State) (p : Nat) : Nat := (if quietHere s p false then 1 else 0) + (if quietHere s p true then 2 else 0)

/-- This package's own last report of quiet stands beside the peers', under key 16. -/
def reportQuiet (p : Nat) : Plan :=
  .get fun s =>
    let v := s.part p
    let m := quietMask s p
    Plan.when (!v.peers.isEmpty && smGet 0 v.peerQuiet 16 != m) <|
      .both (modPart p fun v => { v with peerQuiet := smSet v.peerQuiet 16 m }) (Plan.each v.peers fun (i, _) => output (.report p i 1 [m]))

/-- The tag a `msg.quiet` waits for. -/
def quietTag (b : BitVec 2) (s : State) : Bool := if b = 2 then !phaseTag s.me else b == 1

def quietStall (b : BitVec 2) (s : State) : Option StallCause :=
  let p := s.me.part
  let tag := quietTag b s
  if quietHere s p tag && (s.part p).peers.all fun (i, _) => (smGet 0 (s.part p).peerQuiet i).testBit (if tag then 1 else 0) then none else some .queue

def execMsgQuiet (g : Guard) (b : BitVec 2) : State → Host.Outcome State Fault Refusal :=
  (atIssue g (quietStall b) noCheck .skip).step

/-! ## Exchange supersteps (R390-R392) -/

def xchLen (w : Nat) : Nat := w % 2 ^ 32
def xchGuard (w : Nat) : Nat := w / 2 ^ 32 % 2 ^ 16
def xchWref (w : Nat) : Nat := w / 2 ^ 48 % 16 + 1

def xchCheck (k : BitVec 4) (xa : BitVec 5) (n : BitVec 9) (s : State) : Option Chk :=
  let w := (s.x xa).toNat
  let other := (List.range 4).any fun j => j != s.site.ctx && (s.ctx s.site.arr j).xch.isSome
  if !(s.part s.me.part).xmask.getLsbD s.site.arr then some { code := 0x50, sub := 3, addr := noAddr }
  else if xchLen w = 0 ∨ 2 ^ 52 ≤ w then some { code := 0x50, sub := 4, addr := noAddr }
  else if other then some { code := 0x50, sub := 2, addr := noAddr }
  else if n ≠ 0 then copyCheck k s else none

/-- The context stands ready for its superstep, and S_k has come. -/
def xchStarted (s : State) : Bool :=
  match s.me.xch with
  | some x => x.n == s.site.n && (match x.start with
    | some t => decide (t ≤ s.now)
    | none => false)
  | none => false

def xchStall (k : BitVec 4) (xa : BitVec 5) (n : BitVec 9) (s : State) : Option StallCause :=
  if (xchCheck k xa n s).isSome || xchStarted s then none else some .exchange

/-- The contexts ready for a superstep of partition `p` whose start is not set, or is `at'`: array, context. -/
def xchReadyCtxs (s : State) (p : Nat) (at' : Option Nat) : List (Nat × Nat × XchReady) :=
  (List.range 64).flatMap fun a => (List.range 4).filterMap fun k =>
    let c := s.ctx a k
    match c.xch with
    | some x => if c.part == p && x.start == at' && c.state != .free then some (a, k, x) else none
    | none => none

def xchAllReady (s : State) (p : Nat) : Bool :=
  let ready := xchReadyCtxs s p none
  (List.range 64).all fun a => !(s.part p).xmask.getLsbD a || ready.any fun (b, _) => b == a

/-- A reported context gives its readiness and its reserved descriptors up. -/
def xchDrop (a k : Nat) (x : XchReady) : Plan :=
  .both (modCtx a k fun c => { c with xch := none })
    (Plan.when (decide (0 < x.cnt)) (modQ a k x.k fun q => { q with cr := (q.cr + 8192 - x.cnt) % 8192, ops := q.ops - 1 }))

/-- The descriptors a context reserved, as they stand now: window offset and bytes. -/
def xchDescs (s : State) (a k tid : Nat) (x : XchReady) : List (Nat × List Byte) :=
  let c := s.ctxOf a k tid
  let w := (c.qwState x.k).word
  (List.range x.cnt).map fun i => (qwElem w (x.pos + i), s.bytes .scratch (s.winAddr (towerOf a) c.part (qwElem w (x.pos + i))) 64)

def xdSrc (b : List Byte) : Nat := fieldAt b 0 8
def xdDst (b : List Byte) : Nat := fieldAt b 8 8
def xdLen (b : List Byte) : Nat := fieldAt b 16 4
def xdTower (b : List Byte) : Nat := fieldAt b 20 1
def xdPkg (b : List Byte) : Nat := fieldAt b 21 1

/-- A descriptor obeys R390 in partition `p`, fired from tower `t`. -/
def xdOk (s : State) (p t : Nat) (b : List Byte) : Bool :=
  xdSrc b % 64 == 0 && xdDst b % 64 == 0 && xdLen b % 64 == 0 && xdLen b != 0 && decide (xdTower b ≤ 7) && fieldAt b 22 42 == 0
    && s.inWin t p (xdSrc b) (xdLen b)
    && (if xdPkg b = 0xFF then s.inWin (xdTower b) p (xdDst b) (xdLen b) else (s.part p).peers.any fun e => e.1 == xdPkg b)

/-- A fault of every one of some ready contexts, which give their readiness up. -/
def xchFail (ready : List (Nat × Nat × XchReady)) (sub : Nat) : Plan :=
  Plan.each ready fun (a, k, x) =>
    .both (xchDrop a k x)
      (.get fun s => raiseFault a k { kind := 1, unit := a, ctx := k, code := 0x50, sub, before := true, seq := x.n, pos := (s.ctx a k).pc })

/-- The bytes the descriptors of ready contexts send to a peer. -/
def xchBytes (s : State) (ready : List (Nat × Nat × XchReady)) (peer : Nat) : Nat :=
  (ready.flatMap fun (a, k, x) => (xchDescs s a k (s.ctx a k).tid x).filterMap fun (_, b) => if xdPkg b = peer then some (xdLen b) else none).foldl (· + ·) 0

/-- S_k: the first multiple of 256 at least 512 ticks from now (R391). -/
def xchStartTick (now : Nat) : Nat := (now + 512 + 255) / 256 * 256

/-- With every member and every peer ready the start is set, or unequal parameters fault in every member (R391). -/
def xchTryStart (p : Nat) : Plan :=
  .get fun s =>
    let v := s.part p
    let ready := xchReadyCtxs s p none
    if !xchAllReady s p || ready.isEmpty || !(v.peers.all fun (i, _) => v.peerReady.any fun e => e.1 == i) then .skip
    else
      let w := (ready.head?.map fun (_, _, x) => x.word).getD 0
      let mine := [xchLen w, xchGuard w, xchWref w]
      let same := ready.all (fun (_, _, x) => x.word == w) && v.peers.all fun (i, _) => (smGet [] v.peerReady i).take 3 == mine
      if !same then .both (modPart p fun v => { v with peerReady := [] }) (xchFail ready 5)
      else
        let start := xchStartTick s.now
        let in' := (v.peers.map fun (i, _) => (smGet [] v.peerReady i).getD 3 0).foldl (· + ·) 0
        Plan.all
          [ Plan.each ready (fun (a, k, _) => modCtx a k fun c => { c with xch := c.xch.map fun x => { x with start := some start } }),
            modPart p (fun v => { v with peerReady := [], runs := v.runs ++ [{ step := v.step, start, announced := in' }], step := v.step + 1 }),
            atTick start rankEvent none { a := p, b := v.step } (.instr .superstepStart) ]

/-- A context whose next bundle is `xch.go` reserves its descriptors and reports; with the last of them the package tells its peers (R391). -/
def fileXch (a k : Nat) (qk : BitVec 4) (word : XWord) (n : Nat) : Plan :=
  .get fun s =>
    let c := s.ctx a k
    let q := c.qwState qk.toNat
    Plan.when (c.xch.isNone && (n == 0 || decide (n ≤ q.fill))) <| Plan.all
      [ modCtx a k (fun c => { c with xch := some { n := c.ctime, word := word.toNat, k := qk.toNat, stamp := q.stamp, pos := q.cr, cnt := n } }),
        Plan.when (decide (0 < n)) (modQ a k qk.toNat (QW.takeIn n)),
        .get fun s => Plan.when (xchAllReady s c.part) (Plan.each (s.part c.part).peers fun (i, _) =>
          output (.report c.part i 0 [xchLen word.toNat, xchGuard word.toNat, xchWref word.toNat, xchBytes s (xchReadyCtxs s c.part none) i])),
        xchTryStart c.part ]

/-- `xch.go`: its bundle waits for S_k, at which the superstep's own event begins the transfer (R391). -/
def execXchGo (g : Guard) (k : BitVec 4) (xa : BitVec 5) (n : BitVec 9) : State → Host.Outcome State Fault Refusal :=
  (Plan.get fun s =>
    .both (Plan.when (s.guardQ g && (xchCheck k xa n s).isNone) (fileXch s.site.arr s.site.ctx k (s.x xa) n.toNat))
      (atIssue g (xchStall k xa n) (xchCheck k xa n) (modMe fun c => { c with xch := none }))).step

/-- The trunks the descriptors of ready contexts use; a package no trunk goes toward counts as a trunk of no port, 16. -/
def xchTrunks (s : State) (p : Nat) (ready : List (Nat × Nat × XchReady)) : List Nat :=
  (ready.flatMap fun (a, k, x) => (xchDescs s a k (s.ctx a k).tid x).filterMap fun (_, b) =>
    match (s.part p).peers.find? fun e => e.1 == xdPkg b with
    | some e => some ((trunkTo s.mod e.2.1).getD 16)
    | none => none).eraseDups

/-- SUPERSTEP_START (R391), in global ticks from S_k on: the length is set by the fewest ports among the trunks used, and the transfer and the check at E_k are scheduled. `site.a` is the partition,
`site.b` the superstep. -/
def execSuperstepStart : State → Host.Outcome State Fault Refusal :=
  (Plan.get fun s =>
    let p := s.site.a
    let ready := xchReadyCtxs s p (some s.now)
    let trunks := xchTrunks s p ready
    let w := (ready.head?.map fun (_, _, x) => x.word).getD 0
    if ready.isEmpty then .skip
    else if trunks.any fun k => (trunkPorts s.mod k).isEmpty then
      let bad := fun e => (xchTrunks s p [e]).any fun k => (trunkPorts s.mod k).isEmpty
      Plan.all
        [ modPart p fun v => { v with runs := v.runs.filter fun r => r.step != s.site.b },
          Plan.each (ready.filter fun e => !bad e) fun (a, k, x) => xchDrop a k x,
          xchFail (ready.filter bad) 1 ]
    else
      let ports := (trunks.map fun k => (trunkPorts s.mod k).length).foldl min 16
      let len := if trunks.isEmpty then xchLen w else (xchLen w * xchWref w + ports - 1) / ports
      let e := s.now + len + xchGuard w
      let (a0, k0) := (ready.head?.map fun (a, k, _) => (a, k)).getD (0, 0)
      Plan.all
        [ modPart p (fun v => { v with runs := v.runs.map fun r => if r.step == s.site.b then { r with stop := some e, trunks } else r }),
          Plan.each ready (fun (a, k, x) => Plan.when (decide (0 < x.cnt))
            (atTick (s.now + 16) rankPortRead none { arr := a, ctx := k, n := x.n, a := (s.ctx a k).tid, b := p, c := e, pos := s.site.b } (.micro (.xchRead a x)))),
          .get fun s => .edit (.due (insertDue
            { tick := e, rank := rankEnd, ord := 1, dom := none, site := { a := p, b := s.site.b, arr := a0, ctx := k0, n := (s.ctx a0 k0).tid }, act := .instr .superstepEnd } s.due)) ]).step

/-- A line's read of a superstep: its destination stands in `op` (tower), `swap` (package or peer) and `p` (offset), E_k in `arg`, the superstep in `gen`. -/
def xchLine (s : State) (x : Site) (b : List Byte) (i : Nat) : Req :=
  { uid := s.uid, order := s.uid, kind := .exchRead, part := x.b, arr := x.arr, ctx := x.ctx, n := x.n, tid := x.a, target := .window (towerOf x.arr) x.b (xdSrc b + 64 * i), size := 64,
    write := false, addr := xdSrc b + 64 * i, arg := x.c, gen := x.pos, op := xdTower b, swap := xdPkg b, p := xdDst b + 64 * i }

/-- The descriptors read at S_k + 16 (R391). -/
def xchReadPlan (a : Nat) (x : XchReady) : Plan :=
  .get fun s =>
    let st := s.site
    .both
      (Plan.each (xchDescs s a st.ctx st.a x) fun (off, b) =>
        .both (controlRead a st.ctx st.a x.n (s.winAddr (towerOf a) st.b off) 64) <|
        if xdOk s st.b (towerOf a) b then
          Plan.each (List.range (xdLen b / 64)) fun i => .get fun s =>
            let r := xchLine s st b i
            Plan.all [ .edit (.uid (s.uid + 1)), addReq r, reqLater r rankEvent (.micro (.advance r.uid)) ]
        else raiseFaultFor st.b st.a a st.ctx { kind := 1, unit := a, ctx := st.ctx, code := 0x50, sub := 4, addr := off, seq := x.n, pos := (s.ctx a st.ctx).pc })
      (atTick (s.now + 1) rankPointer none st (.micro (.engineWord a st.ctx st.a x.k x.stamp false true x.cnt)))

/-- A source line has come back: its destination line goes out. A destination line is done with. -/
def xchConfirm (r : Req) : Plan :=
  .get fun s =>
    if r.kind = .exchWrite then endReq r.uid
    else
      let target : Target :=
        match (s.part r.part).peers.find? fun e => e.1 == r.swap with
        | some e => .package e.2.1 e.2.2 r.op r.p
        | none => .window r.op r.part r.p
      let w : Req := { r with uid := s.uid, kind := .exchWrite, target, write := true, stage := .fired, serial := 0, cell := none }
      Plan.all [ .edit (.uid (s.uid + 1)), endReq r.uid, addReq w, reqLater w rankEvent (.micro (.advance w.uid)) ]

/-- The operations of a superstep whose descriptors are still to be read: array, context, task, bundle. -/
def unreadXch (s : State) (p step : Nat) : List (Nat × Nat × Nat × Nat) :=
  s.due.filterMap fun d => match d.act with
    | .micro (.xchRead a x) => if d.site.b == p && d.site.pos == step then some (a, d.site.ctx, d.site.a, x.n) else none
    | _ => none

/-- SUPERSTEP_END (R392), after the lines of E_k: what has not performed at sys scope faults, here or, for inbound lines, in the lowest ready context. -/
def execSuperstepEnd : State → Host.Outcome State Fault Refusal :=
  (Plan.get fun s =>
    let x := s.site
    let p := x.a
    let fault := fun a k tid n => raiseFaultFor p tid a k { kind := 1, unit := a, ctx := k, code := 0x50, seq := n, pos := (s.ctx a k).pc }
    let late := s.reqs.filter fun r => r.part == p && (r.kind == .exchRead || (r.kind == .exchWrite && !doneAtScope 2 r)) && r.gen == x.b
    let who := (late.map (fun r => (r.arr, r.ctx, r.tid, r.n)) ++ unreadXch s p x.b).eraseDups
    Plan.all
      [ Plan.each who (fun (a, k, tid, n) => fault a k tid n),
        Plan.when ((s.part p).runs.any fun r => r.step == x.b && decide (r.inbound < r.announced)) (fault x.arr x.ctx x.n (s.ctx x.arr x.ctx).ctime),
        modPart p fun v => { v with runs := v.runs.filter fun r => r.step != x.b } ]).step

/-! ## Trunks and ports (R387-R389, R392) -/

def modPort (port : Nat) (f : Port → Port) : Plan := modMod fun m => { m with ports := smSet m.ports port (f (smGet {} m.ports port)) }

/-- The ports whose flits a trunk takes, ascending: its own, and one that has left it by failing while what it received waits for its turn (R389). -/
def rxPorts (m : Module) (k : Nat) : List Nat :=
  (m.ports.filter fun e => (e.2.trunk == some k && !e.2.failed) || (e.2.left == some k && e.2.failed && !e.2.rx.isEmpty)).map fun e => e.1

/-- Flits taken from a trunk's ports in its round-robin order, as far as they have come. -/
def drainTrunk (k : Nat) : Nat → Module → Module
  | 0, m => m
  | fuel + 1, m =>
    let port := (nextPort (rxPorts m k) (smGet 0 m.trunkRx k)).getD 0
    let v := smGet {} m.ports port
    match v.rx with
    | [] => m
    | f :: rest =>
      drainTrunk k fuel
        { m with ports := smSet m.ports port { v with rx := rest }, trunkRx := smSet m.trunkRx k (port + 1),
                 trunkIn := smSet m.trunkIn k (smGet [] m.trunkIn k ++ [f]) }

/-- A port is looked at 128 ticks after its last good flit (R388). -/
def watchPort (port : Nat) : Plan :=
  .get fun s => Plan.when (!(s.due.any fun d => d.act == .instr .portFailed && d.site.a == port)) (atTick (s.now + 128) rankEvent none { a := port } (.instr .portFailed))

/-- How many flits wait for their turn on a trunk. -/
def rxWaiting (m : Module) (k : Nat) : Nat := ((rxPorts m k).map fun q => (smGet {} m.ports q).rx.length).foldl (· + ·) 0

/-- FLIT_RECEIVE (R387-R389): port `site.a`, its CRC `site.b`, CLASS, PH, KIND, SEQ and the payload. One that is good and in order is acknowledged. -/
def execFlitReceive : State → Host.Outcome State Fault Refusal :=
  (Plan.get fun s =>
    let x := s.site
    let v := smGet {} s.mod.ports x.a
    let f : Flit := { crc := x.b, cls := x.qpos, ph := x.row, kind := x.pos, seq := x.c, pay := (x.bytes ++ List.replicate 64 0).take 64 }
    match v.trunk with
    | none => .skip
    | some k =>
      if v.failed || f.crc != flitCrc f || f.seq != v.rxSeq then .skip
      else .both (output (.ack x.a f.seq)) <|
        if 6 ≤ f.kind then modPort x.a fun v => { v with rxSeq := (v.rxSeq + 1) % 1024, good := s.now, discarded := v.discarded + 1 }
        else
          .both (modPort x.a fun v => { v with rxSeq := (v.rxSeq + 1) % 1024, good := s.now, rx := if f.kind = 0 then v.rx else v.rx ++ [f] })
            (modMod fun m => drainTrunk k (rxWaiting m k) m)).step

/-- The neighbour of a trunk. -/
def trunkNeighbour (m : Module) (k : Nat) : Nat := smGet 0 m.trunkPkg k

/-- A port is declared failed (R388, R392): it leaves its trunk, and what it had not got through goes over the others. -/
def failPort (port : Nat) : Plan :=
  .get fun s =>
    let v := smGet {} s.mod.ports port
    Plan.when (!v.failed)
      (.both
        (match v.trunk with
         | none => modPort port fun v => { v with failed := true }
         | some k => Plan.all
           [ modPort port fun v => { v with failed := true, trunk := none, left := some k, replay := [], unsent := [] },
             Plan.each (v.replay ++ v.unsent) (fun f => sendFlit (trunkNeighbour s.mod k) f),
             modMod fun m => drainTrunk k (rxWaiting m k) m ])
        (bucketEvent 4 port 32))

/-- PORT_FAILED (R388): a port in a trunk without a good flit for 128 ticks is declared failed. -/
def execPortFailed : State → Host.Outcome State Fault Refusal :=
  (Plan.get fun s =>
    let port := s.site.a
    let v := smGet {} s.mod.ports port
    if v.trunk.isNone || v.failed then .skip
    else if s.now < v.good + 128 then atTick (v.good + 128) rankEvent none s.site (.instr .portFailed)
    else failPort port).step

/-- A trunk is used by a superstep between its start and its end (R389). -/
def trunkBusy (s : State) (k : Nat) : Bool :=
  (List.range 16).any fun p => (s.part p).runs.any fun r => r.trunks.contains k && decide (r.start ≤ s.now) && r.stop.any fun e => decide (s.now < e)

/-- A waiting change may be made: neither the trunk the port leaves nor the one it joins is in use. -/
def changeFree (s : State) (c : Nat × Option Nat) : Bool :=
  !((smGet {} s.mod.ports c.1).trunk.any (trunkBusy s)) && !(c.2.any (trunkBusy s))

/-- The changes that can be made at this tick, in their order (R389): shed ports first make room, and a port is added only while fewer than 72 are active (R387). -/
def changesNow (s : State) : List (Nat × Option Nat) :=
  let free := s.mod.trunkNew.filter (changeFree s)
  let active := fun (q : Nat) => (smGet {} s.mod.ports q).trunk.isSome
  let shed := free.filter fun c => c.2.isNone && active c.1
  let room := 72 + shed.length - ((List.range 80).filter active).length
  let adds := (free.filter fun c => c.2.isSome && !active c.1).take room
  free.filter fun c => c.2.isNone || active c.1 || adds.contains c

/-- TRUNK_CHANGE_APPLY (R389): the assignments that need not wait are made. -/
def execTrunkChangeApply : State → Host.Outcome State Fault Refusal :=
  (Plan.get fun s =>
    let now := changesNow s
    Plan.all
      [ modMod fun m => { m with trunkNew := m.trunkNew.filter fun c => !now.contains c },
        Plan.each now (fun (port, k) => .both (modPort port fun v => { v with trunk := k, failed := if k.isSome then false else v.failed, good := s.now }) (Plan.when k.isSome (watchPort port))),
        .get fun s => Plan.when (!s.mod.trunkNew.isEmpty) (atTick (s.now + 1) rankEvent none {} (.instr .trunkChangeApply)) ]).step

/-! ## What comes from the peers -/

/-- A peer's word: 0 ready for the superstep (LEN, GUARD, WREF, bytes announced), 1 its quiet tags, 2 a request performed there, 3 a message refused there, 4 flits of a
port acknowledged up to a SEQ, 5 a line of a superstep (tower, offset, superstep, the bytes at the site), 7 a replay asked for on a port. -/
def peerPlan (p peer what : Nat) (args : List Nat) : Plan :=
  .get fun s =>
    let x0 := args.getD 0 0
    let x1 := args.getD 1 0
    match what with
    | 0 => .both (modPart p fun v => { v with peerReady := smSet v.peerReady peer args }) (xchTryStart p)
    | 1 => modPart p fun v => { v with peerQuiet := smSet v.peerQuiet peer x0 }
    | 2 => endReq x0
    | 3 => atTick s.now rankEvent none { a := x0 } (.instr .messageRefusal)
    | 4 => .both (modPort x0 fun v => if v.replay.any fun f => f.seq == x1 then { v with replay := (v.replay.dropWhile fun f => f.seq != x1).drop 1 } else v)
        (modMod fun m => pushFlits x0 (smGet {} m.ports x0).unsent.length m)
    | 5 =>
      Plan.when (s.inWin x0 p x1 64)
        (withUid fun uid => presentLine x0
          { arr := x0 * 8, rank := 6, order := uid, addr := s.winAddr x0 p x1, presented := s.ttick x0, part := p, tag := 2 ^ 64,
            use := .peerWrite p (args.getD 2 (((s.part p).runs.head?.map fun r => r.step).getD 0)) (s.winAddr x0 p x1) ((s.site.bytes ++ List.replicate 64 0).take 64) })
    | 7 => .both (Plan.each (smGet {} s.mod.ports x0).replay fun f => output (.flit x0 f)) (bucketEvent 4 x0 1)
    | _ => .skip

/-! ## What ISSUE_SELECT asks of these instructions -/

def fabricStall (i : Instr) (s : State) : Option StallCause :=
  match i with
  | .msgSend _ k n => msgStall k (n.toNat + 1) s
  | .msgQuiet _ b => quietStall b s
  | .xchGo _ k xa n => xchStall k xa n s
  | _ => none

def fabricCheck (i : Instr) (s : State) : Option Chk :=
  match i with
  | .msgSend _ k _ => copyCheck k s
  | .xchGo _ k xa n => xchCheck k xa n s
  | _ => none

end Sys2Proof.Machine
end

