-- ==== Sys2Proof/Machine/Images.lean ====
section
/-! DEFINITION. The save-slot layout (R352-R354, R434, R260): the state of a context as bytes, read live, saved, restored, and loaded by the host (R365). -/

namespace Sys2Proof.Machine

/-! ## Fields of an image -/

/-- A field of an image of an `α`: its offset, its bytes, how it is read and written. -/
structure ImgField (α : Type) where
  off : Nat
  size : Nat
  get : α → Nat
  set : Nat → α → α

/-- The byte of an image at an offset; bytes of no field read zero. -/
def fieldByte {α : Type} (fs : List (ImgField α)) (x : α) (o : Nat) : Byte :=
  match fs.find? fun f => decide (f.off ≤ o) && decide (o < f.off + f.size) with
  | some f => BitVec.ofNat 8 (f.get x / 256 ^ (o - f.off))
  | none => 0

/-- The bytes of an image. -/
def imageBytes {α : Type} (fs : List (ImgField α)) (x : α) (off n : Nat) : List Byte := (List.range n).map fun i => fieldByte fs x (off + i)

/-- `old` bytes of a field at `f` with `new` bytes from offset `off` laid over them. -/
def overlay (old : List Byte) (f off : Nat) (new : List Byte) : List Byte :=
  (List.range old.length).map fun i => if off ≤ f + i ∧ f + i < off + new.length then new.getD (f + i - off) 0 else old.getD i 0

/-- Bytes written into an image: every field they meet is set once. -/
def putFields {α : Type} (fs : List (ImgField α)) (off : Nat) (new : List Byte) (x : α) : α :=
  (fs.filter fun f => decide (f.off < off + new.length) && decide (off < f.off + f.size)).foldl
    (fun x f => f.set (leNat (overlay (natBytes f.size (f.get x)) f.off off new)) x) x

/-- The 4-byte word of an offset holds a byte of some field (a transfer is whole words, so a word's zero bytes go with its field; log 12). -/
def inField {α : Type} (fs : List (ImgField α)) (o : Nat) : Bool := fs.any fun f => decide (f.off < o / 4 * 4 + 4) && decide (o / 4 * 4 < f.off + f.size)

/-- The part of a transfer that lies in [lo, hi), as an offset from `lo` and its bytes. -/
def cutRange (off : Nat) (bs : List Byte) (lo hi : Nat) : Nat × List Byte :=
  let st := max off lo
  let en := min (off + bs.length) hi
  (st - lo, (bs.drop (st - off)).take (en - st))

/-! ## Destination codes (R434) -/

def QDest.code : QDest → Nat
  | .x i => i.toNat
  | .q i => 32 + i.toNat
  | .w i => 48 + i.toNat

def qdestOf (c : Nat) : Option QDest :=
  if c < 32 then some (.x (BitVec.ofNat 5 c)) else if c < 40 then some (.q (BitVec.ofNat 3 (c - 32)))
  else if 48 ≤ c ∧ c < 64 then some (.w (BitVec.ofNat 4 (c - 48))) else none

def RDest.code : RDest → Nat
  | .v i => (Dst.v i).bits.toNat
  | .o i => (Dst.o i).bits.toNat
  | .none => Dst.none.bits.toNat
  | .s i => 0x2000 + i.toNat
  | .b i => 0x4000 + i.toNat
  | .p m => 0x6000 + m.toNat

/-- Every destination a late write can name. -/
def allRDests : List RDest :=
  (List.range 64).map (fun i => .v (BitVec.ofNat 6 i)) ++ (List.range 8).map (fun i => .o (BitVec.ofNat 3 i)) ++ [.none]
    ++ (List.range 16).map (fun i => .s (BitVec.ofNat 4 i)) ++ (List.range 4).map (fun i => .b (BitVec.ofNat 2 i))
    ++ (List.range 256).map fun i => .p (BitVec.ofNat 8 i)

def rdestOf (c : Nat) : Option RDest := allRDests.find? fun d => d.code == c

/-! ## The sequencer block (R353) -/

/-- A read-only field. -/
def roField {α : Type} (off size : Nat) (get : α → Nat) : ImgField α := { off, size, get, set := fun _ x => x }

/-- PEND as eight places. -/
def pendAt (c : Ctx) (i : Nat) : Nat :=
  match c.pend.find? fun e => e.place == i with
  | some e => e.val.toNat + e.dest.code * 2 ^ 64 + (e.due - c.ctime) % 256 * 2 ^ 72 + 2 ^ 80
  | none => 0

def pendOf (c : Ctx) (v : Nat) (old : Option PendEntry) : Option PendEntry :=
  if (v / 2 ^ 80).testBit 0 then
    (qdestOf (v / 2 ^ 64 % 256)).map fun dest =>
      { due := c.ctime + v / 2 ^ 72 % 256, n := (old.map fun e => e.n).getD 0, slot := (old.map fun e => e.slot).getD 0, dest, val := BitVec.ofNat 64 v }
  else none

def setPendAt (i v : Nat) (c : Ctx) : Ctx :=
  let rest := c.pend.filter fun e => e.place != i
  match pendOf c v (c.pend.find? fun e => e.place == i) with
  | some e => { c with pend := insertPend { e with place := i } rest }
  | none => { c with pend := rest }

/-- A queue word replaced; what its engines have reserved stays reserved. -/
def setQWord (k v : Nat) (c : Ctx) : Ctx :=
  let q := c.qwState k
  let w := BitVec.ofNat 128 v
  { c with qw := smSet c.qw k { q with word := w, pr := (qwPP w + ptrSub q.pr (qwPP q.word)) % 8192, cr := (qwCP w + ptrSub q.cr (qwCP q.word)) % 8192 } }

def aggWord (f : FlagAgg) : Nat := (if f.any then 1 else 0) + (if f.all then 2 else 0) + f.count % 1024 * 4
def aggOf (v : Nat) : FlagAgg := { any := v.testBit 0, all := v.testBit 1, count := v / 4 % 1024 }

def setAgg (e k v : Nat) (c : Ctx) : Ctx :=
  { c with ring := smSet c.ring e ((List.range 8).map fun j => if j = k then aggOf v else (smGet [] c.ring e).getD j { any := false, all := false, count := 0 }) }

/-- The level and the ticks of a lease word. -/
def leaseOf (v : Nat) : Option (Nat × Nat) := if v.testBit 63 then some (v % 2 ^ 16, v / 2 ^ 16 % 2 ^ 24) else none

/-- The fields of the SEQ block of context `k` of array `a`. PC has 16 bits: of a context that stands at a position of 2^16 or more (R47) it keeps 0xFFFF, from which a resume or a
LOAD of PC goes on, the wide position gone (DESIGN CHOICE, log 21). DEPTH is at most 16, which a larger value written there becomes (DESIGN CHOICE, log 21). -/
def seqFields (s : State) (a k : Nat) : List (ImgField Ctx) :=
  [ roField 0 2 (fun _ => 1), roField 2 2 (fun c => a % 64 + k * 64 + c.role * 256), roField 4 4 (fun c => c.nsave), roField 8 8 (fun c => c.tag.toNat),
    roField 16 8 (fun c => c.task) ]
  ++ (List.range 32).map (fun i => { off := 64 + 8 * i, size := 8, get := fun c => (smGet 0 c.x i).toNat, set := fun v c => { c with x := smSet c.x i (BitVec.ofNat 64 v) } })
  ++ (List.range 16).map (fun i => { off := 320 + 4 * i, size := 4, get := fun c => (smGet 0 c.w i).toNat, set := fun v c => { c with w := smSet c.w i (BitVec.ofNat 32 v) } })
  ++ (List.range 6).flatMap (fun i =>
      [ { off := 384 + 16 * i, size := 4, get := fun c => (c.loop i).index.toNat, set := fun v c => c.setLoop i { c.loop i with index := BitVec.ofNat 32 v } },
        { off := 388 + 16 * i, size := 4, get := fun c => (c.loop i).count.toNat, set := fun v c => c.setLoop i { c.loop i with count := BitVec.ofNat 32 v } },
        { off := 392 + 16 * i, size := 4, get := fun c => (c.loop i).start.toNat, set := fun v c => c.setLoop i { c.loop i with start := BitVec.ofNat 32 v } },
        { off := 396 + 16 * i, size := 4, get := fun c => (c.loop i).stop.toNat, set := fun v c => c.setLoop i { c.loop i with stop := BitVec.ofNat 32 v } } ])
  ++ (List.range 16).map (fun i => { off := 480 + 2 * i, size := 2, get := fun c => smGet 0 c.cs i, set := fun v c => { c with cs := smSet c.cs i v } })
  ++ [ { off := 512, size := 2, get := fun c => c.pc, set := fun v c => { c with pc := v, widePc := 0 } },
       { off := 514, size := 1, get := fun c => c.depth, set := fun v c => { c with depth := min (v % 32) 16 } },
       { off := 515, size := 1, get := fun c => c.phase.toNat, set := fun v c => { c with phase := BitVec.ofNat 8 v } },
       { off := 516, size := 1, get := fun c => (c.q ||| 1).toNat, set := fun v c => { c with q := BitVec.ofNat 8 v ||| 1 } },
       { off := 528, size := 8, get := fun c => c.seqOf c.ctime, set := fun v c => { c with ctimeOff := (v + 2 ^ 64 - c.ctime % 2 ^ 64) % 2 ^ 64 } },
       { off := 536, size := 4, get := fun c => c.terr1, set := fun v c => { c with terr1 := v } },
       { off := 540, size := 4, get := fun c => c.terr2, set := fun v c => { c with terr2 := v } },
       { off := 544, size := 4, get := fun c => c.rstall, set := fun v c => { c with rstall := v } },
       { off := 548, size := 8, get := fun c => c.dbg.toNat, set := fun v c => { c with dbg := BitVec.ofNat 2 v } },
       { off := 556, size := 8, get := fun c => leaseWord s c, set := fun v c => { c with saved := leaseOf v } } ]
  ++ (List.range 8).map (fun i => { off := 576 + 16 * i, size := 16, get := fun c => pendAt c i, set := setPendAt i })
  ++ (List.range 16).map (fun i => { off := 768 + 16 * i, size := 16, get := fun c => (c.qwState i).word.toNat, set := setQWord i })
  ++ (List.range 8).map (fun j => { off := 1024 + 32 * j, size := 32, get := fun c => (c.stream j).word.toNat, set := fun v c => { c with st := smSet c.st j { c.stream j with word := BitVec.ofNat 256 v } } })
  ++ (List.range 64).flatMap fun e => (List.range 8).map fun i =>
      { off := 2048 + 32 * e + 4 * i, size := 4, get := fun c => aggWord ((smGet [] c.ring e).getD i { any := false, all := false, count := 0 }), set := setAgg e i }

/-! ## A cell (R354, R96) -/

def lateAt (b : Bank) (ctime i : Nat) : Nat :=
  match b.lwb.find? fun e => e.place == i with
  | some e => e.val.toNat + e.dest.code * 2 ^ 256 + (match e.latch with
      | .no => 0
      | .la => 1
      | .lm => 2) * 2 ^ 272 + (e.due - ctime) % 256 * 2 ^ 280 + 2 ^ 288
  | none => 0

/-- The entry an image holds in a place. A new one counts as made by bundle 0 in the Q slot's place, so as the oldest where writes of one register fall due together, and of two latch
flags LA's holds (DESIGN CHOICE, log 21). One that stands there still, with the count it has now, keeps its bundle: a count of 0 may be for a bundle that has issued and has not
reached the cell (R100). -/
def lateOf (ctime v : Nat) (old : Option LwbEntry) : Option LwbEntry :=
  if (v / 2 ^ 288).testBit 0 then
    (rdestOf (v / 2 ^ 256 % 2 ^ 16)).map fun dest =>
      { due := match old with
          | some e => if (e.due - ctime) % 256 = v / 2 ^ 280 % 256 then e.due else ctime + v / 2 ^ 280 % 256
          | none => ctime + v / 2 ^ 280 % 256, n := (old.map fun e => e.n).getD 0, slot := (old.map fun e => e.slot).getD 0, dest,
        latch := if (v / 2 ^ 272).testBit 0 then .la else if (v / 2 ^ 273).testBit 0 then .lm else .no, val := BitVec.ofNat 256 v }
  else none

def setLateAt (ctime i v : Nat) (b : Bank) : Bank :=
  let rest := b.lwb.filter fun e => e.place != i
  match lateOf ctime v (b.lwb.find? fun e => e.place == i) with
  | some e => { b with lwb := insertLwb { e with place := i } rest }
  | none => { b with lwb := rest }

/-- C, CH1 and CH2 of a cell that `m` bundles have passed: C as of bundles m - 1, m - 2 and m - 3, the last three of which may lie before bundle 0. -/
def cPoint (b : Bank) (m i : Nat) : VReg := cAsOf b.chist (m + 2 - i)

/-- One of the three replaced (R96). -/
def setCPoint (m i : Nat) (v : VReg) (b : Bank) : Bank :=
  let pts := (List.range 3).map fun j => (m + 2 - j, if j = i then v else cPoint b m j)
  { b with chist := pts ++ b.chist.filter fun e => decide (e.1 < m) }

def pairWord (p : QPair) : Nat := p.pp % 8192 + p.cp % 8192 * 65536

/-- The fields of a cell's entry: `m` bundles have passed it, its context has issued `ctime`, `word` gives its queue words and stamps. -/
def cellFields (m ctime : Nat) (word : Nat → BitVec 128 × Nat) : List (ImgField Bank) :=
  (List.range 64).map (fun i => { off := 32 * i, size := 32, get := fun b => (smGet 0 b.v i).toNat, set := fun v b => { b with v := smSet b.v i (BitVec.ofNat 256 v), dirty := markDirty b.dirty i } })
  ++ (List.range 8).map (fun i => { off := 0x800 + 32 * i, size := 32, get := fun b => (smGet 0 b.o i).toNat, set := fun v b => { b with o := smSet b.o i (BitVec.ofNat 256 v), dirty := markDirty b.dirty (64 + i) } })
  ++ [ { off := 0x900, size := 32, get := fun b => b.la.toNat, set := fun v b => { b with la := BitVec.ofNat 256 v, dirty := markDirty b.dirty 72 } },
       { off := 0x920, size := 32, get := fun b => b.lm.toNat, set := fun v b => { b with lm := BitVec.ofNat 256 v, dirty := markDirty b.dirty 73 } } ]
  ++ (List.range 3).map (fun i => { off := 0x940 + 32 * i, size := 32, get := fun b => (cPoint b m i).toNat, set := fun v b => { setCPoint m i (BitVec.ofNat 256 v) b with dirty := markDirty b.dirty 102 } })
  ++ (List.range 16).map (fun i => { off := 0x9A0 + 4 * i, size := 4, get := fun b => (smGet 0 b.s i).toNat, set := fun v b => { b with s := smSet b.s i (BitVec.ofNat 32 v), dirty := markDirty b.dirty (74 + i) } })
  ++ (List.range 4).map (fun i => { off := 0x9E0 + i, size := 1, get := fun b => (smGet 0 b.b i).toNat, set := fun v b => { b with b := smSet b.b i (BitVec.ofNat 6 v), dirty := markDirty b.dirty (90 + i) } })
  ++ [ { off := 0x9E4, size := 1, get := fun b => (b.p ||| 1).toNat, set := fun v b => b.setPreds 0xFF (BitVec.ofNat 8 v) } ]
  ++ (List.range 16).map (fun i => { off := 0xA00 + 48 * i, size := 48, get := fun b => lateAt b ctime i, set := setLateAt ctime i })
  ++ (List.range 16).map (fun i =>
      let (w, stamp) := word i
      let live := qwValid w && qwKind w == 0
      { off := 0xD00 + 4 * i, size := 4, get := fun b => if live then pairWord (b.pairFor i stamp w) else 0,
        set := fun v b =>
          if live then
            let p := b.pairFor i stamp w
            let pp := v % 8192
            let cp := v / 65536 % 8192
            { b with pairs := smSet b.pairs i { stamp, pp, cp, pr := (pp + ptrSub p.pr p.pp) % 8192, cr := (cp + ptrSub p.cr p.cp) % 8192 } }
          else b })

/-! ## The walker (R260) -/

/-- A list cut or padded to a length. -/
def resize {α : Type} (xs : List α) (n : Nat) (d : α) : List α := (List.range n).map fun i => xs.getD i d

def listSet {α : Type} (xs : List α) (i : Nat) (v : α) : List α := (List.range xs.length).filterMap fun j => if j = i then some v else xs[j]?

def walkFields : List (ImgField Walker) :=
  [ roField 0 4 (fun _ => 0) ]
  ++ (List.range 15).map (fun i => { off := 4 * (i + 1), size := 4, get := fun w => (smGet 0 w.g (i + 1)).toNat, set := fun v w => { w with g := smSet w.g (i + 1) (BitVec.ofNat 32 v) } })
  ++ [ { off := 64, size := 1, get := fun w => w.pc, set := fun v w => { w with pc := v } },
       { off := 66, size := 2, get := fun w => w.plen, set := fun v w => { w with plen := v } } ]
  ++ (List.range 16).map (fun i => { off := 68 + 2 * i, size := 2, get := fun w => w.cwa.getD i 0, set := fun v w => { w with cwa := listSet (resize w.cwa 16 0) i v } })
  ++ (List.range 16).map (fun i => { off := 100 + 2 * i, size := 2, get := fun w => w.cwb.getD i 0, set := fun v w => { w with cwb := listSet (resize w.cwb 16 0) i v } })
  ++ [ { off := 132, size := 1, get := fun w => w.nwa, set := fun v w => { w with nwa := v } },
       { off := 133, size := 1, get := fun w => w.nwb, set := fun v w => { w with nwb := v } },
       { off := 134, size := 1,
         get := fun w => (if w.lwa then 1 else 0) + (if w.lwb then 2 else 0) + (if w.ended then 4 else 0) + (if w.clamp then 8 else 0) + (if w.offend then 16 else 0),
         set := fun v w => { w with lwa := v.testBit 0, lwb := v.testBit 1, ended := v.testBit 2, clamp := v.testBit 3, offend := v.testBit 4 } },
       { off := 136, size := 2, get := fun w => w.ma.toNat, set := fun v w => { w with ma := BitVec.ofNat 16 v } },
       { off := 138, size := 2, get := fun w => w.mb.toNat, set := fun v w => { w with mb := BitVec.ofNat 16 v } },
       { off := 140, size := 1, get := fun w => w.cna, set := fun v w => { w with cna := v } },
       { off := 141, size := 1, get := fun w => w.cnb, set := fun v w => { w with cnb := v } },
       { off := 142, size := 2, get := fun w => w.nemit % 65536, set := fun v w => { w with nemit := v } },
       { off := 144, size := 4, get := fun w => w.bm.toNat, set := fun v w => { w with bm := BitVec.ofNat 32 v } },
       { off := 148, size := 1, get := fun w => w.feed.length, set := fun v w => { w with feed := resize w.feed (min v 16) (List.replicate 516 0) } },
       { off := 149, size := 1, get := fun w => w.feedRes, set := fun v w => { w with feedRes := v } },
       { off := 150, size := 1, get := fun w => w.lbuf.length, set := fun v w => { w with lbuf := resize w.lbuf (min v 16) (0, List.replicate 64 0) } },
       { off := 152, size := 4, get := fun w => w.ecnt, set := fun v w => { w with ecnt := v } },
       { off := 256, size := 512, get := fun w => leNat w.stgAll, set := fun v w => { w with stg := natBytes 512 v } } ]
  ++ (List.range 16).map (fun i => { off := 768 + 64 * i, size := 64, get := fun w => leNat (w.lbuf.getD i (0, [])).2, set := fun v w => { w with lbuf := listSet w.lbuf i ((w.lbuf.getD i (0, [])).1, natBytes 64 v) } })
  ++ (List.range 16).map (fun i => { off := 1792 + 4 * i, size := 4, get := fun w => (w.lbuf.getD i (0, [])).1, set := fun v w => { w with lbuf := listSet w.lbuf i (v, (w.lbuf.getD i (0, [])).2) } })
  ++ (List.range 256).map (fun i => { off := 2048 + 4 * i, size := 4, get := fun w => (smGet 0 w.pstore i).toNat, set := fun v w => { w with pstore := smSet w.pstore i (BitVec.ofNat 32 v) } })
  ++ (List.range 16).map fun i => { off := 3072 + 516 * i, size := 516, get := fun w => leNat (w.feed.getD i []), set := fun v w => { w with feed := listSet w.feed i (natBytes 516 v) } }

/-! ## The regions (R352) -/

/-- The shape of an image: cells, cell-store window, row-window rows, arrays. -/
structure ImgShape where
  nc : Nat
  cs : Nat
  ra : Nat
  na : Nat
  deriving DecidableEq, Repr

def recShape (r : List Byte) : ImgShape :=
  { nc := if recGang r then 512 else 256, cs := csSizeOf (recCtxmax r), ra := arSizeOf (recCtxmax r), na := if recGang r then 2 else 1 }
def Ctx.shape (c : Ctx) : ImgShape := { nc := if c.h = 32 then 512 else 256, cs := c.csSize, ra := c.arSize, na := if c.h = 32 then 2 else 1 }

def ImgShape.cellsEnd (g : ImgShape) : Nat := 0x10000 + g.nc * 4096
def ImgShape.csEnd (g : ImgShape) : Nat := g.cellsEnd + g.nc * g.cs
def ImgShape.accEnd (g : ImgShape) : Nat := g.csEnd + g.ra * 4096
def ImgShape.planesEnd (g : ImgShape) : Nat := g.accEnd + g.na * 0x81000
/-- Z: the slot's size. -/
def ImgShape.size (g : ImgShape) : Nat := (g.planesEnd + 4095) / 4096 * 4096

/-- Cell (r, c) of an image, by its number 16 r + c. -/
def imgCell (a i : Nat) : Nat := cellOf a (i / 16) (i % 16)

/-- The accumulator row of an image row: a gang's rows are the upper array's. -/
def imgRowKey (s : State) (a k i : Nat) : Nat := let c := s.ctx a k; accKey (if c.h = 32 then a + 4 else a) (c.arBase + i)

def rowStatus (r : AccRow) : Nat := r.x % 1024 + (if r.ovf then 1024 else 0) + (if r.nfi then 2048 else 0)

/-- How many bundles have passed a cell of an image. -/
def cellPassed (c : Ctx) (i : Nat) : Nat := smGet 0 c.passed (i / 16)

def ctxCellFields (s : State) (a k i : Nat) : List (ImgField Bank) :=
  let c := s.ctx a k
  cellFields (cellPassed c i) c.ctime fun q => ((c.qwState q).word, (c.qwState q).stamp)

/-- The planes of an array in an image (R352): planes, role bytes, SGEN. -/
def planesByte (s : State) (a o : Nat) : Byte :=
  if o < 0x80000 then s.byte .plane ((a * 256 + o / 2048) * 2048 + o % 2048)
  else if o < 0x80100 then
    let c := s.cellx (a * 256 + (o - 0x80000))
    BitVec.ofNat 8 ((if c.plane1 then 1 else 0) + (if c.shready then 2 else 0))
  else if o < 0x80104 then BitVec.ofNat 8 ((s.arr a).sgen / 256 ^ (o - 0x80100)) else 0

/-- The byte of a live context's image at an offset. -/
def imgByte (s : State) (a k o : Nat) : Byte :=
  let c := s.ctx a k
  let g := c.shape
  if o < 0x2000 then fieldByte (seqFields s a k) c o
  else if o < 0x5000 then (if (s.arr a).walker.owner = some k then fieldByte walkFields (s.arr a).walker (o - 0x2000) else 0)
  else if o < 0x6000 then
    let i := (o - 0x5000) / 8
    if i < g.ra then BitVec.ofNat 8 (rowStatus (s.accRow (imgRowKey s a k i)) / 256 ^ ((o - 0x5000) % 8)) else 0
  else if o < 0x10000 then 0
  else if o < g.cellsEnd then
    let i := (o - 0x10000) / 4096
    fieldByte (ctxCellFields s a k i) (s.bank (imgCell a i) k) ((o - 0x10000) % 4096)
  else if o < g.csEnd then
    let i := (o - g.cellsEnd) / g.cs
    s.byte .cell (c.cellAddr (imgCell a i) ((o - g.cellsEnd) % g.cs))
  else if o < g.accEnd then
    let i := (o - g.csEnd) / 4096
    BitVec.ofNat 8 (accElem (s.accRow (imgRowKey s a k i)) ((o - g.csEnd) % 4096 / 8) 0 / 256 ^ ((o - g.csEnd) % 8))
  else if o < g.planesEnd then planesByte s (a + 4 * ((o - g.accEnd) / 0x81000)) ((o - g.accEnd) % 0x81000)
  else 0

def imgBytes (s : State) (a k off n : Nat) : List Byte := (List.range n).map fun i => imgByte s a k (off + i)

/-- An accumulator row with bytes of its image replaced: an element's low 54 bits are N (R181); X stands in ROWST. -/
def setAccBytes (off : Nat) (bs : List Byte) (r : AccRow) : AccRow :=
  (List.range 512).foldl (fun r col =>
    if decide (8 * col < off + bs.length) && decide (off < 8 * col + 8) then
      let v := leNat (overlay (natBytes 8 (accElem r col 0)) (8 * col) off bs)
      { r with n := smSet r.n col (BitVec.ofNat 54 v).toInt }
    else r) r

def setRowStatus (v : Nat) (r : AccRow) : AccRow := { r with x := v % 1024, ovf := v.testBit 10, nfi := v.testBit 11 }

/-- Bytes put into a live context at an image offset: SEQ, WALK, CELLS, CSTORE and ACC, and, when `rows`, ROWST too. -/
def imgPut (a k : Nat) (rows : Bool) (off : Nat) (bs : List Byte) : Plan :=
  .get fun s =>
    let c := s.ctx a k
    let g := c.shape
    let part := fun lo hi => cutRange off bs lo hi
    let meets := fun lo hi => decide (lo < off + bs.length) && decide (off < hi)
    Plan.all
      [ Plan.when (meets 0 0x2000) (modCtx a k (putFields (seqFields s a k) (part 0 0x2000).1 (part 0 0x2000).2)),
        Plan.when (meets 0x2000 0x5000 && (s.arr a).walker.owner == some k) (modWalkerOf a (putFields walkFields (part 0x2000 0x5000).1 (part 0x2000 0x5000).2)),
        Plan.when (rows && meets 0x5000 0x6000)
          (Plan.each (List.range g.ra) fun i => modAcc (imgRowKey s a k i) (setRowStatus (leNat (overlay (List.replicate 8 0) (0x5000 + 8 * i) off bs)))),
        .get fun s => Plan.each ((List.range g.nc).filter fun i => meets (0x10000 + 4096 * i) (0x10000 + 4096 * (i + 1))) fun i =>
          let p := part (0x10000 + 4096 * i) (0x10000 + 4096 * (i + 1))
          modBank (imgCell a i) k (putFields (ctxCellFields s a k i) p.1 p.2),
        Plan.each ((List.range g.nc).filter fun i => meets (g.cellsEnd + g.cs * i) (g.cellsEnd + g.cs * (i + 1))) fun i =>
          let p := part (g.cellsEnd + g.cs * i) (g.cellsEnd + g.cs * (i + 1))
          writeBytes .cell (c.cellAddr (imgCell a i) p.1) p.2,
        Plan.each ((List.range g.ra).filter fun i => meets (g.csEnd + 4096 * i) (g.csEnd + 4096 * (i + 1))) fun i =>
          let p := part (g.csEnd + 4096 * i) (g.csEnd + 4096 * (i + 1))
          modAcc (imgRowKey s a k i) (setAccBytes p.1 p.2) ]

/-! ## What a LOAD may write (R365, R434) -/

/-- An offset a LOAD may write: a field of SEQ, WALK (of the walker's owner) or CELLS, a byte of CSTORE or ACC. -/
def imgWritable (s : State) (g : ImgShape) (walk : Bool) (o : Nat) : Bool :=
  if o < 0x2000 then inField (seqFields s 0 0) o
  else if o < 0x5000 then walk && inField walkFields (o - 0x2000)
  else if o < 0x10000 then false
  else if o < g.cellsEnd then inField (cellFields 0 0 fun _ => (0, 0)) ((o - 0x10000) % 4096)
  else decide (o < g.accEnd)

/-- The first PEND or LWB entry that a transfer would leave valid with a code not used: its offset. `cur` gives the bytes that stand. -/
def badEntry (g : ImgShape) (cur : Nat → Byte) (off : Nat) (bs : List Byte) : Option Nat :=
  let now := fun o => if off ≤ o ∧ o < off + bs.length then bs.getD (o - off) 0 else cur o
  let meets := fun lo n => decide (lo < off + bs.length) && decide (off < lo + n)
  let pend := ((List.range 8).map fun i => 576 + 16 * i).filter fun o => meets o 16 && (now (o + 10)).getLsbD 0 && (qdestOf (now (o + 8)).toNat).isNone
  let late := ((List.range g.nc).filter fun i => meets (0x10000 + 4096 * i) 4096).flatMap fun i =>
    ((List.range 16).map fun e => 0x10000 + 4096 * i + 0xA00 + 48 * e).filter fun o =>
      meets o 48 && (now (o + 36)).getLsbD 0 && (rdestOf ((now (o + 32)).toNat + 256 * (now (o + 33)).toNat)).isNone
  (pend ++ late).head?

/-- The offset within a transfer of the first byte a LOAD may not write. -/
def loadRefused (s : State) (g : ImgShape) (walk : Bool) (cur : Nat → Byte) (off : Nat) (bs : List Byte) : Option Nat :=
  match (List.range bs.length).find? fun i => !imgWritable s g walk (off + i) with
  | some i => some i
  | none => (badEntry g cur off bs).map fun o => o - off

/-! ## Save slots (R350) -/

/-- The members of a task's unit that run a stream, each with an image of its own: a chain's downstream image follows its upstream one (log 11). -/
def imageStride (r : List Byte) : Nat := (if recChain r then 2 else 1) * (recShape r).size

/-- The virtual address of a member's image in its task's slot. -/
def slotVa (s : State) (p : Nat) (t : Task) (member : Nat) : Nat :=
  let r := s.taskRecord p t
  let units := eligibleUnits s p r
  let e := units.findIdx fun u => u == t.unit
  recSave r + (e * recCtxmax r + t.slot) * imageStride r + member * (recShape r).size

/-- Bytes written at a virtual address of a partition, page by page, over at most `fuel` pages. -/
def virtPages (p : Nat) : Nat → Nat → List Byte → Plan
  | 0, _, _ => .skip
  | fuel + 1, va, bs =>
    if bs.isEmpty then .skip
    else
      .both
        (.get fun s =>
          match translate s p va 1 with
          | .ok x => .both (deepTouch p x.pa (min bs.length (4096 - va % 4096)) true) (physWrite p x.pa (bs.take (4096 - va % 4096)))
          | .error _ => .skip)
        (virtPages p fuel (va + (4096 - va % 4096)) (bs.drop (4096 - va % 4096)))
def virtWrite (p va : Nat) (bs : List Byte) : Plan := virtPages p (bs.length / 4096 + 2) va bs

/-- The bytes at a virtual address of a partition, page by page; where no translation stands, zero. -/
def virtBytes (s : State) (p va n : Nat) : List Byte :=
  ((List.range ((va % 4096 + n + 4095) / 4096)).flatMap fun j =>
    let lo := max va ((va / 4096 + j) * 4096)
    let hi := min (va + n) ((va / 4096 + j + 1) * 4096)
    match translate s p lo 1 with
    | .ok x => physBytes s p x.pa (hi - lo)
    | .error _ => List.replicate (hi - lo) 0)

/-- The deep-tier cache as a read of a virtual range leaves it (R336). -/
def virtTouch (p va n : Nat) : Plan :=
  Plan.each (List.range ((va % 4096 + n + 4095) / 4096)) fun j => .get fun s =>
    let lo := max va ((va / 4096 + j) * 4096)
    let hi := min (va + n) ((va / 4096 + j + 1) * 4096)
    match translate s p lo 1 with
    | .ok x => deepTouch p x.pa (hi - lo) false
    | .error _ => .skip

/-- The uncorrectable lines among those of a virtual range: their virtual and physical addresses, kinds and numbers. -/
def slotLost (s : State) (p va n : Nat) : List (Nat × Nat × Nat × Nat) :=
  if s.marks.isEmpty then []
  else (List.range ((va % 64 + n + 63) / 64)).filterMap fun i =>
    match translate s p ((va / 64 + i) * 64) 1 with
    | .ok x => (lostLineAt s p x.pa).map fun m => ((va / 64 + i) * 64, x.pa, m.1, m.2)
    | .error _ => none

/-- What a read of a slot delivers: of an uncorrectable line, bytes that are open (R322, log 4). -/
def slotBytes (s : State) (p va n : Nat) : List Byte :=
  let lost := (slotLost s p va n).map fun l => l.1
  let bs := virtBytes s p va n
  if lost.isEmpty then bs else bs.zipIdx.map fun (b, i) => if lost.contains ((va + i) / 64 * 64) then BitVec.ofNat 8 (Config.freeUpTo (s.free + i) 255) else b

/-- A slot has been read for a context of task `tid`: the deep tier's caches are touched, and each uncorrectable line is fault 0x43 there (R322, R336). -/
def slotTouch (p tid a k va n : Nat) : Plan :=
  .get fun s => Plan.all
    [ virtTouch p va n, Plan.when (!(slotLost s p va n).isEmpty) (.edit (.free (s.free + n))),
      Plan.each (slotLost s p va n) fun (_, pa, kind, line) => .both (lineLost kind line) (raiseFaultFor p tid a k { kind := 1, unit := a, ctx := k, code := 0x43, addr := pa }) ]

/-- The DIRTY bits that make a checkpoint rewrite a field of a cell entry (R92, R354). -/
def fieldDirty (b : Bank) (off : Nat) : Bool :=
  if off < 0x800 then b.dirty.getLsbD (off / 32)
  else if off < 0x900 then b.dirty.getLsbD (64 + (off - 0x800) / 32)
  else if off < 0x920 then b.dirty.getLsbD 72
  else if off < 0x940 then b.dirty.getLsbD 73
  else if off < 0x9A0 then true
  else if off < 0x9E0 then b.dirty.getLsbD (74 + (off - 0x9A0) / 4)
  else if off < 0x9E4 then b.dirty.getLsbD (90 + (off - 0x9E0))
  else if off = 0x9E4 then (b.dirty >>> 94).toNat % 256 != 0
  else true

/-- A cell's entry written into a slot: its DIRTY registers, C and its history, the late writes, the pairs, the zero bytes; `all` writes every register. -/
def saveCell (p va a k i : Nat) (all : Bool) : Plan :=
  .get fun s =>
    let b := s.bank (imgCell a i) k
    let fs := ctxCellFields s a k i
    Plan.all
      [ Plan.each (fs.filter fun f => all || fieldDirty b f.off) (fun f => virtWrite p (va + 0x10000 + 4096 * i + f.off) (natBytes f.size (f.get b))),
        virtWrite p (va + 0x10000 + 4096 * i + 0x9E5) (List.replicate 27 0), virtWrite p (va + 0x10000 + 4096 * i + 0xD40) (List.replicate 704 0) ]

/-- The entries of a context's buffers take their places in the order in which they land, so that an image keeps it (R59, R100). -/
def orderLate (a k : Nat) : Plan :=
  .get fun s =>
    .both (modCtx a k fun c => { c with pend := c.pend.zipIdx.map fun (e, i) => { e with place := i } })
      (Plan.each (List.range (s.ctx a k).shape.nc) fun i => modBank (imgCell a i) k fun b => { b with lwb := b.lwb.zipIdx.map fun (e, i) => { e with place := i } })

/-- The image of a context written into a slot (R347): everything but the planes. -/
def saveImage (p va a k : Nat) (all : Bool) : Plan :=
  .both (orderLate a k) <| .get fun s =>
    let g := (s.ctx a k).shape
    let owns := (s.arr a).walker.owner == some k
    Plan.all
      [ virtWrite p va (imgBytes s a k 0 0x2000),
        Plan.when owns (virtWrite p (va + 0x2000) (imgBytes s a k 0x2000 0x3000)),
        virtWrite p (va + 0x5000) (imgBytes s a k 0x5000 0xB000),
        Plan.each (List.range g.nc) (fun i => saveCell p va a k i all),
        virtWrite p (va + g.cellsEnd) (imgBytes s a k g.cellsEnd (g.accEnd - g.cellsEnd)) ]

/-- The image of a context restored from a slot (R351): every DIRTY bit is left 0. -/
def restoreImage (p va a k : Nat) : Plan :=
  .get fun s =>
    let g := (s.ctx a k).shape
    let bs := slotBytes s p va g.accEnd
    .both (.both (slotTouch p (s.ctx a k).tid a k va g.accEnd) (imgPut a k true 0 bs)) (Plan.each (List.range g.nc) fun i => modBank (imgCell a i) k fun b => { b with dirty := 0 })

/-- The planes of an array written into a slot (R171). -/
def savePlanes (p va : Nat) (g : ImgShape) (member a : Nat) : Plan :=
  .get fun s => virtWrite p (va + g.accEnd + member * 0x81000) ((List.range 0x81000).map fun o => planesByte s a o)

/-- The planes, roles and SHREADY bits of an array written back from a slot (R171). -/
def restorePlanes (p va : Nat) (g : ImgShape) (member tid a k : Nat) : Plan :=
  .get fun s =>
    let bs := slotBytes s p (va + g.accEnd + member * 0x81000) 0x80100
    Plan.all
      [ slotTouch p tid a k (va + g.accEnd + member * 0x81000) 0x80100, writeBytes .plane (a * 256 * 2048) (bs.take 0x80000),
        Plan.each (List.range 256) (fun c => modCell (a * 256 + c) fun x =>
          let v := bs.getD (0x80000 + c) 0
          { x with plane1 := v.getLsbD 0, shready := v.getLsbD 1 }),
        modArr a fun v => { v with sgen := (v.sgen + 1) % 2 ^ 64 } ]

end Sys2Proof.Machine
end

