-- ==== Sys2Proof/Machine/Schedule.lean ====
section
/-! DEFINITION. The scheduler (R337-R351): what starts on a unit at a tick, pre-emption requests and their policy, checkpoints and resumes. -/

namespace Sys2Proof.Machine

/-! ## Pre-emption requests (R343-R346) -/

/-- Rem: the remaining time of a victim from its loop stack (R344). -/
def remaining (c : Ctx) (r : List Byte) : Nat :=
  let n := recNlev r
  let sum := ((List.range n).map fun j => (max (c.loop j).count.toNat 1 - 1) * recCost r j).foldl (· + ·) 0
  min (sum + recCost r (n - 1)) (2 ^ 48 - 1)

/-- The policy of a mode 0 request (R346): 0 drain, 1 checkpoint, 2 kill. -/
def preemptPolicyOf (v : Part) (c : Ctx) (r : List Byte) (newcomer : Option Nat) : Nat :=
  if remaining c r < v.draint then 0
  else if recKill r && (newcomer.any fun prio => decide (v.killt ≤ prio)) then 2 else 1

/-- A request noted in every context of a task, beside those that stand. -/
def addPreq (p : Nat) (t : Task) (q : PreReq) : Plan :=
  .get fun s => Plan.each (taskCtxs s p t) fun (a, k) => modCtx a k fun c => { c with preq := c.preq ++ [q] }

/-- PREEMPT_REQUEST, after the bundles of its tick have issued (R344): task `site.b` of partition `site.a` is to give way at Lq = `site.c` under mode `site.pos` (R343, R346); `site.n` is the newcomer, or 0;
`site.rowOn` says that the gate sequence asks (R386). -/
def execPreemptRequest : State → Host.Outcome State Fault Refusal :=
  (Plan.get fun s =>
    let x := s.site
    match (s.part x.a).task x.b with
    | none => .skip
    | some t =>
      let r := s.taskRecord x.a t
      let prio := if x.n = 0 then none else ((s.part x.a).task x.n).map fun m => recPrio (s.taskRecord x.a m)
      match taskCtxs s x.a t with
      | [] => .skip
      | (a, k) :: _ =>
        let mode := if x.pos = 0 then preemptPolicyOf (s.part x.a) (s.ctx a k) r prio else x.pos
        if mode = 2 then killTask x.a t
        else addPreq x.a t { lq := x.c, mode, newcomer := if x.n = 0 then none else some x.n, gate := !x.rowOn }).step

/-- The contexts of an array's units that run: array, context. -/
def unitCtxs (s : State) (arrs : List Nat) : List (Nat × Nat) :=
  (arrs.flatMap fun a => (List.range 4).map fun k => (a, k)).filter fun (a, k) => (s.ctx a k).state != .free

/-- The state with what some tasks hold given up: their contexts, the bundles they have on their way, their windows. -/
def without (s : State) (tids : List Nat) : State :=
  { s with ctxs := s.ctxs.map (fun (key, c) => if tids.contains c.tid then (key, { c with state := .free, freeFrom := 0 }) else (key, c)),
           arrs := s.arrs.map fun (a, v) => (a, { v with waves := v.waves.filter (fun w => !tids.contains w.tid), held := v.held.filter fun h => !tids.contains h.tid }) }

/-- The tasks of a partition of a class below another's. -/
def lowerTasks (s : State) (p : Nat) (t : Task) : List Task :=
  (s.part p).tasks.filter fun v => decide (classOf (recPrio (s.taskRecord p v)) < classOf (recPrio (s.taskRecord p t)))

/-- The place a waiting task would take if no lower class held a context or a window; none if it can start, or cannot for another reason (R343). -/
def lacking (s : State) (p : Nat) (t : Task) : Option Spot :=
  if t.state ≠ .pending ∨ (startSpot s p t).isSome then none else startSpot (without s ((lowerTasks s p t).map (·.uid))) p t

/-- What a spot takes on an array of its unit: the context, the cell-store base, the row base. -/
def Spot.on (sp : Spot) (r : List Byte) (u a : Nat) : Nat × Nat × Nat :=
  if a = u then (sp.k, sp.cs, if recGang r then sp.ar2 else sp.ar) else (sp.k2, sp.cs2, if recGang r then sp.ar else sp.ar2)

/-- A task holds a context or part of a window that a spot takes. -/
def inTheWay (s : State) (p : Nat) (t : Task) (sp : Spot) (v : Task) : Bool :=
  let r := s.taskRecord p t
  (unitArrays r t.unit).any fun a =>
    let (k, cs, ar) := sp.on r t.unit a
    (List.range 4).any fun j =>
      let c := s.ctx a j
      c.tid == v.uid && c.state != .free
        && (j == k || overlaps (c.csBase, c.csSize) (cs, csSizeOf (recCtxmax r))
          || overlaps (if c.h == 32 && !c.upper then c.arLow else c.arBase, c.arSize) (ar, arSizeOf (recCtxmax r)))

/-- The victim of R345: of the running tasks of a lower class that free what the newcomer lacks (one that is enough by itself, or else one that holds part of the place it
would take), the lowest PRIO, then the latest started. -/
def pickVictim (s : State) (p : Nat) (t : Task) : Option Task :=
  let vs := (lowerTasks s p t).filter fun v =>
    v.state == .running && !(taskCtxs s p v).isEmpty && (taskCtxs s p v).all fun (a, k) => (s.ctx a k).state == .ready || (s.ctx a k).state == .stalled
  let part := match lacking s p t with
    | some sp => vs.filter (inTheWay s p t sp)
    | none => []
  let enough := vs.filter fun v => (startSpot (without s [v.uid]) p t).isSome
  let from' := if enough.isEmpty then part else enough
  from'.foldl (fun best v => match best with
    | none => some v
    | some b =>
      let pb := recPrio (s.taskRecord p b)
      let pv := recPrio (s.taskRecord p v)
      let started : Task → Nat := fun t => ((taskCtxs s p t).head?.map fun (a, k) => (s.ctx a k).started).getD 0
      if pv < pb || (pv == pb && decide (started b < started v)) then some v else some b) none

/-- A request of the scheduler is under way on a unit's arrays: noted in a stream that holds a context there, a gang's in its lower array, or about to be. -/
def asking (s : State) (arrs : List Nat) : Bool :=
  (unitCtxs s arrs).any (fun (a, k) =>
      let c := s.ctx (streamArr s a k) k
      c.preq.any (fun q => q.newcomer.isSome) || c.state == .saving || c.killed)
    || s.due.any fun d => d.act == .instr .preemptRequest && d.site.n != 0 && arrs.contains d.site.arr

/-- The cause of a request of the scheduler stands: its newcomer still cannot start only for what lower classes hold. -/
def causeStands (s : State) (p : Nat) (q : PreReq) : Bool :=
  match q.newcomer with
  | some n => ((s.part p).task n).any fun t => (lacking s p t).isSome
  | none => true

/-- The scheduler's requests of a partition whose cause has ended are withdrawn (R343); a victim that has reached its boundary saves all the same. -/
def withdraw (p : Nat) : Plan :=
  .get fun s => Plan.each (s.ctxs.filter fun (_, c) => c.part == p && c.state != .saving && c.preq.any fun q => !causeStands s p q) fun (key, _) =>
    modCtx (key / 4) (key % 4) fun c => { c with preq := c.preq.filter (causeStands s p) }

/-- The first pending task of a unit, if it cannot start only for contexts and windows that lower classes hold (R343). -/
def blocked (s : State) (p u kind : Nat) : Option Task := (firstTask s p (pendingOn s p u kind)).filter fun t => (lacking s p t).isSome

/-- One victim is asked for a blocked task (R345). -/
def askVictim (p u kind : Nat) : Plan :=
  .get fun s =>
    match blocked s p u kind with
    | none => .skip
    | some t =>
      Plan.when (!asking s (unitArrays (s.taskRecord p t) u))
        (match pickVictim s p t with
         | some v => atTick s.now rankPreempt (some (towerOf u)) { arr := u, a := p, b := v.uid, c := recNlev (s.taskRecord p v) - 1, pos := 0, n := t.uid } (.instr .preemptRequest)
         | none => .skip)

/-! ## Plane images (R171) -/

/-- A checkpointed task of another launch waits to resume on an array: its plane image is written before a task of launch `launch` starts there, unless one is saved and
SGEN has not changed. -/
def keepPlanes (p launch : Nat) (arrs : List Nat) : Plan :=
  .get fun s => Plan.each ((s.part p).tasks.filter fun t => t.state == .checkpointed && t.launch != launch) fun t =>
    let r := s.taskRecord p t
    let own := unitArrays r t.unit
    Plan.each (own.filter fun a => arrs.contains a && !(t.planes.any fun i => i.arr == a && i.sgen == (s.arr a).sgen)) fun a =>
      let member := if a = t.unit then 0 else 1
      let va := slotVa s p t (if recChain r then member else 0)
      .both (savePlanes p va (recShape r) (if recChain r then 0 else member) a)
        (modTask p t.uid fun t => { t with planes := { arr := a, sgen := (s.arr a).sgen } :: t.planes.filter fun i => i.arr != a })

/-- Before a task resumes, planes that have changed since its image are written back. -/
def bringPlanes (p : Nat) (t : Task) : Plan :=
  .get fun s =>
    let r := s.taskRecord p t
    Plan.each (unitArrays r t.unit) fun a =>
      match t.planes.find? fun i => i.arr == a with
      | some i =>
        let member := if a = t.unit then 0 else 1
        Plan.when (i.sgen != (s.arr a).sgen)
          (.both (restorePlanes p (slotVa s p t (if recChain r then member else 0)) (recShape r) (if recChain r then 0 else member) t.uid a (if recChain r && member == 1 then t.ctx2 else t.ctx))
            (modTask p t.uid fun t => { t with planes := t.planes.filter fun i => i.arr != a }))
      | none => .skip

/-! ## Resuming (R351) -/

/-- The streams of a task's unit that have not ended: array, context, member (R81). -/
def taskMembers (s : State) (r : List Byte) (t : Task) : List (Nat × Nat × Nat) :=
  (if recChain r then [(t.unit, t.ctx, 0), (t.unit + 1, t.ctx2, 1)] else [(t.unit, t.ctx, 0)]).filter fun (a, k, _) =>
    (s.ctxOf a k t.uid).tid == t.uid && (s.ctxOf a k t.uid).state != .free

/-- A stream's context as it goes on: what the drain left, Ready, with nothing asked of it, its queue words as they were saved. -/
def resumedCtx (c : Ctx) : Ctx :=
  { c with qw := c.qw.map (fun (q, w) => (q, w.atSave)), state := .ready, freeFrom := 0, preq := [], faulted := false, killed := false, yielded := false, wait := 0, lease := none, acq := none, xch := none }

/-- A walker brought back goes on; feed records other contexts' passes have reserved stay before its own (R263, R264). -/
def resumeWalker (t : Task) (a k : Nat) : Plan :=
  Plan.when (t.walkers.any fun e => e.1 == a)
    (modWalkerOf a fun w => { smGet {} t.walkers a with owner := some k, epoch := w.epoch + 1 })

/-- The feed of a walker brought back: the records that passes of others still have reserved on the array, then those of the image that nothing had reserved. Those the image has
as reserved have been read since, or are among the first (R263, R264; log 15). -/
def mergeFeed (t : Task) (a : Nat) (front : List (List Byte)) : Plan :=
  Plan.when (t.walkers.any fun e => e.1 == a) (modWalkerOf a fun w => { w with feed := (front ++ w.feed.drop w.feedRes).take 16, feedRes := front.length })

/-- A member's context, banks, row window, walker and streams brought back. -/
def resumeMember (p : Nat) (t : Task) (m a k : Nat) : Plan :=
  .get fun s =>
    let c := { resumedCtx (((s.arr a).ghost? t.uid).getD {}) with freeFrom := s.ttick (towerOf a) }
    let va := slotVa s p t m
    let front := (s.arr a).walker.feed
    Plan.all
      [ bury a k, modArr a (fun v => { v with ghosts := v.ghosts.filter fun g => g.tid != t.uid }), .edit (.ctx (ctxKey a k) c),
        Plan.when (c.h == 32) (.edit (.ctx (ctxKey (a + 4) k)
          { state := .ready, upper := true, freeFrom := s.ttick (towerOf a), part := p, tid := t.uid, launch := t.launch, tag := c.tag, role := 1, h := 32, prio := c.prio, csBase := c.csBase,
            csSize := c.csSize, arBase := c.arBase, arSize := c.arSize })),
        freshBanks a k, Plan.when (c.h == 32) (freshBanks (a + 4) k),
        resumeWalker t a k, restoreImage p va a k, mergeFeed t a front,
        modCtx a k (fun c => { c with passed := (List.range c.h).map (fun r => (r, c.ctime)), nsave := t.nsave, qw := c.qw.map fun (q, w) => (q, w.caughtUp) }),
        .get fun s => Plan.each (List.range 8) fun j => Plan.when (!((s.ctx a k).stream j).ops.isEmpty) (restartStream a k t.uid j),
        .get fun s => Plan.when (t.walkers.any (fun e => e.1 == a) && !(s.arr a).walker.ended && !(s.arr a).walker.loading)
          (.both (modWalkerOf a fun w => { w with running := true })
            (.get fun s => afterAt 0 rankWalk { arr := a, ctx := k, n := (s.arr a).walker.startN, issue := true, c := (s.arr a).walker.epoch } (.walk a))),
        reaskLease a k, wakeIssue a, Plan.when (c.h == 32) (wakeIssue (a + 4)) ]

/-- TASK_RESUME (R351), if its contexts and windows are still free: the checkpointed task `site.b` of partition `site.a` goes back to its contexts and windows. -/
def execTaskResume : State → Host.Outcome State Fault Refusal :=
  (Plan.get fun s =>
    let p := s.site.a
    match (s.part p).task s.site.b with
    | none => .skip
    | some t =>
      if t.state ≠ .checkpointed ∨ !resumeReady s p t then .skip
      else
        let r := s.taskRecord p t
        Plan.all
          [ keepPlanes p t.launch (unitArrays r t.unit), bringPlanes p t,
            modTask p t.uid (fun t => { t with state := .running, walkers := [] }),
            Plan.each (taskMembers s r t) (fun (a, k, m) => resumeMember p t m a k) ]).step

/-! ## Starting (R341, R342, R386) -/

/-- The state with a unit's arrays powered: what a waiting task would find once they are. -/
def poweredUp (s : State) (arrs : List Nat) : State :=
  { s with arrs := s.arrs.map fun (a, v) => if arrs.contains a then (a, { v with gate := .up }) else (a, v) }

/-- A gated array of a unit on which a waiting task could start if it were up is ungated (R386). -/
def ungateFor (p u kind : Nat) : Plan :=
  .get fun s => Plan.each (waitingOn s p u kind) fun t =>
    let arrs := unitArrays (s.taskRecord p t) u
    Plan.when (arrs.any (fun a => (s.arr a).gate == .gated) && canStart (poweredUp s arrs) p { t with gateHold := false })
      (Plan.each (arrs.filter fun a => (s.arr a).gate == .gated) fun a => atTick s.now rankSchedule (some (towerOf a)) { arr := a } (.instr .arrayUngate))

/-- The units that share an array with the units of a lower array: lower array, kind. -/
def neighbourUnits (u : Nat) : List (Nat × Nat) :=
  ((List.range 8).map fun i => u / 8 * 8 + i).flatMap fun v => (List.range 3).map fun kind => (v, kind)

/-- Two tasks run on units that share an array. -/
def shareArray (s : State) (p : Nat) (t o : Task) : Bool :=
  (unitArrays (s.taskRecord p o) o.unit).any ((unitArrays (s.taskRecord p t) t.unit).contains ·)

/-- A task saved for a newcomer of a higher class, of a unit that shares an array with its own, that still cannot start: it stays saved while the next victim is asked (R345; log 15). -/
def yieldsTo (s : State) (p : Nat) (t : Task) : Bool :=
  t.state == .checkpointed && (neighbourUnits t.unit).any fun (v, kind) =>
    (blocked s p v kind).any fun n => shareArray s p t n && decide (classOf (recPrio (s.taskRecord p t)) < classOf (recPrio (s.taskRecord p n)))

/-- The tasks of a unit that can start or go on now. -/
def startable (s : State) (p u kind : Nat) : List Task := (waitingOn s p u kind).filter fun t => canStart s p t && !yieldsTo s p t

/-- A task starts, or goes on before anything else happens. -/
def startOne (p u : Nat) (t : Task) : Plan :=
  .get fun s =>
    if t.state = .checkpointed then pushFront [({ arr := u, a := p, b := t.uid }, .instr .taskResume)]
    else
      match startSpot s p t with
      | some sp => .both (keepPlanes p t.launch (unitArrays (s.taskRecord p t) u)) (startTask p t sp)
      | none => .skip

/-- Another unit that shares an array with a task's unit has a task to start that goes before it in R341's order, and is still to be looked at in this tick (R349). -/
def outranked (s : State) (p u : Nat) (t : Task) : Bool :=
  (neighbourUnits u).any fun (v, kind) =>
    v != u && s.due.any (fun d => d.act == .instr .taskStart && d.site.arr == v && d.tick == s.now && !d.site.a.testBit kind)
      && (startable s p v kind).any fun o => shareArray s p t o && decide (taskRank s p o < taskRank s p t)

/-- The first in R341's order of the tasks that can start on the units of a lower array, of kinds not yet served at this tick, with its kind. -/
def nextStart (s : State) (p u done : Nat) : Option (Nat × Task) :=
  (((List.range 3).filter fun kind => !done.testBit kind).filterMap fun kind => (firstTask s p (startable s p u kind)).map fun t => (kind, t)).foldl
    (fun best e => match best with
      | none => some e
      | some b => if taskRank s p e.2 < taskRank s p b.2 then some e else some b) none

/-- What the waiting tasks of a lower array's units ask for once no more of them start at this tick: power (R386), a victim (R343). -/
def askFor (p u : Nat) : Plan := Plan.each (List.range 3) fun kind => .both (ungateFor p u kind) (askVictim p u kind)

/-- TASK_START: the scheduler at one tick on the units whose lower or upstream array is `site.arr` (R341, R342); `site.a` has a bit for each kind of unit that it has served at
this tick, at most one task of each. A task waits for those of other units that go before its own. It looks again while tasks wait there. -/
def execTaskStart : State → Host.Outcome State Fault Refusal :=
  (Plan.get fun s =>
    let u := s.site.arr
    match (s.arr u).owner with
    | none => .skip
    | some p =>
      let look := .get fun s => Plan.when ((List.range 3).any (fun kind => !(waitingOn s p u kind).isEmpty) && !(s.due.any fun d => d.act == .instr .taskStart && d.site.arr == u))
        (afterAt 1 rankSchedule { arr := u } (.instr .taskStart))
      if (s.part p).leash then look
      else
        match nextStart s p u s.site.a with
        | none => Plan.all [ withdraw p, askFor p u, look ]
        | some (kind, t) =>
          let again := fun (done : Nat) => afterAt 0 rankSchedule { arr := u, a := done } (.instr .taskStart)
          if outranked s p u t then again s.site.a else .both (again (s.site.a + 2 ^ kind)) (startOne p u t)).step

/-- The units an array belongs to are looked at this tick. -/
def wakeArrayNow (a : Nat) : Plan :=
  Plan.each ([a] ++ (if a % 8 < 4 then [] else [a - 4]) ++ (if a % 2 = 0 then [] else [a - 1])) fun u =>
    .get fun s => Plan.when (!(s.due.any fun d => d.act == .instr .taskStart && d.site.arr == u && d.tick == s.now))
      (atTick s.now rankSchedule (some (towerOf u)) { arr := u } (.instr .taskStart))

/-! ## Checkpoints (R347, R349) -/

/-- Work of a row still to be done in the cells. -/
def Micro.isRowWork : Micro → Bool
  | .write .. | .cellRead .. | .pair .. | .word .. | .straitPop .. | .planeDone .. | .accSet .. | .accAdd .. | .accRead .. | .accCopy .. | .accConvert .. | .accScale ..
  | .chunk .. | .loadRow .. | .storeRow .. | .storeLines .. => true
  | _ => false

/-- The walker of a context has come to an instruction it may begin, or has none (R263). -/
def walkerAtRest (s : State) (a k : Nat) : Bool :=
  let w := (s.arr a).walker
  w.owner != some k || (!w.loading && (!w.running || s.due.any fun d =>
    (d.act == .walk a || (d.act == .instr .emitzRecordPush && d.site.arr == a && feedFull w)) && d.site.issue && d.site.c == w.epoch))

/-- What a checkpoint waits for (R347). -/
def drained (s : State) (a k : Nat) : Bool :=
  let c := s.ctx a k
  let v := s.arr a
  let u := s.ttick (towerOf a)
  v.waves.all (fun w => w.ctx != k) && v.passes.all (fun p => p.tid != c.tid) && v.loads.all (fun o => o.tid != c.tid)
    && decide (smGet 0 v.lastWrite c.tid ≤ u)
    && s.due.all (fun d => match d.act with
      | .micro m => !(m.isRowWork && d.site.arr == a && d.site.ctx == k)
      | _ => true)
    && s.reqs.all (fun r => !(r.kind == .atom && r.tid == c.tid))
    && walkerAtRest s a k

/-- At the end of the drain the units of its lease return, its streams' commits stop and its walker stands still (R253, R263, R382). -/
def stillContext (a k : Nat) : Plan :=
  Plan.all
    [ saveLease a k,
      .get fun s => Plan.each (List.range 8) fun j => Plan.when (!((s.ctx a k).stream j).ops.isEmpty) (dropStream a (s.ctx a k).tid j),
      .get fun s => Plan.when ((s.arr a).walker.owner == some k) (.both (abandonWalk a) (haltWalker a)) ]

/-- CHECKPOINT_SAVE (R347): the Saving context of the site drains, then its state goes to its save slot; the members of a chain go together, at the upstream one's call or at
that of the one whose partner has ended (R81). -/
def execCheckpointSave : State → Host.Outcome State Fault Refusal :=
  (Plan.get fun s =>
    let a := s.site.arr
    let k := s.site.ctx
    let c := s.ctx a k
    if c.state ≠ .saving || c.killed || (c.role = 3 && (unitMembers { s with site := { arr := a, ctx := k } }).length = 2) then .skip
    else
      match (s.part c.part).task c.tid with
      | none => .skip
      | some t =>
        let ms := taskMembers s (s.taskRecord c.part t) t
        if ms.all fun (b, j, _) => drained s b j then
          .both (Plan.each ms fun (b, j, _) => stillContext b j)
            (withFree Config.offDomainBound fun d => afterAt (1 + d) rankEvent { arr := a, ctx := k, a := c.part, b := c.tid } (.instr .saveComplete))
        else after 1 rankEnd (.instr .checkpointSave)).step

/-- A context of a checkpointed task given up: its windows and its walker are free. What the drain left is kept beside the image; the context keeps its partition, TAG and PHASE,
to which the array's ticks with no bundle are booked while it is the last that issued (R355). -/
def freeSaved (a k : Nat) : Plan :=
  .get fun s =>
    let c := s.ctx a k
    Plan.all
      [ Plan.when ((s.arr a).walker.owner == some k && !c.upper)
          (modArr a fun v => { v with walker := { owner := none, epoch := v.walker.epoch + 1, feed := v.walker.feed.take v.walker.feedRes, feedRes := v.walker.feedRes } }),
        Plan.when (!c.upper) (modArr a fun v => { v with ghosts := { c with preq := [], saved := none } :: v.ghosts.filter (keepGhost s a) }),
        .edit (.ctx (ctxKey a k) { freeFrom := s.ttick (towerOf a), part := c.part, tag := c.tag, phase := c.phase }) ]

/-- SAVE_COMPLETE (R347, R349): the image stands in the slot; the context is Free, or, under the leash, Halted. -/
def execSaveComplete : State → Host.Outcome State Fault Refusal :=
  (Plan.get fun s =>
    let p := s.site.a
    match (s.part p).task s.site.b with
    | none => .skip
    | some t =>
      let r := s.taskRecord p t
      let ms := taskMembers s r t
      let gate := ms.any fun (a, k, _) => (s.ctx a k).preq.any fun q => q.gate
      if ms.isEmpty || ms.any fun (a, k, _) => (s.ctx a k).state != .saving || (s.ctx a k).tid != t.uid then .skip
      else
        Plan.all
          [ Plan.each ms (fun (a, k, _) => modCtx a k fun c => { c with nsave := c.nsave + 1 }),
            .get fun s => Plan.each ms (fun (a, k, m) => saveImage p (slotVa s p t m) a k false),
            Plan.each ms (fun (a, k, _) => Plan.each (List.range (if recGang r then 512 else 256)) fun i => modBank (imgCell a i) k fun b => { b with dirty := 0 }),
            modTask p t.uid (fun t => { t with nsave := t.nsave + 1 }),
            if (s.part p).leash then Plan.each ms (fun (a, k, _) => Plan.each (withUpper s a k) fun b => modCtx b k fun c => { c with state := .halted, preq := [] })
            else
              .get fun s => Plan.all
                [ modTask p t.uid (fun t =>
                    { t with state := .checkpointed, gateHold := gate,
                             walkers := (ms.filter fun (a, k, _) => (s.arr a).walker.owner == some k).map fun (a, _, _) => (a, (s.arr a).walker) }),
                  Plan.each ms (fun (a, k, _) => Plan.each (withUpper s a k) fun b => freeSaved b k),
                  Plan.each (unitArrays r t.unit) wakeArrayNow ] ]).step

end Sys2Proof.Machine
end

