-- ==== Sys2Proof/Machine/Power.lean ====
section
/-! DEFINITION. Power and heat (R377-R386): overdraw, the thermal ladder, stretched ticks, gating and ungating an array. What the sensors and monitors measure is an
input (log 1). -/

namespace Sys2Proof.Machine

/-! ## Overdraw (R383) -/

/-- A sample of `mw` exceeds 1.1 times the declared level, in units of 250 mW. -/
def overSample (s : State) (a mw : Nat) : Bool := decide (11 * 250 * declared s a < 10 * mw)

/-- The contexts whose leases count on an array: array, context. -/
def leaseHolders (s : State) (a : Nat) : List (Nat × Nat) :=
  let own := (List.range 4).map fun k => (a, k)
  let gang := if a % 8 < 4 then [] else ((List.range 4).map fun k => (a - 4, k)).filter fun (b, k) => (s.ctx b k).h == 32
  (own ++ gang).filter fun (b, k) => (s.ctx b k).lease.isSome

/-- The context an overdraw is raised in: the holder of the largest level, ties to the lower context; else the one that issued last. -/
def overdrawCtx (s : State) (a : Nat) : Option (Nat × Nat × Nat) :=
  let best := (leaseHolders s a).foldl (fun (b : Option (Nat × Nat)) e => match b with
    | none => some e
    | some f =>
      let le := (s.ctx e.1 e.2).leaseLevel
      let lf := (s.ctx f.1 f.2).leaseLevel
      if lf < le || (lf == le && decide (e.2 < f.2)) then some e else some f) none
  match best with
  | some (b, k) => some (b, k, 0)
  | none => (s.arr a).lastCtx.map fun k => (if (s.ctx a k).upper then a - 4 else a, k, 1)

/-- POWER_SAMPLE (R383): array `site.arr` draws `site.b` mW; the monitors sample at multiples of 1,250 only. With `site.c` = 1 it is the end of that tick, when what is
declared in it is known: a sample too high 1,250 ticks after another raises the fault. -/
def execPowerSample : State → Host.Outcome State Fault Refusal :=
  (Plan.get fun s =>
    let a := s.site.arr
    let tooHigh := overSample s a s.site.b
    if s.site.c ≠ 1 then
      Plan.when (s.now % 1250 == 0 && (s.arr a).owner.isSome) (atTick s.now rankEnd none { arr := a, b := s.site.b, c := 1 } (.instr .powerSample))
    else
      .both (modArr a fun v => { v with tooHigh := if tooHigh then some s.now else none })
        (match overdrawCtx s a with
         | none => .skip
         | some (b, k, sub) =>
           let c := s.ctx b k
           Plan.when (tooHigh && (s.arr a).tooHigh == some (s.now - 1250) && decide (1250 ≤ s.now))
             (raiseFaultIn ((s.arr a).owner.getD c.part) c.tag.toNat b k (c.state != .free)
               { kind := 1, unit := b, ctx := k, code := 0x30, sub, addr := s.site.b, seq := c.ctime - 1, pos := c.pc }))).step

/-! ## The thermal ladder (R384) -/

/-- INFO of a thermal event (R398). -/
def tripInfo (trip t : Nat) (acting : Bool) : Nat := trip + 256 * t + (if acting then 65536 else 0)

/-- A tower's ticks are being stretched for trip 2. -/
def stretching (s : State) (t : Nat) : Bool := s.due.any fun d => d.act == .instr .clockStretch && d.site.a == t && d.site.c == 1

/-- A trip acts; from trip 2 on the tower's ticks are stretched, tick by tick. -/
def tripActs (trip t : Nat) : Plan :=
  .both (modTower t fun v => { v with trip := max v.trip trip })
    (.get fun s => Plan.when (decide (2 ≤ trip) && !stretching s t) (afterAt 1 rankInput { arr := t * 8, a := t, c := 1 } (.instr .clockStretch)))

/-- THERMAL_TRIP_1: tower `site.a`. -/
def execThermalTrip1 : State → Host.Outcome State Fault Refusal :=
  (Plan.get fun s => .both (tripActs 1 s.site.a) (moduleEvent 3 (tripInfo 1 s.site.a true))).step

/-- THERMAL_TRIP_2: the tower's dies grant no new lease while it stands (R378), and its ticks stretch. -/
def execThermalTrip2 : State → Host.Outcome State Fault Refusal :=
  (Plan.get fun s => .both (tripActs 2 s.site.a) (moduleEvent 3 (tripInfo 2 s.site.a true))).step

/-- The lowest array a partition holds. -/
def firstArray (s : State) (p : Nat) : Nat := ((List.range 64).find? fun a => (s.arr a).owner == some p).getD 0

/-- THERMAL_TRIP_3: fault 0x90, sub-code 3, in every partition of the module (R375, R384). -/
def execThermalTrip3 : State → Host.Outcome State Fault Refusal :=
  (Plan.get fun s =>
    .both (tripActs 3 s.site.a)
      (Plan.each ((List.range 16).filter fun p => (s.part p).live) fun p =>
        raiseFaultIn p 0 (firstArray s p) 0 false { kind := 1, unit := firstArray s p, ctx := 0xFF, code := 0x90, sub := 3 })).step

/-- THERMAL_TRIP_4: the comparator removes module power, and all volatile state is lost. -/
def execThermalTrip4 : State → Host.Outcome State Fault Refusal := (Plan.edit (.lose false)).step

/-- THERMAL_TRIP_CLEAR: trip `site.b` of tower `site.a` clears; the trip below it stands. -/
def execThermalTripClear : State → Host.Outcome State Fault Refusal :=
  (Plan.get fun s =>
    let trip := s.site.b
    .both (modTower s.site.a fun v => { v with trip := min v.trip (trip - 1) })
      (Plan.when (decide (1 ≤ trip) && decide (trip ≤ 2)) (moduleEvent 3 (tripInfo trip s.site.a false)))).step

/-- The intake air reads `v` sixteenths of a degree: above 20 °C the ROM lowers the ring total, by how much the spec does not say (log 4). -/
def intakeReads (v : Int) : Plan :=
  .get fun s =>
    .both (modMod fun m => { m with intake := v })
      (if 320 < v then withFree s.mod.ringTotal fun n => .get fun s => setRing s.mod.ringTotal n else setRing s.mod.ringTotal 0)

/-- THERMAL_RING_REDUCTION: intake air of `site.b` sixteenths of a degree. -/
def execThermalRingReduction : State → Host.Outcome State Fault Refusal := (Plan.get fun s => intakeReads s.site.b).step

/-- The trips: the temperature in sixteenths of a degree, the most ticks it takes to act (10 µs or 1 µs, each within the bound), and its event. -/
def trips : List (Nat × Int × Nat × Instr) :=
  [ (1, 1520, 12499, .thermalTrip1), (2, 1680, 1249, .thermalTrip2), (3, 1840, 1249, .thermalTrip3), (4, 2000, 12499, .thermalTrip4) ]

/-- The readings of a tower's sensors. -/
def sensorsOf (s : State) (t : Nat) : List Int := (s.mod.sensors.filter fun e => e.1 / 28 == t).map (·.2)

/-- The tick at which a trip of a tower is about to act. -/
def tripDue (s : State) (t : Nat) (i : Instr) : Option Nat := (s.due.find? fun d => d.act == .instr i && d.site.a == t).map (·.tick)

/-- A sensor reads (R384): what the readings of its tower ask for now acts within its time (a free delay, log 4), and clears once every sensor there has fallen 3 °C below. -/
def sensorReads (n : Nat) (v : Int) : Plan :=
  .both (modMod fun m => { m with sensors := smSet m.sensors n v })
    (.get fun s =>
      let t := n / 28
      let xs := sensorsOf s t
      Plan.each trips fun (trip, level, bound, i) =>
        let acts := decide (trip ≤ (s.tower t).trip)
        if xs.any (fun x => decide (level ≤ x)) then
          Plan.when (!acts && (tripDue s t i).isNone) (withFree bound fun d => .get fun s => atTick (s.now + d) rankEvent none { a := t } (.instr i))
        else Plan.when (xs.all (fun x => decide (x ≤ level - 48)) && (acts || (tripDue s t i).isSome))
          (atTick ((tripDue s t i).getD s.now) rankEvent none { a := t, b := trip } (.instr .thermalTripClear)))

/-! ## Stretched ticks (R385) -/

/-- An agenda with everything of one tower a global tick later. -/
def delayTower (t : Nat) (ds : List Due) : List Due :=
  (ds.map fun d => if d.dom == some t then { d with tick := d.tick + 1 } else d).foldl (fun l d => insertDue d l) []

/-- The present tick of a tower made longer by `n` thousandths of a global tick, so far as it stays within 1 / 1.11 GHz (126 thousandths more than a global tick); a whole
tick gathered moves all of the tower's ticks to come by one. -/
def stretchTick (t n : Nat) : Plan :=
  .get fun s =>
    let v := s.tower t
    let u := s.ttick t
    let used := if v.stretched.1 = u then v.stretched.2 else 0
    let m := min n (126 - used)
    let f := v.lagFrac + m
    if f < 1000 then modTower t fun v => { v with lagFrac := f, stretched := (u, used + m) }
    else .both (modTower t fun v => { v with lagFrac := f - 1000, lag := v.lag + 1, stretched := (u, used + m) }) (.get fun s => .edit (.due (delayTower t s.due)))

/-- CLOCK_STRETCH (R385): the present tick of tower `site.a` is stretched by `site.b` thousandths of a global tick. With `site.c` = 1 it is trip 2 that stretches it, toward
1.11 GHz by a free amount (log 4), as it does every tick while it stands. -/
def execClockStretch : State → Host.Outcome State Fault Refusal :=
  (Plan.get fun s =>
    let t := s.site.a
    if s.site.c ≠ 1 then stretchTick t s.site.b
    else Plan.when (decide (2 ≤ (s.tower t).trip)) (.both (afterAt 1 rankInput s.site (.instr .clockStretch)) (withFree 126 (stretchTick t)))).step

/-! ## Gating (R386) -/

/-- The array bonded face to face with an array (R36). -/
def bondedArray (a : Nat) : Nat := if a % 8 < 4 then a + 4 else a - 4

/-- Every strait entry pushed by an array, or toward it, has landed (R166). -/
def straitLanded (s : State) (a : Nat) : Bool :=
  let u := s.ttick (towerOf a)
  s.cells.all fun (c, x) => !(c / 256 == a || c / 256 == bondedArray a) || x.strait.all fun e => decide (e.lands ≤ u)

/-- Steps 1 to 3 of the gate sequence are done but for the images: contexts and walker are Free. -/
def arrayIdle (s : State) (a : Nat) : Bool :=
  ((List.range 4).all fun k => (s.ctx a k).state == .free) && (s.arr a).walker.owner.isNone

/-- The tasks of an array asked to checkpoint for its gate (R386). -/
def gateRequests (a : Nat) : Plan :=
  .get fun s =>
    match (s.arr a).owner with
    | none => .skip
    | some p =>
      Plan.each ((s.part p).tasks.filter fun t => t.state == .running && (unitArrays (s.taskRecord p t) t.unit).contains a) fun t =>
        atTick s.now rankPreempt (some (towerOf a)) { arr := t.unit, a := p, b := t.uid, c := recNlev (s.taskRecord p t) - 1, pos := 1, rowOn := false } (.instr .preemptRequest)

/-- The gate sequence begins. -/
def beginGate (a : Nat) : Plan :=
  Plan.all [ modArr a fun v => { v with gate := .gating, ungateAfter := false }, gateRequests a, afterAt 0 rankEnd { arr := a } (.instr .gateRailsOff) ]

/-- The plane images of the tasks that will resume on an array. -/
def gatePlanes (a : Nat) : Plan :=
  .get fun s =>
    match (s.arr a).owner with
    | some p => keepPlanes p 0 [a]
    | none => .skip

/-- GATE_RAILS_OFF: the rails go off once the array is idle, its images are written and its strait entries have landed; until then it is looked at every tick. -/
def execGateRailsOff : State → Host.Outcome State Fault Refusal :=
  (Plan.get fun s =>
    let a := s.site.arr
    if (s.arr a).gate ≠ .gating then .skip
    else if arrayIdle s a && straitLanded s a then
      Plan.all
        [ gatePlanes a, modArr a fun v => { v with gate := .gated },
          Plan.when (s.arr a).ungateAfter (pushFront [({ arr := a }, .instr .arrayUngate)]), wakeUnit a,
          wakeUnit (if a % 8 < 4 then a else a - 4), wakeUnit (a - a % 2) ]
    else after 1 rankEnd (.instr .gateRailsOff)).step

/-- ARRAY_UNGATE: the rails of a gated array come up within 50 µs. -/
def execArrayUngate : State → Host.Outcome State Fault Refusal :=
  (Plan.get fun s =>
    let a := s.site.arr
    Plan.when ((s.arr a).gate == .gated)
      (.both (modArr a fun v => { v with gate := .ungating })
        (withFree 62499 fun d => atTick (s.now + 1 + d) rankSchedule none { arr := a } (.instr .ungateComplete)))).step

/-- Cell stores, accumulator rows, planes and roles of an array zeroed; SGEN moves. -/
def zeroArray (a : Nat) : Plan :=
  Plan.all
    [ unmark 3 5 (a * 256 * 32768) (256 * 32768),
      .edit (.clear .cell (a * 256 * 32768) ((a + 1) * 256 * 32768)), .edit (.clear .plane (a * 256 * 2048) ((a + 1) * 256 * 2048)),
      Plan.each (List.range 256) (fun i => .edit (.dropAcc (accKey a i))),
      Plan.each (List.range 256) (fun c => modCell (a * 256 + c) fun x => { x with plane1 := false, shready := false }),
      modArr a fun v => { v with sgen := (v.sgen + 1) % 2 ^ 64 } ]

/-- UNGATE_COMPLETE: the array is up; tasks start and go on there. -/
def execUngateComplete : State → Host.Outcome State Fault Refusal :=
  (Plan.get fun s =>
    let a := s.site.arr
    Plan.when ((s.arr a).gate == .ungating) <| Plan.all
      [ modArr a fun v => { v with gate := .up }, zeroArray a,
        (match (s.arr a).owner with
         | some p => Plan.each ((s.part p).tasks.filter fun t => t.gateHold && (unitArrays (s.taskRecord p t) t.unit).contains a) fun t => modTask p t.uid fun t => { t with gateHold := false }
         | none => .skip),
        wakeArrayNow a ]).step

end Sys2Proof.Machine
end

