-- ==== Sys2Proof/Machine/Leash.lean ====
section
/-! DEFINITION. The leash (R358-R362), stop records (R363-R370) and going on after them (R371-R375). -/

namespace Sys2Proof.Machine

/-! ## Stopping -/

/-- The end of the current frame of a stack (R368, R369). -/
def frameEnd (s : State) (k : Nat) : Nat := if (s.stack k).up then max s.now (frameTick ((s.stack k).frame + 1)) else s.now

/-- By when an engine that the leash reaches now has stopped (R358), in its own ticks (Loaders.engineTick); a copy engine and memory programs that hold nothing of the
partition stop at once. -/
def stopTick (s : State) (p kind unit : Nat) : Nat :=
  match kind with
  | 2 => engineTick s kind unit + 6
  | 3 => engineTick s kind unit + 16
  | 4 => engineTick s kind unit + 16
  | 7 => engineTick s kind unit + 8
  | 5 => if (s.tower unit).descs.any fun d => d.part == p then frameEnd s unit else s.now
  | _ => if (s.stack unit).progs.any fun m => m.part == p && !m.ended && !m.dead then frameEnd s unit else s.now

/-- Ready and Stalled contexts of a partition on an array become Halted (R362). -/
def haltContexts (p a : Nat) : Plan :=
  Plan.each (List.range 4) fun k => .get fun s =>
    let c := s.ctx a k
    Plan.when (c.part == p && (c.state == .ready || c.state == .stalled)) (.both (dropAcq a k) (modCtx a k fun c => { c with state := .halted }))

/-- The memory programs of a partition on a stack stop at the end of the frame (R369). -/
def stopPrograms (p k : Nat) : Plan :=
  modStack k fun v => { v with progs := v.progs.map fun m => if m.part == p then { m with stop := some (min (m.stop.getD (v.frame + 1)) (v.frame + 1)) } else m }

/-- LEASH_REACH (R358): the leash of partition `site.a` reaches the engine of kind `site.b` and unit `site.c`. -/
def execLeashReach : State → Host.Outcome State Fault Refusal :=
  (Plan.get fun s =>
    let p := s.site.a
    let kind := s.site.b
    let unit := s.site.c
    let ts := stopTick s p kind unit
    Plan.when (s.part p).leash <| Plan.all
      [ modPart p fun v => { v with stops := v.stops ++ [{ kind, unit, ta := s.now, ts }] },
        (match kind with
         | 2 => .both (modArr unit fun v => { v with ta := some (s.ttick (towerOf unit)) }) (haltContexts p unit)
         | 4 => atTick s.now rankEnd none {} (.micro (.atomStop p unit))
         | 6 => stopPrograms p unit
         | 7 => .both (abandonWalk unit) (haltWalker unit)
         | _ => .skip),
        (let x : Site := {}
         if kind = 5 || kind = 6 then atTick ts rankEvent none x (.micro (.enginesStop p kind unit))
         else atTower (towerOf unit) ts rankEvent x (.micro (.enginesStop p kind unit))) ]).step

/-- At the end of T_a of an array's streams: the atoms that have not performed (R367). -/
def atomStopPlan (p a : Nat) : Plan :=
  .get fun s =>
    let left := s.reqs.filter fun r => r.part == p && r.arr == a && r.kind == .atom && decide (r.stage.rank < 3)
    modPart p fun v => { v with atomStops := v.atomStops ++ left.map fun r => { arr := a, ctx := r.ctx, tid := r.tid, n := r.n, addr := r.addr } }

/-- Every engine of a partition has stopped. -/
def allStopped (s : State) (p : Nat) : Bool :=
  (enginesOf s p).all fun (kind, unit) => engineStopped s p kind unit

/-- The Halted streams of a partition: array and context of each, gangs by their lower array. -/
def haltedCtxs (s : State) (p : Nat) : List (Nat × Nat) :=
  ((List.range 64).flatMap fun a => (List.range 4).map fun k => (a, k)).filter fun (a, k) =>
    (s.ctx a k).part == p && (s.ctx a k).state == .halted && !(s.ctx a k).upper

/-- Fault 0x90 stands among a partition's records. -/
def thermalHalt (s : State) (p : Nat) : Bool := (s.part p).faults.any fun f => f.code == 0x90

/-- The member of a task that runs on an array. -/
def memberOf (t : Task) (a : Nat) (r : List Byte) : Nat := if recChain r && a != t.unit then 1 else 0

/-- The save-slot image of a Halted context, with its task. -/
def haltedImage (s : State) (p a k : Nat) : Option Nat :=
  ((s.part p).task (s.ctx a k).tid).map fun t => slotVa s p t (memberOf t a (s.taskRecord p t))

/-- On 0x90 every Halted context's full state goes to its slot, DIRTY bits aside (R375). -/
def thermalSave (p : Nat) : Plan :=
  .get fun s => .both (modPart p fun v => { v with imaged := true })
    (Plan.each (haltedCtxs s p) fun (a, k) =>
      match haltedImage s p a k with
      | some va => saveImage p va a k true
      | none => .skip)

/-- An engine has stopped (R360): an array's leases end at T_s and are kept to be asked for again; after the last engine the ROM acts on 0x90; kind 0 is that
look alone, at a fault 0x90 raised after the engines have stopped. -/
def enginesStopPlan (p kind unit : Nat) : Plan :=
  .get fun s =>
    Plan.when (s.part p).leash
      (.both
        (Plan.when (kind == 2) (Plan.each (List.range 4) fun k => Plan.when ((s.ctx unit k).part == p && (s.ctx unit k).state == .halted) (saveLease unit k)))
        (Plan.when (allStopped s p && thermalHalt s p && !(s.part p).imaged) (thermalSave p)))

/-- The fault event of a leash, at the end of its tick: the partition, the code, the primary record (R356, R398). A HALT has none. -/
def faultEventPlan (p : Nat) : Plan :=
  .get fun s =>
    match (s.part p).faults.find? fun f => f.primary with
    | some f => output (.event p 1 (eventBody p f.code f.sub 0 f.fgt f.tag 0))
    | none => .skip

/-- HALT raises the leash with no fault (R400). -/
def haltPart (p : Nat) : Plan := .get fun s => Plan.when (!(s.part p).leash) (.both (modPart p fun v => { v with byHalt := true }) (raiseLeash p))

/-! ## Stop records (R363-R370) -/

/-- The header of a record. -/
def recHeader (kind unit ctx code sub flags seq addr tag fgt ta pc row nwin cell npass nsup : Nat) : List Byte :=
  natBytes 2 1 ++ natBytes 1 kind ++ natBytes 1 unit ++ natBytes 1 ctx ++ natBytes 1 code ++ natBytes 1 sub ++ natBytes 1 flags ++ natBytes 8 seq ++ natBytes 8 addr
    ++ natBytes 8 tag ++ natBytes 8 fgt ++ natBytes 8 ta ++ natBytes 2 pc ++ natBytes 1 row ++ natBytes 1 nwin ++ natBytes 2 cell ++ natBytes 2 npass ++ natBytes 4 nsup
    ++ natBytes 4 0

/-- T_a of the engine a record stands for; a context's is its array's. -/
def recTa (s : State) (p kind unit : Nat) : Nat := ((s.part p).engineTa (if kind = 1 then 2 else kind) unit).getD 0

/-- PC of a record with a fault of its own. A context's own record gives the faulting position, or the resumable PC; one whose task has left the context, the PC it had
when the fault was raised. A walker's gives the PC of the walker, that of a program that was never begun the faulting instruction. -/
def faultPc (s : State) (unit : Nat) (f : FaultRec) : Nat :=
  let c := s.ctx f.arr f.ctx
  match f.kind with
  | 1 => if f.before || !f.mine || c.state == .free then f.pos else c.pc
  | 2 => if f.rowv then f.pos else 0
  | 7 => if f.code = 0x60 ∧ f.sub < 2 then f.pos else (s.arr unit).walker.pc
  | _ => if f.ctx < 4 then c.pc else 0

/-- SEQ of a record without a fault of its own: the last bundle that the contexts of a partition on some arrays have issued. -/
def lastSeq (s : State) (p : Nat) (arrs : List Nat) : Nat :=
  let cs := (arrs.flatMap fun a => (List.range 4).map fun k => (s.ctx a k, (s.tower (towerOf a)).lag)).filter fun (c, _) => c.part == p && c.state != .free && c.issued
  ((cs.foldl (fun best (c, lag) => if best.2 ≤ c.lastIssue + lag then (c.seqOf (c.ctime - 1), c.lastIssue + lag) else best) (0, 0))).1

/-- The last bundle a context has issued. -/
def lastSeqOf (s : State) (a k : Nat) : Nat := (s.ctx a k).seqOf ((s.ctx a k).ctime - 1)

/-- The header of an engine's record: its own fault if it has one. -/
def engineHeader (s : State) (p kind unit ctx seq pc nwin npass : Nat) : List Byte :=
  let v := s.part p
  let nsup := smGet 0 v.nsup (engineKey kind unit ctx)
  match v.faults.find? fun f => engineKey f.kind f.unit f.ctx == engineKey kind unit ctx with
  | some f =>
    let seq := if f.mine then (s.ctx f.arr f.ctx).seqOf f.seq else f.seq
    let flags := (if f.primary then 1 else 0) + (if f.before then 2 else 0) + (if f.rowv then 4 else 0) + (if f.wide then 8 else 0)
    recHeader kind unit f.ctx f.code f.sub flags seq f.addr f.tag f.fgt (recTa s p kind unit) (faultPc s unit f) f.row nwin f.cell npass nsup
  | none => recHeader kind unit ctx 0 0 0 seq 0 (if ctx < 4 then (s.ctx unit ctx).tag.toNat else 0) 0 (recTa s p kind unit) pc 0 nwin 0 npass nsup

/-- A window entry (R364). -/
def windowEntry (s : State) (a : Nat) (w : Wave) : List Byte :=
  natBytes 48 w.bundle.toNat ++ natBytes 8 ((s.ctx a w.ctx).seqOf w.n) ++ natBytes 4 w.mask.toNat ++ natBytes 4 w.done.toNat ++ natBytes 2 w.pos ++ natBytes 1 w.ctx ++ natBytes 1 (if w.blk then 1 else 0)
    ++ List.replicate 28 0

/-- A pass entry (R364). -/
def passEntry (s : State) (a : Nat) (p : Pass) : List Byte :=
  natBytes 8 ((s.ctxOf a p.ctx p.tid).seqOf p.n) ++ natBytes 1 p.ctx ++ natBytes 1 p.opcode ++ natBytes 2 0 ++ natBytes 4 p.mrows ++ natBytes 4 (min p.entered p.mrows)
    ++ natBytes 4 (p.entered - p.mrows) ++ natBytes 8 0

/-- Passes whose M-rows have not all entered. -/
def openPasses (v : Arr) (p : Nat) : List Pass := v.passes.filter fun q => q.part == p && (decide (q.entered < q.rows) || (q.kennel.isSome && !q.nsKnown))

def hasFault (s : State) (p kind unit : Nat) : Bool := (s.part p).faults.any fun f => f.kind == kind && f.unit == unit

/-- The context records' headers; the halted state after each is read with READ (R365, log 10). -/
def contextRecords (s : State) (p : Nat) : List (List Byte) :=
  ((List.range 64).flatMap fun a => (List.range 4).map fun k => (a, k)).filterMap fun (a, k) =>
    let c := s.ctx a k
    if c.part == p && c.state == .halted && !c.upper then
      some (engineHeader s p 1 a k (c.seqOf (c.ctime - 1)) c.pc 0 0)
    else none

/-- The context that issued last on an array, 0xFF when it holds a task no more: an array's record without a fault of its own names it (R363, log 10). -/
def lastIssuer (s : State) (a : Nat) : Nat :=
  match (s.arr a).lastCtx with
  | some k => if (s.ctx a k).state = .free then 0xFF else k
  | none => 0xFF

/-- A module or freed-context fault of kind 1 that no Halted context's record holds. -/
def looseRecords (s : State) (p : Nat) : List (List Byte) :=
  (s.part p).faults.filterMap fun f =>
    if f.kind == 1 && !((haltedCtxs s p).contains (f.unit, f.ctx)) then some (engineHeader s p 1 f.unit f.ctx 0 0 0 0) else none

def arrayRecords (s : State) (p : Nat) : List (List Byte) :=
  (List.range 64).filterMap fun a =>
    let v := s.arr a
    let ps := openPasses v p
    if v.owner == some p && (hasFault s p 2 a || !v.waves.isEmpty || !ps.isEmpty) then
      some (engineHeader s p 2 a (lastIssuer s a) (lastSeqOf s a (lastIssuer s a)) 0 v.waves.length ps.length ++ v.waves.flatMap (windowEntry s a) ++ ps.flatMap (passEntry s a))
    else none

/-- A loader entry (R366): bundle, context, word, ring position, rows done. -/
def loaderEntry (s : State) (a : Nat) (o : LoadOp) : List Byte := natBytes 8 ((s.ctxOf a o.ctx o.tid).seqOf o.n) ++ natBytes 1 o.ctx ++ natBytes 1 o.k ++ natBytes 2 o.q ++ natBytes 4 o.rows.toNat

def loaderRecords (s : State) (p : Nat) : List (List Byte) :=
  (List.range 64).filterMap fun a =>
    let ops := (s.arr a).loads.filter fun o => o.part == p
    if (s.arr a).owner == some p && (hasFault s p 3 a || !ops.isEmpty) then some (engineHeader s p 3 a 0xFF (lastSeq s p [a]) 0 0 0 ++ ops.flatMap (loaderEntry s a)) else none

/-- A stream entry (R367): context, stream, COMMIT and SPEC, in 32 bytes. -/
def streamEntry (k j : Nat) (v : Stream) : List Byte :=
  natBytes 1 k ++ natBytes 1 j ++ natBytes 2 0 ++ natBytes 4 (stCommit v.word) ++ natBytes 4 (stSpec v.word) ++ List.replicate 20 0

def streamRecords (s : State) (p : Nat) : List (List Byte) :=
  (List.range 64).filterMap fun a =>
    let es := (List.range 4).flatMap fun k => (List.range 8).filterMap fun j =>
      let c := s.ctx a k
      let v := c.stream j
      if c.part == p && c.state == .halted && (decide (stCommit v.word < stSpec v.word) || v.probing) then some (streamEntry k j v) else none
    let atoms := (s.part p).atomStops.filter fun e => e.arr == a
    if (s.arr a).owner == some p && (hasFault s p 4 a || !es.isEmpty || !atoms.isEmpty) then
      some (engineHeader s p 4 a 0xFF (lastSeq s p [a]) 0 0 0 ++ es.flatMap id ++ atoms.flatMap fun r => natBytes 8 ((s.ctxOf a r.ctx r.tid).seqOf r.n) ++ natBytes 8 r.addr)
    else none

/-- A copy-engine entry (R368): window offset, next line, array, context. -/
def copyEntry (d : Desc) : List Byte := natBytes 8 d.off ++ natBytes 4 d.next ++ natBytes 1 d.arr ++ natBytes 1 d.ctx ++ natBytes 2 0

def copyRecords (s : State) (p : Nat) : List (List Byte) :=
  (List.range 8).filterMap fun t =>
    let ds := (s.tower t).descs.filter fun d => d.part == p && d.taken && decide (d.landed < dsLines d.bytes)
    if hasFault s p 5 t || !ds.isEmpty then some (engineHeader s p 5 t 0xFF (lastSeq s p ((List.range 8).map fun i => t * 8 + i)) 0 0 0 ++ ds.flatMap copyEntry) else none

/-- A memory-program entry (R369): record offset, first command not performed, lines read and written. -/
def progEntry (m : ProgStop) : List Byte := natBytes 8 m.off ++ natBytes 4 m.next ++ natBytes 4 m.rd ++ natBytes 4 m.wr ++ natBytes 4 0

def progRecords (s : State) (p : Nat) : List (List Byte) :=
  (List.range 8).filterMap fun k =>
    let ms := (s.part p).stopped.filter fun m => m.stack == k
    if hasFault s p 6 k || !ms.isEmpty then some (engineHeader s p 6 k 0xFF (lastSeq s p (List.range 64)) 0 0 0 ++ ms.flatMap progEntry) else none

/-- A walker record (R370): PC, the word there and the walker's own fault are its header's and its entry's; the PC of a program that was never begun is its fault's. -/
def walkerRecords (s : State) (p : Nat) : List (List Byte) :=
  (List.range 64).filterMap fun a =>
    let w := (s.arr a).walker
    let at' := (((s.part p).faults.find? fun f => f.kind == 7 && f.unit == a).map fun f => faultPc s a f).getD w.pc
    if (s.arr a).owner == some p && (hasFault s p 7 a || w.owner.isSome) then
      some (engineHeader s p 7 a (w.owner.getD 0xFF) (match w.owner with | some k => lastSeqOf s a k | none => lastSeq s p [a]) w.pc 0 0 ++ natBytes 4 (smGet 0 w.pstore at').toNat ++ natBytes 4 0)
    else none

/-- The stop records of a partition: the primary first, the rest by KIND and UNIT (R403). They stand while the leash does. -/
def stopRecords (s : State) (p : Nat) : List (List Byte) :=
  if !(s.part p).leash then []
  else
    let ofCtx := contextRecords s p ++ looseRecords s p
    let all := (List.range 256).flatMap (fun u => ofCtx.filter fun r => fieldAt r 3 1 == u) ++ arrayRecords s p ++ loaderRecords s p ++ streamRecords s p ++ copyRecords s p ++ progRecords s p ++ walkerRecords s p
    (all.filter fun r => (fieldAt r 7 1).testBit 0) ++ all.filter fun r => !(fieldAt r 7 1).testBit 0

/-! ## RESUME (R371-R374) -/

/-- A resource of a partition is being spared (R371, R408): rows and banks of its arrays and towers at STATE 1. -/
def sparing (s : State) (p : Nat) : Bool :=
  s.mod.buckets.any fun (key, b) =>
    b.state == 1 && (match key / 2 ^ 20 with
      | 1 => (s.arr (key % 2 ^ 20 / 16)).owner == some p
      | 2 => (List.range 8).any fun i => (s.arr (key % 2 ^ 20 / 256 * 8 + i)).owner == some p
      | 3 => ((s.part p).ext ++ (s.part p).cachex).any fun (lo, hi) => decide (lo / 2 ^ 36 ≤ key % 2 ^ 20 / 2304) && decide (key % 2 ^ 20 / 2304 ≤ (hi - 1) / 2 ^ 36)
      | _ => false)

def resumeBusy (s : State) (p : Nat) : Bool := !allStopped s p || sparing s p || (List.range 8).any fun t => decide (3 ≤ (s.tower t).trip)

/-- RESUME accepted: the ROM chooses G_r, at which every engine of the partition restarts. -/
def beginResume (p : Nat) : Plan :=
  .get fun s => withFree 1023 fun d =>
    let g := s.now + 1 + d
    .both (modPart p fun v => { v with resumeAt := some g })
      (Plan.each ((0, 0) :: enginesOf s p) fun (kind, unit) => 
        atTick g rankEvent none { a := p, b := kind, c := unit, row := if (s.part p).imaged then 1 else 0 } (.instr .engineRestart))

/-- A Halted context goes on (R351, R372): it asks again for its lease. -/
def unhalt (a k : Nat) : Plan :=
  .get fun s =>
    Plan.when ((s.ctx a k).state == .halted)
      (.both (modCtx a k fun c => { c with state := .ready, faulted := false, wait := 0, xch := none }) (Plan.when (!(s.ctx a k).upper) (reaskLease a k)))

/-- A context Halted at a ready exchange gives its reserved descriptors back, to be reserved again. -/
def dropXch (a k : Nat) : Plan :=
  .get fun s =>
    match (s.ctx a k).xch with
    | some x => xchDrop a k x
    | none => .skip

/-- A pass as a RESUME finds it (R180, R221): it goes on from its next M-row. The rows an `mmd` had worked out and not entered are worked out again, and its decision is made again
if no row had entered. -/
def Pass.resumed (v : Arr) (u : Nat) (q : Pass) : Pass :=
  if q.entered < q.rows || (q.kennel.isSome && !q.nsKnown) then
    let redo := v.mrows.filter fun m => m.pass == q.uid && !m.entered && decide (m.i < q.mrows)
    let ns := redo.foldl (fun n m => if m.ready then min n m.nsAt else n) q.ns
    { q with known := false, fend := none, base := u, ns, nsKnown := q.nsKnown && decide (q.mrows ≤ q.entered), decided := q.decided && decide (0 < q.entered), early := [], peeks := [] }
  else q

/-- The entry of an `mmd` whose decision is to be made again, as it was before the decision. -/
def redoDecision (a : Nat) (q : Pass) : Plan :=
  match q.kennel, q.entryWas with
  | some key, some (pgen, pgen2, wgen, sforce, bforce, errseen) =>
    Plan.when (q.decided && q.entered == 0 && decide (0 < q.mrows))
      (modKennel (towerOf a) key fun k => { k with pgen, pgen2, wgen, sforce := k.sforce || sforce, bforce := k.bforce || bforce, errseen := k.errseen || errseen })
  | _, _ => .skip

/-- The array side of RESUME: window entries go in again one per tick from T_r, passes go on from their next M-row, contexts issue from T_r + NWIN. -/
def restartArray (p a : Nat) : Plan :=
  .get fun s =>
    let u := s.ttick (towerOf a)
    let v := s.arr a
    let again := v.waves.map fun w => w.uid
    Plan.all
      [ Plan.when (s.site.row == 1) (Plan.each ((haltedCtxs s p).filter fun e => e.1 == a) fun (a, k) =>
          match haltedImage s p a k with
          | some va => restoreImage p va a k
          | none => .skip),
        Plan.each (List.range 4) (fun k => Plan.when ((s.ctx a k).part == p) (.both (dropXch a k) (unhalt a k))),
        Plan.each v.passes (redoDecision a),
        modArr a (fun v =>
          { v with ta := none, blocked := [], again, resumeAt := some (u + again.length), fend := min v.fend u,
                   waves := v.waves.map fun w => { w with blk := false, again := true },
                   passes := v.passes.map (Pass.resumed v u),
                   mrows := v.mrows.filter fun m => m.entered || (v.passes.any fun q => q.uid == m.pass && q.walk) }),
        Plan.when (!v.passes.isEmpty) (startFeeder a),
        Plan.when (!again.isEmpty) (afterAt 0 rankIssue { arr := a } (.instr .reinject)), wakeIssue a ]

/-- The loaders present the undone rows of their operations as at a new issue (R374). -/
def restartLoaders (a : Nat) : Plan :=
  .get fun s => Plan.each (s.arr a).loads fun o => afterAt 0 rankRow { arr := a, ctx := o.ctx, n := o.n } (.micro (.loadRow a o.uid 0))

/-- A task of a partition has drained and is being saved: what stood still for that stays so (R263, R347). -/
def savePending (s : State) (p tid : Nat) : Bool := s.due.any fun d => d.act == .instr .saveComplete && d.site.a == p && d.site.b == tid

/-- Streams go on from COMMIT; atoms that faulted are tried again (R253, R374). -/
def restartStreams (p a : Nat) : Plan :=
  .get fun s =>
    .both
      (.both (Plan.each (List.range 4) fun k => Plan.when ((s.ctx a k).part == p && !savePending s p (s.ctx a k).tid) (Plan.each (List.range 8) fun j => restartStream a k (s.ctx a k).tid j))
        (Plan.each ((s.arr a).ghosts.filter fun g => g.part == p && !((s.part p).task g.tid).any fun t => t.state == .checkpointed) fun g =>
          Plan.each (List.range 8) fun j => restartStream a ((((s.part p).task g.tid).map fun t => if a = t.unit then t.ctx else t.ctx2).getD 0) g.tid j))
      (.get fun s => Plan.each (s.reqs.filter fun r => r.arr == a && r.part == p && r.held && r.kind == .atom) fun r =>
        .both (modReq r.uid fun q => { q with held := false }) (reqSoon 0 r rankEvent (.micro (.advance r.uid))))

/-- The copy engine goes on with its descriptors; lines that faulted are tried again (R374). -/
def restartCopies (p t : Nat) : Plan :=
  .get fun s => Plan.all
    [ modTower t fun v => { v with descs := v.descs.map fun d => if d.part == p then { d with taken := d.taken && decide (dsLines d.bytes ≤ d.next), faulted := false } else d },
      Plan.each (s.reqs.filter fun r => towerOf r.arr == t && r.part == p && r.held && (r.kind == .copyRead || r.kind == .copyWrite)) (fun r =>
        .both (modReq r.uid fun q => { q with held := false }) (reqSoon 0 r rankEvent (.micro (.advance r.uid)))),
      wakeCopies t (s.ttick t) ]

/-- The walker goes on at its PC (R263, R374); one that ran off its program faults again (R279). -/
def restartWalker (a : Nat) : Plan :=
  .get fun s =>
    let w := (s.arr a).walker
    match w.owner with
    | none => .skip
    | some k =>
      if w.ended || w.loading || savePending s (s.ctx a k).part (s.ctx a k).tid then .skip
      else
        let x : Site := { arr := a, ctx := k, n := w.startN, issue := true, c := w.epoch }
        if w.offend then .both (modWalkerOf a fun w => { w with epoch := w.epoch + 1 })
          (raiseFaultFor (s.ctx a k).part (s.ctx a k).tid a k { kind := 7, unit := a, ctx := k, code := 0x60, sub := 2, addr := w.plen, seq := w.startN, pos := (s.ctx a k).pc })
        else .both (modWalkerOf a fun w => { w with running := true }) (afterAt 0 rankWalk x (.walk a))

/-- ENGINE_RESTART (R371, R374): at G_r the engine of kind `site.b` and unit `site.c` of partition `site.a` goes on; kind 0 is the partition itself, whose leash
falls and whose stop records are cleared; `site.row` = 1 after fault 0x90, whose contexts come back from their slots (R375). -/
def execEngineRestart : State → Host.Outcome State Fault Refusal :=
  (Plan.get fun s =>
    let p := s.site.a
    let unit := s.site.c
    match s.site.b with
    | 0 =>
      .both
        (modPart p fun v => { v with leash := false, byHalt := false, imaged := false, nsup := [], stops := [], resumeAt := none, stopped := [], atomStops := [], faults := [] })
        (Plan.each ((List.range 64).filter fun a => (s.arr a).owner == some p) wakeUnit)
    | 2 => restartArray p unit
    | 3 => restartLoaders unit
    | 4 => restartStreams p unit
    | 5 => restartCopies p unit
    | 7 => restartWalker unit
    | _ => .skip).step

end Sys2Proof.Machine
end

