-- ==== Sys2Proof/Machine/Avail.lean ====
section
/-! DEFINITION. Availability and bring-up (R406-R416): sparing in service, hot swap, cold start; and what the hardware's own errors do, which are inputs (log 1). -/

namespace Sys2Proof.Machine

/-! ## Towers (R413) -/

/-- The partitions that hold an array in a tower. -/
def tenantsOf (s : State) (t : Nat) : List Nat :=
  (List.range 16).filter fun p => (s.part p).live && (List.range 8).any fun i => (s.arr (t * 8 + i)).owner == some p

/-- A tower becomes lasting: its partitions halt, the host is told, and the ROM waits for the operator's consent. -/
def towerLasting (t : Nat) : Plan :=
  .get fun s =>
    Plan.all
      [ modBucket 6 t fun b => { b with state := 3 }, Plan.each (tenantsOf s t) haltPart, moduleEvent 4 (6 + t * 65536) ]

/-- A task placed on one of some arrays. -/
def placedOn (s : State) (p : Nat) (on : Nat → Bool) (k : Task) : Bool :=
  (k.state == .pending || k.state == .running || k.state == .checkpointed) && (unitArrays (s.taskRecord p k) k.unit).any on

/-- A task killed whatever it is doing (R348, R413). -/
def killAny (p : Nat) (k : Task) : Plan :=
  match k.state with
  | .running => killTask p k
  | .queued | .pending | .checkpointed => dropTask p k
  | _ => .skip

/-- A launch killed with all its tasks; one still waiting leaves the queue. -/
def killLaunch (p uid : Nat) : Plan :=
  .get fun s =>
    Plan.all
      [ Plan.each ((s.part p).tasks.filter fun k => k.launch == uid) (killAny p), leaveQueue p uid,
        modLaunch p uid (fun l => if l.state == .waiting then { l with state := .killed, killed := true } else { l with killed := true }), settleLaunch p uid ]

/-- Arrays that leave a partition: the launches with a task on one are killed, and its images, its power, its place in the exchange group and its stops go with it. -/
def removeArrays (p : Nat) (gone : Nat → Bool) : Plan :=
  .get fun s =>
    let launches := ((s.part p).tasks.filter (placedOn s p gone)).map fun k => k.launch
    .both (Plan.each launches.eraseDups (killLaunch p))
      (modPart p fun v =>
        { v with sa := v.sa.filter (fun e => !gone e.1), images := v.images.filter (fun i => !gone i.arr),
                 xmask := v.xmask &&& BitVec.ofNat 64 (((List.range 64).map fun a => if gone a then 0 else 2 ^ a).foldl (· + ·) 0),
                 stops := v.stops.filter fun e => e.kind == 5 || e.kind == 6 || !gone e.unit })

/-- The operator's consent: the launches with a task in the tower are killed, and its arrays, windows, inboxes, kennel entries and pins leave every partition. -/
def removeTower (t : Nat) : Plan :=
  .get fun s =>
    Plan.all
      [ Plan.each (tenantsOf s t) (fun p =>
          .both (removeArrays p fun a => towerOf a == t)
            (modPart p fun v =>
              { v with wbase := smDel v.wbase t, wsize := smDel v.wsize t, kenn := smDel v.kenn t, pinq := smDel v.pinq t, inboxes := v.inboxes.filter (fun e => e.2.tower != t),
                       stops := v.stops.filter fun e => !(e.kind == 5 && e.unit == t) })),
        Plan.each (List.range 8) (fun i => modArr (t * 8 + i) fun v => { v with owner := none }),
        Plan.each (s.tower t).lines (fun l => match l.use with
          | .hostWrite p .. | .hostRead p .. => pushFront [({}, .micro (.hostPiece p))]
          | _ => .skip),
        modTower t (fun v => { v with removed := true, kennels := [], pins := [], pages := [], ranges := [], lines := [] }) ]

/-! ## Arrays (R409) -/

/-- An array with a second lasting row: the row has no spare, and the array is handled as a tower is (R413): its partition halts, and the ROM waits for the operator's consent. -/
def arrayLasting (num : Nat) : Plan :=
  .get fun s => .both (modBucket 1 num fun b => { b with state := 3 }) (Plan.each (s.arr (num / 16)).owner.toList haltPart)

/-- The operator's consent, REPAIR form 1 for the row (log 21): the launches with a task on the array are killed, and the array and its kennel entries leave its partition. -/
def removeArray (a : Nat) : Plan :=
  .get fun s => Plan.each (s.arr a).owner.toList fun p =>
    Plan.all
      [ removeArrays p (· == a), modTower (towerOf a) fun v => { v with kennels := v.kennels.filter fun e => !(e.2.part == p && (e.2.arr == a || (e.2.gang && e.2.arr + 4 == a))) },
        modArr a fun v => { v with owner := none } ]

/-! ## Rows (R409) -/

/-- Rows of an array whose spare stands or is being put in place. -/
def sparedRows (s : State) (a : Nat) : List Nat := (List.range 16).filter fun r => (s.bucket 1 (a * 16 + r)).state != 0

/-- The spare row's state zeroed; the strait entries of the row are in its FIFOs. -/
def zeroRow (a r : Nat) : Plan :=
  Plan.all
    [ .edit (.clear .cell ((a * 256 + r * 16) * 32768) ((a * 256 + r * 16 + 16) * 32768)),
      .edit (.clear .plane ((a * 256 + r * 16) * 2048) ((a * 256 + r * 16 + 16) * 2048)),
      Plan.each (List.range 16) (fun c => modCell (a * 256 + r * 16 + c) fun x => { x with plane1 := false, shready := false }),
      modArr a fun v => { v with sgen := (v.sgen + 1) % 2 ^ 64 } ]

/-- Tasks that the sparing held back start and resume again. -/
def releaseHold (a : Nat) : Plan :=
  .get fun s =>
    match (s.arr a).owner with
    | some p => .both
        (Plan.each ((s.part p).tasks.filter fun t => t.gateHold && (unitArrays (s.taskRecord p t) t.unit).contains a) fun t => modTask p t.uid fun t => { t with gateHold := false })
        (Plan.each (List.range 4) fun k => modCtx a k fun c => { c with preq := c.preq.filter fun q => !q.gate })
    | none => .skip

/-- ROW_SPARE (R409): cell row `site.a` (array * 16 + row) is replaced once its array is idle and its strait entries have landed, or its partition stands halted with its
contexts saved; with `site.b` = 0 the sparing begins. A second lasting row takes the array out. -/
def execRowSpare : State → Host.Outcome State Fault Refusal :=
  (Plan.get fun s =>
    let num := s.site.a
    let a := num / 16
    let r := num % 16
    let again := atTick (s.now + 1) rankEnd none { a := num, b := 1 } (.instr .rowSpare)
    let finish := Plan.all [ zeroRow a r, modArr a fun v => { v with gate := if v.gate = .gating then .up else v.gate }, releaseHold a, modBucket 1 num (fun b => { b with state := 2 }), wakeArrayNow a ]
    if s.site.b = 0 then
      if (sparedRows s a).isEmpty then
        Plan.all [ modBucket 1 num fun b => { b with state := 1 }, modArr a fun v => { v with gate := if v.gate = .up then .gating else v.gate }, gateRequests a, again ]
      else arrayLasting num
    else
      match (s.arr a).owner with
      | none => finish
      | some p =>
        if (s.part p).leash then (if allStopped s p && (s.part p).resumeAt.isNone then .both (Plan.when (!(s.part p).imaged) (thermalSave p)) finish else again)
        else if arrayIdle s a && straitLanded s a then .both (gatePlanes a) finish
        else again).step

/-! ## Banks (R410) -/

/-- A bank of a tower is used by an agent of the data port at this tick: served, or read by the feeder (R225). -/
def bankUsed (s : State) (t bank : Nat) : Bool :=
  let u := s.ttick t
  ((s.tower t).portUse.1 == u && (s.tower t).portUse.2.contains bank) || (feederLines s (bankHolder t (bank * 64) u) u).any fun x => x % 256 == bank

/-- A tick of a bank's mirroring (R410): if no agent uses the bank, the repair path copies the next line that no write has reached; from the tick after the last the spare serves. -/
def mirrorPlan (t bank : Nat) : Plan :=
  .get fun s =>
    match (s.tower t).spares.find? fun m => m.bank == bank && !m.done with
    | none => .skip
    | some m =>
      let step := fun (l : Nat) => if m.reached.contains l then 1 else 0
      let skip := ((List.range (m.reached.length + 1)).find? fun i => step (m.next + i) == 0).getD 0
      let next := min 131072 (m.next + skip + if bankUsed s t bank then 0 else 1)
      .both (modTower t fun v => { v with spares := v.spares.map fun o => if o.bank == bank && !o.done then { o with next, reached := o.reached.filter fun l => decide (next ≤ l) } else o })
        (if 131072 ≤ next then afterAt 1 rankEvent { arr := t * 8, a := t * 256 + bank } (.instr .bankMirrorComplete)
         else afterAt 1 rankEnd { arr := t * 8 } (.micro (.mirror t bank)))

/-- BANK_MIRROR_COMPLETE (R410): bank `site.a` (tower * 256 + bank). With `site.b` = 1 the mirroring begins, in one of the tower's 8 spares; else every line has been copied
and the spare serves the bank. No access changes, so nothing else does. -/
def execBankMirrorComplete : State → Host.Outcome State Fault Refusal :=
  (Plan.get fun s =>
    let num := s.site.a
    let t := num / 256
    let set := fun (n : Nat) => modBucket 2 num fun b => { b with state := n }
    if s.site.b = 1 then
      if 8 ≤ (s.tower t).spares.length then .both (set 3) (towerLasting t)
      else Plan.all
        [ set 1, modTower t fun v => { v with spares := v.spares ++ [{ bank := num % 256 }] }, afterAt 0 rankEnd { arr := t * 8 } (.micro (.mirror t (num % 256))) ]
    else .both (set 2) (modTower t fun v => { v with spares := v.spares.map fun m => { m with done := m.done || m.bank == num % 256 } })).step

/-! ## Pseudo-channels (R411) -/

/-- A slot table with the static slots of one channel made dynamic. -/
def undoStatic (tab : SMap Nat) (ch : Nat) : SMap Nat :=
  (List.range 512).foldl (fun m i =>
    let e := slotEntry tab ch i
    if slotKind e = 1 then smSet m (ch * 512 + i) (e + 32) else m) tab

/-- PSEUDO_CHANNEL_RETIRE (R411): the pseudo-channel of TSV group `site.a`. With `site.b` = 0 it is retired: its lines move to the reserve rows of the others, row by row
(copyRows), and its channel's table changes at the next frame; with 1 the copy is done. A second one in a stack sets STATE 3 for the stack, whose bucket is its steward's
(log 21), and takes tower s out. -/
def execPseudoChannelRetire : State → Host.Outcome State Fault Refusal :=
  (Plan.get fun s =>
    let num := s.site.a
    let pc := num / 36 % 64
    let st := num / 36 / 64
    let set := fun (n : Nat) => modBucket 3 num fun b => { b with state := n }
    if s.site.b = 1 then modMod fun m =>
      { m with buckets := m.buckets.map fun (key, b) => (key, if bucketKey 3 ((st * 64 + pc) * 36) ≤ key ∧ key < bucketKey 3 ((st * 64 + pc + 1) * 36) ∧ b.state = 1 then { b with state := 2 } else b) }
    else
      match (s.stack st).retired with
      | some old =>
        if old = pc then set (if (s.stack st).copied < retiredLines then 1 else 2)
        else Plan.all [ set 3, modBucket 5 st fun b => { b with state := 3 }, towerLasting st ]
      | none =>
        Plan.all
          [ set 1,
            modStack st (fun k =>
              let tab := (k.slotsNew.getLast?.map fun v => v.2).getD k.slots
              { k with retired := some pc, copied := 0, slotsNew := k.slotsNew.map (fun n => (n.1, undoStatic n.2 (pc / 2))) ++ [(s.now, undoStatic tab (pc / 2))] }) ]).step

/-! ## Ports (R412) -/

/-- PORT_SPARE_ADD (R412): lasting port `site.a` leaves its trunk if it has not, and a spare, a port that is in no trunk and has not failed, joins in its place when R389 allows;
until it has, which is looked at every tick with `site.b` the spare plus one, the port's STATE is 1 (R407). -/
def execPortSpareAdd : State → Host.Outcome State Fault Refusal :=
  (Plan.get fun s =>
    let port := s.site.a
    let v := smGet {} s.mod.ports port
    let trunk := match v.trunk with
      | some k => some k
      | none => v.left
    let spare := (List.range 80).find? fun q =>
      let w := smGet {} s.mod.ports q
      q != port && w.trunk.isNone && !w.failed && !(s.mod.trunkNew.any fun c => c.1 == q) && (s.bucket 4 q).state == 0
    let shed := if v.trunk.isSome then [(port, none)] else []
    if s.site.b ≠ 0 then
      if s.mod.trunkNew.any fun c => c.1 + 1 == s.site.b then atTick (s.now + 1) rankEnd none s.site (.instr .portSpareAdd)
      else modBucket 4 port fun b => { b with state := if (smGet {} s.mod.ports (s.site.b - 1)).trunk.isSome then 2 else 3 }
    else
    match trunk with
    | none => modBucket 4 port fun b => { b with state := 3 }
    | some k =>
      let add := match spare with
        | some q => [(q, some k)]
        | none => []
      Plan.all
        [ modBucket 4 port fun b => { b with state := if spare.isSome then 1 else 3 },
          modMod fun m => { m with trunkNew := m.trunkNew ++ shed ++ add },
          atTick s.now rankEnd none {} (.instr .trunkChangeApply),
          Plan.each spare.toList fun q => atTick (s.now + 1) rankEnd none { a := port, b := q + 1 } (.instr .portSpareAdd) ]).step

/-! ## Soft errors and scrubbing (R414) -/

/-- The ROM's next pass over the stores ends within 2^46 global ticks; when is open (log 4). -/
def nextScrub : Plan := withFree (2 ^ 46 - 1) fun d => .get fun s => atTick (s.now + 1 + d) rankEvent none {} (.instr .scrub)

/-- SCRUB (R414): lines and words are read, corrected and rewritten, which no program sees; what needed correcting is an event. With `site.a` 1 or 2 it is a line or word of resource
`site.b` of that class; else the ROM's pass over every line and word, which comes again. -/
def execScrub : State → Host.Outcome State Fault Refusal :=
  (Plan.get fun s =>
    if s.site.a = 1 ∨ s.site.a = 2 then
      .both (modMod fun m => { m with latent := m.latent.filter fun e => e != (s.site.a, s.site.b) }) (bucketEvent s.site.a s.site.b 1)
    else Plan.all [ modMod fun m => { m with latent := [] }, Plan.each s.mod.latent fun (c, n) => bucketEvent c n 1, nextScrub ]).step

/-- Bytes the hardware has lost: free values (R228, R322), one draw a byte. -/
def loseBytes (sp : Space) (addr : Nat) : Nat → Plan
  | 0 => .skip
  | n + 1 => withFree 255 fun b => .both (.edit (.byte sp addr (BitVec.ofNat 8 b))) (loseBytes sp (addr + 1) n)

/-- A line or word gone bad beyond correction: kinds as State.marked has them. -/
def markLine (kind line : Nat) : Plan :=
  .get fun s =>
    .both (.edit (.marks ((kind, line) :: s.marks.filter fun m => m != (kind, line))))
      (match kind with
       | 0 => loseBytes .hbm (line * 64) 64
       | 1 => loseBytes .deep (line * 64) 64
       | 2 => loseBytes .scratch (line * 64) 64
       | _ => loseBytes .cell (line * 32) 32)

/-- Errors have struck a line of HBM (`kind` 0) or of the deep tier (1), as the bits they turn in its symbols: up to 4 symbols are corrected; of more the correction finds some code
word within 4 symbols, and the line reads as that, or none, and the line is uncorrectable (R322; which one is open, log 4). -/
def linePattern (kind line : Nat) (bits : Nat) : Plan :=
  let e := symbolsOf bits
  let sp : Space := if kind = 0 then .hbm else .deep
  if symbolErrors e ≤ 4 then countCorrected kind line e
  else withFree (2 ^ 576 - 1) fun n =>
    let fix := symbolsOf n
    let wrong := e.zipWith (fun a b => a ^^^ b) fix
    if symbolErrors fix ≤ 4 && rsWord wrong then
      .both (countCorrected kind line fix)
        (.get fun s => writeBytes sp (line * 64) ((s.bytes sp (line * 64) 64).zipWith (fun b w => b ^^^ BitVec.ofNat 8 w) (wrong.take 64)))
    else markLine kind line

/-- A register or engine parity error of a context (0x80): sub-code 1 a register of the cells of row `row`, 2 engine state. -/
def parityFault (kind sub : Nat) : Plan :=
  .get fun s =>
    let x := s.site
    let c := s.ctx x.arr x.ctx
    Plan.when (c.state != .free)
      (.both (raiseFault x.arr x.ctx { kind, unit := x.arr, ctx := x.ctx, code := 0x80, sub, addr := x.n, seq := c.ctime - 1, pos := c.pc })
        (Plan.when (sub == 1) (bucketEvent 1 (physArr x.arr x.row * 16 + x.row % 16) 4)))

/-- A slice of the array of a cell has stood at nominal for the whole of a pass; `up` says that the array is the upper one of the pass's gang. -/
def Pass.atNominal (p : Pass) (ls : Nat) (up : Bool) : Bool :=
  match ls, up with
  | 1, false => !p.below1
  | 1, true => !p.upBelow1
  | _, false => !p.below2
  | _, true => !p.upBelow2

/-- The pass whose M-row lands in a cell's column block at this tick, with that slice of the cell's array at nominal throughout: its array and itself. -/
def landingAt (s : State) (ls cell : Nat) : Option (Nat × Pass) :=
  s.due.findSome? fun d =>
    let up := d.site.arr + 4 == cell / 256
    if d.act == .instr .passLanding && d.tick == s.now && d.site.c == cell % 16 && (d.site.arr == cell / 256 || up) then
      ((s.arr d.site.arr).pass? d.site.a).bind fun p => if (!up || p.h == 32) && p.atNominal ls up then some (d.site.arr, p) else none
    else none

/-- A mismatch in a slice at nominal (R196), found at a landing: AERR and NMIS count it at the end of the landing, it is seen by the entry of an `mmd` (R220), and the fault is
that of the pass's task. Where no such landing
takes place at the tick there is nothing that could mismatch. -/
def nominalMismatch (ls cell : Nat) : Plan :=
  .get fun s =>
    match landingAt s ls cell with
    | some (a, p) => afterAt 0 rankCount { arr := a, ctx := p.ctx, n := p.n, a := p.tid, b := (p.kennel.map (· + 1)).getD 0 } (.micro (.mismatch a ls cell))
    | none => .skip

def mismatchPlan (a ls cell : Nat) : Plan :=
  .get fun s =>
    let x := s.site
    Plan.all
      [ modArr (cell / 256) fun v =>
          { v with nmis := sat32 (v.nmis + 1), aerr1 := if ls = 1 then sat32 (v.aerr1 + 1) else v.aerr1, aerr2 := if ls = 1 then v.aerr2 else sat32 (v.aerr2 + 1) },
        Plan.when (x.b != 0) (modKennel (towerOf a) (x.b - 1) fun k => { k with errseen := true }),
        chargeFault a x.ctx x.a x.n 0x80 (0x10 + ls) cell, bucketEvent 1 (cell / 16) 4 ]

/-- What the world outside the part's digital logic does to it (log 1): `site.a` 0 a sensor reads, 1 the intake air, 2 a corrected error of a cell row, a bank or a port, 3 errors strike a line (of HBM or
the deep tier: the bits they turn are `site.bytes`), 4 parity of a register, 5 of engine state, 6 a slice at nominal errs, 7 training of a TSV group fails, 8 the host writes its memory, 10 the
steward of a stack stops refreshing pseudo-channels (bits; 0 all), 12 a bit of a cell row or a bank turns, to be corrected when it is scrubbed, 13 an HBM stack reads its temperature; 9
is the part's own count of a lost line (Ops.lineLost), and 11 stands in outsidePlan. -/
def envPlan : Plan :=
  .get fun s =>
    let x := s.site
    match x.a with
    | 0 => sensorReads x.b ((x.c : Int) - 32768)
    | 1 => intakeReads ((x.c : Int) - 32768)
    | 2 => Plan.when (x.b != 3) (bucketEvent x.b x.c 1)
    | 3 => if x.b < 2 then linePattern x.b x.c (leNat x.bytes) else markLine x.b x.c
    | 4 => parityFault 1 1
    | 5 => parityFault x.b 2
    | 6 => nominalMismatch x.b x.c
    | 7 => bucketEvent 3 x.b 64
    | 10 => modStack x.b fun k => { k with lost := k.lost ||| (if x.c = 0 then 2 ^ 64 - 1 else x.c) }
    | 8 => writeBytes .host x.b x.bytes
    | 12 => modMod fun m => { m with latent := m.latent ++ [(x.b, x.c)] }
    | 13 => .both (modMod fun m => { m with stackTemp := smSet m.stackTemp x.b ((x.c : Int) - 32768) }) (atTick s.now rankEnd none {} (.instr .warmingDone))
    | 9 => bucketEvent x.b x.c (match x.b with
      | 1 => 8
      | 2 => 16
      | _ => 64)
    | _ => .skip

/-! ## The steward (R333, R334, R407) -/

/-- REFRESH_WATCHDOG (R333): the steward of stack `site.a` misses the refreshes of pseudo-channels `site.b` (bits; 0 all): the watchdog takes them over, the host is told. -/
def execRefreshWatchdog : State → Host.Outcome State Fault Refusal :=
  (Plan.get fun s =>
    let st := s.site.a
    Plan.all [ stewardLost st (if s.site.b = 0 then 2 ^ 64 - 1 else s.site.b), moduleEvent 2 (5 + st * 65536), bucketEvent 5 st 1 ]).step

/-- STEWARD_RESTART (R333): the steward of stack `site.a` runs again; it takes its refreshes back unless the loss is lasting. -/
def execStewardRestart : State → Host.Outcome State Fault Refusal :=
  (Plan.get fun s =>
    let st := s.site.a
    modStack st fun k => { k with lost := 0, dog := if (s.bucket 5 st).state = 0 then [] else k.dog }).step

/-! ## Hot swap (R415) -/

/-- MODULE_INSERT (R415): the module is in its carrier and powered; the cold start begins. -/
def execModuleInsert : State → Host.Outcome State Fault Refusal :=
  (Plan.all [ modMod fun m => { m with inserted := true }, .edit (.lose true) ]).step

/-- MODULE_REMOVE (R415): all state is lost. -/
def execModuleRemove : State → Host.Outcome State Fault Refusal :=
  (Plan.all [ modMod fun m => { m with inserted := false }, .edit (.lose false) ]).step

/-- TRANSCEIVER_CHANGE (R415): `site.a` 0 an Ezsan transceiver, which changes nothing here; 1 the one of port `site.b` pulled, a declared failure; 2 its replacement trained,
which joins the spares. -/
def execTransceiverChange : State → Host.Outcome State Fault Refusal :=
  (Plan.get fun s =>
    match s.site.a with
    | 1 => failPort s.site.b
    | 2 => .both (modPort s.site.b fun v => { v with failed := false, left := none }) (modBucket 4 s.site.b fun b => { b with state := 0, level := 0 })
    | _ => .skip).step

/-! ## Cold start (R416) -/

/-- COLD_START: steps 1 and 2 done; the sled ring carries 1,600 units, the token goes round, and the arrays warm the stacks (step 3). -/
def execColdStart : State → Host.Outcome State Fault Refusal :=
  (Plan.get fun s =>
    Plan.all
      [ modMod fun m => { m with identity := true, boot := 3, powered := true }, setRing 1600 0,
        atTick ((s.now / 1250 + 1) * 1250) rankEvent none { a := 0 } (.instr .tokenVisit),
        Plan.each [1, 2, 3, 4, 5] (fun c => atTick ((s.now / leakPeriod c + 1) * leakPeriod c) rankInput none { a := c } (.instr .bucketLeak)), nextScrub,
        atTick s.now rankEnd none {} (.instr .warmingDone) ]).step

/-- Every HBM stack reads 0 °C or above; one that has told nothing yet reads 0 (log 9). -/
def stacksWarm (s : State) : Bool := (List.range 8).all fun st => decide (0 ≤ smGet 0 s.mod.stackTemp st)

/-- WARMING_DONE: once every stack reads 0 °C or above, at once where they do already, the stewards train (step 4). -/
def execWarmingDone : State → Host.Outcome State Fault Refusal :=
  (Plan.get fun s =>
    Plan.when (s.mod.boot == 3 && stacksWarm s) <| .both (modMod fun m => { m with boot := 4 })
      (Plan.each (List.range 8) fun st => withFree (2 ^ 40) fun d => atTick (s.now + 1 + d) rankEvent none { a := st } (.instr .stackTrainingDone))).step

/-- STACK_TRAINING_DONE: stack `site.a` is trained but for the pseudo-channels `site.b` (bits), which are retired; after the last stack the frames run, the tables stand at
their reset values (step 5), the ring takes its total, and commands are accepted (step 6). -/
def execStackTrainingDone : State → Host.Outcome State Fault Refusal :=
  (Plan.get fun s =>
    let st := s.site.a
    Plan.all
      [ modStack st fun k => { k with up := true },
        Plan.each ((List.range 64).filter fun pc => s.site.b.testBit pc) (fun pc => bucketEvent 3 ((st * 64 + pc) * 36) 64),
        .get fun s =>
          Plan.when ((List.range 8).all (fun k => (s.stack k).up) && s.mod.boot == 4) <| Plan.all
            [ modMod fun m => { m with boot := 6 }, setRing 2000 s.mod.ringLess,
              Plan.each (List.range 8) (fun k =>
                let f := 3 * s.now / 2560 + 1
                .both (atTick (frameTick f) rankFrame none { a := k, b := f } (.instr .frameBoundary))
                  (atTick (frameTick f) rankSchedule none { a := k, b := 512 * f } (.instr .hbmSlot))) ] ]).step

end Sys2Proof.Machine
end

