-- ==== Sys2Proof/Machine/Commands.lean ====
section
/-! DEFINITION. The Oxell commands (R397-R405): frames joined and put in order, the answers, and what each command does. -/

namespace Sys2Proof.Machine

/-! ## Answers (R397-R399) -/

/-- A response: CMD, SEQ, STATUS, DETAIL and the body, which a successful command with NOBODY does without. -/
def answer (f : Frame) (status detail : Nat) (body : List Byte) : Plan :=
  output (.response f.cmd f.seq status detail (if status = 0 && f.flags.testBit 0 then [] else body))

def refuseCmd (f : Frame) (status : Nat) : Plan := answer f status 0 []
def acceptCmd (f : Frame) : Plan := answer f 0 0 []

/-- The status codes (R399). -/
def stOk : Nat := 0
def stBadRecord : Nat := 1
def stBadPartition : Nat := 2
def stBadLoop : Nat := 3
def stNoPlacement : Nat := 4
def stBadImage : Nat := 5
def stNoSave : Nat := 6
def stQueueFull : Nat := 7
def stNoSpace : Nat := 8
def stBusy : Nat := 9
def stOverlap : Nat := 10
def stBadExtent : Nat := 11
def stPinned : Nat := 12
def stNotKillable : Nat := 13
def stBadMask : Nat := 14
def stBadOffset : Nat := 15
def stBadCommand : Nat := 16
def stDenied : Nat := 17

/-- A principal may act for a partition (R399). -/
def mayAct (s : State) (princ p : Nat) : Bool := decide (p < 16) && (princ == 0 || ((s.part p).live && (s.part p).princ == princ))

/-- The module has finished its cold start (R416). -/
def booted (s : State) : Bool := s.mod.boot == 6

/-- A command of the operator (R399, R416). -/
def opCmd (f : Frame) (act : State → Plan) : Plan :=
  .get fun s => if !booted s then refuseCmd f stBusy else if f.princ ≠ 0 then refuseCmd f stDenied else act s

/-- A command for a live partition (R399, R416). -/
def partCmd (f : Frame) (act : State → Plan) : Plan :=
  .get fun s => if !booted s then refuseCmd f stBusy else if !mayAct s f.princ f.part || !(s.part f.part).live then refuseCmd f stBadPartition else act s

/-- What a command of the step's site does, its frame given. -/
def command (act : Frame → Plan) : State → Host.Outcome State Fault Refusal := (Plan.get fun s => act s.site.frame).step

/-- A measurement extends PMR by the digest of what was accepted (R405). -/
def measure (p : Nat) (bs : List Byte) : Plan :=
  modPart p fun v => { v with pmr := Config.sha3_512 ((if v.pmr = [] then List.replicate 64 0 else v.pmr) ++ Config.sha3_512 bs), pmrCount := v.pmrCount + 1 }

def liveParts (s : State) : List Nat := (List.range 16).filter fun p => (s.part p).live

/-! ## Frames (R398) and the order of commands (R399) -/

/-- The commands executed on arrival, or that concern no partition's order. -/
def atOnce (i : Instr) : Bool :=
  match i with
  | .halt | .status | .therm | .ident | .reset | .contFrame | .slotSetTables | .trunkSet | .repairRead | .repairForceLasting | .repairClearLevel | .powerRingTotal
  | .powerGate | .powerUngate => true
  | _ => false

/-- The partition a command is ordered under: the one its body names, else its header's. -/
def orderPart (i : Instr) (f : Frame) : Nat :=
  match i with
  | .partMake => fieldAt f.body 0 1
  | .slotSetDonate | .slotSetHashMasks => fieldAt f.body 4 1
  | _ => f.part

/-- The next command of a partition, if none is being executed. -/
def nextCmdPlan (p : Nat) : Plan :=
  .get fun s =>
    let v := s.part p
    match v.current, v.waiting with
    | none, f :: rest =>
      .both (modPart p fun v => { v with waiting := rest })
        (match decodeFrame f with
         | some i => pushFront [({ frame := f }, .instr i), ({}, .micro (.nextCmd p))]
         | none => .both (refuseCmd f stBadCommand) (pushFront [({}, .micro (.nextCmd p))]))
    | _, _ => .skip

/-- A command that waited is answered; the next one follows. -/
def finishCmd (p : Nat) (f : Frame) (status detail : Nat) : Plan :=
  Plan.all [ modPart p fun v => { v with current := none }, answer f status detail [], pushFront [({}, .micro (.nextCmd p))] ]

/-- Frames already joined for a principal: the first one's CMD and SEQ, two bytes each, then the bodies. -/
def joinedOf (s : State) (princ : Nat) : Option (List Byte) := (s.mod.joined.find? fun e => e.1 == princ).map fun e => e.2
def dropJoined (princ : Nat) : Plan := modMod fun m => { m with joined := m.joined.filter fun e => e.1 != princ }

/-- A frame that continues another's body must name the same command (R398). -/
def joinOk (f : Frame) (old : Option (List Byte)) : Bool :=
  decide (f.body.length ≤ 65536) && (match old with
    | none => true
    | some b => fieldAt b 0 2 == f.cmd && fieldAt b 2 2 == f.seq && decide (b.length - 4 + f.body.length ≤ 2 ^ 20))

/-- A CONT frame: its body waits to be joined (R398). -/
def execContFrame : State → Host.Outcome State Fault Refusal :=
  command fun f => .get fun s =>
    let old := joinedOf s f.princ
    if !joinOk f old then .both (dropJoined f.princ) (refuseCmd f stBadCommand)
    else .both (dropJoined f.princ)
      (modMod fun m => { m with joined := m.joined ++ [(f.princ, (match old with
        | some b => b
        | none => natBytes 2 f.cmd ++ natBytes 2 f.seq) ++ f.body)] })

/-- A frame arrives: refused, joined, executed on arrival, or put behind its partition's earlier commands. -/
def arrivePlan (f : Frame) : Plan :=
  .get fun s =>
    if 4 ≤ f.flags then .both (dropJoined f.princ) (refuseCmd f stBadCommand)
    else if f.flags.testBit 1 then pushFront [({ frame := f }, .instr .contFrame)]
    else
      let old := joinedOf s f.princ
      if !joinOk f old then .both (dropJoined f.princ) (refuseCmd f stBadCommand)
      else
        let g := { f with body := (match old with
          | some b => b.drop 4
          | none => []) ++ f.body }
        .both (dropJoined f.princ)
          (match decodeFrame g with
           | none => refuseCmd f stBadCommand
           | some i =>
             if atOnce i || !booted s || decide (16 ≤ orderPart i g) then pushFront [({ frame := g }, .instr i)]
             else .both (modPart (orderPart i g) fun v => { v with waiting := v.waiting ++ [g] }) (nextCmdPlan (orderPart i g)))

/-! ## The link (R397) -/

/-- A command frame as it stands on the link: the 12-byte header and the body. -/
def frameWire (f : Frame) : List Byte :=
  natBytes 1 f.cmd ++ natBytes 1 f.flags ++ natBytes 2 f.seq ++ natBytes 2 f.princ ++ natBytes 1 f.part ++ [0] ++ natBytes 4 f.body.length ++ f.body

/-- The frame that bytes on the link are: byte 7 is zero, and the body as long as the header says. -/
def frameOfWire (b : List Byte) : Option Frame :=
  if 12 ≤ b.length ∧ fieldAt b 7 1 = 0 ∧ b.length = 12 + fieldAt b 8 4 then
    some { cmd := fieldAt b 0 1, flags := fieldAt b 1 1, seq := fieldAt b 2 2, princ := fieldAt b 4 2, part := fieldAt b 6 1, body := b.drop 12 }
  else none

/-- A response or an event frame as it stands on the link (R397, R398); nothing of what goes elsewhere. -/
def Output.wire : Output → List Byte
  | .response cmd seq status detail body => natBytes 1 cmd ++ natBytes 1 status ++ natBytes 2 seq ++ natBytes 4 detail ++ natBytes 4 body.length ++ body
  | .event _ kind body => natBytes 1 0x40 ++ [0] ++ natBytes 2 0 ++ natBytes 4 kind ++ natBytes 4 body.length ++ body
  | .flit .. | .ack .. | .report .. => []

/-- Bytes of a command frame arrive; a malformed header is a malformed command. -/
def wirePlan (b : List Byte) : Plan :=
  match frameOfWire b with
  | some f => arrivePlan f
  | none => .both (dropJoined (fieldAt b 4 2)) (refuseCmd { cmd := fieldAt b 0 1, seq := fieldAt b 2 2 } stBadCommand)

/-- What comes from outside: bytes on the host's link (`site.a` 11), or what envPlan knows. -/
def outsidePlan : Plan := .get fun s => if s.site.a = 11 then wirePlan s.site.bytes else envPlan

/-! ## Identity (R405) -/

/-- A list of exactly `n` bytes, cut or padded with zeros. -/
def sized (n : Nat) (bs : List Byte) : List Byte := (bs ++ List.replicate n 0).take n

def keySeed : List Byte := (Config.sha3_512 Config.fusedSecret).take 32
def romDigest : List Byte := sized 64 (Config.sha3_512 Config.romImage)
/-- "BX-6400". -/
def partNumber : List Byte := sized 16 [0x42, 0x58, 0x2D, 0x36, 0x34, 0x30, 0x30]

def execIdent : State → Host.Outcome State Fault Refusal :=
  command fun f =>
    answer f 0 0 (partNumber ++ sized 2592 (Config.mldsaPublicKey keySeed) ++ natBytes 4 Config.certificateChain.length ++ Config.certificateChain)

/-- The report an ATTEST signs. -/
def attestReport (s : State) (p : Nat) (nonce : List Byte) : List Byte :=
  romDigest ++ sized 64 (s.part p).pmr ++ natBytes 4 (s.part p).pmrCount ++ sized 32 nonce ++ natBytes 8 s.now

/-- ATTEST; the operator may ask it of a partition that is not live, whose PMR stands at zero (log 12). -/
def execAttest : State → Host.Outcome State Fault Refusal :=
  command fun f => .get fun s =>
    if !mayAct s f.princ f.part then refuseCmd f stBadPartition
    else
      let r := attestReport s f.part f.body
      answer f 0 0 (r ++ sized 4627 (Config.mldsaSign keySeed r))

/-! ## Partitions (R401, R42) -/

/-- The arrays of a mask. -/
def maskArrays (m : Nat) : List Nat := (List.range 64).filter fun a => m.testBit a

/-- What the other partitions hold of a tower's resource. -/
def allotted (s : State) (f : Part → Nat) : Nat := ((liveParts s).map fun p => f (s.part p)).foldl (· + ·) 0

/-- The lowest base of a window of `size` bytes in a tower. -/
def windowBase (s : State) (t size : Nat) : Option Nat :=
  let held := ((liveParts s).filter fun p => (s.part p).wbase.any fun e => e.1 == t).map fun p => (smGet 0 (s.part p).wbase t, smGet 0 (s.part p).wsize t)
  let starts := 0 :: held.map fun w => w.1 + w.2
  let fits := starts.filter fun b => decide (b + size ≤ 2 ^ 31) && held.all fun w => !overlaps (b, size) w
  fits.foldl (fun best b => match best with
    | none => some b
    | some c => some (min b c)) none

/-- An extent as the model keeps it: its base and the first byte beyond. -/
def extentList (xs : List (Nat × Nat)) : List (Nat × Nat) := (xs.filter fun e => e != (0, 0)).map fun (b, l) => (b, l + 1)

def extOverlap (x y : Nat × Nat) : Bool := decide (x.1 < y.2) && decide (y.1 < x.2)

/-- An extent that touches the reserve rows, the top 1 GiB of a stack (R411). -/
def inReserve (x : Nat × Nat) : Bool := (List.range 8).any fun k => extOverlap x (k * 2 ^ 36 + 63 * 2 ^ 30, (k + 1) * 2 ^ 36)

/-- An extent without the regions of a cache (R336). -/
def cutExtent (x : Nat × Nat) (cut : Nat × Nat) : List (Nat × Nat) :=
  if !extOverlap x cut then [x]
  else (if x.1 < cut.1 then [(x.1, cut.1)] else []) ++ if cut.2 < x.2 then [(cut.2, x.2)] else []

/-- The status PART.MAKE answers with (R401), 0 where it makes the partition. Kennel entries and pins are allotted in every tower (R203, R316), a window in those
that hold one of its arrays (R223). -/
def makeStatus (s : State) (b : PartBody) : Nat :=
  let arrs := maskArrays b.arrmask
  let towers := (List.range 8).filter fun t => arrs.any fun a => towerOf a == t
  let ext := extentList b.ext
  let cache := extentList b.cachex
  let taken := (liveParts s).flatMap fun p => (s.part p).ext ++ (s.part p).cachex
  let sa := b.sa.foldl (· + ·) 0
  let boxOk := (List.range 16).all fun i =>
    let (t, d, off, obj) := b.inbox.getD i (0, 0, 0, 0)
    (t, d, off, obj) == (0, 0, 0, 0) || (towers.contains t && decide (off + 2 ^ d * 64 ≤ b.wsize.getD t 0 * 2 ^ 20) && decide (obj + 32 ≤ b.wsize.getD t 0 * 2 ^ 20))
  if (s.part b.part).live then stBadPartition
  else if !boxOk then stBadCommand
  else if arrs.any (fun a => (s.arr a).owner.isSome || (s.tower (towerOf a)).removed || (List.range 16).any fun r => (s.bucket 1 (a * 16 + r)).state == 3) then stNoSpace
  else if 5400 < allotted s (fun v => (v.sa.map fun e => e.2).foldl (· + ·) 0) + sa + s.mod.ringTotal then stNoSpace
  else if (List.range 8).any fun t =>
      decide (64 < allotted s (fun v => smGet 0 v.kenn t) + b.kenn.getD t 0) || decide (1024 < allotted s (fun v => smGet 0 v.pinq t) + b.pinq.getD t 0)
        || (towers.contains t && (windowBase s t (b.wsize.getD t 0 * 2 ^ 20)).isNone) then stNoSpace
  else if (ext ++ cache).any (fun x => inReserve x || taken.any (extOverlap x)) || cache.any (fun x => !decide (x.2 ≤ 2 ^ 39)) then stBadExtent
  else 0

/-- The partition PART.MAKE makes; what waits for it, and its exchange group, stay. -/
def madePart (s : State) (b : PartBody) : Part :=
  let old := s.part b.part
  let arrs := maskArrays b.arrmask
  let towers := (List.range 8).filter fun t => arrs.any fun a => towerOf a == t
  let cache := extentList b.cachex
  let per := fun (ts : List Nat) (xs : List Nat) (m : Nat) => ts.map fun t => (t, xs.getD t 0 * m)
  let ext := cache.foldl (fun es c => es.flatMap fun x => cutExtent x c) (extentList b.ext)
  let boxes := (List.range 16).map fun i =>
    let (t, d, off, obj) := b.inbox.getD i (0, 0, 0, 0)
    (i, ({ tower := t, ldepth := d, off, object := obj, set := (t, d, off, obj) != (0, 0, 0, 0) } : Inbox))
  let sa := arrs.map fun a => (a, b.sa.getD a 0)
  let wbase := towers.map fun t => (t, (windowBase s t (b.wsize.getD t 0 * 2 ^ 20)).getD 0)
  { live := true, princ := b.princ, killt := b.killt, draint := b.draint, wbase, wsize := per towers b.wsize (2 ^ 20), kenn := per (List.range 8) b.kenn 1,
    pinq := per (List.range 8) b.pinq 1, sa, ext,
    cachex := cache, inboxes := boxes.filter fun e => e.2.set, pmr := List.replicate 64 0, xmask := old.xmask, peers := old.peers, waiting := old.waiting,
    current := old.current }

def execPartMake : State → Host.Outcome State Fault Refusal :=
  command fun f => opCmd f fun s =>
    match parsePartBody f.body with
    | none => refuseCmd f stBadCommand
    | some b =>
      let st := makeStatus s b
      if st ≠ 0 then refuseCmd f st
      else Plan.all
        [ .edit (.part b.part (madePart s b)), Plan.each (maskArrays b.arrmask) (fun a => modArr a fun v => { v with owner := some b.part, aerr1 := 0, aerr2 := 0 }),
          measure b.part f.body, acceptCmd f ]

/-- PART.FREE can go on (R42): every launch has ended or stands halted, and no context is being saved. -/
def freeReady (s : State) (p : Nat) : Bool :=
  let v := s.part p
  let done := v.launches.all fun l => l.state == .completed || l.state == .killed
  let saving := s.ctxs.any fun (_, c) => c.part == p && c.state == .saving
  (done || (v.leash && allStopped s p)) && !saving && s.ctxs.all fun (_, c) => c.part != p || !c.killed || c.state == .free || v.leash

/-- Whether an act due belongs to a partition that is being freed and goes with it: those of its arrays, and of its requests, programs and descriptors. -/
def dueOf (s : State) (p : Nat) (arrs : List Nat) (d : Due) : Bool :=
  match d.act with
  | .instr .boArrival => d.site.b == p
  | .instr .leashReach | .instr .engineRestart | .instr .placement | .instr .superstepStart | .instr .superstepEnd => d.site.a == p
  | .instr .rowExecute | .instr .issueSelect | .instr .reinject | .instr .mRowEnter | .instr .passLanding | .instr .mmdDecision | .instr .kennelWriteback
  | .instr .kennelEntryAction | .instr .sliceRailSettle | .instr .lrowRowWrite | .instr .emitzRecordPush | .instr .leaseExpiry | .instr .leaseReleaseEffect
  | .instr .cellStoreWindowRelease | .instr .killedContextFree | .instr .taskStart | .instr .taskResume | .instr .preemptRequest | .instr .checkpointSave
  | .instr .saveComplete | .instr .shadowLoadFollowon | .instr .taskPostFollowon | .instr .probeComplete | .instr .mpCompletion | .instr .atomPerform
  | .instr .gatherElementLand | .instr .scatterWriteConfirm | .instr .copyLineLand | .instr .messageArrive | .instr .tableWalkComplete
  | .instr .deepTierAccess => arrs.contains d.site.arr
  | .instr .messageRefusal => s.reqs.any fun r => r.uid == d.site.a && r.part == p
  | .instr _ => false
  | .micro (.enginesStop q _ _) | .micro (.faultEvent q) | .micro (.atomStop q _) => q == p
  | .micro (.advance u) | .micro (.perform u) | .micro (.confirm u) | .micro (.atomLand u) => s.reqs.any fun r => r.uid == u && r.part == p
  | .micro (.mpLine st u _) | .micro (.mpLand st u _ _) => (s.stack st).progs.any fun m => m.uid == u && m.part == p
  | .micro (.copyLine t u) | .micro (.copyPut t u _ _) => (s.tower t).descs.any fun e => e.uid == u && e.part == p
  | .micro (.frameCheck ..) | .micro (.lineRead ..) | .micro (.lineWritten _) | .micro (.peer ..) | .micro .env | .micro (.nextCmd _) | .micro (.answerWhen ..)
  | .micro (.hostUnit _) | .micro (.hostPiece _) | .micro (.mirror ..) => false
  | .frame _ => false
  | _ => arrs.contains d.site.arr

/-- An array as it stands for its next partition: its rails, its gate and its generations stay, and the last context of each class to issue (R34). -/
def freshArr (v : Arr) : Arr :=
  { lastOf := v.lastOf, gate := v.gate, ungateAfter := v.ungateAfter, sgen := v.sgen, fend := v.fend, walker := { epoch := v.walker.epoch + 1 } }

/-- A line of HBM, by its number, is the partition's: in one of its extents or its cache, as its masks map it. -/
def hbmLineOf (s : State) (p line : Nat) : Bool :=
  let v := s.part p
  let st := line / 2 ^ 30
  let pa := paOf (s.stack st) p st (line / 2 ^ 24 % 64) (line / 2 ^ 20 % 16) (line / 16 % 65536) (line % 16)
  (v.ext ++ v.cachex).any fun x => decide (x.1 ≤ pa) && decide (pa < x.2)

/-- A line marked uncorrectable lies in what PART.FREE zeroes; its zeroing writes it whole. -/
def markOf (s : State) (p : Nat) (arrs : List Nat) (m : Nat × Nat) : Bool :=
  let v := s.part p
  match m.1 with
  | 0 => hbmLineOf s p m.2
  | 1 => v.ext.any fun x => decide (x.1 ≤ 2 ^ 40 + m.2 * 64) && decide (2 ^ 40 + m.2 * 64 < x.2)
  | 2 => v.wsize.any fun (t, z) => decide (t * 2 ^ 31 + smGet 0 v.wbase t ≤ m.2 * 64) && decide (m.2 * 64 < t * 2 ^ 31 + smGet 0 v.wbase t + z)
  | _ => arrs.contains (m.2 * 32 / (256 * 32768))

/-- Everything a partition held is zeroed (R4). -/
def zeroPart (p : Nat) : Plan :=
  .get fun s =>
    let v := s.part p
    let arrs := (List.range 64).filter fun a => (s.arr a).owner == some p
    let hbm := (s.mem.filter fun c => decide (memKey .hbm 0 ≤ c.1) && decide (c.1 < memKey .deep 0)).filterMap fun c =>
      if hbmLineOf s p ((c.1 - memKey .hbm 0) / 64) then some (c.1 - memKey .hbm 0) else none
    Plan.all
      [ .edit (.due (s.due.filter fun d => !dueOf s p arrs d)), .edit (.reqs (s.reqs.filter fun r => r.part != p)),
        Plan.each arrs (fun a => Plan.all
          [ modArr a freshArr, zeroArray a, Plan.each (List.range 256) (fun c => .edit (.cell (a * 256 + c) {})),
            Plan.each (List.range 4) (fun k => Plan.all [ dropAcq a k, endLease a k, freshBanks a k, .edit (.ctx (ctxKey a k) {}) ]) ]),
        Plan.each v.wsize (fun (t, z) => .edit (.clear .scratch (t * 2 ^ 31 + smGet 0 v.wbase t) (t * 2 ^ 31 + smGet 0 v.wbase t + z))),
        Plan.each (v.ext.filter fun x => decide (2 ^ 40 < x.2)) (fun x => .edit (.clear .deep (x.1 - 2 ^ 40) (x.2 - 2 ^ 40))),
        Plan.each hbm (fun addr => .edit (.byte .hbm addr 0)),
        .edit (.marks (s.marks.filter fun m => !markOf s p arrs m)),
        Plan.each arrs (fun a => .both (.edit (.clear .dict (a * 786432) ((a + 1) * 786432))) (.edit (.clear .code (a * 131072) ((a + 1) * 131072)))),
        Plan.each (List.range 8) (fun t => modTower t fun w =>
          { w with kennels := w.kennels.filter fun e => e.2.part != p, lines := w.lines.filter fun l => l.part != p, descs := w.descs.filter fun d => d.part != p,
                   pins := w.pins.filter fun e => e.part != p, pages := w.pages.filter fun e => e.part != p, ranges := w.ranges.filter fun e => e.1 != p }),
        Plan.each (List.range 8) (fun st => modStack st fun k =>
          { k with progs := k.progs.filter fun m => m.part != p, ports := k.ports.map fun e => (e.1, e.2.filter fun q => q.part != p),
                   banks := k.banks.filter fun e => !(e.2.prog.isSome && e.2.part == p),
                   slots := k.slots.map fun e => if (slotKind e.2 == 1 || slotKind e.2 == 2) && slotPart e.2 == p then (e.1, 0) else e,
                   slotsNew := k.slotsNew.map fun n => (n.1, n.2.map fun e => if (slotKind e.2 == 1 || slotKind e.2 == 2) && slotPart e.2 == p then (e.1, 0) else e),
                   hmb := k.hmb.filter fun e => e.1 / 4 != p, hmp := k.hmp.filter fun e => e.1 / 6 != p, masksNew := k.masksNew.filter fun m => m.2.1 != p,
                   acct := k.acct.filter fun e => e.1 / 128 != p, cache := k.cache.filter fun e => e.1 / 4 / 2 ^ 28 != p }),
        .edit (.part p { waiting := v.waiting, current := v.current }) ]

/-- PART.FREE (R42): launches still in the queue are killed, and the ROM waits, looking every tick, until the rest have ended or stand halted. -/
def execPartFree : State → Host.Outcome State Fault Refusal :=
  (Plan.get fun s =>
    let f := s.site.frame
    let p := f.part
    let look := atTick (s.now + 1) rankEnd none { frame := f, b := 1 } (.instr .partFree)
    if s.site.b = 1 then
      if freeReady s p then .both (zeroPart p) (finishCmd p f 0 0) else look
    else opCmd f fun s =>
      if !(16 > p && (s.part p).live) then refuseCmd f stBadPartition
      else
        let gone := (s.part p).launches.filter fun l => l.state == .waiting
        Plan.all
          [ modPart p (fun v => { v with current := some f, queue := v.queue.filter fun u => !(gone.any fun l => l.uid == u),
                                         launches := v.launches.map fun l => if l.state == .waiting then { l with state := .killed, killed := true } else l }),
            atTick s.now rankEnd none { frame := f, b := 1 } (.instr .partFree) ]).step

/-! ## SLOT.SET (R321, R323) -/

/-- The slots SLOT.SET may change (R324). -/
def slotFixed (i : Nat) : Bool := decide (i < 48) || (decide (256 ≤ i) && decide (i < 272))

/-- A memory program of a partition is pending or running on a stack (R323), to the end of its END frame or, abandoned, until its banks are closed: one issued whose record is still to be read counts on the stack the record names now. -/
def progsOn (s : State) (st p : Nat) : Bool :=
  ((s.stack st).progs.any fun m => m.part == p && !(m.ended && m.endSlot.all fun e => decide (e / 512 < (s.stack st).frame)))
    || s.due.any fun d => match d.act with
      | .micro (.mpRecord a off _ m) => m.part == p && s.byte .scratch (s.winAddr (towerOf a) p off + 8) == BitVec.ofNat 8 st
      | _ => false

def execSlotSetTables : State → Host.Outcome State Fault Refusal :=
  command fun f => opCmd f fun s =>
    let st := fieldAt f.body 0 1
    let k := s.stack st
    let tab := f.body.drop 4
    let entry := fun (i : Nat) => (tab.getD i 0).toNat
    let idx := (List.range 16384).filter fun i => !slotFixed (i % 512)
    let bad := idx.any fun i => decide (4 < slotKind (entry i)) || (entry i).testBit 4
    let was := (k.slotsNew.getLast?.map fun n => n.2).getD k.slots
    let changed := idx.filter fun i => entry i != slotEntry was (i / 512) (i % 512)
    let owners := fun (i : Nat) => [entry i, slotEntry was (i / 512) (i % 512)].filterMap fun e => if slotKind e = 1 || slotKind e = 2 then some (slotPart e) else none
    if bad then refuseCmd f stBadCommand
    else if changed.any fun i => (owners i).any fun p => progsOn s st p then refuseCmd f stBusy
    else Plan.all
      [ modStack st fun k => { k with slotsNew := k.slotsNew ++ [(s.now, idx.map fun i => (i, entry i))] }, Plan.each (liveParts s) (fun p => measure p f.body), acceptCmd f ]

def execSlotSetDonate : State → Host.Outcome State Fault Refusal :=
  command fun f => opCmd f fun s =>
    let p := fieldAt f.body 4 1
    if !(s.part p).live then refuseCmd f stBadPartition
    else Plan.all [ modPart p fun v => { v with don := fieldAt f.body 5 1 == 1 }, measure p f.body, acceptCmd f ]

/-- A mask with bits only in L[29:lo] (R321). -/
def maskOk (lo v : Nat) : Bool := v % 2 ^ lo == 0 && decide (v < 2 ^ 30)

def execSlotSetHashMasks : State → Host.Outcome State Fault Refusal :=
  command fun f => opCmd f fun s =>
    let p := fieldAt f.body 4 1
    let st := fieldAt f.body 0 1
    let hmb := fieldsAt f.body 8 8 4
    let hmp := fieldsAt f.body 40 8 6
    if (hmb ++ hmp).any (fun v => decide (2 ^ 33 ≤ v)) then refuseCmd f stBadCommand
    else if !(s.part p).live then refuseCmd f stBadPartition
    else if !(hmb.all (maskOk 14) && hmp.all (maskOk 6)) then refuseCmd f stBadMask
    else Plan.all [ modStack st fun k => { k with masksNew := k.masksNew ++ [(s.now, p, hmb, hmp)] }, measure p f.body, acceptCmd f ]

/-! ## MAP (R304, R305, R314) -/

/-- A request that was translated but has not been accepted, for it waits for its order or for RESUME, is translated anew (R313, R314, log 16). -/
def retranslate (p : Nat) : Plan :=
  .get fun s => .edit (.reqs (s.reqs.map fun r =>
    match r.va with
    | some va => if r.part == p && r.stage == .fired then { r with target := .virt va, va := none } else r
    | none => r))

/-- Requests of a partition translated and not yet performed at pkg scope: a MAP returns after them (R314). -/
def translatedReqs (s : State) (p : Nat) : List Nat :=
  (s.reqs.filter fun r => r.part == p && (r.stage == .accepted || r.stage == .arrived) && (match r.target with
    | .phys _ => true
    | _ => false)).map fun r => r.uid

/-- A MAP done: answered once the requests translated by the old state have performed. -/
def answerMap (p : Nat) (f : Frame) : Plan :=
  .get fun s =>
    .both (.both (retranslate p) (measure p f.body))
      (if (translatedReqs s p).isEmpty then acceptCmd f
       else .both (modPart p fun v => { v with current := some f }) (atTick s.now rankEnd none { frame := f } (.micro (.answerWhen p (translatedReqs s p)))))

/-- The wait of a MAP. -/
def answerWhenPlan (p : Nat) (uids : List Nat) : Plan :=
  .get fun s =>
    let f := s.site.frame
    if uids.any fun u => (translatedReqs s p).contains u then atTick (s.now + 1) rankEnd none s.site (.micro (.answerWhen p uids)) else finishCmd p f 0 0

/-- The save regions of a partition's launches, whose translation is held (R350). -/
def saveRegions (s : State) (p : Nat) : List (Nat × Nat) :=
  ((s.part p).launches.filter fun l => l.state == .waiting || l.state == .placed).map fun l =>
    (recSave l.record, recSave l.record + (eligibleUnits s p l.record).length * recCtxmax l.record * imageStride l.record - 1)

/-- A range of virtual addresses meets one of some others. -/
def rangesMeet (rs : List (Nat × Nat)) (a b : Nat) : Bool := rs.any fun (lo, hi) => decide (a ≤ hi) && decide (lo ≤ b)

/-- The pins that meet one of some virtual ranges, each counted once (R314). -/
def pinsMet (s : State) (p : Nat) (rs : List (Nat × Nat)) : Nat := pinsIn s p fun e => rangesMeet rs e.page (e.page + e.size - 1)

/-- The held save regions whose translation changes with some virtual ranges (R350): range entries alone translate them. -/
def regionsMet (s : State) (p : Nat) (rs : List (Nat × Nat)) : Nat := ((saveRegions s p).filter fun (a, b) => rangesMeet rs a b).length

/-- Pins of pages that the page table translated. -/
def walkedPins (s : State) (p : Nat) : Nat := pinsIn s p fun e => e.walked

def rangeFieldsOk (e : BitVec 256) : Bool :=
  e.extractLsb' 216 8 == 0 && e.extractLsb' 160 4 == 0 && e.extractLsb' 100 4 == 0 && e.extractLsb' 4 40 == 0
    && (!reValid e || (rePbase e % 4096 == 0 && reBase e % 4096 == 0 && (reLimit e + 1) % 4096 == 0 && decide (reBase e ≤ reLimit e)))

def execMapRangeEntry : State → Host.Outcome State Fault Refusal :=
  command fun f => partCmd f fun s =>
    let p := f.part
    let v := s.part p
    let i := fieldAt f.body 8 1
    let e := BitVec.ofNat 256 (fieldAt f.body 16 32)
    let old := smGet 0 v.ranges i
    let hit := (List.range 64).find? fun j =>
      let o := smGet 0 v.ranges j
      j != i && reValid e && reValid o && decide (reBase e ≤ reLimit o) && decide (reBase o ≤ reLimit e)
    let ranges := ([old, e].filter reValid).map fun x => (reBase x, reLimit x)
    let pins := pinsMet s p ranges + regionsMet s p ranges
    if !rangeFieldsOk e then refuseCmd f stBadCommand
    else
      match hit with
      | some j => answer f stOverlap j []
      | none =>
        if reValid e && !inExtent v (rePbase e) (reLimit e + 1 - reBase e) then refuseCmd f stBadExtent
        else if pins ≠ 0 then answer f stPinned pins []
        else
          let gen := (reGen old + 1) % 2 ^ 32
          let through := fun (k : Nat) (w : BitVec 192) => wrSpace w == 2 && v.watchVia.contains (k, i)
          Plan.all
            [ modPart p fun v =>
                { v with ranges := smSet v.ranges i ((e &&& BitVec.ofNat 256 (2 ^ 224 - 1)) ||| (BitVec.ofNat 256 gen <<< 224)),
                         watch := v.watch.map (fun (k, w) => (k, if through k w then wrBump w else w)),
                         watchAt := (v.watch.filter fun e => through e.1 e.2).foldl (fun m (k, _) => smSet m k ({ tick := s.now, sure := true } :: (smGet [] m k).filter fun e => decide (s.now < e.tick + 64))) v.watchAt },
              Plan.each (List.range 8) (fun t => modTower t fun w => { w with ranges := w.ranges.filter fun e => !(e.1 == p && e.2.1 == i) }),
              Plan.when (reValid e) (dropPages p (reBase e) (reLimit e)), Plan.when (reValid old) (dropPages p (reBase old) (reLimit old)), answerMap p f ]

def execMapControlWord : State → Host.Outcome State Fault Refusal :=
  command fun f => partCmd f fun s =>
    let p := f.part
    let c := fieldAt f.body 8 8
    let pins := if BitVec.ofNat 64 c = (s.part p).ctrl then 0 else walkedPins s p
    if 2 ^ 52 ≤ c || c / 2 % 2 ^ 19 ≠ 0 then refuseCmd f stBadCommand
    else if pins ≠ 0 then answer f stPinned pins []
    else Plan.all [ modPart p fun v => { v with ctrl := BitVec.ofNat 64 c }, dropPages p 0 (2 ^ 56), answerMap p f ]

def execMapInvalidate : State → Host.Outcome State Fault Refusal :=
  command fun f => partCmd f fun s =>
    let p := f.part
    let lo := fieldAt f.body 8 8
    let hi := fieldAt f.body 16 8
    let pins := pinsMet s p [(lo, hi)]
    if hi < lo || 2 ^ 56 ≤ hi then refuseCmd f stBadCommand
    else if pins ≠ 0 then answer f stPinned pins []
    else .both (dropPages p lo hi) (answerMap p f)

/-! ## TRUNK.SET (R389, R390) -/

def execTrunkSet : State → Host.Outcome State Fault Refusal :=
  command fun f => opCmd f fun s =>
    match parseTrunkBody f.body with
    | none => refuseCmd f stBadCommand
    | some b =>
      let wanted := (List.range 80).map fun q => (q, if b.ports.getD q 0xFF < 16 then some (b.ports.getD q 0xFF) else none)
      let changes := wanted.filter fun (q, k) => (smGet {} s.mod.ports q).trunk != k
      Plan.all
        [ modMod fun m => { m with trunkNew := changes, trunkPkg := (List.range 16).map fun k => (k, b.trunks.getD k 0) },
          Plan.each (List.range 16) (fun p => modPart p fun v =>
            let g := b.groups.getD p (0, [])
            { v with xmask := BitVec.ofNat 64 g.1, peers := ((List.range 16).map fun i => (i, g.2.getD i (0, 0))).filter fun e => e.2.1 != 0, step := 0, peerReady := [], peerQuiet := [] }),
          Plan.each (liveParts s) (fun p => measure p f.body), atTick s.now rankEnd none {} (.instr .trunkChangeApply), acceptCmd f ]

/-! ## LOAD and READ (R402, R365) -/

/-- The task a TAG and a number name: of the latest launch with that TAG (log 12). -/
def namedTask (s : State) (p tag num : Nat) : Option Task :=
  ((s.part p).launches.reverse.filter fun l => recTag l.record == tag).findSome? fun l => (s.part p).tasks.find? fun t => t.launch == l.uid && t.number == num

/-- The first byte of a virtual range that does not translate for an access. -/
def firstBad (s : State) (p va n : Nat) (a : Access) : Option Nat :=
  ((List.range ((va % 4096 + n + 4095) / 4096)).map fun j => max va ((va / 4096 + j) * 4096)).findSome? fun q =>
    let len := min (q / 4096 * 4096 + 4096) (va + n) - q
    match permitted a (translate s p q len) with
    | .ok _ => none
    | .error _ => some (q - va)

/-- Where the state of a task stands for READ and LOAD (R365, R375): none, busy, live in the contexts given, or in its slot. -/
inductive Held where
  | nowhere
  | busy
  | live (ms : List (Nat × Nat))
  | slot (ms : List (Nat × Nat))
  deriving DecidableEq, Repr

def heldState (s : State) (p : Nat) (t : Task) : Held :=
  match t.state with
  | .checkpointed => .slot []
  | .running =>
    let cs := taskCtxs s p t
    if cs.isEmpty then .nowhere
    else if cs.all fun (a, k) => (s.ctx a k).state == .halted then (if (s.part p).imaged then .slot cs else .live cs)
    else .busy
  | _ => .nowhere

/-- The member and the offset in its image of an offset in a task's state. -/
def memberOff (r : List Byte) (off : Nat) : Nat × Nat := if recChain r && decide ((recShape r).size ≤ off) then (1, off - (recShape r).size) else (0, off)

/-- The stream `m` of a task that is not running owns the walker of its array (R365). -/
def slotWalks (s : State) (t : Task) (ms : List (Nat × Nat)) (m : Nat) : Bool :=
  (t.walkers.any fun e => e.1 == t.unit + m) || ((ms.drop m).head?).any fun (a, k) => (s.arr a).walker.owner == some k

/-- A stream's image in its slot as a READ has it: the walker's region reads zero for one that does not own it (R365). -/
def slotRead (s : State) (p va off n : Nat) (walks : Bool) : List Byte :=
  (virtBytes s p (va + off) n).zipIdx.map fun (b, i) => if !walks && decide (0x2000 ≤ off + i) && decide (off + i < 0x5000) then 0 else b

/-! ### The bytes on the link (R397) -/

/-- The next unit of 4 KiB goes on the link, of the partition whose turn it is: round-robin by partition number. How long it takes is open (log 4). -/
def nextUnit : Plan :=
  .get fun s =>
    match ((List.range 16).map fun i => (s.mod.xferTurn + i) % 16).find? fun p => (s.part p).xfer.any fun x => decide (x.sent < x.len) with
    | some p => Plan.when (!s.mod.xferBusy)
        (.both (modMod fun m => { m with xferTurn := (p + 1) % 16, xferBusy := true })
          (withFree Config.offDomainBound fun d => atTick (s.now + 1 + d) rankEvent none {} (.micro (.hostUnit p))))
    | none => .skip

/-- A LOAD or READ found good begins; it is answered when every line of it has performed. -/
def beginXfer (f : Frame) (load : Bool) (len : Nat) : Plan :=
  .both (modPart f.part fun v => { v with current := some f, xfer := some { frame := f, load, len } }) nextUnit

/-- A LOAD or READ with every unit past and every line performed is answered. -/
def endXfer (p : Nat) : Plan :=
  .get fun s =>
    match (s.part p).xfer with
    | some x => Plan.when (decide (x.len ≤ x.sent) && x.left == 0) (.both (modPart p fun v => { v with xfer := none }) (finishCmd p x.frame 0 0))
    | none => .skip

/-- A line of a LOAD or READ has performed. -/
def hostPiecePlan (p : Nat) : Plan := .both (modPart p fun v => { v with xfer := v.xfer.map fun x => { x with left := x.left - 1 } }) (endXfer p)

/-- Bytes cut at the boundaries of lines: address and length of each piece. -/
def linePieces (lo n : Nat) : List (Nat × Nat) :=
  (List.range ((lo % 64 + n + 63) / 64)).map fun j =>
    let at' := max lo ((lo / 64 + j) * 64)
    (at', min (lo + n) ((lo / 64 + j + 1) * 64) - at')

/-- `n` bytes of a LOAD or READ have crossed the link, or are to: their lines are presented to the data port of the window (R225, R284), or arrive at their points (R285, R335).
Halted state has moved with the command itself (log 12). -/
def moveUnit (p : Nat) (x : Xfer) (b : XferBody) (n : Nat) : Plan :=
  .get fun s =>
    let lo := b.target + x.sent
    let host := fun (at' : Nat) => b.haddr + (at' - b.target)
    let data := fun (at' z : Nat) => s.bytes .host (host at') z
    let pieces := linePieces lo n
    let count := fun (k : Nat) => modPart p fun v => { v with xfer := v.xfer.map fun y => { y with sent := y.sent + n, left := y.left + k } }
    match b.space with
    | 0 => .both (count pieces.length) (Plan.each pieces fun (o, z) => withUid fun uid => presentLine b.tower
        { arr := b.tower * 8, rank := 6, order := uid, addr := s.winAddr b.tower p o, presented := s.ttick b.tower, part := p, tag := 2 ^ 64,
          use := if x.load then .hostWrite p (s.winAddr b.tower p o) (data o z) else .hostRead p z (host o) })
    | 1 =>
      let known := pieces.filterMap fun (va, z) => match translate s p va z with
        | .ok a => some (va, z, a.pa)
        | .error _ => none
      .both (count known.length) (Plan.each known fun (va, z, pa) => withUid fun uid =>
        let r : Req := { uid, kind := .host, part := p, arr := 0, ctx := 0, n := 0, tid := 0, target := .phys pa, size := z, write := x.load, data := if x.load then data va z else [],
                         stage := .arrived, arrival := uid, arg := host va }
        .both (addReq r) (arriveAt r pa))
    | _ => count 0

/-- A unit has had its turn on the link. -/
def hostUnitPlan (p : Nat) : Plan :=
  .both (modMod fun m => { m with xferBusy := false }) <| .get fun s => .both
    (match (s.part p).xfer with
     | some x => (match parseXfer x.frame.body with
       | some b => moveUnit p x b (min 4096 (x.len - x.sent))
       | none => .skip)
     | none => .skip)
    (.both nextUnit (endXfer p))

/-- The table entries that the check of a virtual range reads are read where they are (R336). -/
def rangeTouch (p va n : Nat) : Plan := Plan.each (List.range ((va % 4096 + n + 4095) / 4096)) fun j => tableTouch p ((va / 4096 + j) * 4096) .skip

def execLoad : State → Host.Outcome State Fault Refusal :=
  command fun f => partCmd f fun s =>
    match parseXfer f.body with
    | none => refuseCmd f stBadCommand
    | some x =>
      let p := f.part
      let data := s.bytes .host x.haddr x.len
      match x.space with
      | 0 =>
        if s.inWin x.tower p x.target x.len then beginXfer f true x.len
        else answer f stBadOffset (s.winSize x.tower p - min x.target (s.winSize x.tower p)) []
      | 1 =>
        match firstBad s p x.target x.len .write with
        | some o => answer f stBadExtent o []
        | none => .both (rangeTouch p x.target x.len) (beginXfer f true x.len)
      | _ =>
        match namedTask s p x.target x.task with
        | none => refuseCmd f stBadCommand
        | some t =>
          let r := s.taskRecord p t
          let g := recShape r
          let (m, off) := memberOff r x.offset
          let va := slotVa s p t m
          match heldState s p t with
          | .nowhere => refuseCmd f stBadCommand
          | .busy => refuseCmd f stBusy
          | .slot ms =>
            match loadRefused s g (slotWalks s t ms m) (fun o => (virtBytes s p (va + o) 1).getD 0 0) off data with
            | some o => answer f stBadOffset o []
            | none => Plan.all [ virtWrite p (va + off) data, Plan.each ((ms.drop m).take 1) (fun (a, k) => imgPut a k false off data), beginXfer f true x.len ]
          | .live ms =>
            let (a, k) := ms.getD m (0, 0)
            match loadRefused s g ((s.arr a).walker.owner == some k) (imgByte s a k) off data with
            | some o => answer f stBadOffset o []
            | none => .both (imgPut a k false off data) (beginXfer f true x.len)

/-- Bytes moved to host memory. -/
def toHostMem (p haddr : Nat) (bs : List Byte) : Plan := physWrite p (2 ^ 51 + haddr) bs

def execRead : State → Host.Outcome State Fault Refusal :=
  command fun f => partCmd f fun s =>
    match parseXfer f.body with
    | none => refuseCmd f stBadCommand
    | some x =>
      let p := f.part
      match x.space with
      | 0 =>
        if s.inWin x.tower p x.target x.len then beginXfer f false x.len
        else answer f stBadOffset (s.winSize x.tower p - min x.target (s.winSize x.tower p)) []
      | 1 =>
        match firstBad s p x.target x.len .read with
        | some o => answer f stBadExtent o []
        | none => .both (rangeTouch p x.target x.len) (beginXfer f false x.len)
      | _ =>
        match namedTask s p x.target x.task with
        | none => refuseCmd f stBadCommand
        | some t =>
          let r := s.taskRecord p t
          let (m, off) := memberOff r x.offset
          let past := decide ((recShape r).size < off + x.len)
          match heldState s p t with
          | .nowhere => refuseCmd f stBadCommand
          | .busy => refuseCmd f stBusy
          | .slot ms => if past then answer f stBadOffset ((recShape r).size - off) []
            else Plan.all
              [ virtTouch p (slotVa s p t m + off) x.len, toHostMem p x.haddr (slotRead s p (slotVa s p t m) off x.len (slotWalks s t ms m)), beginXfer f false x.len ]
          | .live ms =>
            let (a, k) := ms.getD m (0, 0)
            if past then answer f stBadOffset ((recShape r).size - off) [] else .both (toHostMem p x.haddr (imgBytes s a k off x.len)) (beginXfer f false x.len)

/-! ## DICT (R62, R72, R73) -/

/-- A slot of a kind is referenced by a launch that has not ended (R73). -/
def slotReferenced (v : Part) (kind slot : Nat) : Bool :=
  v.launches.any fun l => (l.state == .waiting || l.state == .placed) && (if kind = 0 then recDslot l.record else recCslot l.record) == slot

/-- The lowest region of `size` entries free on an array, the slot's own old image aside. -/
def storeBase (s : State) (p kind slot a size : Nat) : Option Nat :=
  let used := (s.part p).images.filter fun i => i.arr == a && i.kind == kind && i.slot != slot
  let total := if kind = 0 then 16384 else 65536
  let fits := (0 :: used.map fun i => i.base + i.size).filter fun b => decide (b + size ≤ total) && used.all fun i => !overlaps (b, size) (i.base, i.size)
  fits.foldl (fun best b => match best with
    | none => some b
    | some c => some (min b c)) none

def execDict : State → Host.Outcome State Fault Refusal :=
  command fun f => partCmd f fun s =>
    let p := f.part
    let v := s.part p
    let kind := fieldAt f.body 0 1
    let slot := fieldAt f.body 1 1
    let size := fieldAt f.body 4 4
    let arrs := maskArrays (fieldAt f.body 8 8)
    let unit := if kind = 0 then 48 else 2
    let data := s.bytes .host (fieldAt f.body 16 8) (size * unit)
    let bad := if kind = 0 then (List.range size).find? fun j => !dictEntryOk j ((data.drop (48 * j)).take 48) else none
    let others := v.images.filter fun i => !(i.kind == kind && i.slot == slot)
    if arrs.any fun a => (s.arr a).owner != some p then refuseCmd f stBadPartition
    else if slotReferenced v kind slot then refuseCmd f stBusy
    else if size = 0 then .both (modPart p fun v => { v with images := others }) (acceptCmd f)
    else
      match bad with
      | some j => answer f stBadImage j []
      | none =>
        if arrs.any fun a => (storeBase s p kind slot a size).isNone then refuseCmd f stNoSpace
        else Plan.all
          [ modPart p fun v => { v with images := others ++ arrs.map fun a => { kind, slot, arr := a, base := (storeBase s p kind slot a size).getD 0, size } },
            Plan.each arrs (fun a =>
              let base := (storeBase s p kind slot a size).getD 0
              if kind = 0 then writeBytes .dict (dictEntry a base) data else writeBytes .code (a * 131072 + base * 2) data),
            measure p data, acceptCmd f ]

/-! ## LAUNCH (R18-R28) -/

/-- The RES fields of a record are zero, those of the levels in use and of the fidelity word among them (R18, R19, R197). -/
def recResOk (r : List Byte) : Bool :=
  recBits r 1984 64 == 0 && recBits r 51 1 == 0 && recBits r 31 1 == 0 && recBits r 20 4 == 0 && recBits r 41 7 == 0
    && (List.range 6).all fun i => recBits r (256 + 64 * i + 56) 6 == 0

/-- Every input descriptor obeys R20. -/
def recInputsOk (s : State) (r : List Byte) : Bool :=
  (List.range 8).all fun k =>
    let d := recIn r k
    if k < recNin r then inputOk s (recPart r) (eligibleUnits s (recPart r) r) d else d == 0

/-- The loop table obeys R19 and R21, and the counts their ranges. R28 names no status for a level from NLEV to 5 that is not zero: here it makes the loop table a bad one
(DESIGN CHOICE, log 21). -/
def recLoopOk (r : List Byte) : Bool :=
  let n := recNlev r
  let kinds := (List.range n).map (recKind r)
  let spatial := kinds.filter (· != 0)
  decide (1 ≤ n) && decide (n ≤ 6) && decide (1 ≤ recCtxmax r) && decide (recCtxmax r ≤ 4) && decide (recNin r ≤ 8)
    && ((List.range n).all fun i => recKind r i != 3 && decide (1 ≤ recTrip r i) && decide (1 ≤ recCost r i))
    && ((List.range 6).all fun i => decide (i < n) || recBits r (256 + 64 * i) 64 == 0)
    && (kinds.take spatial.length == spatial) && (spatial == [] || spatial == [1] || spatial == [2] || spatial == [2, 1])
    && !(recGang r && recChain r) && !(recGang r && spatial.contains 2)

/-- The images a record names stand on every array that would run a stream (R28). -/
def recImagesOk (v : Part) (r : List Byte) (units : List Nat) : Bool :=
  units.all fun u => (streamArrays r u).all fun a => (imageOf v 0 (recDslot r) a).isSome && (imageOf v 1 (recCslot r) a).isSome

/-- The save region is aligned and mapped by range entries with R and W, within the extents (R350). -/
def recSaveOk (s : State) (p : Nat) (r : List Byte) (units : List Nat) : Bool :=
  let v := s.part p
  let z := units.length * recCtxmax r * imageStride r
  recSave r % 4096 == 0 && (List.range (z / 4096)).all fun j =>
    let va := recSave r + 4096 * j
    match rangeHit v va with
    | none => false
    | some i =>
      let e := smGet 0 v.ranges i
      (rePerms e).testBit 0 && (rePerms e).testBit 1 && inExtent v (rePbase e + (va - reBase e)) 4096 && mapped (rePbase e + (va - reBase e))

/-- The first row of R28 that refuses a record, 0 if none does. -/
def launchStatus (s : State) (f : Frame) (r : List Byte) : Nat :=
  let p := recPart r
  let v := s.part p
  let units := eligibleUnits s p r
  if recFmt r ≠ 1 || !recResOk r || !recInputsOk s r then stBadRecord
  else if !v.live || !mayAct s f.princ p || f.part ≠ p then stBadPartition
  else if !recLoopOk r then stBadLoop
  else if units.isEmpty then stNoPlacement
  else if !recImagesOk v r units then stBadImage
  else if !recSaveOk s p r units then stNoSave
  else if queueFull s p then stQueueFull
  else 0

def execLaunch : State → Host.Outcome State Fault Refusal :=
  command fun f => .get fun s =>
    if !booted s then refuseCmd f stBusy
    else
      let r := s.bytes .host (fieldAt f.body 0 8) 256
      let st := launchStatus s f r
      let p := recPart r
      if st ≠ 0 then refuseCmd f st
      else Plan.all
        [ measure p r,
          withUid (fun uid => modPart p fun v =>
            { v with launches := v.launches ++ [{ uid, record := r }], queue := v.queue ++ [uid],
                     accounts := if v.accounts.any fun e => e.1 == recTag r then v.accounts else smSet v.accounts (recTag r) {} }),
          wakePlacement p, acceptCmd f ]

/-! ## PREEMPT (R343) -/

/-- A PREEMPT for the task it names. -/
def preemptCmd (mode : Nat) (f : Frame) : Plan :=
  partCmd f fun s =>
    let p := f.part
    match namedTask s p (fieldAt f.body 0 8) (fieldAt f.body 8 4) with
    | none => refuseCmd f stBadCommand
    | some t =>
      let r := s.taskRecord p t
      let cs := taskCtxs s p t
      let saving := cs.any fun (a, k) => (s.ctx a k).state == .saving
      let halted := cs.any fun (a, k) => (s.ctx a k).state == .halted
      if t.state == .ended || t.state == .killed then refuseCmd f stBadCommand
      else if mode = 2 && !recKill r then refuseCmd f stNotKillable
      else if saving then refuseCmd f stBusy
      else if mode = 2 then
        .both (if t.state == .running then killTask p t else dropTask p t) (acceptCmd f)
      else if t.state != .running || halted then refuseCmd f stBusy
      else .both (atTick s.now rankPreempt (some (towerOf t.unit)) { arr := t.unit, a := p, b := t.uid, c := fieldAt f.body 12 1, pos := mode } (.instr .preemptRequest)) (acceptCmd f)

def execPreemptPolicy : State → Host.Outcome State Fault Refusal := command (preemptCmd 0)
def execPreemptCheckpoint : State → Host.Outcome State Fault Refusal := command (preemptCmd 1)
def execPreemptKill : State → Host.Outcome State Fault Refusal := command (preemptCmd 2)

/-! ## HALT, RESUME, STATUS, COUNTERS -/

def execHalt : State → Host.Outcome State Fault Refusal := command fun f => partCmd f fun _ => .both (haltPart f.part) (acceptCmd f)

def execResume : State → Host.Outcome State Fault Refusal :=
  command fun f => partCmd f fun s =>
    if resumeBusy s f.part || (s.part f.part).resumeAt.isSome then refuseCmd f stBusy else .both (beginResume f.part) (acceptCmd f)

/-- The entry of a launch in STATUS (R403). -/
def launchEntry (v : Part) (l : Launch) : List Byte :=
  let state := match l.state with
    | .waiting => 0
    | .placed => if v.leash then 2 else 1
    | .completed => 3
    | .killed => 4
  natBytes 8 (recTag l.record) ++ natBytes 1 state ++ natBytes 3 0 ++ natBytes 4 l.placedTasks ++ natBytes 4 l.ended ++ natBytes 4 (l.nextTask - l.placedTasks) ++ natBytes 8 0

def statusBody (s : State) (p : Nat) : List Byte :=
  let v := s.part p
  let rs := stopRecords s p
  natBytes 4 v.launches.length ++ natBytes 4 rs.length ++ natBytes 8 0 ++ v.launches.flatMap (launchEntry v) ++ rs.flatMap fun r => natBytes 4 r.length ++ r

def execStatus : State → Host.Outcome State Fault Refusal :=
  command fun f => .get fun s => if mayAct s f.princ f.part && (s.part f.part).live then answer f 0 0 (statusBody s f.part) else refuseCmd f stBadPartition

/-- An account's record (R404). -/
def accountEntry (tag : Nat) (a : Account) : List Byte :=
  natBytes 8 tag ++ natBytes 8 a.bundles ++ natBytes 8 a.busy ++ natBytes 8 a.idle ++ ((List.range 5).flatMap fun i => natBytes 8 (smGet 0 a.stalls i)) ++ natBytes 8 a.conflict
    ++ List.replicate 48 0

/-- The placement table (R355): arrays ascending, PHASE ascending. -/
def placementBytes (s : State) (p : Nat) : List Byte :=
  ((List.range 64).filter fun a => (s.arr a).owner == some p).flatMap fun a => (List.range 256).flatMap fun ph =>
    let e := smGet (0, 0) (s.part p).placement (a * 256 + ph)
    natBytes 8 e.1 ++ natBytes 8 e.2

def slotAccounts (s : State) (p : Nat) : List Byte :=
  (List.range 8).flatMap fun st => (List.range 32).flatMap fun ch => (List.range 4).flatMap fun cls => natBytes 8 (smGet 0 (s.stack st).acct ((p * 32 + ch) * 4 + cls))

def execCounters : State → Host.Outcome State Fault Refusal :=
  command fun f => partCmd f fun s =>
    let p := f.part
    let clear := fieldAt f.body 1 1 == 1
    match fieldAt f.body 0 1 with
    | 0 => .both (answer f 0 0 ((s.part p).accounts.flatMap fun (t, a) => accountEntry t a))
        (Plan.when clear (modPart p fun v => { v with accounts := v.accounts.map fun e => (e.1, {}) }))
    | 1 => .both (answer f 0 0 (slotAccounts s p))
        (Plan.when clear (Plan.each (List.range 8) fun st => modStack st fun k => { k with acct := k.acct.filter fun e => e.1 / 128 != p }))
    | _ => .both (answer f 0 0 (placementBytes s p)) (Plan.when clear (modPart p fun v => { v with placement := [] }))

/-! ## REPAIR (R407, R408) -/

/-- The numbers of a class. -/
def resourceCount (cls : Nat) : Nat :=
  match cls with
  | 1 => 1024
  | 2 => 2048
  | 3 => 18432
  | 4 => 80
  | 5 => 8
  | 6 => 8
  | _ => 0

/-- A REPAIR of a resource that exists. -/
def repairCmd (act : State → Nat → Nat → Frame → Plan) (f : Frame) : Plan :=
  opCmd f fun s => if fieldAt f.body 2 2 < resourceCount (fieldAt f.body 0 1) then act s (fieldAt f.body 0 1) (fieldAt f.body 2 2) f else refuseCmd f stBadCommand

def bucketWord (b : Bucket) : Nat := b.total % 2 ^ 32 * 2 ^ 32 + b.state % 4 * 2 ^ 30 + b.level % 2 ^ 16

def execRepairRead : State → Host.Outcome State Fault Refusal := command (repairCmd fun s c n f => answer f 0 0 (natBytes 8 (bucketWord (s.bucket c n))))

def execRepairForceLasting : State → Host.Outcome State Fault Refusal :=
  command (repairCmd fun s c n f =>
    .both
      (if c = 6 then (if (s.bucket 6 n).state = 0 then towerLasting n else Plan.when (!(s.tower n).removed) (removeTower n))
       else if c = 1 ∧ (s.bucket 1 n).state = 3 then removeArray (n / 16)
       else Plan.when ((s.bucket c n).state == 0) (becomeLasting c n))
      (acceptCmd f))

def execRepairClearLevel : State → Host.Outcome State Fault Refusal :=
  command (repairCmd fun _ c n f => .both (modBucket c n fun b => if b.state = 0 then { b with level := 0 } else b) (acceptCmd f))

/-! ## POWER, THERM, RESET -/

def execPowerRingTotal : State → Host.Outcome State Fault Refusal :=
  command fun f => opCmd f fun s =>
    let units := fieldAt f.body 4 4
    if 5400 < allotted s (fun v => (v.sa.map fun e => e.2).foldl (· + ·) 0) + units then refuseCmd f stNoSpace
    else .both (setRing units (min s.mod.ringLess units)) (acceptCmd f)

def execPowerGate : State → Host.Outcome State Fault Refusal :=
  command fun f => opCmd f fun s =>
    let a := fieldAt f.body 1 1
    if (s.arr a).gate = .up then .both (beginGate a) (acceptCmd f) else refuseCmd f stBusy

def execPowerUngate : State → Host.Outcome State Fault Refusal :=
  command fun f => opCmd f fun s =>
    let a := fieldAt f.body 1 1
    .both (match (s.arr a).gate with
      | .gated => atTick s.now rankEnd (some (towerOf a)) { arr := a } (.instr .arrayUngate)
      | .gating => modArr a fun v => { v with ungateAfter := true }
      | _ => .skip) (acceptCmd f)

/-- A signed 16-bit number as two bytes. -/
def intBytes (v : Int) : List Byte := natBytes 2 (v % 65536).toNat

def thermBody (s : State) : List Byte :=
  intBytes s.mod.intake ++ natBytes 2 0
    ++ ((List.range 8).flatMap fun t => ((List.range 28).flatMap fun i => intBytes (smGet 0 s.mod.sensors (t * 28 + i))) ++ natBytes 1 (s.tower t).trip ++ natBytes 7 0)
    ++ natBytes 4 (s.mod.ringTotal - s.mod.ringLess)

def execTherm : State → Host.Outcome State Fault Refusal := command fun f => .get fun s => answer f 0 0 (thermBody s)

/-- RESET: the module as after power-on; every state is lost (R400, R416). -/
def execReset : State → Host.Outcome State Fault Refusal :=
  command fun f => if f.princ ≠ 0 then refuseCmd f stDenied else .both (acceptCmd f) (.edit (.lose true))

end Sys2Proof.Machine
end

