-- ==== Sys2Proof/Machine/Issue.lean ====
section
/-! DEFINITION. The selector and the wavefront: what a context's next bundle is (R44-R48), its stalls and checks (R33, R78), the choice (R34-R38), the issue of a
bundle, the rows (R30, R31, R148), re-injection (R372), and the slice-rail targets (R199). -/

namespace Sys2Proof.Machine

/-! ## What a bundle asks for -/

/-- The guard of a slot (R52, R53). -/
def slotGuard (sl : Slot) (b : BitVec 384) : Guard :=
  let w := slotWord sl b
  match sl with
  | .q => let f := qFields (BitVec.ofNat 64 w); .ofBits f.gn f.gq
  | .a => let f := aFields (BitVec.ofNat 96 w); .ofBits f.gn f.gp
  | .m => let f := mFields (BitVec.ofNat 64 w); .ofBits f.gn f.gp
  | .t => let f := tFields (BitVec.ofNat 64 w); .ofBits f.gn f.gp
  | .e => let f := eFields (BitVec.ofNat 64 w); .ofBits f.gn f.gq

/-! ## Stalls (R33) and checks (R78) -/

def orElse {α : Type} : List (Option α) → Option α
  | [] => none
  | some a :: _ => some a
  | none :: rest => orElse rest

def instrStall (i : Instr) (s : State) : Option StallCause :=
  match i with
  | .waitB _ xa => waitBStall xa s
  | .pwrAcq _ level _ => acqStall level s
  | i => orElse [mStall i s, tStall i s, objectsStall i s, streamsStall i s, copiesStall i s, hbmStall i s, fabricStall i s]

def instrCheck (i : Instr) (s : State) : Option Chk :=
  match i with
  | .waitB _ xa => waitBCheck xa s
  | .pwrAcq _ level _ => acqCheck level s
  | .call .. | .callX .. => callCheck s
  | .ret _ => retCheck s
  | .loop _ k _ => loopCheck k s
  | .lidxSet _ k xa xb => lidxSetCheck k xa xb s
  | .flagRd _ _ _ _ d => flagCheck d s
  | i => orElse [mIssueCheck i s, tIssueCheck i s, objectsCheck i s, streamsCheck i s, copiesCheck i s, hbmCheck i s, fabricCheck i s]

/-- The queue positions an instruction reserves as it fires: word, input or output, number; none on a word that is not fit for it. -/
def queueUse (i : Instr) (s : State) : List (Nat × Bool × Nat) :=
  match i with
  | .ldq _ _ k => if qwKind (s.me.qword k.toNat s.site.n) == 1 && s.fit k.toNat then [(k.toNat, true, 1)] else []
  | .stq _ k _ => if qwKind (s.me.qword k.toNat s.site.n) == 2 && s.fit k.toNat then [(k.toNat, false, 1)] else []
  | .mmPs8 o | .mmI8 o | .mmBf16 o => if !o.walk && passWordOk s o.qw.toNat then [(o.qw.toNat, true, passCount s (cntOf o.cnt))] else []
  | .mmd _ cnt qw _ => if passWordOk s qw.toNat then [(qw.toNat, true, passCount s (cntOf cnt))] else []
  | .lrow _ k _ _ => if loaderWordOk s k.toNat 1 then [(k.toNat, false, 1)] else []
  | .srow _ k _ _ => if loaderWordOk s k.toNat 2 then [(k.toNat, true, 1)] else []
  | .gather _ j n | .scatter _ j n =>
    let w := (s.strm j).word
    let out := match i with
      | .gather .. => true
      | _ => false
    if stValid w && streamWordsOk s w then
      (stDq w, !out, n.toNat + 1) :: (if stStrided w then [] else [(stIq w, true, n.toNat + 1)])
    else []
  | .atomAdd o | .atomMin o | .atomMax o | .atomAnd o | .atomOr o | .atomXor o | .atomSwap o | .atomCas o =>
    if o.fetch && (atomCheck o s).isNone then [(o.k.toNat, false, 1)] else []
  | .copy _ k n | .tierPf _ k n | .msgSend _ k n => if copyWordOk s k then [(k.toNat, true, n.toNat + 1)] else []
  | .mpRun _ xa rq nrd wq nwr =>
    if (mpCheck xa rq nrd wq nwr s).isNone then
      (if nrd = 0 then [] else [(rq.toNat, false, nrd.toNat)]) ++ if nwr = 0 then [] else [(wq.toNat, true, nwr.toNat)]
    else []
  | _ => []

/-- Operations of one bundle that use one word need what they need together. -/
def sharedStall (s : State) (is : List Instr) : Option StallCause :=
  let uses := is.flatMap fun i => queueUse i s
  let short := fun (k : Nat) (inp : Bool) =>
    let n := ((uses.filter fun u => u.1 == k && u.2.1 == inp).map fun u => u.2.2).foldl (· + ·) 0
    let q := s.me.qwState k
    if inp then decide (q.fill < n) else decide (q.room < n)
  if uses.any fun u => short u.1 u.2.1 then some .queue else none

/-- The order of R33's table. -/
def StallCause.rank : StallCause → Nat
  | .rail => 0
  | .power => 1
  | .exchange => 2
  | .barrier => 3
  | .queue => 4

/-- The number of a cause in COUNTERS (R404). -/
def StallCause.account : StallCause → Nat
  | .queue => 0
  | .barrier => 1
  | .power => 2
  | .exchange => 3
  | .rail => 4

/-- The cause in the first matching row. -/
def worst (cs : List StallCause) : Option StallCause :=
  cs.foldl (fun b c => match b with
    | none => some c
    | some d => if c.rank < d.rank then some c else some d) none

/-- Where a context stands at a tick: it is not looked at, it is Stalled, its position or bundle faults when it is selected, or it is Ready with a bundle. -/
inductive Standing where
  | out
  | stalled (c : StallCause)
  | faults (code sub addr : Nat) (wide : Bool)
  | ready (b : BitVec 384) (next : Nat)
  deriving DecidableEq, Repr

/-- The site of the slots of a bundle as it issues. -/
def issueSite (s : State) (a k uid : Nat) (b : BitVec 384) : Site :=
  let c := s.ctx a k
  { issue := true, picked := true, arr := a, ctx := k, n := c.ctime, pos := c.pc, cols := (headerOf b).colsel, wave := uid, a := c.tid }

/-- The state in which a context's next bundle is looked at: its pending writes for it landed. -/
def viewOf (s : State) (a k : Nat) (b : BitVec 384) : State :=
  let c := s.ctx a k
  { s with ctxs := smSet s.ctxs (ctxKey a k) (c.landPend c.ctime), site := issueSite s a k 0 b }

/-- The instructions of a bundle that take part in its stalls and checks: a Q or E slot only with its guard true (R53). -/
def takingPart (v : State) (b : BitVec 384) : List Instr :=
  ((instrsOf b).filter fun (sl, _) => !(sl == .q || sl == .e) || v.guardQ (slotGuard sl b)).map (·.2)

/-- A context is looked at while it runs a task and has raised no fault at an earlier tick (R33, R360). -/
def bound (s : State) (c : Ctx) : Bool :=
  (c.state == .ready || c.state == .stalled) && !c.upper && (!c.killed || c.killedAt == s.now) && (!c.faulted || c.faultAt == s.now)

def standing (s : State) (a k : Nat) : Standing :=
  let c := s.ctx a k
  if !bound s c then .out
  else
    match fetchBundle s a k with
    | .bad code sub addr wide => if c.saved.isSome then .stalled .power else .faults code sub addr wide
    | .found b next =>
      let v := viewOf s a k b
      let is := takingPart v b
      let causes := is.filterMap (fun i => instrStall i v) ++ (sharedStall v is).toList ++ (if c.saved.isSome then [.power] else [])
      match worst causes with
      | some cause => .stalled cause
      | none =>
        match orElse (is.map fun i => instrCheck i v) with
        | some f => .faults f.code f.sub f.addr false
        | none => .ready b next

/-! ## Chains (R38) -/

def Standing.isReady : Standing → Bool
  | .ready .. | .faults .. => true
  | _ => false

/-- Where a context stands with its partner's standing: Stalled if the partner is, with its cause; Ready only if both are. -/
def standingPaired (s : State) (a k : Nat) : Standing :=
  let mine := standing s a k
  match chainMate s a k with
  | none => mine
  | some (b, j) =>
    match mine, standing s b j with
    | .stalled c, _ => .stalled c
    | .out, _ => .out
    | _, .stalled c => .stalled c
    | _, .out => .out
    | m, _ => m

/-- The wait count R34 goes by: of a pair, the larger. -/
def waitOf (s : State) (a k : Nat) : Nat :=
  match chainMate s a k with
  | some (b, j) => max (s.ctx a k).wait (s.ctx b j).wait
  | none => (s.ctx a k).wait

/-! ## The choice (R34) -/

/-- Rule 1: the largest wait count of 12 or more, ties to the lower context. -/
def chooseWaiting (w : Nat → Nat) (ks : List Nat) : Option Nat :=
  (ks.filter fun k => decide (12 ≤ w k)).foldl (fun b k => match b with
    | none => some k
    | some j => if w j < w k then some k else some j) none

/-- Rule 2: the first Ready context of the highest class after the last of that class to issue. -/
def chooseByClass (s : State) (a : Nat) (ks : List Nat) : Option Nat :=
  let cls := fun k => classOf (s.ctx a k).prio
  let top := (ks.map cls).foldl max 0
  let last := smGet 3 (s.arr a).lastOf top
  ((List.range 4).map fun i => (last + 1 + i) % 4).find? fun k => ks.contains k && cls k == top

/-- The selector's choice among some contexts, and whether rule 1 made it. -/
def choose (s : State) (a : Nat) (ks : List Nat) : Option (Nat × Bool) :=
  match chooseWaiting (waitOf s a) ks with
  | some k => some (k, true)
  | none => (chooseByClass s a ks).map fun k => (k, false)

/-- The contexts a selector chooses among: the Ready ones, without those that yielded unless no other is Ready (R81). -/
def candidates (s : State) (a : Nat) : List Nat :=
  let ready := (List.range 4).filter fun k => (standingPaired s a k).isReady
  let rest := ready.filter fun k => !(s.ctx a k).yielded
  if rest.isEmpty then ready else rest

/-- The partner's number on the other array, if it is there to be chosen. -/
def mateIn (s : State) (a k : Nat) (ks : List Nat) : Option Nat :=
  match chainMate s a k with
  | some (_, j) => if ks.contains j then some j else none
  | none => none

/-- When rule 1 chooses a pair in array `a`, array `b` chooses it too unless it has a Ready context with a larger wait count (R38). -/
def couple (s : State) (a b : Nat) (ca cb : Option (Nat × Bool)) (kb : List Nat) : Option (Nat × Bool) :=
  match ca with
  | some (k, true) =>
    match mateIn s a k kb with
    | some j => if kb.any fun i => decide (waitOf s a k < waitOf s b i) then cb else some (j, true)
    | none => cb
  | _ => cb

/-- The pair a selector chooses that the other selector does not choose: its context there and its partner's. -/
def lonePair (s : State) (a : Nat) (c other : Option (Nat × Bool)) : Option (Nat × Nat) :=
  match c with
  | none => none
  | some (k, _) =>
    match chainMate s a k with
    | some (_, j) => if other.map (·.1) == some j then none else some (k, j)
    | none => none

/-- The choices of the two selectors of a chained pair of arrays: a pair issues only if both choose it; one chosen by one alone is left out and its array
chooses again. The fuel is the number of pairs that can be left out. -/
def chooseTwo (s : State) (a b : Nat) : Nat → List Nat → List Nat → Option Nat × Option Nat
  | 0, _, _ => (none, none)
  | fuel + 1, ka, kb =>
    let ca := choose s a ka
    let cb := couple s a b ca (choose s b kb) kb
    let ca := couple s b a cb ca ka
    match lonePair s a ca cb, lonePair s b cb ca with
    | none, none => (ca.map (·.1), cb.map (·.1))
    | la, lb =>
      let outA := (la.map (·.1)).toList ++ (lb.map (·.2)).toList
      let outB := (la.map (·.2)).toList ++ (lb.map (·.1)).toList
      chooseTwo s a b fuel (ka.filter fun k => !outA.contains k) (kb.filter fun k => !outB.contains k)

/-! ## Ticks on which an array issues nothing of its own -/

/-- The context of the lower array whose gang bundle enters an upper array at this tick (R37). -/
def gangEntry (s : State) (a : Nat) : Option Nat :=
  if a % 8 < 4 then none
  else
    let v := s.arr (a - 4)
    (v.waves.find? fun w => w.h == 32 && !v.again.contains w.uid && w.tick + 16 == s.ttick (towerOf a)).map (·.ctx)

/-- A re-injected bundle enters row 0 at this tick (R372). -/
def reEntry (s : State) (a : Nat) : Option Nat :=
  ((s.arr a).waves.find? fun w => w.again && !(s.arr a).again.contains w.uid && w.tick == s.ttick (towerOf a)).map (·.ctx)

/-- Window entries of an array are still to go in again at this tick: no context of it can issue (R372). -/
def reentering (s : State) (a : Nat) : Bool := !(s.arr a).again.isEmpty || decide (s.ttick (towerOf a) < (s.arr a).resumeAt.getD 0)

/-- Whether an array's sequencer may issue at this tick: before T_a, from T_r + NWIN, off a gang's ticks, with its rails up. -/
def mayIssue (s : State) (a : Nat) : Bool :=
  let v := s.arr a
  v.ta.isNone && !reentering s a && (gangEntry s a).isNone && v.owner.isSome && v.gate != .gated

/-- The choices at this tick of an array, or of the two arrays of a chain: array, context. -/
def choices (s : State) (a : Nat) (chained : Bool) : List (Nat × Nat) :=
  let ka := if mayIssue s a then candidates s a else []
  let kb := if mayIssue s (a + 1) then candidates s (a + 1) else []
  if chained then
    let (x, y) := chooseTwo s a (a + 1) 8 ka kb
    (x.map fun k => (a, k)).toList ++ (y.map fun k => (a + 1, k)).toList
  else ((choose s a ka).map fun (k, _) => (a, k)).toList

/-! ## Booking (R43, R355) -/

/-- A tick of array `a` booked to the account and the PHASE of context `k`, of the array that runs its stream. -/
def bookTick (a k : Nat) (busy : Bool) : Plan :=
  .get fun s =>
    let b := streamArr s a k
    let c := s.ctx b k
    let key := a * 256 + c.phase.toNat
    .both (modAccount c.part c.tag.toNat fun x => if busy then { x with busy := x.busy + 1 } else { x with idle := x.idle + 1 })
      (modPart c.part fun v =>
        let (on, off) := smGet (0, 0) v.placement key
        { v with placement := smSet v.placement key (if busy then (on + 1, off) else (on, off + 1)) })

/-- What a tick of an array is booked to when its own sequencer issued nothing: that of a gang's bundle, or the context that issued last (R355). A tick on which no context has
issued since its partition was made is booked nowhere (DESIGN CHOICE, log 21: R355 names no entry for it). -/
def bookRest (a : Nat) : Plan :=
  .get fun s =>
    match gangEntry s a, reEntry s a, (s.arr a).lastCtx with
    | some k, _, _ => .both (modArr a fun v => { v with lastCtx := some k }) (bookTick a k true)
    | none, some _, _ => .skip
    | none, none, some k => bookTick a k false
    | none, none, none => .skip

/-! ## The issue of a bundle -/

/-- The queue words an A, M or T slot names (R233). -/
def namedWords (i : Instr) : List Nat :=
  match i with
  | .ldq _ _ k | .stq _ k _ | .qpeek _ _ k _ | .qpeekN _ _ k => [k.toNat]
  | .mmPs8 o | .mmI8 o | .mmBf16 o => if o.walk then [] else [o.qw.toNat]
  | .mmd _ _ qw _ => [qw.toNat]
  | i => match narrowOfInstr i with
    | some n => [n.q]
    | none => []

/-- A row of a wavefront acts `k` ticks on, in order of issue among the rows of that tick. -/
def rowAt (k : Nat) (x : Site) : Plan :=
  .get fun s =>
    .edit (.due (insertDue { tick := s.now + k, rank := rankRow, ord := x.wave, dom := some (towerOf x.arr), site := x, act := .instr .rowExecute } s.due))

/-- The row mask of a bundle as it issues (R31, R50). -/
def rowMask (s : State) (a : Nat) (c : Ctx) (h : HF) : BitVec 32 :=
  let raw : BitVec 32 :=
    if h.rowsrc = 16 then BitVec.allOnes 32
    else if h.rowsrc = 17 then (if (s.arr a).rv.1 = s.ttick (towerOf a) then (s.arr a).rv.2 else 0)
    else c.wreg (h.rowsrc.setWidth 4)
  if h.rinv = 1 then ~~~raw else raw

/-- A bundle that ends its task unless its guard is false: its other slots act first, since the bundle issues in full (R81). -/
def endsTask (is : List (Slot × Instr)) : Bool := is.any fun (sl, i) => sl == .q && match i with
  | .taskEnd _ => true
  | _ => false

/-- A bundle issues: bundle n of its context (R32). Its Q slot acts first, then the issue parts of the others; row 0 executes at this tick. A next position of 2^16
stands beside PC as a wide position and faults where it would issue (R47, log 21). -/
def issueBundle (a k : Nat) (b : BitVec 384) (next : Nat) : Plan :=
  .get fun s => withUid fun uid =>
    let c0 := s.ctx a k
    let n := c0.ctime
    let c := c0.landPend n
    let h := headerOf b
    let u := s.ttick (towerOf a)
    let site := issueSite s a k uid b
    let is := instrsOf b
    let words := (is.filter fun (sl, _) => sl == .a || sl == .m || sl == .t).flatMap fun (_, i) => namedWords i
    let acts : List Slot → List (Site × Act) := fun sls => (is.filter fun (sl, _) => sls.contains sl).map fun (sl, _) => (site, Act.slot sl (slotWord sl b))
    Plan.all
      [ .edit (.ctx (ctxKey a k)
          { c with pc := min next 0xFFFF, widePc := if next < 2 ^ 16 then 0 else next, ctime := n + 1, state := .ready, wait := 0, lastIssue := u, issued := true,
                   ring := smSet c.ring (n % 64) (List.replicate 8 {}) }),
        modArr a (fun v =>
          { v with waves := v.waves ++ [{ uid, ctx := k, tid := c.tid, n, bundle := b, mask := rowMask s a c h, pos := c.pc, h := c.h, tick := u }],
                   lastOf := smSet v.lastOf (classOf c.prio) k, lastCtx := some k }),
        modAccount c.part c.tag.toNat (fun x => { x with bundles := x.bundles + 1 }),
        bookTick a k true,
        rowAt 0 { arr := a, ctx := k, n, pos := c.pc, cols := h.colsel, wave := uid, a := c.tid },
        pushFront ((if endsTask is then acts [.m, .t, .e] ++ acts [.q] else acts [.q] ++ acts [.m, .t, .e]) ++ [(site, .micro (.issued words (h.sstep == 1 && c.dbg.getLsbD 1)))]) ]

/-- After the slots of a bundle have acted at issue: the words its A, M and T slots named are in use from this tick (R233), and SSTEP faults (R50). A bundle with SSTEP = 1 that
ends its task faults like any other, though no bundle follows it (DESIGN CHOICE, log 21). -/
def issuedPlan (words : List Nat) (sstep : Bool) : Plan :=
  .get fun s =>
    .both (Plan.each words.eraseDups fun q => modMyQ q fun w => { w with used := some s.tick }) (Plan.when sstep (ctxFault 0x07 1 noAddr false))

/-- The uncorrectable lines of the objects a context's next bundle waits for count as events of their banks (R228). -/
def waitLost (a k : Nat) : Plan :=
  .get fun s =>
    match fetchBundle s a k with
    | .bad .. => .skip
    | .found b _ =>
      let v := viewOf s a k b
      Plan.each (takingPart v b) fun i =>
        match i with
        | .waitB _ xa => Plan.when ((waitBCheck xa v).any fun f => f.code == 0x44) (lineLost 2 (v.myWin (v.x xa).toNat / 64))
        | _ => .skip

/-- A chosen context whose position or bundle faults (R47, R78, R228). -/
def issueFault (a k code sub addr : Nat) (wide : Bool) : Plan :=
  .get fun s =>
    let c := s.ctx a k
    .both (Plan.when (code == 0x44) (waitLost a k)) <| raiseFault a k { kind := issueKind code sub, unit := a, ctx := k, code, sub, addr, before := true, wide, seq := c.ctime, pos := c.pc }

/-! ## Slice-rail targets (R199, R200) -/

/-- The slice of a bundle's pass, if it has one: the pair of levels it needs. -/
def bundleRail (s : State) (a k : Nat) : Option (Nat × Nat) :=
  match fetchBundle s a k with
  | .found b _ => orElse ((instrsOf b).map fun (_, i) => tRail i (viewOf s a k b))
  | .bad .. => none

/-- Stalled for a rail by its own bundle. -/
def waitsRail (s : State) (a k : Nat) : Bool := standing s a k == .stalled .rail

/-- The contexts of a domain's array and of the gangs that span it whose bundles wait on a rail. -/
def railWaits (s : State) (d : Nat) : List (Nat × Nat) :=
  let own := ((List.range 4).filter fun k => waitsRail s d k).map fun k => (d, k)
  let gang := if d % 8 < 4 then []
    else ((List.range 4).filter fun k =>
      let c := s.ctx (d - 4) k
      c.h == 32 && !(c.issued && c.lastIssue == s.ttick (towerOf d)) && waitsRail s (d - 4) k).map fun k => (d - 4, k)
  (own ++ gang).filterMap fun (a, k) => bundleRail s a k

/-- The requirements of the passes of a domain that have fired and have products to form. -/
def railFired (s : State) (d : Nat) : List (Nat × Nat) :=
  let u := s.ttick (towerOf d)
  let live := fun (v : Arr) => v.passes.filter fun p => !p.formed u
  let gang := if d % 8 < 4 then [] else (live (s.arr (d - 4))).filter fun p => p.h == 32
  (live (s.arr d) ++ gang).map fun p => (p.ls1, p.ls2)

/-- A rail with a target: a fall is at once, a rise takes some ticks (log 4). `done` is the tick at which a rise would end. -/
def Rail.aim (r : Rail) (target done : Nat) : Rail :=
  if target = r.target then r
  else if r.level ≤ target then { level := target, target, moving := none }
  else { r with target, moving := some done }

/-- The levels the requirements of a domain ask for, or none. -/
def railTarget (reqs : List Nat) : Option Nat := if reqs.isEmpty then none else some (reqs.foldl min 3)

def aimRails (d : Nat) (reqs : List (Nat × Nat)) : Plan :=
  Plan.each [1, 2] fun sl => .get fun s =>
    let r := if sl = 1 then (s.arr d).ls1 else (s.arr d).ls2
    match railTarget (reqs.map fun q => if sl = 1 then q.1 else q.2) with
    | none => .skip
    | some t =>
      if t = r.target then .skip
      else withFree 25000 fun w =>
        let r' := r.aim t (s.now + w)
        .both (modArr d fun v => if sl = 1 then { v with ls1 := r' } else { v with ls2 := r' })
          (Plan.when r'.moving.isSome (atTick (s.now + w) rankEvent none { arr := d, b := sl, c := s.now + w } (.instr .sliceRailSettle)))

/-! ## ISSUE_SELECT -/

/-- What a tick does to a context that is looked at and does not issue: its state, its wait count, its stall tick. A tick before T_r + NWIN counts for no wait (R35, R372). -/
def waitTick (a k : Nat) (st : Standing) : Plan :=
  .get fun s =>
    match st with
    | .out => modCtx a k fun c => { c with wait := 0 }
    | .stalled cause =>
      .both (modCtx a k fun c => { c with state := .stalled, wait := 0, rstall := if cause = .rail then sat32 (c.rstall + 1) else c.rstall })
        (modAccount (s.ctx a k).part (s.ctx a k).tag.toNat fun x => { x with stalls := smSet x.stalls cause.account (smGet 0 x.stalls cause.account + 1) })
    | _ =>
      let later := reentering s a || (chainMate s a k).any fun m => reentering s m.1
      modCtx a k fun c => { c with state := .ready, wait := if later then 0 else if (gangEntry s a).isSome then c.wait else c.wait + 1 }

/-- A waiting `pwr.acq` files its request; a waiting `xch.go` reports its readiness (R378, R391). -/
def fileWaits (a k : Nat) : Plan :=
  .get fun s =>
    if !bound s (s.ctx a k) then .skip
    else
      match fetchBundle s a k with
      | .bad .. => .skip
      | .found b _ =>
        let v := viewOf s a k b
        Plan.each (takingPart v b) fun i =>
          match i with
          | .pwrAcq _ level lease => Plan.when ((acqStall level v).isSome) (fileAcq a k level lease)
          | .xchGo _ q xa n => Plan.when ((xchStall q xa n v).isSome) (fileXch a k q (v.x xa) n.toNat)
          | _ => .skip

/-- Array `a` has a context of a chain, whose two arrays choose together. -/
def chainedAt (s : State) (a : Nat) : Bool := a % 2 == 0 && (List.range 4).any fun k => (s.ctx a k).role == 2 && (chainMate s a k).isSome

/-- What the chosen contexts of a tick do: they issue, but where one of a pair faults its partner does not issue. The slots of the upstream member act first. -/
def takeChoices (s : State) (cs : List (Nat × Nat)) : Plan :=
  Plan.each cs.reverse fun (a, k) =>
    let mateFaults := match chainMate s a k with
      | some (b, j) => match standing s b j with
        | .faults .. => true
        | _ => false
      | none => false
    match standing s a k with
    | .faults code sub addr wide => issueFault a k code sub addr wide
    | .ready b next => Plan.when (!mateFaults) (issueBundle a k b next)
    | _ => .skip

/-- ISSUE_SELECT (R33, R34): the selector of array `site.arr` at one tick; that of an upstream array of a chain chooses for the downstream one too, which then has chosen for
the tick (R15). A gated array issues nothing, and its ticks are booked all the same (R355). -/
def execIssueSelect : State → Host.Outcome State Fault Refusal :=
  (Plan.get fun s =>
    let a := s.site.arr
    let led := a % 2 == 1 && chainedAt s (a - 1) && (s.arr (a - 1)).owner == (s.arr a).owner
    let chained := chainedAt s a
    let idle := led || (s.arr a).chose == some (s.ttick (towerOf a))
    let arrs := if idle then [] else if chained then [a, a + 1] else [a]
    let all := arrs.flatMap fun b => (List.range 4).map fun k => (b, k)
    let st := all.map fun (b, k) => (b, k, standingPaired s b k)
    let cs := if idle then [] else choices s a chained
    let issues := cs.filter fun (b, k) => match standing s b k with
      | .ready .. => (match chainMate s b k with
        | some (b', j) => (match standing s b' j with
          | .faults .. => false
          | _ => true)
        | none => true)
      | _ => false
    let rails := arrs.map fun d => (d, railWaits s d ++ (issues.filter fun e => e.1 == d).filterMap fun (b, k) => bundleRail s b k)
    Plan.when (s.arr a).owner.isSome <| Plan.all
      [ Plan.each arrs (fun b => modArr b fun v => { v with chose := some (s.ttick (towerOf b)) }),
        Plan.each all (fun (b, k) => Plan.when (s.ctx b k).yielded (modCtx b k fun c => { c with yielded := false })),
        Plan.each (st.filter fun (b, k, _) => !cs.contains (b, k) && (s.ctx b k).state != .free && !(s.ctx b k).upper) (fun (b, k, x) => waitTick b k x),
        Plan.each all (fun (b, k) => fileWaits b k),
        Plan.each rails (fun (d, reqs) => aimRails d (railFired s d ++ reqs)),
        Plan.each (arrs.filter fun b => !issues.any fun e => e.1 == b) bookRest,
        Plan.each (s.arr a).owner.toList reportQuiet,
        selectAt 1 a,
        takeChoices s cs ]).step

/-! ## ROW_EXECUTE (R30, R31, R148) -/

/-- The failing checks of a bundle in one cell: the A slot's, the M slot's, the T slot's. A `stq` is not checked where its list lacks room for the strays alone (R158). -/
def cellChecks (s : State) (b : BitVec 384) (col : Nat) : List Chk :=
  let is := instrsOf b
  let here := fun (sl : Slot) => if s.guardP (slotGuard sl b) col then (is.find? fun e => e.1 == sl).map (·.2) else none
  let nar := (here .a).bind narrowOfInstr
  let aFail := nar.bind fun n => n.check s col
  let extra := fun q => match nar with
    | some n => if n.q = q then n.strays s col else 0
    | none => 0
  let mFail := (here .m).bind fun i =>
    match i with
    | .stq _ k _ => if aFail.any (fun f => f.code == 0x13) && nar.map (·.q) = some k.toNat then none else mCellCheck i extra s col
    | i => mCellCheck i extra s col
  let tFail := (here .t).bind fun i => tCellCheck i s col
  aFail.toList ++ mFail.toList ++ tFail.toList

/-- The aggregates of a bundle with the selected cells of one row added (R86). -/
def addFlags (s : State) (row : List FlagAgg) : List FlagAgg :=
  (List.range 8).map fun k => (row.getD k {}).add (s.selCols.map fun c => (s.here c).p.getLsbD k)

/-- The late writes of a context that bundle `n` reads land in the cells of one row (R98, R99). -/
def landRow : Plan :=
  .get fun s => Plan.each (List.range 16) fun c =>
    Plan.when ((s.here c).lwb.any fun e => decide (e.due ≤ s.site.n)) (modHere c fun b => b.landLate s.site.n)

def modWave (a uid : Nat) (f : Wave → Wave) : Plan := modArr a fun v => { v with waves := v.waves.map fun w => if w.uid == uid then f w else w }

/-- A row executes a bundle: no check fails, or the row faults and executes none of it. -/
def rowBody (w : Wave) (x : Site) : Plan :=
  Plan.all
    [ .edit (.site x), landRow,
      .get fun s =>
        match s.selCols.flatMap fun c => (cellChecks s w.bundle c).map fun f => (c, f) with
        | (c, f) :: rest =>
          .both (rowFault f.code f.sub f.addr (cellOf x.arr x.row c))
            (Plan.each rest fun (c, f) => suppressFault s.me.part { kind := 2, unit := x.arr, ctx := x.ctx, code := f.code, sub := f.sub, cell := cellOf x.arr x.row c })
        | [] =>
          Plan.all
            [ modCtx x.arr x.ctx (fun c => { c with passed := smSet c.passed x.row (x.n + 1) }),
              modMe fun c => { c with ring := smSet c.ring (x.n % 64) (addFlags s (smGet [] c.ring (x.n % 64))) },
              modWave x.arr w.uid fun v => { v with done := v.done ||| (1#32 <<< x.row) },
              pushFront (((instrsOf w.bundle).filter fun (sl, _) => sl == .a || sl == .m || sl == .t).map fun (sl, _) => (x, .slot sl (slotWord sl w.bundle))) ] ]

/-- The last row has had its turn: a wavefront that has passed every row is gone. -/
def retireWave (a uid : Nat) : Plan :=
  modArr a fun v => { v with waves := v.waves.filter fun w => !(w.uid == uid && (List.range w.h).all fun r => w.done.getLsbD r) }

/-- ROW_EXECUTE: row `site.row` of the array of the wavefront `site.wave`. -/
def execRowExecute : State → Host.Outcome State Fault Refusal :=
  (Plan.get fun s =>
    let x := s.site
    let v := s.arr x.arr
    match v.waves.find? fun w => w.uid == x.wave with
    | none => .skip
    | some w =>
      let stopped := match v.ta with
        | some t => decide (t + 6 ≤ s.tick)
        | none => false
      if stopped then .skip
      else
        Plan.all
          [ (if w.done.getLsbD x.row then .skip
             else if v.blocked.contains (x.ctx, x.row) then modWave x.arr w.uid fun w => { w with blk := true }
             else rowBody w { x with rowOn := w.mask.getLsbD x.row, qpos := w.qpos }),
            (if x.row + 1 < w.h then rowAt 1 { x with row := x.row + 1 } else retireWave x.arr w.uid) ]).step

/-! ## REINJECT (R372) -/

/-- A window entry enters row 0 again; a queue position it reserved for its whole array moves its pointer when it has gone through (R159). -/
def reenter (a : Nat) (w : Wave) : Plan :=
  .get fun s =>
    let x : Site := { arr := a, ctx := w.ctx, n := w.n, pos := w.pos, cols := (headerOf w.bundle).colsel, wave := w.uid, qpos := w.qpos, a := w.tid }
    Plan.all
      [ modArr a (fun v => { v with waves := v.waves.map (fun e => if e.uid == w.uid then { e with tick := s.ttick (towerOf a) } else e), lastCtx := some w.ctx }),
        bookTick a w.ctx true, rowAt 0 x,
        (match w.qres with
         | some (k, stamp, prod) => afterAt (w.h + (if prod then 2 else 1)) rankPointer x (.micro (.word k stamp prod 1 (some w.uid)))
         | none => .skip) ]

/-- REINJECT: the next window entry of array `site.arr` goes in again, one per tick, in the recorded order. -/
def execReinject : State → Host.Outcome State Fault Refusal :=
  (Plan.get fun s =>
    let a := s.site.arr
    let v := s.arr a
    Plan.when v.ta.isNone <|
      match v.again with
      | [] => .skip
      | uid :: rest =>
        Plan.all
          [ modArr a (fun v => { v with again := rest }),
            (match v.waves.find? fun w => w.uid == uid with
             | some w => reenter a w
             | none => .skip),
            Plan.when (!rest.isEmpty) (afterAt 1 rankIssue s.site (.instr .reinject)) ]).step

end Sys2Proof.Machine
end

