-- ==== Sys2Proof/Machine/Dispatch.lean ====
section
/-! DEFINITION. One arm per constructor of Instr, each a direct call of that instruction's meaning. -/

namespace Sys2Proof.Machine

def exec (i : Instr) (s : State) : Host.Outcome State Fault Refusal :=
  match i with
  | .br g target => Sys2Proof.Machine.execBr g target s
  | .brX g xa => Sys2Proof.Machine.execBrX g xa s
  | .call g target => Sys2Proof.Machine.execCall g target s
  | .callX g xa => Sys2Proof.Machine.execCallX g xa s
  | .ret g => Sys2Proof.Machine.execRet g s
  | .loop g k target => Sys2Proof.Machine.execLoop g k target s
  | .lbrk g k target => Sys2Proof.Machine.execLbrk g k target s
  | .lidx g xd k f => Sys2Proof.Machine.execLidx g xd k f s
  | .lidxSet g k xa xb => Sys2Proof.Machine.execLidxSet g k xa xb s
  | .yield g => Sys2Proof.Machine.execYield g s
  | .taskEnd g => Sys2Proof.Machine.execTaskEnd g s
  | .trap g n => Sys2Proof.Machine.execTrap g n s
  | .brk g => Sys2Proof.Machine.execBrk g s
  | .mark g n => Sys2Proof.Machine.execMark g n s
  | .qAdd o => Sys2Proof.Machine.execQAdd o s
  | .qAddi o => Sys2Proof.Machine.execQAddi o s
  | .qSub o => Sys2Proof.Machine.execQSub o s
  | .qMul o => Sys2Proof.Machine.execQMul o s
  | .qMulh o => Sys2Proof.Machine.execQMulh o s
  | .qMulhu o => Sys2Proof.Machine.execQMulhu o s
  | .qAnd o => Sys2Proof.Machine.execQAnd o s
  | .qAndi o => Sys2Proof.Machine.execQAndi o s
  | .qOr o => Sys2Proof.Machine.execQOr o s
  | .qOri o => Sys2Proof.Machine.execQOri o s
  | .qXor o => Sys2Proof.Machine.execQXor o s
  | .qXori o => Sys2Proof.Machine.execQXori o s
  | .qShl o => Sys2Proof.Machine.execQShl o s
  | .qShr o => Sys2Proof.Machine.execQShr o s
  | .qSra o => Sys2Proof.Machine.execQSra o s
  | .qMin o => Sys2Proof.Machine.execQMin o s
  | .qMax o => Sys2Proof.Machine.execQMax o s
  | .qMinu o => Sys2Proof.Machine.execQMinu o s
  | .qMaxu o => Sys2Proof.Machine.execQMaxu o s
  | .qMov g xd xa => Sys2Proof.Machine.execQMov g xd xa s
  | .qLi g xd imm => Sys2Proof.Machine.execQLi g xd imm s
  | .qLih g xd imm => Sys2Proof.Machine.execQLih g xd imm s
  | .qSel o neg k => Sys2Proof.Machine.execQSel o neg k s
  | .qCmp c xa xb => Sys2Proof.Machine.execQCmp c xa xb s
  | .qCmpi c xa simm => Sys2Proof.Machine.execQCmpi c xa simm s
  | .ldparam g xd k => Sys2Proof.Machine.execLdparam g xd k s
  | .ldtask g xd f => Sys2Proof.Machine.execLdtask g xd f s
  | .flagRd g xd mode k d => Sys2Proof.Machine.execFlagRd g xd mode k d s
  | .wset g wk imm => Sys2Proof.Machine.execWset g wk imm s
  | .wmov g wk xa => Sys2Proof.Machine.execWmov g wk xa s
  | .wrd g xd wk => Sys2Proof.Machine.execWrd g xd wk s
  | .tickRd g xd => Sys2Proof.Machine.execTickRd g xd s
  | .gtickRd g xd => Sys2Proof.Machine.execGtickRd g xd s
  | .ctimeRd g xd => Sys2Proof.Machine.execCtimeRd g xd s
  | .pwrAcq g level lease => Sys2Proof.Machine.execPwrAcq g level lease s
  | .pwrRel g => Sys2Proof.Machine.execPwrRel g s
  | .pwrRelRd g xd => Sys2Proof.Machine.execPwrRelRd g xd s
  | .fenceDom g => Sys2Proof.Machine.execFenceDom g s
  | .fencePkg g => Sys2Proof.Machine.execFencePkg g s
  | .fenceSys g => Sys2Proof.Machine.execFenceSys g s
  | .waitB g xa => Sys2Proof.Machine.execWaitB g xa s
  | .sysRd g xd num => Sys2Proof.Machine.execSysRd g xd num s
  | .sysWr g num xa => Sys2Proof.Machine.execSysWr g num xa s
  | .aAdd t o => Sys2Proof.Machine.execAAdd t o s
  | .aSub t o => Sys2Proof.Machine.execASub t o s
  | .adds t o => Sys2Proof.Machine.execAdds t o s
  | .subs t o => Sys2Proof.Machine.execSubs t o s
  | .aMul t o => Sys2Proof.Machine.execAMul t o s
  | .aMulh t o => Sys2Proof.Machine.execAMulh t o s
  | .mad t o => Sys2Proof.Machine.execMad t o s
  | .abs t o => Sys2Proof.Machine.execAbs t o s
  | .neg t o => Sys2Proof.Machine.execNeg t o s
  | .aMin t o => Sys2Proof.Machine.execAMin t o s
  | .aMax t o => Sys2Proof.Machine.execAMax t o s
  | .aAnd o => Sys2Proof.Machine.execAAnd o s
  | .aOr o => Sys2Proof.Machine.execAOr o s
  | .aXor o => Sys2Proof.Machine.execAXor o s
  | .andn o => Sys2Proof.Machine.execAndn o s
  | .not o => Sys2Proof.Machine.execNot o s
  | .aShl t o => Sys2Proof.Machine.execAShl t o s
  | .aShr t o => Sys2Proof.Machine.execAShr t o s
  | .aSra t o => Sys2Proof.Machine.execASra t o s
  | .aCmp t c a b imm => Sys2Proof.Machine.execACmp t c a b imm s
  | .aSel t o => Sys2Proof.Machine.execASel t o s
  | .aMov o => Sys2Proof.Machine.execAMov o s
  | .sadd o => Sys2Proof.Machine.execSadd o s
  | .ssub o => Sys2Proof.Machine.execSsub o s
  | .smul o => Sys2Proof.Machine.execSmul o s
  | .sand o => Sys2Proof.Machine.execSand o s
  | .sor o => Sys2Proof.Machine.execSor o s
  | .sxor o => Sys2Proof.Machine.execSxor o s
  | .sshl o => Sys2Proof.Machine.execSshl o s
  | .sshr arith o => Sys2Proof.Machine.execSshr arith o s
  | .sli g d v imm => Sys2Proof.Machine.execSli g d v imm s
  | .sget g d lane a imm => Sys2Proof.Machine.execSget g d lane a imm s
  | .scmp c a b imm => Sys2Proof.Machine.execScmp c a b imm s
  | .perm g d a sel => Sys2Proof.Machine.execPerm g d a sel s
  | .permv o => Sys2Proof.Machine.execPermv o s
  | .bcast t k o => Sys2Proof.Machine.execBcast t k o s
  | .bcasts t g d b imm => Sys2Proof.Machine.execBcasts t g d b imm s
  | .red op t o => Sys2Proof.Machine.execRed op t o s
  | .scan op ex t o => Sys2Proof.Machine.execScan op ex t o s
  | .popc t o => Sys2Proof.Machine.execPopc t o s
  | .clz t o => Sys2Proof.Machine.execClz t o s
  | .bset g k b imm => Sys2Proof.Machine.execBset g k b imm s
  | .fadd rm o => Sys2Proof.Machine.execFadd rm o s
  | .fsub rm o => Sys2Proof.Machine.execFsub rm o s
  | .fmul rm o => Sys2Proof.Machine.execFmul rm o s
  | .fma rm o => Sys2Proof.Machine.execFma rm o s
  | .fms rm o => Sys2Proof.Machine.execFms rm o s
  | .fnma rm o => Sys2Proof.Machine.execFnma rm o s
  | .fnms rm o => Sys2Proof.Machine.execFnms rm o s
  | .fmin o => Sys2Proof.Machine.execFmin o s
  | .fmax o => Sys2Proof.Machine.execFmax o s
  | .fabs o => Sys2Proof.Machine.execFabs o s
  | .fneg o => Sys2Proof.Machine.execFneg o s
  | .fcmp c a b imm => Sys2Proof.Machine.execFcmp c a b imm s
  | .fclass o => Sys2Proof.Machine.execFclass o s
  | .frnd rm o => Sys2Proof.Machine.execFrnd rm o s
  | .fexp2f o => Sys2Proof.Machine.execFexp2f o s
  | .fexpins rm o => Sys2Proof.Machine.execFexpins rm o s
  | .fgetexp o => Sys2Proof.Machine.execFgetexp o s
  | .frcp rm o => Sys2Proof.Machine.execFrcp rm o s
  | .frsq rm o => Sys2Proof.Machine.execFrsq rm o s
  | .cvtF32Bf16 p o => Sys2Proof.Machine.execCvtF32Bf16 p o s
  | .cvtBf16F32 rm o => Sys2Proof.Machine.execCvtBf16F32 rm o s
  | .cvtF32I rm t p o => Sys2Proof.Machine.execCvtF32I rm t p o s
  | .cvtI32F32 rm o => Sys2Proof.Machine.execCvtI32F32 rm o s
  | .cvtI8F32 rm o => Sys2Proof.Machine.execCvtI8F32 rm o s
  | .cvtI16F32 rm o => Sys2Proof.Machine.execCvtI16F32 rm o s
  | .cvtPs8F32 o => Sys2Proof.Machine.execCvtPs8F32 o s
  | .cvtF32Ps8 p o => Sys2Proof.Machine.execCvtF32Ps8 p o s
  | .cvtI8I32 o => Sys2Proof.Machine.execCvtI8I32 o s
  | .cvtI16I32 o => Sys2Proof.Machine.execCvtI16I32 o s
  | .cvtI32I t p o => Sys2Proof.Machine.execCvtI32I t p o s
  | .quantI8 rm o => Sys2Proof.Machine.execQuantI8 rm o s
  | .quantPs8 o => Sys2Proof.Machine.execQuantPs8 o s
  | .ld o => Sys2Proof.Machine.execLd o s
  | .ldW o => Sys2Proof.Machine.execLdW o s
  | .st o => Sys2Proof.Machine.execSt o s
  | .stW o => Sys2Proof.Machine.execStW o s
  | .ldB o => Sys2Proof.Machine.execLdB o s
  | .ldq g d k => Sys2Proof.Machine.execLdq g d k s
  | .stq g k v => Sys2Proof.Machine.execStq g k v s
  | .qpeek g d k j => Sys2Proof.Machine.execQpeek g d k j s
  | .qpeekN g d k => Sys2Proof.Machine.execQpeekN g d k s
  | .cw g v => Sys2Proof.Machine.execCw g v s
  | .vpush g v => Sys2Proof.Machine.execVpush g v s
  | .vpop g d => Sys2Proof.Machine.execVpop g d s
  | .vfree g d => Sys2Proof.Machine.execVfree g d s
  | .vfreeIn g d => Sys2Proof.Machine.execVfreeIn g d s
  | .ldw g form v off => Sys2Proof.Machine.execLdw g form v off s
  | .flip g => Sys2Proof.Machine.execFlip g s
  | .mmPs8 o => Sys2Proof.Machine.execMmPs8 o s
  | .mmI8 o => Sys2Proof.Machine.execMmI8 o s
  | .mmBf16 o => Sys2Proof.Machine.execMmBf16 o s
  | .mmChain g mode arow acol cnt => Sys2Proof.Machine.execMmChain g mode arow acol cnt s
  | .mmd arow cnt qw name => Sys2Proof.Machine.execMmd arow cnt qw name s
  | .accZero g arow x => Sys2Proof.Machine.execAccZero g arow x s
  | .accRd g d arow acol => Sys2Proof.Machine.execAccRd g d arow acol s
  | .accRdSt g d arow => Sys2Proof.Machine.execAccRdSt g d arow s
  | .accWr g v arow acol x => Sys2Proof.Machine.execAccWr g v arow acol x s
  | .accCp g drow arow => Sys2Proof.Machine.execAccCp g drow arow s
  | .accCvt g rm toI32 v arow acol => Sys2Proof.Machine.execAccCvt g rm toI32 v arow acol s
  | .accScl g drow arow acol v => Sys2Proof.Machine.execAccScl g drow arow acol v s
  | .lrow g k xa xb => Sys2Proof.Machine.execLrow g k xa xb s
  | .srow g k xa xb => Sys2Proof.Machine.execSrow g k xa xb s
  | .copy g k n1 => Sys2Proof.Machine.execCopy g k n1 s
  | .tierPf g k n1 => Sys2Proof.Machine.execTierPf g k n1 s
  | .mpRun g xa rq nrd wq nwr => Sys2Proof.Machine.execMpRun g xa rq nrd wq nwr s
  | .gather g j n1 => Sys2Proof.Machine.execGather g j n1 s
  | .scatter g j n1 => Sys2Proof.Machine.execScatter g j n1 s
  | .strmSet g j xa => Sys2Proof.Machine.execStrmSet g j xa s
  | .probe g j xa xb n1 => Sys2Proof.Machine.execProbe g j xa xb n1 s
  | .atomAdd o => Sys2Proof.Machine.execAtomAdd o s
  | .atomMin o => Sys2Proof.Machine.execAtomMin o s
  | .atomMax o => Sys2Proof.Machine.execAtomMax o s
  | .atomAnd o => Sys2Proof.Machine.execAtomAnd o s
  | .atomOr o => Sys2Proof.Machine.execAtomOr o s
  | .atomXor o => Sys2Proof.Machine.execAtomXor o s
  | .atomSwap o => Sys2Proof.Machine.execAtomSwap o s
  | .atomCas o => Sys2Proof.Machine.execAtomCas o s
  | .qwSet g k xa xb => Sys2Proof.Machine.execQwSet g k xa xb s
  | .qwRd g k xa xb => Sys2Proof.Machine.execQwRd g k xa xb s
  | .boInit g unit xa xb => Sys2Proof.Machine.execBoInit g unit xa xb s
  | .boRd g xa xb => Sys2Proof.Machine.execBoRd g xa xb s
  | .taskPost g xa => Sys2Proof.Machine.execTaskPost g xa s
  | .msgSend g k n1 => Sys2Proof.Machine.execMsgSend g k n1 s
  | .msgQuiet g b => Sys2Proof.Machine.execMsgQuiet g b s
  | .xchGo g k xa n => Sys2Proof.Machine.execXchGo g k xa n s
  | .knBind g xa name => Sys2Proof.Machine.execKnBind g xa name s
  | .knInv g name => Sys2Proof.Machine.execKnInv g name s
  | .knInvAll g => Sys2Proof.Machine.execKnInvAll g s
  | .knStat g xa name => Sys2Proof.Machine.execKnStat g xa name s
  | .dictLoad g xa n => Sys2Proof.Machine.execDictLoad g xa n s
  | .walkStart g xa => Sys2Proof.Machine.execWalkStart g xa s
  | .walkStop g xa => Sys2Proof.Machine.execWalkStop g xa s
  | .walkStopW g xa => Sys2Proof.Machine.execWalkStopW g xa s
  | .ctrRd g xa sel up => Sys2Proof.Machine.execCtrRd g xa sel up s
  | .wNop => Sys2Proof.Machine.execWNop s
  | .wLi d im => Sys2Proof.Machine.execWLi d im s
  | .wLih d im => Sys2Proof.Machine.execWLih d im s
  | .wAdd d a b => Sys2Proof.Machine.execWAdd d a b s
  | .wAddi d a im => Sys2Proof.Machine.execWAddi d a im s
  | .wSub d a b => Sys2Proof.Machine.execWSub d a b s
  | .wAnd d a b => Sys2Proof.Machine.execWAnd d a b s
  | .wShl d a n => Sys2Proof.Machine.execWShl d a n s
  | .wShr d a n => Sys2Proof.Machine.execWShr d a n s
  | .wBCond c a b t => Sys2Proof.Machine.execWBCond c a b t s
  | .wB t => Sys2Proof.Machine.execWB t s
  | .wDloop a t => Sys2Proof.Machine.execWDloop a t s
  | .wLdW d a im => Sys2Proof.Machine.execWLdW d a im s
  | .wLdH d a im => Sys2Proof.Machine.execWLdH d a im s
  | .wQpop d k => Sys2Proof.Machine.execWQpop d k s
  | .wPf a im => Sys2Proof.Machine.execWPf a im s
  | .wCwinA a b l im => Sys2Proof.Machine.execWCwinA a b l im s
  | .wCwinB a b l im => Sys2Proof.Machine.execWCwinB a b l im s
  | .wIsect d => Sys2Proof.Machine.execWIsect d s
  | .wUnion d => Sys2Proof.Machine.execWUnion d s
  | .wMerge d => Sys2Proof.Machine.execWMerge d s
  | .wNzc d a f im => Sys2Proof.Machine.execWNzc d a f im s
  | .wBexp sl a b z im => Sys2Proof.Machine.execWBexp sl a b z im s
  | .wTopk d a b m im => Sys2Proof.Machine.execWTopk d a b m im s
  | .wEmit a b im => Sys2Proof.Machine.execWEmit a b im s
  | .wEmitS b c => Sys2Proof.Machine.execWEmitS b c s
  | .wEmitz a => Sys2Proof.Machine.execWEmitz a s
  | .wRds d sel => Sys2Proof.Machine.execWRds d sel s
  | .wQpush k => Sys2Proof.Machine.execWQpush k s
  | .wWend => Sys2Proof.Machine.execWWend s
  | .issueSelect => Sys2Proof.Machine.execIssueSelect s
  | .rowExecute => Sys2Proof.Machine.execRowExecute s
  | .leashReach => Sys2Proof.Machine.execLeashReach s
  | .reinject => Sys2Proof.Machine.execReinject s
  | .engineRestart => Sys2Proof.Machine.execEngineRestart s
  | .kennelEntryAction => Sys2Proof.Machine.execKennelEntryAction s
  | .emitzRecordPush => Sys2Proof.Machine.execEmitzRecordPush s
  | .mRowEnter => Sys2Proof.Machine.execMRowEnter s
  | .passLanding => Sys2Proof.Machine.execPassLanding s
  | .sliceRailSettle => Sys2Proof.Machine.execSliceRailSettle s
  | .mmdDecision => Sys2Proof.Machine.execMmdDecision s
  | .kennelWriteback => Sys2Proof.Machine.execKennelWriteback s
  | .dataPortPerform => Sys2Proof.Machine.execDataPortPerform s
  | .lrowRowWrite => Sys2Proof.Machine.execLrowRowWrite s
  | .cellStoreWindowRelease => Sys2Proof.Machine.execCellStoreWindowRelease s
  | .boArrival => Sys2Proof.Machine.execBoArrival s
  | .copyDescriptorTake => Sys2Proof.Machine.execCopyDescriptorTake s
  | .copyLineLand => Sys2Proof.Machine.execCopyLineLand s
  | .shadowLoadFollowon => Sys2Proof.Machine.execShadowLoadFollowon s
  | .taskPostFollowon => Sys2Proof.Machine.execTaskPostFollowon s
  | .gatherElementLand => Sys2Proof.Machine.execGatherElementLand s
  | .scatterWriteConfirm => Sys2Proof.Machine.execScatterWriteConfirm s
  | .probeComplete => Sys2Proof.Machine.execProbeComplete s
  | .atomPerform => Sys2Proof.Machine.execAtomPerform s
  | .tableWalkComplete => Sys2Proof.Machine.execTableWalkComplete s
  | .frameBoundary => Sys2Proof.Machine.execFrameBoundary s
  | .hbmSlot => Sys2Proof.Machine.execHbmSlot s
  | .mpCompletion => Sys2Proof.Machine.execMpCompletion s
  | .refreshWatchdog => Sys2Proof.Machine.execRefreshWatchdog s
  | .deepTierAccess => Sys2Proof.Machine.execDeepTierAccess s
  | .placement => Sys2Proof.Machine.execPlacement s
  | .taskStart => Sys2Proof.Machine.execTaskStart s
  | .preemptRequest => Sys2Proof.Machine.execPreemptRequest s
  | .checkpointSave => Sys2Proof.Machine.execCheckpointSave s
  | .saveComplete => Sys2Proof.Machine.execSaveComplete s
  | .taskResume => Sys2Proof.Machine.execTaskResume s
  | .killedContextFree => Sys2Proof.Machine.execKilledContextFree s
  | .tokenVisit => Sys2Proof.Machine.execTokenVisit s
  | .leaseExpiry => Sys2Proof.Machine.execLeaseExpiry s
  | .leaseReleaseEffect => Sys2Proof.Machine.execLeaseReleaseEffect s
  | .powerSample => Sys2Proof.Machine.execPowerSample s
  | .thermalTrip1 => Sys2Proof.Machine.execThermalTrip1 s
  | .thermalTrip2 => Sys2Proof.Machine.execThermalTrip2 s
  | .thermalTrip3 => Sys2Proof.Machine.execThermalTrip3 s
  | .thermalTrip4 => Sys2Proof.Machine.execThermalTrip4 s
  | .thermalTripClear => Sys2Proof.Machine.execThermalTripClear s
  | .clockStretch => Sys2Proof.Machine.execClockStretch s
  | .gateRailsOff => Sys2Proof.Machine.execGateRailsOff s
  | .arrayUngate => Sys2Proof.Machine.execArrayUngate s
  | .ungateComplete => Sys2Proof.Machine.execUngateComplete s
  | .flitReceive => Sys2Proof.Machine.execFlitReceive s
  | .portFailed => Sys2Proof.Machine.execPortFailed s
  | .trunkChangeApply => Sys2Proof.Machine.execTrunkChangeApply s
  | .superstepStart => Sys2Proof.Machine.execSuperstepStart s
  | .superstepEnd => Sys2Proof.Machine.execSuperstepEnd s
  | .messageArrive => Sys2Proof.Machine.execMessageArrive s
  | .messageRefusal => Sys2Proof.Machine.execMessageRefusal s
  | .bucketLeak => Sys2Proof.Machine.execBucketLeak s
  | .rowSpare => Sys2Proof.Machine.execRowSpare s
  | .bankMirrorComplete => Sys2Proof.Machine.execBankMirrorComplete s
  | .pseudoChannelRetire => Sys2Proof.Machine.execPseudoChannelRetire s
  | .portSpareAdd => Sys2Proof.Machine.execPortSpareAdd s
  | .scrub => Sys2Proof.Machine.execScrub s
  | .moduleInsert => Sys2Proof.Machine.execModuleInsert s
  | .moduleRemove => Sys2Proof.Machine.execModuleRemove s
  | .transceiverChange => Sys2Proof.Machine.execTransceiverChange s
  | .coldStart => Sys2Proof.Machine.execColdStart s
  | .warmingDone => Sys2Proof.Machine.execWarmingDone s
  | .stackTrainingDone => Sys2Proof.Machine.execStackTrainingDone s
  | .contFrame => Sys2Proof.Machine.execContFrame s
  | .ident => Sys2Proof.Machine.execIdent s
  | .attest => Sys2Proof.Machine.execAttest s
  | .partMake => Sys2Proof.Machine.execPartMake s
  | .partFree => Sys2Proof.Machine.execPartFree s
  | .slotSetTables => Sys2Proof.Machine.execSlotSetTables s
  | .slotSetDonate => Sys2Proof.Machine.execSlotSetDonate s
  | .slotSetHashMasks => Sys2Proof.Machine.execSlotSetHashMasks s
  | .mapRangeEntry => Sys2Proof.Machine.execMapRangeEntry s
  | .mapControlWord => Sys2Proof.Machine.execMapControlWord s
  | .mapInvalidate => Sys2Proof.Machine.execMapInvalidate s
  | .trunkSet => Sys2Proof.Machine.execTrunkSet s
  | .load => Sys2Proof.Machine.execLoad s
  | .read => Sys2Proof.Machine.execRead s
  | .dict => Sys2Proof.Machine.execDict s
  | .launch => Sys2Proof.Machine.execLaunch s
  | .preemptPolicy => Sys2Proof.Machine.execPreemptPolicy s
  | .preemptCheckpoint => Sys2Proof.Machine.execPreemptCheckpoint s
  | .preemptKill => Sys2Proof.Machine.execPreemptKill s
  | .halt => Sys2Proof.Machine.execHalt s
  | .resume => Sys2Proof.Machine.execResume s
  | .status => Sys2Proof.Machine.execStatus s
  | .counters => Sys2Proof.Machine.execCounters s
  | .repairRead => Sys2Proof.Machine.execRepairRead s
  | .repairForceLasting => Sys2Proof.Machine.execRepairForceLasting s
  | .repairClearLevel => Sys2Proof.Machine.execRepairClearLevel s
  | .powerRingTotal => Sys2Proof.Machine.execPowerRingTotal s
  | .powerGate => Sys2Proof.Machine.execPowerGate s
  | .powerUngate => Sys2Proof.Machine.execPowerUngate s
  | .therm => Sys2Proof.Machine.execTherm s
  | .reset => Sys2Proof.Machine.execReset s
  | .thermalRingReduction => Sys2Proof.Machine.execThermalRingReduction s
  | .stewardRestart => Sys2Proof.Machine.execStewardRestart s

end Sys2Proof.Machine
end

