-- ==== Sys2Proof/Machine/Micro.lean ====
section
/-! DEFINITION. What each later effect of an instruction does when it is due. -/

namespace Sys2Proof.Machine

/-! ## Uncorrectable lines read (R228) -/

/-- An engine has read a scratchpad line marked uncorrectable for an operation: fault 0x44 in the context that fired it. -/
def lineUncorrectable (addr : Nat) (use : LineUse) : Plan :=
  .get fun s =>
    let fault := fun (kind unit p tid a k n : Nat) =>
      raiseFaultFor p tid a k { kind, unit, ctx := k, code := 0x44, seq := n, pos := (s.ctx a k).pc }
    Plan.when (s.marked 2 (addr / 64)) <|
      .both (lineLost 2 (addr / 64))
        (match use with
         | .lrow a uid _ _ =>
           match (s.arr a).load? uid with
           | some o => fault 3 a o.part o.tid a o.ctx o.n
           | none => .skip
         | .walkRead a _ _ _ =>
           match (s.arr a).walker.owner with
           | some k => fault 7 a (s.ctx a k).part (s.ctx a k).tid a k (s.arr a).walker.startN
           | none => .skip
         | .copyRead uid _ =>
           match (s.tower (addr / 2 ^ 31)).desc? uid with
           | some d => fault 5 (addr / 2 ^ 31) d.part d.tid d.arr d.ctx d.n
           | none => .skip
         | _ => .skip)

/-! ## The cell store and the strait -/

/-- A value read out of the cell store (R149): one 4-byte word in every lane, or the bytes zero-extended. -/
def cellValue (bs : List Byte) (spread : Bool) : VReg := if spread then mkElems 32 fun _ => leNat bs else BitVec.ofNat 256 (leNat bs)

def cellReadPlan (cell ctx addr size : Nat) (spread : Bool) (e : LwbEntry) : Plan :=
  .both (cellUncorrectable addr size)
    (.get fun s => lateInto cell ctx { e with val := cellValue (s.bytes .cell addr size) spread })

/-- A pair moved as its access performs, if it still belongs to the same setting of its word (R158). -/
def pairPlan (cell ctx k stamp : Nat) (prod : Bool) (count : Nat) : Plan :=
  modBank cell ctx fun b =>
    let p := smGet {} b.pairs k
    if p.stamp = stamp then
      { b with pairs := smSet b.pairs k (if prod then { p with pp := (p.pp + count) % 8192 } else { p with cp := (p.cp + count) % 8192 }) }
    else b

/-- A shared queue's pointer moved once every row has had its access (R159): not while the wavefront is held up, which its re-injection moves it after. -/
def wordPlan (k stamp : Nat) (prod : Bool) (count : Nat) (wave : Option Nat) : Plan :=
  .get fun s =>
    let x := s.site
    let held := match wave with
      | some uid => (s.arr x.arr).waves.any fun w => w.uid == uid
      | none => false
    Plan.when (!held) (engineAdvance x.arr x.ctx x.a k stamp prod true count)

/-- A strait entry taken out of the FIFO of the bonded cell (R165). -/
def straitPopPlan (cell ctx : Nat) (e : LwbEntry) : Plan :=
  .get fun s =>
    let u := s.tick
    match (s.cellx (bonded cell)).strait with
    | [] => .skip
    | top :: _ =>
      .both (modCell (bonded cell) fun v => { v with strait := v.strait.drop 1, freed := (v.freed.filter fun f => decide (u ≤ f)) ++ [u] })
        (lateInto cell ctx { e with val := top.val })

/-! ## Lines of the data port -/

/-- The task and bundle an engine reads a line for. -/
def lineReader (s : State) (addr : Nat) (use : LineUse) : Nat × Nat :=
  match use with
  | .lrow a uid _ _ => (((s.arr a).load? uid).map fun o => (o.tid, o.n)).getD (0, 0)
  | .walkRead a _ _ _ => ((s.arr a).walker.owner.map fun k => ((s.ctx a k).tid, (s.arr a).walker.startN)).getD (0, 0)
  | .copyRead uid _ => (((s.tower (addr / 2 ^ 31)).desc? uid).map fun d => (d.tid, d.n)).getD (0, 0)
  | _ => (0, 0)

/-- A line read has performed: its bytes are delivered 8 ticks on (R225), or the request it belongs to performs. -/
def lineReadPlan (addr : Nat) (use : LineUse) : Plan :=
  .both (.both (lineUncorrectable addr use) (.get fun s => observeLine addr 64 (lineReader s addr use).1 (lineReader s addr use).2))
    (.get fun s =>
      match use with
      | .lrow a uid r m => lrowLine a uid r m addr
      | .walkRead a off epoch lb => after 8 rankEvent (.micro (.walkLine a off epoch lb (s.bytes .scratch addr 64)))
      | .copyRead uid line => after 8 rankEvent (.micro (.copyPut (addr / 2 ^ 31) uid line (s.bytes .scratch addr 64)))
      | .dynRead r | .dynWrite r => performPlan r
      | .hostRead p len haddr => .both (toHostMem p haddr (s.bytes .scratch addr len)) (hostPiecePlan p)
      | _ => .skip)

/-- A line write has performed. -/
def lineWrittenPlan (use : LineUse) : Plan :=
  .get fun s =>
    match use with
    | .srow a uid r m _ => srowLine a uid r m
    | .walkWrite a m epoch _ => walkWrotePlan a m epoch
    | .copyWrite uid line _ =>
      let t := towerOf s.site.arr
      match (s.tower t).desc? uid with
      | some d => .both (countLine t d line) (lineLanded t uid)
      | none => .skip
    | .dynRead r | .dynWrite r => performPlan r
    | .landing r => landPlan r
    | .mpLanding st uid idx data => mpLandedPlan st uid idx data
    | .report a k tid n j sets probed bo addr data => reportPlan a k tid n j sets probed bo addr data
    | .hostWrite p addr data => .both (scratchWrite addr data) (hostPiecePlan p)
    | .peerWrite p step addr data =>
      .both (scratchWrite addr data) (modPart p fun v => { v with runs := v.runs.map fun r => if r.step == step then { r with inbound := r.inbound + 64 } else r })
    | _ => .skip

/-- A request its point has confirmed. -/
def confirmPlan (uid : Nat) : Plan :=
  .get fun s =>
    match s.req? uid with
    | none => .skip
    | some r =>
      match r.kind with
      | .copyRead | .copyWrite => copyConfirm r
      | .exchRead | .exchWrite => xchConfirm r
      | .atom => .both (countAtom r) (endReq uid)
      | _ => endReq uid

/-- Bytes written by an effect due later. -/
def writePlan (sp : Space) (addr : Nat) (bs : List Byte) : Plan :=
  match sp with
  | .scratch => scratchWrite addr bs
  | .cell => .both (writeBytes .cell addr bs) (unmark 3 5 addr bs.length)
  | sp => writeBytes sp addr bs

/-- Everything an effect that no instruction names does at its tick. -/
def microPlan (m : Micro) : Plan :=
  match m with
  | .write sp addr bs => writePlan sp addr bs
  | .cellRead cell ctx addr size spread e => cellReadPlan cell ctx addr size spread e
  | .pair cell ctx k stamp prod count => pairPlan cell ctx k stamp prod count
  | .word k stamp prod count wave => wordPlan k stamp prod count wave
  | .straitPop cell ctx e => straitPopPlan cell ctx e
  | .planeDone cell => modCell cell fun x => { x with shready := true }
  | .accSet key x vals ovf nfi => accSetPlan key x vals ovf nfi
  | .accAdd dkey vals xr ovf nfi scales => accAddPlan dkey vals xr ovf nfi scales
  | .accRead key col st cell ctx e => accReadAt key col st cell ctx e
  | .accCopy src dst block => accCopyPlan src dst block
  | .accConvert key col toI32 rm addr => accConvertPlan key col toI32 rm addr
  | .accScale src dst col scales => accScalePlan src dst col scales
  | .chunk form cell plane j addr => .both (cellUncorrectable addr 32) (chunkPlan form cell plane j addr)
  | .accLand key vals x => accLandPlan key vals x
  | .feedTick a => feedTickPlan a
  | .feedRead a pass i m => feedReadPlan a pass i m
  | .errCount a => errCountPlan a
  | .diag a mrow d => diagPlan a mrow d
  | .passEnd a pass => passEndPlan a pass
  | .engineWord a k tid q stamp prod last count => engineAdvance a k tid q stamp prod last count
  | .kennelLoad a pass i => kennelLoadPlan a pass i
  | .peek a pass => peekPlan a pass
  | .mismatch a ls cell => mismatchPlan a ls cell
  | .kennelCorr a pass m => kennelCorrPlan a pass m
  | .loadRow a op row => loadRowPlan a op row
  | .storeRow a op row => storeRowPlan a op row
  | .storeLines a op row data => storeLinesPlan a op row data
  | .lineRead addr use => lineReadPlan addr use
  | .lineWritten use => lineWrittenPlan use
  | .walkLine a off epoch lb data => walkLinePlan a off epoch lb data
  | .dictRead a n src j got base tid => dictReadPlan a n src j got base tid
  | .charge a k tid n code sub addr => chargeFault a k tid n code sub addr
  | .queueTask p launch entry target any arg inputs => queueTaskPlan p launch entry target any arg inputs
  | .strmRead a j off tid => strmReadPlan a j off tid
  | .strmTake a j tid w => strmTakePlan a j tid w
  | .streamIdx a j gen first n iq => streamIdxPlan a j gen first n iq
  | .streamData a j gen first n dq => streamDataPlan a j gen first n dq
  | .perform req => performPlan req
  | .confirm req => confirmPlan req
  | .atomLand req => atomLandPlan req
  | .walkRecord a off tid epoch => walkRecordPlan a off tid epoch
  | .walkProgram a m prog tid epoch plen gs => walkProgramPlan a m prog tid epoch plen gs
  | .knBind a off name tid limit gang => knBindPlan a off name tid limit gang
  | .post p launch a k off tid n => postPlan p launch a k off tid n
  | .boRead addr xa => boReadPlan addr xa
  | .descRead tier a tid k n => descReadPlan tier a tid k n
  | .copyLine t desc => copyLinePlan t desc
  | .copyPut t desc line data => copyPutPlan t desc line data
  | .msgRead a tid k n => msgReadPlan a tid k n
  | .xchRead a x => xchReadPlan a x
  | .peer p peer what args => peerPlan p peer what args
  | .mpRecord a off tid prog => mpRecordPlan a off tid prog
  | .mpLine stack uid m => mpLinePlan stack uid m
  | .mpLand stack uid idx data => mpLandPlan stack uid idx data
  | .frameCheck st f => frameCheckPlan st f
  | .shadowRead cell form addr => shadowReadPlan cell form addr
  | .shadowWrite cell form data => shadowWritePlan cell form data
  | .advance req => advancePlan req
  | .enginesStop p kind unit => enginesStopPlan p kind unit
  | .faultEvent p => faultEventPlan p
  | .env => outsidePlan
  | .issued words sstep => issuedPlan words sstep
  | .nextCmd p => nextCmdPlan p
  | .answerWhen p uids => answerWhenPlan p uids
  | .hostUnit p => hostUnitPlan p
  | .hostPiece p => hostPiecePlan p
  | .mirror t bank => mirrorPlan t bank
  | .atomStop p a => atomStopPlan p a

end Sys2Proof.Machine
end

