-- ==== Sys2Proof/Machine/Step.lean ====
section
/-! DEFINITION. The step: the earliest thing due happens (log 3), an input from outside the part before anything else of its tick. An instruction, a part's event or a
command is run by `exec`; a slot or walker word is decoded first. -/

namespace Sys2Proof.Machine

/-- The state with the first due act taken off the agenda: the clock stands at its tick and the site is its site. -/
def State.take (s : State) (d : Due) (rest : List Due) : State := { s with due := rest, now := max s.now d.tick, site := d.site }

/-- The state with the first input taken off. -/
def State.takeInput (s : State) (i : Input) (rest : List Input) : State := { s with inputs := rest, now := max s.now i.tick, site := i.site }

/-- A walker word is due for the program that is running (R258, R263). -/
def walkDue (s : State) (arr : Nat) : Bool := (s.arr arr).walker.running && (s.arr arr).walker.epoch == s.site.c

/-- One act. A slot word that decodes to nothing was checked when its code was placed (R74), so it does not occur in a run; it does nothing. -/
def runAct (a : Act) (s : State) : Host.Outcome State Fault Refusal :=
  match a with
  | .instr i => exec i s
  | .slot sl w =>
    match decodeSlot sl w with
    | some i => exec i s
    | none => .next s
  | .walk arr =>
    if walkDue s arr then
      match decodeW (walkWord s arr) with
      | some i => exec i s
      | none => .refused .illegalWalkerWord
    else .next s
  | .frame f => (arrivePlan f).step s
  | .micro m => (microPlan m).step s

/-- An input comes before what is due later, or at its tick with a rank after inputs' own. -/
def inputFirst (i : Input) (d : Due) : Bool := decide (i.tick < d.tick) || (i.tick == d.tick && decide (rankInput < d.rank))

/-- One step of the part. With nothing due the clock goes on. -/
def step (s : State) : Host.Outcome State Fault Refusal :=
  match s.inputs, s.due with
  | i :: is, d :: rest => if inputFirst i d then runAct i.act (s.takeInput i is) else runAct d.act (s.take d rest)
  | i :: is, [] => runAct i.act (s.takeInput i is)
  | [], d :: rest => runAct d.act (s.take d rest)
  | [], [] => .next { s with now := s.now + 1 }

/-- The state with an instruction where the next step takes one (log 8): a walker word at the PC of array 0's walker, a bundle's first non-empty slot on the
agenda of array 0. -/
def State.withFetchWord (s : State) (nbits w : Nat) : State :=
  let site : Site := { arr := 0, ctx := 0, issue := true }
  if nbits = 32 then
    let a := s.arr 0
    let wk := { a.walker with owner := some 0, running := true, epoch := 0, pc := 0, plen := 1, pstore := smSet a.walker.pstore 0 (BitVec.ofNat 32 w) }
    { s with arrs := smSet s.arrs 0 { a with walker := wk }, due := { tick := 0, rank := 0, dom := none, site, act := .walk 0 } :: s.due }
  else
    match decodeTableWord nbits w with
    | some i => { s with due := { tick := 0, rank := 0, dom := none, site, act := .instr i } :: s.due }
    | none => s

end Sys2Proof.Machine
end

