-- ==== Sys2Proof/Safety.lean ====
section
/-! DEFINITION. What the statements are said in: the invariants, the exact states that register writes leave, and what a write in a row of cells leaves. -/

namespace Sys2Proof.Safety
open Sys2Proof.Machine

/-- The invariant of every state: memory in its canonical form. -/
def Inv (s : State) : Prop := Memory.wf s.mem = true

/-- The keys of a sparse map rise. -/
def Rising {α : Type} (m : SMap α) : Prop := m.Pairwise fun x y => x.1 < y.1

/-- Every sparse map of the state lists each key once, in rising order: equal units are equal data. -/
def MapsRise (s : State) : Prop :=
  Rising s.towers ∧ Rising s.hbm ∧ Rising s.parts ∧ Rising s.arrs ∧ Rising s.ctxs ∧ Rising s.cells ∧ Rising s.banks ∧ Rising s.acc

/-- The state with the acting context replaced and nothing else changed. -/
def withMe (s : State) (c : Ctx) : State := { s with ctxs := smSet s.ctxs (ctxKey s.site.arr s.site.ctx) c }

/-- The state with one more pending write of the acting context, and nothing else changed (R59, R77): from slot 0 (Q) or 4 (E), due `lat` bundles on. -/
def seqWrite (s : State) (slot lat : Nat) (dest : QDest) (v : XWord) : State :=
  withMe s { s.me with
    pend := insertPend { due := s.site.n + lat, n := s.site.n, slot, dest, val := v, place := freePlace (s.me.pend.map (·.place)) } s.me.pend }

/-- The state with X register `xd` to be written by the Q slot, latency `lat`. -/
def xWrite (s : State) (lat : Nat) (xd : BitVec 5) (v : XWord) : State := seqWrite s 0 lat (.x xd) v

/-- The state with one act more on the agenda, at another site, `k` ticks from now in the tower of that site's array. -/
def laterAct (s : State) (k rank : Nat) (x : Site) (act : Act) : State :=
  { s with due := insertDue { tick := s.now + k, rank, dom := some (towerOf x.arr), site := x, act } s.due }

/-- A context with one of its queue words changed. -/
def qwMoved (c : Ctx) (k : Nat) (f : QW → QW) : Ctx := { c with qw := smSet c.qw k (f (c.qwState k)) }

/-- The state with the walker of the acting array replaced and nothing else changed. -/
def withWalker (s : State) (w : Walker) : State := { s with arrs := smSet s.arrs s.site.arr { s.arr s.site.arr with walker := w } }

/-- The state with the walker's next begin (or, `begin` false, completion) `k` ticks from now. -/
def walkerActs (s : State) (k : Nat) (begin : Bool) : State :=
  laterAct s k rankWalk { arr := s.site.arr, ctx := s.walker.owner.getD 0, n := s.walker.startN, issue := begin, c := s.walker.epoch } (.walk s.site.arr)

/-- The state after a walker instruction that is not the last of its program: the walker as given, its PC moved on, its next instruction due a tick later (R270). -/
def walkerDone (s : State) (w : Walker) : State := walkerActs (withWalker s { w with pc := w.pc + 1, need := [], got := [], res := none }) 1 true

/-- The state after a walker instruction: the next one follows, or the program has run past its end, and the walker faults with 0x60, sub-code 2 (R270, R279). -/
def walkerGoes (s : State) (w : Walker) : State :=
  if w.pc + 1 < w.plen then walkerDone s w else (walkFault 2 w.plen).run (withWalker s { w with offend := true, res := none })

/-- The read of the window a walker instruction makes: whether it goes through LBUF, its window offset, its bytes, the alignment it needs, and the ticks it takes after
its last line beyond one (R271-R276, R279). -/
def walkerRead (w : Walker) : Instr → Option (Bool × Nat × Nat × Nat × Nat)
  | .wLdW _ a i => some (true, (w.reg a + i.signExtend 32).toNat, 4, 4, 0)
  | .wLdH _ a i => some (true, (w.reg a + i.signExtend 32).toNat, 2, 2, 0)
  | .wCwinA a _ _ i => some (true, (w.reg a + i.signExtend 32).toNat, 32, 32, 0)
  | .wCwinB a _ _ i => some (true, (w.reg a + i.signExtend 32).toNat, 32, 32, 0)
  | .wNzc _ a _ i => some (true, (w.reg a + i.signExtend 32).toNat, 32, 32, 0)
  | .wBexp _ a b z i =>
    some (true, (w.reg a + i.signExtend 32).toNat, countBits ((w.reg b).toNat % 2 ^ (32 / 2 ^ z.toNat)) 32 * 2 ^ z.toNat, 2 ^ z.toNat, 0)
  | .wTopk _ a b _ i =>
    some (true, (w.reg a + i.signExtend 32).toNat, 4 * ((w.reg b).toNat % 65536), 64, ((w.reg b).toNat % 65536 + 15) / 16)
  | .wEmit a _ i => some (false, (w.reg a + i.signExtend 32).toNat, 512, 512, 0)
  | _ => none

/-- The state with one unit replaced and nothing else changed. -/
def withMod (s : State) (m : Module) : State := { s with mod := m }
def withTower (s : State) (k : Nat) (v : Tower) : State := { s with towers := smSet s.towers k v }
def withStack (s : State) (k : Nat) (v : Stack) : State := { s with hbm := smSet s.hbm k v }
def withPart (s : State) (k : Nat) (v : Part) : State := { s with parts := smSet s.parts k v }
def withArr (s : State) (k : Nat) (v : Arr) : State := { s with arrs := smSet s.arrs k v }

/-- The state after a command's response has gone out: CMD and SEQ of its frame, STATUS, DETAIL and the body, which a success with NOBODY goes without (R398). -/
def answered (s : State) (status detail : Nat) (body : List Byte) : State :=
  let f := s.site.frame
  { s with mod := { s.mod with outputs := s.mod.outputs ++
    [.response f.cmd f.seq status detail (if status = 0 && f.flags.testBit 0 then [] else body)] } }

/-- The outcome of a Q or E slot that faults before its bundle issues (R78, R357). -/
def faultsAtIssue (s : State) (code sub addr : Nat) : Host.Outcome State Fault Refusal := .next ((ctxFault code sub addr true).run s)

/-- The state with one act more on the agenda, `k` ticks from now at the acting site, for each of a list: each put in after those of the same tick, rank and order. -/
def laterEach {α : Type} (s : State) (xs : List α) (k rank : Nat) (act : α → Act) : State :=
  { s with due := xs.foldl (fun ds x => insertDue { tick := s.now + k, rank, dom := some (towerOf s.site.arr), site := s.site, act := act x } ds) s.due }

/-- As laterEach, ordered among its like by the issue of the bundle (its wavefront). -/
def laterEachOrd {α : Type} (s : State) (xs : List α) (k rank : Nat) (act : α → Act) : State :=
  { s with due := xs.foldl (fun ds x => insertDue { tick := s.now + k, rank, ord := s.site.wave, dom := some (towerOf s.site.arr), site := s.site, act := act x } ds) s.due }

/-- The late write an M slot's result is, before its value is known (R93, R97). -/
def mLate (s : State) (col lat : Nat) (d : Dst) : LwbEntry :=
  { due := s.site.n + lat, n := s.site.n, slot := 2, dest := (s.here col).dest d, latch := .lm, val := 0 }

/-- The bank of column `col` of the row a step acts in. -/
def hereKey (s : State) (col : Nat) : Nat := bankKey (cellOf s.site.arr s.site.row col) s.site.ctx

/-- What a register write of a row slot leaves (R31, R97, R99): in each executing column one late write more, of the given slot, latency, destination, latch and value; no
other bank, and nothing that is not a bank, is changed. -/
def RowWrote (s t : State) (cols : List Nat) (slot lat : Nat) (dest : Nat → RDest) (latch : Latch) (val : Nat → VReg) : Prop :=
  t = { s with banks := t.banks } ∧
  (∀ c ∈ cols, smGet {} t.banks (hereKey s c)
      = (s.here c).addLate { due := s.site.n + lat, n := s.site.n, slot, dest := dest c, latch, val := val c }) ∧
  ∀ k, (∀ c ∈ cols, k ≠ hereKey s c) → smGet {} t.banks k = smGet {} s.banks k

/-- An instruction of a row slot goes on, writing as RowWrote says. -/
def RowWrites (o : Host.Outcome State Fault Refusal) (s : State) (cols : List Nat) (slot lat : Nat) (dest : Nat → RDest) (latch : Latch)
    (val : Nat → VReg) : Prop :=
  ∃ t, o = .next t ∧ RowWrote s t cols slot lat dest latch val

/-- A vector result of the A slot: its destination, and LA (R93). -/
def VecWrites (o : Host.Outcome State Fault Refusal) (s : State) (g : Guard) (lat : Nat) (d : Dst) (val : Nat → VReg) : Prop :=
  RowWrites o s (s.execCols g) 1 lat (fun c => (s.here c).dest d) .la val

/-- A scalar result of the A slot: an S register, no latch (R93, R107). -/
def ScaWrites (o : Host.Outcome State Fault Refusal) (s : State) (g : Guard) (lat : Nat) (d : BitVec 4) (val : Nat → Lane) : Prop :=
  RowWrites o s (s.execCols g) 1 lat (fun _ => .s d) .no (fun c => (val c).setWidth 256)

/-- The guard of a Q or E slot instruction (R53); `cmp` and `cmpi` take theirs from IMM (R83) and are none of these. -/
def seqGuard : Instr → Option Guard
  | .br g _ | .brX g _ | .call g _ | .callX g _ | .ret g | .loop g _ _ | .lbrk g _ _ | .lidx g _ _ _ | .lidxSet g _ _ _ | .yield g | .taskEnd g
  | .trap g _ | .brk g | .mark g _ | .qMov g _ _ | .qLi g _ _ | .qLih g _ _ | .ldparam g _ _ | .ldtask g _ _ | .flagRd g _ _ _ _ | .wset g _ _
  | .wmov g _ _ | .wrd g _ _ | .tickRd g _ | .gtickRd g _ | .ctimeRd g _ | .pwrAcq g _ _ | .pwrRel g | .pwrRelRd g _ | .fenceDom g | .fencePkg g
  | .fenceSys g | .waitB g _ | .sysRd g _ _ | .sysWr g _ _ | .lrow g _ _ _ | .srow g _ _ _ | .copy g _ _ | .tierPf g _ _ | .mpRun g _ _ _ _ _
  | .gather g _ _ | .scatter g _ _ | .strmSet g _ _ | .probe g _ _ _ _ | .qwSet g _ _ _ | .qwRd g _ _ _ | .boInit g _ _ _ | .boRd g _ _
  | .taskPost g _ | .msgSend g _ _ | .msgQuiet g _ | .xchGo g _ _ _ | .knBind g _ _ | .knInv g _ | .knInvAll g | .knStat g _ _ | .dictLoad g _ _
  | .walkStart g _ | .walkStop g _ | .walkStopW g _ | .ctrRd g _ _ _ => some g
  | .qAdd o | .qAddi o | .qSub o | .qMul o | .qMulh o | .qMulhu o | .qAnd o | .qAndi o | .qOr o | .qOri o | .qXor o | .qXori o | .qShl o | .qShr o
  | .qSra o | .qMin o | .qMax o | .qMinu o | .qMaxu o | .qSel o _ _ | .atomAdd o | .atomMin o | .atomMax o | .atomAnd o | .atomOr o | .atomXor o
  | .atomSwap o | .atomCas o => some o.g
  | _ => none

/-- The narrowing conversions, each with what it does in a cell (R142-R146). -/
def NarrowOf (i : Instr) (n : Narrow) : Prop :=
  (∃ rm o, i = .cvtBf16F32 rm o ∧ n = narrowOf o 16 0 .f32 (narrowF32Bf16 (.ofBits rm))) ∨
  (∃ rm o, i = .cvtI8F32 rm o ∧ n = narrowOf o 8 0 .f32 (narrowF32Int 8 (.ofBits rm))) ∨
  (∃ rm o, i = .cvtI16F32 rm o ∧ n = narrowOf o 16 0 .f32 (narrowF32Int 16 (.ofBits rm))) ∨
  (∃ o, i = .cvtPs8F32 o ∧ n = narrowOf o 8 0x77 .f32 narrowF32Ps8) ∨
  (∃ o, i = .cvtI8I32 o ∧ n = narrowOf o 8 0 (.int 32) (narrowI32 8)) ∨
  (∃ o, i = .cvtI16I32 o ∧ n = narrowOf o 16 0 (.int 32) (narrowI32 16)) ∨
  (∃ rm o, i = .quantI8 rm o ∧ n = quantOf o 0 (quantI8Elem (.ofBits rm))) ∨
  (∃ o, i = .quantPs8 o ∧ n = quantOf o 0x77 quantPs8Elem)

end Sys2Proof.Safety
end

