-- ==== Sys2Proof/Certificates/Slice0/Obligations.lean ====
section
/-! DEFINITION. What is to be proved of the model: sixty statements, each with the rules of spec/ it rests on (OBLIGATIONS.json).

Where a statement says when a bundle waits, `s.site.picked = false` says that the selector is still asking whether the bundle may issue: a bundle it has chosen does not wait. -/

section Statements
open Sys2Proof Sys2Proof.Machine Sys2Proof.Safety

/-! ## The machine -/

/-- Reset as the spec gives it: no partition is live, no array has an owner, every context is Free, every bucket is 0, nothing is outstanding, the global tick is 0 and the
only act to come is the cold start. The memory's canonical form and the rise of the maps hold there; that a byte nothing has written reads 0 is the model's choice (log 2), and so
are the values here that the spec gives no field at reset (log 9). -/
def Obligations.ResetState : Prop :=
  let s := State.reset
  s.now = 0 ∧ s.inputs = [] ∧ s.reqs = [] ∧ Inv s ∧ MapsRise s ∧ (∀ sp a, s.byte sp a = 0) ∧
  (∀ p, (s.part p).live = false ∧ (s.part p).queue = [] ∧ (s.part p).leash = false ∧ (s.part p).faults = []) ∧
  (∀ a, (s.arr a).owner = none ∧ (s.arr a).waves = [] ∧ (s.arr a).passes = [] ∧ (s.arr a).walker.running = false) ∧
  (∀ a k, (s.ctx a k).state = .free ∧ (s.ctx a k).pend = []) ∧ (∀ c n, s.bucket c n = { total := 0, state := 0, level := 0 }) ∧
  s.due.map (fun d => (d.tick, d.act)) = [(0, .instr .coldStart)]

/-- A step takes the first thing due, or an input before it, sets the clock and the site, and runs what it names: an instruction, the instruction a slot's word decodes to, the
instruction the word at a walker's PC decodes to. Which of an input and an act of one tick comes first, and which of two acts, is the model's order (logs 1 and 3). A walker word that
decodes to none stops the machine by name; a walker stopped since then does nothing. With nothing due the clock goes on. Every instruction, at every state, answers a next state. -/
def Obligations.StepRunsDecodedInstruction : Prop :=
  (∀ (s : State) (d : Due) (rest : List Due), s.inputs = [] → s.due = d :: rest →
    let u := s.take d rest
    u = { s with due := rest, now := max s.now d.tick, site := d.site } ∧
    (∀ i, d.act = .instr i → step s = exec i u) ∧ (∀ sl w i, d.act = .slot sl w → decodeSlot sl w = some i → step s = exec i u) ∧
    (∀ a i, d.act = .walk a → walkDue u a = true → decodeW (smGet 0 (u.arr a).walker.pstore (u.arr a).walker.pc) = some i → step s = exec i u) ∧
    (∀ a, d.act = .walk a → walkDue u a = true → decodeW (walkWord u a) = none → step s = .refused .illegalWalkerWord) ∧
    (∀ a, d.act = .walk a → walkDue u a = false → step s = .next u)) ∧
  (∀ (s : State) (i : Input) (is : List Input) (j : Instr), s.inputs = i :: is → (s.due = [] ∨ ∃ d rest, s.due = d :: rest ∧ inputFirst i d = true) → i.act = .instr j →
    step s = exec j { s with inputs := is, now := max s.now i.tick, site := i.site }) ∧
  (∀ (s : State) (i : Input) (is : List Input) (d : Due) (rest : List Due) (j : Instr), s.inputs = i :: is → s.due = d :: rest → inputFirst i d = false →
    d.act = .instr j → step s = exec j (s.take d rest)) ∧
  (∀ s : State, s.inputs = [] → s.due = [] → step s = .next { s with now := s.now + 1 }) ∧
  ∀ (i : Instr) (s : State), ∃ t, exec i s = .next t

/-- The words whose encodings the spec writes out decode to the instructions they stand for, one or more of every slot, a whole bundle with its header, and the walker. -/
def Obligations.KnownWordsDecode : Prop :=
  decodeSlot .q 0x2900040000100611 = some (.qCmpi { qn := false, qg := 0, cond := 3, ctype := 0, p2 := 2, p1 := 1 } 1 8) ∧
  decodeSlot .q 0x0710000000000005 = some (.lbrk { neg := false, reg := 1 } 0 5) ∧
  decodeSlot .a 0x200088130003089200000000
    = some (.aCmp 2 { qn := false, qg := 3, cond := 2, ctype := 1, red := 2, p2 := 2, p1 := 1 } (.v 4) (.small 0) 0) ∧
  decodeSlot .a 0x83004808060400C800000000
    = some (.quantI8 0 { g := { neg := false, reg := 0 }, part := 1, qw := 6, d := .v 9, a := .v 2, s := .v 3, base := .s 4, imm := 0 }) ∧
  decodeSlot .m 0x0A00503000000000 = some (.stq { neg := false, reg := 0 } 3 (.v 5)) ∧
  decodeSlot .t 0x2000010000250000
    = some (.mmPs8 { g := { neg := false, reg := 0 }, arow := 8, acol := 0, cnt := 2, qw := 5, walk := false, fwd := false }) ∧
  decodeSlot .t 0x4400810000000000 = some (.accRd { neg := false, reg := 0 } (.v 4) 8 0) ∧
  decodeSlot .t 0x2C00010000150C21 = some (.mmd 8 1 5 0x0C21) ∧
  decodeSlot .e 0x0204298000000000 = some (.lrow { neg := false, reg := 0 } 3 4 5) ∧
  decodeSlot .e 0x6006000000000C21 = some (.knBind { neg := false, reg := 0 } 6 0x0C21) ∧
  decodeSlot .e 0x7203000100000000 = some (.walkStopW { neg := false, reg := 0 } 3) ∧
  decodeW 0x5008D000#32 = some (.wCwinA 2 3 1 0) ∧ decodeW 0x61400000#32 = some (.wIsect 5) ∧ decodeW 0x49410000#32 = some (.wQpop 5 4) ∧
  bundleInstrs (0x01FE1000#32 ++ 0#64 ++ 0x6000280E0A00000000000000#96 ++ 0#64 ++ 0#64 ++ 0#64)
    = some [(.a, .fadd 0 { g := { neg := false, reg := 0 }, d := .v 5, a := .v 3, b := .nbW, imm := 0 })]

/-- Decoding the word of a well-formed instruction gives it back, for every slot instruction and every walker instruction, with every operand at every value it may have. -/
def Obligations.DecodeOfEncode : Prop :=
  ∀ (i : Instr) (sl : Option Slot) (w : Nat), i.wf = true → encode i = some (sl, w) → decodeWord sl w = some i

/-- The canonical form of memory is kept by every step, from every state that has it: addresses rise, and no listed byte is one an unlisted address reads as. -/
def Obligations.StepKeepsMemoryCanonical : Prop := ∀ s t : State, Inv s → step s = .next t → Inv t

/-- Every step keeps every sparse map of the state in rising order of its keys: each context, bank, cell, array, tower, stack, partition and accumulator row stands once. -/
def Obligations.StepKeepsMapsRising : Prop := ∀ s t : State, MapsRise s → step s = .next t → MapsRise t

/-- R53: a Q or E slot whose guard is false has no effect: no register or memory write, no fault, no stall, no queue movement (the compares, which have no guard of their own in
GQ, apart). -/
def Obligations.FalseGuardDoesNothing : Prop := ∀ (s : State) (i : Instr) (g : Guard), seqGuard i = some g → s.guardQ g = false → exec i s = .next s

/-- R32, R77, R97: a write of latency L by bundle n (due at n + L) is not read by a bundle before n + L and is read by that bundle and those after it, where no pending write comes after it;
it stays pending until then. For the sequencer's X, Q and W registers and for a cell's registers and latches. -/
def Obligations.WritesLandWhenDue : Prop :=
  (∀ (c : Ctx) (e : PendEntry) (m : Nat), let t := ({ c with pend := insertPend e c.pend } : Ctx).landPend m
    (m < e.due → t.x = (c.landPend m).x ∧ t.q = (c.landPend m).q ∧ t.w = (c.landPend m).w ∧ e ∈ t.pend) ∧
    (e.due ≤ m → (∀ f ∈ c.pend, f.due < e.due ∨ f.due = e.due ∧ (f.n < e.n ∨ f.n = e.n ∧ f.slot ≤ e.slot)) →
      t.pend = [] ∧ (∀ i, e.dest = .x i → t.xreg i = e.val) ∧ (∀ k, e.dest = .q k → k ≠ 0 → t.qreg k = e.val.getLsbD 0) ∧
      (∀ k, e.dest = .w k → t.wreg k = e.val.setWidth 32))) ∧
  ∀ (b : Bank) (e : LwbEntry) (m : Nat), let t := (b.addLate e).landLate m
    (m < e.due → t.v = (b.landLate m).v ∧ t.o = (b.landLate m).o ∧ t.s = (b.landLate m).s ∧ t.b = (b.landLate m).b ∧ t.p = (b.landLate m).p ∧
      t.la = (b.landLate m).la ∧ t.lm = (b.landLate m).lm ∧ ∃ f ∈ t.lwb, f.due = e.due ∧ f.dest = e.dest ∧ f.val = e.val) ∧
    (e.due ≤ m → (∀ f ∈ b.lwb, f.due < e.due ∨ f.due = e.due ∧ (f.n < e.n ∨ f.n = e.n ∧ f.slot ≤ e.slot)) →
      t.lwb = [] ∧ (∀ i, e.dest = .v i → t.vreg i = e.val) ∧ (∀ i, e.dest = .o i → t.oreg i = e.val) ∧ (∀ i, e.dest = .s i → t.sreg i = e.val.setWidth 32) ∧
      (∀ k, e.dest = .b k → t.breg k = e.val.setWidth 6) ∧
      (∀ mask k, e.dest = .p mask → 0 < k → k < 8 → mask.getLsbD k = true → t.p.getLsbD k = e.val.getLsbD k) ∧
      (e.latch = .la → t.la = e.val) ∧ (e.latch = .lm → t.lm = e.val))

/-- R356, R357, R359: taking a fault of a context in a partition that has none raises the leash, files the fault as the primary record, marks the context, and sends the leash on its way to
every engine of the partition, to arrive within 48 ticks; nothing but partitions, contexts, the agenda and the count of free values is changed, and no other partition. Under a
leash that HALT raised the fault is counted and files no record (R400; DEDUCED, log 10). -/
def Obligations.FaultIsTaken : Prop :=
  ∀ (s : State) (code sub addr : Nat) (before : Bool), let p := s.me.part
    let t := (ctxFault code sub addr before).run s
    let kind := if code = 0x60 ∧ (sub = 5 ∨ sub = 6) then 7 else 1
    t = { s with parts := t.parts, ctxs := t.ctxs, due := t.due, free := t.free } ∧ (∀ q, q ≠ p → t.part q = s.part q) ∧
    t.ctxs = (withMe s { s.me with faulted := true, faultAt := if s.me.faulted then s.me.faultAt else s.now }).ctxs ∧
    ((s.part p).byHalt = true → code ≠ 0x90 → t.due = s.due ∧ t.part p = { s.part p with
      nsup := smSet (s.part p).nsup (engineKey kind s.site.arr s.site.ctx) (min (smGet 0 (s.part p).nsup (engineKey kind s.site.arr s.site.ctx) + 1) (2 ^ 32 - 1)) }) ∧
    ((s.part p).byHalt = false → (s.part p).leash = false → (s.part p).faults = [] →
    (t.part p).leash = true ∧ (t.part p).tasks = (s.part p).tasks ∧
    (∃ f, (t.part p).faults = [f] ∧ f.primary = true ∧ f.kind = kind ∧ f.unit = s.site.arr ∧ f.ctx = s.site.ctx ∧ f.code = code ∧ f.sub = sub ∧
      (addr ≠ noAddr → f.addr = addr) ∧ f.before = before ∧ f.seq = (if before then s.me.ctime else s.site.n) ∧ f.pos = (if before then s.site.pos else s.me.pc) ∧
      f.tag = s.me.tag.toNat ∧ f.fgt = s.now) ∧
    ∀ e ∈ enginesOf s p, ∃ d ∈ t.due, d.act = .instr .leashReach ∧ d.site.a = p ∧ d.site.b = e.1 ∧ d.site.c = e.2 ∧ s.now ≤ d.tick ∧ d.tick ≤ s.now + 48)

/-- R110: `popc` (OP 0x44) and `clz` (OP 0x45) of types 0 to 5: element i of the result is the number of 1 bits, or of leading zero bits, of element i of the source; `clz` of 0 is the
width. -/
def Obligations.CountBits : Prop :=
  ∀ (s : State) (t : BitVec 3) (u : AUn),
    let w := ityWidth t
    let a := fun (c i : Nat) => elem w i (s.src (.int w) c u.imm u.a)
    ((Instr.popc t u).wf = true → t.toNat ≤ 5) ∧ ((Instr.clz t u).wf = true → t.toNat ≤ 5) ∧
    (∀ f, encA (.popc t u) = some f → f.op = 0x44) ∧ (∀ f, encA (.clz t u) = some f → f.op = 0x45) ∧
    (∃ v, VecWrites (exec (.popc t u) s) s u.g 1 u.d v ∧ ∀ c i, i < 256 / w → elem w i (v c) = ((List.range w).filter fun b => (a c i).testBit b).length) ∧
    ∃ v, VecWrites (exec (.clz t u) s) s u.g 1 u.d v ∧ ∀ c i, i < 256 / w →
      (a c i = 0 → elem w i (v c) = w) ∧ (a c i ≠ 0 → ∃ z, z < w ∧ elem w i (v c) = z ∧ 2 ^ (w - 1 - z) ≤ a c i ∧ a c i < 2 ^ (w - z))

/-- R134: `fabs` (OP 0x69) clears bit 31 of every lane and `fneg` (OP 0x6A) inverts it; every other bit stays, so a NaN keeps its payload and its quiet bit. -/
def Obligations.SignBitOnly : Prop :=
  ∀ (s : State) (u : AUn),
    let a := fun (c l : Nat) => elem 32 l (s.src .f32 c u.imm u.a)
    (∀ f, encA (.fabs u) = some f → f.op = 0x69) ∧ (∀ f, encA (.fneg u) = some f → f.op = 0x6A) ∧
    (∃ v, VecWrites (exec (.fabs u) s) s u.g 1 u.d v ∧ ∀ c l, l < 8 → (elem 32 l (v c)).testBit 31 = false ∧
      ∀ b, b < 31 → (elem 32 l (v c)).testBit b = (a c l).testBit b) ∧
    ∃ v, VecWrites (exec (.fneg u) s) s u.g 1 u.d v ∧ ∀ c l, l < 8 → (elem 32 l (v c)).testBit 31 = !(a c l).testBit 31 ∧
      ∀ b, b < 31 → (elem 32 l (v c)).testBit b = (a c l).testBit b

/-- R407: a bucket is read as a 64-bit word: TOTAL in bits 63:32, STATE in 31:30, zeros in 29:16, LEVEL in 15:0, all 0 at reset; TOTAL and LEVEL saturate, and an event after
STATE has left 0 counts in TOTAL only. -/
def Obligations.BucketWord : Prop :=
  (∀ c n, State.reset.bucket c n = { total := 0, state := 0, level := 0 }) ∧
  (∀ s : State, let c := fieldAt s.site.frame.body 0 1
    let n := fieldAt s.site.frame.body 2 2
    let b := s.bucket c n
    booted s = true → s.site.frame.princ = 0 → n < resourceCount c → b.total < 2 ^ 32 → b.state < 4 → b.level < 2 ^ 16 →
    ∃ w, exec .repairRead s = .next (answered s 0 0 (natBytes 8 w)) ∧ w / 2 ^ 32 = b.total ∧ w / 2 ^ 30 % 4 = b.state ∧ w / 2 ^ 16 % 2 ^ 14 = 0 ∧ w % 2 ^ 16 = b.level) ∧
  ∀ (s : State) (c n weight : Nat), let b := s.bucket c n
    let t := ((bucketEvent c n weight).run s).bucket c n
    t.total = min (b.total + 1) 0xFFFFFFFF ∧ (b.state = 0 → t.level = min (b.level + weight) 0xFFFF) ∧ (b.state ≠ 0 → t.level = b.level ∧ t.state = b.state)

/-! ## The Q slot -/

/-- R82: each scalar instruction with a result writes it, mod 2^64, to its destination with its latency, and changes nothing else.

R80, R85-R87, R89, R353: the instructions that read a state of the sequencer into an X register, and nothing else changes.

R86: `flag.rd` of any, all or count of a predicate at a distance: 0 where no bundle is that far back; in a gang the distance must be at least 34. The word `pwr.rel.rd` gives of a
lease kept over a stop is the model's (log 13). -/
def Obligations.SequencerResults : Prop :=
  (∀ (s : State) (g : Guard) (xd xa xb : BitVec 5) (imm : BitVec 32) (n : QCount) (neg : Bool) (k : BitVec 3), s.guardQ g = true →
    let a := s.x xa
    let b := s.x xb
    let i := imm.signExtend 64
    let cnt := match n with
      | .reg r => (s.x r).toNat % 64
      | .imm m => m.toNat
    let rrr : QRRR := { g, xd, xa, xb }
    let rri : QRRI := { g, xd, xa, imm }
    let sh : QShift := { g, xd, xa, n }
    exec (.qAdd rrr) s = .next (xWrite s 1 xd (a + b)) ∧ exec (.qAddi rri) s = .next (xWrite s 1 xd (a + i)) ∧
    exec (.qSub rrr) s = .next (xWrite s 1 xd (a - b)) ∧ exec (.qMul rrr) s = .next (xWrite s 2 xd (a * b)) ∧
    exec (.qMulh rrr) s = .next (xWrite s 2 xd (BitVec.ofInt 64 (a.toInt * b.toInt / 2 ^ 64))) ∧
    exec (.qMulhu rrr) s = .next (xWrite s 2 xd (BitVec.ofNat 64 (a.toNat * b.toNat / 2 ^ 64))) ∧
    exec (.qAnd rrr) s = .next (xWrite s 1 xd (a &&& b)) ∧ exec (.qAndi rri) s = .next (xWrite s 1 xd (a &&& i)) ∧
    exec (.qOr rrr) s = .next (xWrite s 1 xd (a ||| b)) ∧ exec (.qOri rri) s = .next (xWrite s 1 xd (a ||| i)) ∧
    exec (.qXor rrr) s = .next (xWrite s 1 xd (a ^^^ b)) ∧ exec (.qXori rri) s = .next (xWrite s 1 xd (a ^^^ i)) ∧
    exec (.qShl sh) s = .next (xWrite s 1 xd (a <<< cnt)) ∧ exec (.qShr sh) s = .next (xWrite s 1 xd (a >>> cnt)) ∧
    exec (.qSra sh) s = .next (xWrite s 1 xd (a.sshiftRight cnt)) ∧
    exec (.qMin rrr) s = .next (xWrite s 1 xd (if a.toInt ≤ b.toInt then a else b)) ∧
    exec (.qMax rrr) s = .next (xWrite s 1 xd (if a.toInt ≤ b.toInt then b else a)) ∧
    exec (.qMinu rrr) s = .next (xWrite s 1 xd (if a.toNat ≤ b.toNat then a else b)) ∧
    exec (.qMaxu rrr) s = .next (xWrite s 1 xd (if a.toNat ≤ b.toNat then b else a)) ∧
    exec (.qMov g xd xa) s = .next (xWrite s 1 xd a) ∧ exec (.qLi g xd imm) s = .next (xWrite s 1 xd i) ∧
    exec (.qLih g xd imm) s = .next (xWrite s 1 xd (imm ++ (s.x xd).setWidth 32)) ∧
    exec (.qSel rrr neg k) s = .next (xWrite s 1 xd (if s.me.qreg k != neg then a else b))) ∧
  (∀ (s : State) (g : Guard) (xd : BitVec 5) (k : BitVec 3) (f2 : BitVec 2) (k4 : BitVec 4) (num : BitVec 12), s.guardQ g = true →
    exec (.lidx g xd k f2) s = .next (xWrite s 1 xd (((s.me.loop k.toNat).field f2).setWidth 64)) ∧
    exec (.ldparam g xd k4) s = .next (xWrite s 2 xd (BitVec.ofNat 64 (s.recField s.me.part s.me.launch (80 + 8 * k4.toNat) 8))) ∧
    exec (.ldtask g xd 0) s = .next (xWrite s 2 xd (BitVec.ofNat 64 s.site.arr)) ∧
    exec (.ldtask g xd 1) s = .next (xWrite s 2 xd (BitVec.ofNat 64 s.site.ctx)) ∧
    exec (.ldtask g xd 2) s = .next (xWrite s 2 xd (BitVec.ofNat 64 s.me.part)) ∧
    exec (.ldtask g xd 3) s = .next (xWrite s 2 xd s.me.tag) ∧
    exec (.ldtask g xd 4) s = .next (xWrite s 2 xd (BitVec.ofNat 64 s.me.task)) ∧
    exec (.ldtask g xd 5) s = .next (xWrite s 2 xd (BitVec.ofNat 64 s.me.h)) ∧
    exec (.ldtask g xd 6) s = .next (xWrite s 2 xd (BitVec.ofNat 64 s.me.role)) ∧
    exec (.ldtask g xd 7) s = .next (xWrite s 2 xd (BitVec.ofNat 64 s.me.dsz)) ∧
    exec (.ldtask g xd 8) s = .next (xWrite s 2 xd (BitVec.ofNat 64 s.me.csz)) ∧
    exec (.ldtask g xd 9) s = .next (xWrite s 2 xd (BitVec.ofNat 64 s.me.nlev)) ∧
    exec (.ldtask g xd 10) s = .next (xWrite s 2 xd s.me.arg) ∧
    exec (.wrd g xd k4) s = .next (xWrite s 1 xd ((s.me.wreg k4).setWidth 64)) ∧
    exec (.tickRd g xd) s = .next (xWrite s 1 xd (BitVec.ofNat 64 (s.now - (s.tower (s.site.arr / 8)).lag))) ∧
    exec (.gtickRd g xd) s = .next (xWrite s 1 xd (BitVec.ofNat 64 s.now)) ∧
    exec (.ctimeRd g xd) s = .next (xWrite s 1 xd (BitVec.ofNat 64 (s.me.seqOf s.site.n))) ∧
    exec (.pwrRelRd g xd) s = .next (xWrite s 2 xd (BitVec.ofNat 64 (leaseWord s s.me))) ∧
    exec (.sysRd g xd num) s = .next (xWrite s 2 xd (sysReg s num))) ∧
  ∀ (s : State) (g : Guard) (xd : BitVec 5) (mode : BitVec 2) (k : BitVec 3) (d : BitVec 6), s.guardQ g = true →
    (s.me.h = 32 → d.toNat < 34 → exec (.flagRd g xd mode k d) s = faultsAtIssue s 0x01 3 noAddr) ∧
    ((s.me.h ≠ 32 ∨ 34 ≤ d.toNat) → s.site.n < d.toNat → exec (.flagRd g xd mode k d) s = .next (xWrite s 1 xd 0)) ∧
    ((s.me.h ≠ 32 ∨ 34 ≤ d.toNat) → d.toNat ≤ s.site.n →
      exec (.flagRd g xd mode k d) s = .next (xWrite s 1 xd (BitVec.ofNat 64 ((s.me.flagAgg (s.site.n - d.toNat) k.toNat).read mode))))

/-- R79-R81, R87-R89: the Q instructions that write a state of the sequencer other than X, each with nothing else changed.

R83: what `cmp` and `cmpi` write to their two predicates under each combining type; a predicate that keeps its value is not written, and nothing else changes. -/
def Obligations.SequencerWrites : Prop :=
  (∀ (s : State) (g : Guard) (k4 : BitVec 4) (xa : BitVec 5) (imm : BitVec 32) (n : BitVec 8), s.guardQ g = true →
    exec (.wset g k4 imm) s = .next (seqWrite s 0 1 (.w k4) (imm.setWidth 64)) ∧
    exec (.wmov g k4 xa) s = .next (seqWrite s 0 1 (.w k4) (((s.x xa).setWidth 32).setWidth 64)) ∧
    exec (.yield g) s = .next (withMe s { s.me with yielded := true }) ∧
    exec (.mark g n) s = .next (withMe s { s.me with phase := n }) ∧
    exec (.fenceDom g) s = .next (withMe s { s.me with fences := s.me.fences ++ [(s.site.n, 0)] }) ∧
    exec (.fencePkg g) s = .next (withMe s { s.me with fences := s.me.fences ++ [(s.site.n, 1)] }) ∧
    exec (.fenceSys g) s = .next (withMe s { s.me with fences := s.me.fences ++ [(s.site.n, 2)] }) ∧
    exec (.sysWr g 0x010 xa) s = .next (withMe s { s.me with dbg := (s.x xa).setWidth 2 })) ∧
  ∀ (s : State) (c : QCmpF) (xa xb : BitVec 5) (simm : BitVec 15),
    let g := s.me.qreg c.qg != c.qn
    let p1 := s.me.qreg c.p1
    let p2 := s.me.qreg c.p2
    let wr := fun (v1 v2 : Bool) => (.next (seqWrite (seqWrite s 0 1 (.q c.p1) (if v1 then 1 else 0)) 0 1 (.q c.p2) (if v2 then 1 else 0))
      : Host.Outcome State Fault Refusal)
    ∀ (i : Instr) (r : Bool),
      (i = .qCmp c xa xb ∧ r = condHolds c.cond (s.x xa) (s.x xb) ∨ i = .qCmpi c xa simm ∧ r = condHolds c.cond (s.x xa) (simm.signExtend 64)) →
      let r2 := if c.ctype.getLsbD 2 then r else !r
      (c.ctype.toNat % 4 = 0 → exec i s = if g then wr r r2 else .next s) ∧
      (c.ctype.toNat % 4 = 1 → exec i s = wr (g && r) (g && r2)) ∧
      (c.ctype.toNat % 4 = 2 → exec i s = if g then wr (p1 && r) (p2 && r2) else .next s) ∧
      (c.ctype.toNat % 4 = 3 → exec i s = if g then wr (p1 || r) (p2 || r2) else .next s)

/-- R79, R80: branches, calls, returns and loops move PC, and change only what they name; a call at depth 16, a return at depth 0 and a loop whose end is its start
fault before issue. The position a call pushes is taken mod 2^16 (log 21). A `loop` at whose level a checkpoint is asked for makes its unit Saving (R347). -/
def Obligations.QControlResult : Prop :=
  ∀ (s : State) (g : Guard) (xa xb : BitVec 5) (t : BitVec 16) (k : BitVec 3), s.guardQ g = true →
    let c := s.me
    let next := if c.widePc = 0 then c.pc else c.widePc
    let l := c.loop k.toNat
    let a : BitVec 32 := (s.x xa).setWidth 32
    let b : BitVec 32 := (s.x xb).setWidth 32
    exec (.br g t) s = .next (withMe s { c with pc := t.toNat, widePc := 0 }) ∧
    ((s.x xa).toNat < 2 ^ 16 → exec (.brX g xa) s = .next (withMe s { c with pc := (s.x xa).toNat, widePc := 0 })) ∧
    (2 ^ 16 ≤ (s.x xa).toNat → exec (.brX g xa) s = .next (withMe s { c with pc := 0xFFFF, widePc := (s.x xa).toNat })) ∧
    (c.depth < 16 → exec (.call g t) s
      = .next (withMe s { c with pc := t.toNat, widePc := 0, cs := smSet c.cs c.depth (next % 2 ^ 16), depth := c.depth + 1 })) ∧
    (c.depth < 16 → (s.x xa).toNat < 2 ^ 16 → exec (.callX g xa) s
      = .next (withMe s { c with pc := (s.x xa).toNat, widePc := 0, cs := smSet c.cs c.depth (next % 2 ^ 16), depth := c.depth + 1 })) ∧
    (c.depth < 16 → 2 ^ 16 ≤ (s.x xa).toNat → exec (.callX g xa) s
      = .next (withMe s { c with pc := 0xFFFF, widePc := (s.x xa).toNat, cs := smSet c.cs c.depth (next % 2 ^ 16), depth := c.depth + 1 })) ∧
    (c.depth ≠ 0 → exec (.ret g) s = .next (withMe s { c with pc := smGet 0 c.cs (c.depth - 1), widePc := 0, depth := c.depth - 1 })) ∧
    (16 ≤ c.depth → exec (.call g t) s = faultsAtIssue s 0x04 0 noAddr ∧ exec (.callX g xa) s = faultsAtIssue s 0x04 0 noAddr) ∧
    (c.depth = 0 → exec (.ret g) s = faultsAtIssue s 0x04 1 noAddr) ∧
    (l.stop = l.start → exec (.loop g k t) s = faultsAtIssue s 0x05 0 noAddr) ∧
    (c.role ≠ 2 → c.role ≠ 3 → c.state ≠ .saving → (∃ r ∈ c.preq, r.mode = 1 ∧ k.toNat ≤ r.lq) → k.toNat < c.nlev → l.stop ≠ l.start → l.count ≠ 1 →
      exec (.loop g k t) s = .next (laterAct (withMe s
        { (c.setLoop k.toNat { l with count := l.count - 1, index := l.index + 1 }) with pc := t.toNat, widePc := 0, state := .saving })
        0 rankEnd { arr := s.site.arr, ctx := s.site.ctx } (.instr .checkpointSave))) ∧
    (c.preq = [] → l.stop ≠ l.start → l.count ≠ 1 → exec (.loop g k t) s
      = .next (withMe s { (c.setLoop k.toNat { l with count := l.count - 1, index := l.index + 1 }) with pc := t.toNat, widePc := 0 })) ∧
    (c.preq = [] → l.stop ≠ l.start → l.count = 1 → exec (.loop g k t) s
      = .next (withMe s (c.setLoop k.toNat { l with index := l.start, count := l.stop - l.start }))) ∧
    exec (.lbrk g k t) s
      = .next (withMe s { (c.setLoop k.toNat { l with index := l.start, count := l.stop - l.start }) with pc := t.toNat, widePc := 0 }) ∧
    (k.toNat < c.nlev → exec (.lidxSet g k xa xb) s = faultsAtIssue s 0x05 1 noAddr) ∧
    (c.nlev ≤ k.toNat → b.toNat < a.toNat → exec (.lidxSet g k xa xb) s = faultsAtIssue s 0x05 2 noAddr) ∧
    (c.nlev ≤ k.toNat → a.toNat ≤ b.toNat → exec (.lidxSet g k xa xb) s
      = .next (withMe s (c.setLoop k.toNat { index := a, count := b - a, start := a, stop := b })))

/-- R88, R380: a `wait.b` whose object is complete and a `pwr.acq` that has its grant let their bundle issue and change nothing; with the object not complete, or with
no grant, the context is Stalled, and the request is filed; an operand that names no object of the window, an object whose line is uncorrectable (R228), a level beyond 96 units and
a second lease fault before issue.

R81, R357: a trap is taken after its bundle issues, as fault 0x06 with its number; `brk` is taken as fault 0x07 with BKEN = 1 and is nothing with BKEN = 0.

R381: `pwr.rel` of a lease lets it end when H more ticks have passed; without a lease, or of one released already, it is nothing.

R81: `task.end` leaves its context Free in the tick it issues, and the context starts no task for H ticks more. -/
def Obligations.SequencerWaitsAndEnds : Prop :=
  (∀ (s : State) (g : Guard) (xa : BitVec 5) (level : BitVec 7) (lease : BitVec 12), s.guardQ g = true →
    let off := (s.x xa).toNat
    let beyond := (spanned s.site.arr s.me.h).any fun b => decide (96 < allowance s b + level.toNat)
    (off % 32 = 0 → s.inMyWin off 32 = true → waitLineBad off s = false → s.objComplete (s.myWin off) = true → exec (.waitB g xa) s = .next s) ∧
    (off % 32 = 0 → s.inMyWin off 32 = true → waitLineBad off s = true → exec (.waitB g xa) s = faultsAtIssue s 0x44 0 noAddr) ∧
    (off % 32 ≠ 0 → exec (.waitB g xa) s = faultsAtIssue s 0x11 0 off) ∧
    (off % 32 = 0 → s.inMyWin off 32 = false → exec (.waitB g xa) s = faultsAtIssue s 0x14 0 off) ∧
    (s.site.picked = false → off % 32 = 0 → s.inMyWin off 32 = true → waitLineBad off s = false → s.objComplete (s.myWin off) = false →
      exec (.waitB g xa) s = .next (withMe s { s.me with state := .stalled })) ∧
    (beyond = false → s.me.granted = s.site.n + 1 → s.me.grantTick < s.now → exec (.pwrAcq g level lease) s = .next s) ∧
    (beyond = true → exec (.pwrAcq g level lease) s = faultsAtIssue s 0x31 0 noAddr) ∧
    (beyond = false → (s.me.lease ≠ none ∨ s.me.saved ≠ none) → s.me.granted ≠ s.site.n + 1 → exec (.pwrAcq g level lease) s = faultsAtIssue s 0x31 1 noAddr) ∧
    (s.site.picked = false → beyond = false → s.me.lease = none → s.me.saved = none → s.me.granted ≠ s.me.ctime + 1 → s.me.granted ≠ s.site.n + 1 →
      let filed : LeaseReq := { level := level.toNat, ticks := (lease.toNat + 1) * 1250, filed := s.now }
      exec (.pwrAcq g level lease) s = .next (withMe s { s.me with state := .stalled, acq := if s.me.acq.isNone then some filed else s.me.acq }))) ∧
  (∀ (s : State) (g : Guard) (n : BitVec 8), s.guardQ g = true →
    exec (.trap g n) s = .next ((ctxFault 0x06 n.toNat noAddr false).run s) ∧
    (s.me.dbg.getLsbD 0 = true → exec (.brk g) s = .next ((ctxFault 0x07 0 noAddr false).run s)) ∧
    (s.me.dbg.getLsbD 0 = false → exec (.brk g) s = .next s)) ∧
  (∀ (s : State) (g : Guard), s.guardQ g = true →
    (s.me.lease = none → exec (.pwrRel g) s = .next s) ∧
    (s.me.released ≠ none → exec (.pwrRel g) s = .next s) ∧
    (s.me.lease ≠ none → s.me.released = none → exec (.pwrRel g) s = .next (laterAct (withMe s { s.me with released := some s.site.n }) s.me.h rankEvent
      { arr := s.site.arr, ctx := s.site.ctx, n := s.site.n } (.instr .leaseReleaseEffect)))) ∧
  ∀ (s : State) (g : Guard), s.guardQ g = true → ∃ t, exec (.taskEnd g) s = .next t ∧ t.me.state = .free ∧ t.me.freeFrom = s.tick + s.me.h ∧ t.mem = s.mem

/-! ## The A slot -/

/-- R103-R106, R108-R110: each integer vector instruction writes, in every executing cell, its result to its destination and LA with its latency; nothing else changes. -/
def Obligations.VectorIntegerResult : Prop :=
  ∀ (s : State) (t op : BitVec 3) (o : ABin) (u : AUn) (m : ATern) (k : BitVec 5) (sel : BitVec 24) (ex : Bool) (b : SSrc) (imm : BitVec 32),
    let fmt := RdFmt.int (ityWidth t)
    let a2 := fun c => s.src fmt c o.imm o.a
    let b2 := fun c => s.src fmt c o.imm o.b
    let l2 := fun c => s.src (.int 32) c o.imm o.a
    let r2 := fun c => s.src (.int 32) c o.imm o.b
    let a1 := fun c => s.src fmt c u.imm u.a
    let l1 := fun c => s.src (.int 32) c u.imm u.a
    let a3 := fun c => s.src fmt c m.imm m.a
    let b3 := fun c => s.src fmt c m.imm m.b
    let c3 := fun c => s.src fmt c m.imm m.c
    VecWrites (exec (.aAdd t o) s) s o.g 1 o.d (fun c => vAdd t (a2 c) (b2 c)) ∧ VecWrites (exec (.aSub t o) s) s o.g 1 o.d (fun c => vSub t (a2 c) (b2 c)) ∧
    VecWrites (exec (.adds t o) s) s o.g 1 o.d (fun c => vAdds t (a2 c) (b2 c)) ∧ VecWrites (exec (.subs t o) s) s o.g 1 o.d (fun c => vSubs t (a2 c) (b2 c)) ∧
    VecWrites (exec (.aMul t o) s) s o.g 2 o.d (fun c => vMul t (a2 c) (b2 c)) ∧ VecWrites (exec (.aMulh t o) s) s o.g 2 o.d (fun c => vMulh t (a2 c) (b2 c)) ∧
    VecWrites (exec (.mad t m) s) s m.g 2 m.d (fun c => vMad t (a3 c) (b3 c) (c3 c)) ∧ VecWrites (exec (.abs t u) s) s u.g 1 u.d (fun c => vAbs t (a1 c)) ∧
    VecWrites (exec (.neg t u) s) s u.g 1 u.d (fun c => vNeg t (a1 c)) ∧ VecWrites (exec (.aMin t o) s) s o.g 1 o.d (fun c => vMin t (a2 c) (b2 c)) ∧
    VecWrites (exec (.aMax t o) s) s o.g 1 o.d (fun c => vMax t (a2 c) (b2 c)) ∧
    VecWrites (exec (.aAnd o) s) s o.g 1 o.d (fun c => l2 c &&& r2 c) ∧ VecWrites (exec (.aOr o) s) s o.g 1 o.d (fun c => l2 c ||| r2 c) ∧
    VecWrites (exec (.aXor o) s) s o.g 1 o.d (fun c => l2 c ^^^ r2 c) ∧ VecWrites (exec (.andn o) s) s o.g 1 o.d (fun c => l2 c &&& ~~~(r2 c)) ∧
    VecWrites (exec (.not u) s) s u.g 1 u.d (fun c => ~~~(l1 c)) ∧
    VecWrites (exec (.aShl t o) s) s o.g 1 o.d (fun c => vShl t (a2 c) (b2 c)) ∧ VecWrites (exec (.aShr t o) s) s o.g 1 o.d (fun c => vShr t (a2 c) (b2 c)) ∧
    VecWrites (exec (.aSra t o) s) s o.g 1 o.d (fun c => vSra t (a2 c) (b2 c)) ∧ VecWrites (exec (.aSel t m) s) s m.g 1 m.d (fun c => vSel t (a3 c) (b3 c) (c3 c)) ∧
    VecWrites (exec (.aMov u) s) s u.g 1 u.d l1 ∧ VecWrites (exec (.perm u.g u.d u.a sel) s) s u.g 1 u.d (fun c => vPerm sel (s.src (.int 32) c 0 u.a)) ∧
    VecWrites (exec (.permv o) s) s o.g 1 o.d (fun c => vPermv (l2 c) (r2 c)) ∧ VecWrites (exec (.bcast t k u) s) s u.g 1 u.d (fun c => vBcast t k.toNat (a1 c)) ∧
    VecWrites (exec (.bcasts t u.g u.d b imm) s) s u.g 1 u.d (fun c => vSplat t (s.ssrc c imm b)) ∧
    VecWrites (exec (.red op t u) s) s u.g 2 u.d (fun c => vRed op t (a1 c)) ∧ VecWrites (exec (.scan op ex t u) s) s u.g 2 u.d (fun c => vScan op ex t (a1 c)) ∧
    VecWrites (exec (.popc t u) s) s u.g 1 u.d (fun c => vPopc t (a1 c)) ∧ VecWrites (exec (.clz t u) s) s u.g 1 u.d (fun c => vClz t (a1 c))

/-- R132-R134, R136-R141, R143: the FP32 instructions and widening conversions, lane by lane; nothing else changes. -/
def Obligations.VectorFloatResult : Prop :=
  ∀ (s : State) (rm p : BitVec 2) (t : BitVec 3) (o : ABin) (u : AUn) (m : ATern),
    let md := RMode.ofBits rm
    let a2 := fun c => s.src .f32 c o.imm o.a
    let b2 := fun c => s.src .f32 c o.imm o.b
    let a1 := fun c => s.src .f32 c u.imm u.a
    let f3 := fun (f : Nat → Nat → Nat → Nat) c => f32Tern f (s.src .f32 c m.imm m.a) (s.src .f32 c m.imm m.b) (s.src .f32 c m.imm m.c)
    VecWrites (exec (.fadd rm o) s) s o.g 3 o.d (fun c => f32Bin (f32Add md) (a2 c) (b2 c)) ∧
    VecWrites (exec (.fsub rm o) s) s o.g 3 o.d (fun c => f32Bin (f32Sub md) (a2 c) (b2 c)) ∧
    VecWrites (exec (.fmul rm o) s) s o.g 3 o.d (fun c => f32Bin (f32Mul md) (a2 c) (b2 c)) ∧
    VecWrites (exec (.fma rm m) s) s m.g 4 m.d (f3 (f32Fma md false false)) ∧ VecWrites (exec (.fms rm m) s) s m.g 4 m.d (f3 (f32Fma md false true)) ∧
    VecWrites (exec (.fnma rm m) s) s m.g 4 m.d (f3 (f32Fma md true false)) ∧ VecWrites (exec (.fnms rm m) s) s m.g 4 m.d (f3 (f32Fma md true true)) ∧
    VecWrites (exec (.fmin o) s) s o.g 1 o.d (fun c => f32Bin (f32MinMax true) (a2 c) (b2 c)) ∧
    VecWrites (exec (.fmax o) s) s o.g 1 o.d (fun c => f32Bin (f32MinMax false) (a2 c) (b2 c)) ∧
    VecWrites (exec (.fabs u) s) s u.g 1 u.d (fun c => f32Un (fun x => x % 2 ^ 31) (a1 c)) ∧
    VecWrites (exec (.fneg u) s) s u.g 1 u.d (fun c => f32Un (fun x => (x + 2 ^ 31) % 2 ^ 32) (a1 c)) ∧
    VecWrites (exec (.fclass u) s) s u.g 1 u.d (fun c => f32Un f32Class (a1 c)) ∧ VecWrites (exec (.frnd rm u) s) s u.g 2 u.d (fun c => f32Un (f32Round md) (a1 c)) ∧
    VecWrites (exec (.fexp2f u) s) s u.g 6 u.d (fun c => f32Un f32Exp2 (a1 c)) ∧
    VecWrites (exec (.fexpins rm o) s) s o.g 3 o.d
      (fun c => f32Bin (fun a n => f32ExpIns md a (asSigned 32 n)) (a2 c) (s.src (.int 32) c o.imm o.b)) ∧
    VecWrites (exec (.fgetexp u) s) s u.g 2 u.d (fun c => f32Un f32GetExp (a1 c)) ∧ VecWrites (exec (.frcp rm u) s) s u.g 6 u.d (fun c => f32Un (f32Rcp md) (a1 c)) ∧
    VecWrites (exec (.frsq rm u) s) s u.g 6 u.d (fun c => f32Un (f32Rsq md) (a1 c)) ∧
    VecWrites (exec (.cvtF32Bf16 p u) s) s u.g 2 u.d
      (fun c => mkElems 32 fun l => elem 16 (8 * p.toNat + l) (s.src .bf16 c u.imm u.a) * 65536) ∧
    VecWrites (exec (.cvtF32I rm t p u) s) s u.g 2 u.d
      (fun c => mkElems 32 fun l => rndBin 23 md (Frac.ofInt (ityVal t (elem (ityWidth t) (8 * p.toNat + l) (s.src (.int (ityWidth t)) c u.imm u.a))) 1)) ∧
    VecWrites (exec (.cvtI32F32 rm u) s) s u.g 2 u.d (fun c => f32Un (f32ToI32 md) (a1 c)) ∧
    VecWrites (exec (.cvtF32Ps8 p u) s) s u.g 2 u.d (fun c => mkElems 32 fun l => f32OfPs8 (elem 8 (8 * p.toNat + l) (s.src .ps8 c u.imm u.a))) ∧
    VecWrites (exec (.cvtI32I t p u) s) s u.g 2 u.d
      (fun c => mkElems 32 fun l => wrapInt 32 (ityVal t (elem (ityWidth t) (8 * p.toNat + l) (s.src (.int (ityWidth t)) c u.imm u.a))))

/-- R107, R111: the scalar group writes its S register in every executing cell with its latency and no latch, and `bset` its B register; nothing else changes. -/
def Obligations.ScalarGroupResult : Prop :=
  ∀ (s : State) (o : SBin) (arith : Bool) (lane : BitVec 3) (a : Src) (v : SSrc) (imm : BitVec 32) (k : BitVec 2),
    let x := fun c => (s.here c).sreg o.a
    let y := fun c => s.ssrc c o.imm o.b
    ScaWrites (exec (.sadd o) s) s o.g 1 o.d (fun c => x c + y c) ∧ ScaWrites (exec (.ssub o) s) s o.g 1 o.d (fun c => x c - y c) ∧
    ScaWrites (exec (.smul o) s) s o.g 2 o.d (fun c => x c * y c) ∧ ScaWrites (exec (.sand o) s) s o.g 1 o.d (fun c => x c &&& y c) ∧
    ScaWrites (exec (.sor o) s) s o.g 1 o.d (fun c => x c ||| y c) ∧ ScaWrites (exec (.sxor o) s) s o.g 1 o.d (fun c => x c ^^^ y c) ∧
    ScaWrites (exec (.sshl o) s) s o.g 1 o.d (fun c => if 32 ≤ (y c).toNat then 0 else x c <<< (y c).toNat) ∧
    ScaWrites (exec (.sshr arith o) s) s o.g 1 o.d (fun c =>
      if 32 ≤ (y c).toNat then (if arith && (x c).msb then BitVec.allOnes 32 else 0) else if arith then (x c).sshiftRight (y c).toNat else x c >>> (y c).toNat) ∧
    ScaWrites (exec (.sli o.g o.d v imm) s) s o.g 1 o.d (fun c => s.ssrc c imm v) ∧
    ScaWrites (exec (.sget o.g o.d lane a imm) s) s o.g 1 o.d (fun c => BitVec.ofNat 32 (elem 32 lane.toNat (s.src (.int 32) c imm a))) ∧
    RowWrites (exec (.bset o.g k v imm) s) s (s.execCols o.g) 1 2 (fun _ => .b k) .no (fun c => (s.ssrc c imm v).setWidth 256)

/-- R105, R107, R135: a compare of the A slot writes, in every selected cell where its combining type writes at all, its two predicates by one bundle later. -/
def Obligations.CellCompareResult : Prop :=
  ∀ (s : State) (t : BitVec 3) (c : ACmpF) (a b : Src) (x : BitVec 4) (y : SSrc) (imm : BitVec 32),
    let wrote := fun (o : Host.Outcome State Fault Refusal) (conds : Nat → List Bool) =>
      let res := fun col =>
        let p := (s.here col).p
        combine c.ctype (p.getLsbD c.qg.toNat != c.qn) (reduceConds c.red (conds col)) (p.getLsbD c.p1.toNat) (p.getLsbD c.p2.toNat)
      let val := fun (col : Nat) => ((match res col with
        | some (v1, v2) => (if v1 then 1#8 <<< c.p1.toNat else 0) ||| (if v2 then 1#8 <<< c.p2.toNat else 0)
        | none => 0) : BitVec 8)
      RowWrites o s (s.selCols.filter fun col => (res col).isSome) 1 1 (fun _ => .p ((1#8 <<< c.p1.toNat) ||| (1#8 <<< c.p2.toNat))) .no
        (fun col => (val col).setWidth 256)
    wrote (exec (.aCmp t c a b imm) s) (fun col => vConds t c.cond (s.src (.int (ityWidth t)) col imm a) (s.src (.int (ityWidth t)) col imm b)) ∧
    wrote (exec (.scmp c x y imm) s) (fun col => [condHolds c.cond ((s.here col).sreg x) (s.ssrc col imm y)]) ∧
    wrote (exec (.fcmp c a b imm) s)
      (fun col => (List.range 8).map fun l => f32Cond c.cond.toNat (elem 32 l (s.src .f32 col imm a)) (elem 32 l (s.src .f32 col imm b)))

/-- R142, R145, R146: where every element converts and the list is fit, a narrowing conversion replaces its part of the old destination and nothing else changes;
where the first executing cell's list is not fit, or has no room for its strays, the row is blocked with fault 0x12 or 0x13 and the number of strays; strays that fit are
counted into the list's reserved pointer, with zero in their places in the result. Each stray's entry, its IDX and the bits it had, is written to the list's element after those of the
strays before it, 3 ticks on, or 4 for the quantising forms. No other bank is changed. -/
def Obligations.NarrowingResult : Prop :=
  ∀ (s : State) (i : Instr) (n : Narrow), NarrowOf i n →
    (((∃ rm o, i = .quantI8 rm o) ∨ ∃ o, i = .quantPs8 o) → n.k = 4 ∧ n.lat = 3) ∧ ((∀ rm o, i ≠ .quantI8 rm o) → (∀ o, i ≠ .quantPs8 o) → n.k = 3 ∧ n.lat = 2) ∧
    ((∀ c ∈ s.execCols n.g, n.strays s c = 0) → strayFit s n.q = true →
      VecWrites (exec i s) s n.g n.lat n.d
        (fun c => setGroup n.w n.p ((s.here c).destVal n.d) ((n.conv s c).map fun e => e.getD n.zero))) ∧
    (∀ c rest, s.execCols n.g = c :: rest → strayFit s n.q = false →
      exec i s = .next ((rowFault 0x12 (min (n.strays s c) 255) (cellOf s.site.arr s.site.row c) (cellOf s.site.arr s.site.row c)).run s)) ∧
    (∀ c rest, s.execCols n.g = c :: rest → strayFit s n.q = true → (s.pair c n.q).room (qwDepth (s.me.qword n.q s.site.n)) < n.strays s c →
      exec i s = .next ((rowFault 0x13 (min (n.strays s c) 255) (cellOf s.site.arr s.site.row c) (cellOf s.site.arr s.site.row c)).run s)) ∧
    ((∀ c ∈ s.execCols n.g, n.strays s c ≤ (s.pair c n.q).room (qwDepth (s.me.qword n.q s.site.n))) → strayFit s n.q = true →
      ∃ t, exec i s = .next t ∧ t = { s with banks := t.banks, due := t.due, arrs := t.arrs } ∧ (∀ a, ∃ l, t.arr a = { s.arr a with lastWrite := l }) ∧
        (∀ k, (∀ c ∈ s.execCols n.g, k ≠ hereKey s c) → smGet {} t.banks k = smGet {} s.banks k) ∧ ∀ c ∈ s.execCols n.g,
        let p := s.pair c n.q
        (∀ l, l < 8 → (n.conv s c).getD l none = none →
          let before := (((n.conv s c).take l).filter Option.isNone).length
          let idx := ((s.ssrc c n.imm n.base).toNat + 8 * n.p + l) % 2 ^ 32
          ∃ e ∈ t.due, e.tick = s.now + n.k ∧ e.rank = rankCellWrite ∧
            e.act = .micro (.write .cell (cellOf s.site.arr s.site.row c * 32768 + s.me.csBase + qwElem (s.me.qword n.q s.site.n) (p.pr + before))
              (natBytes 4 idx ++ natBytes 4 ((n.lanes s c).getD l 0)))) ∧
        t.here c = (if n.strays s c = 0 then s.here c
          else { s.here c with pairs := smSet (s.here c).pairs n.q { p with pr := (p.pr + n.strays s c) % 8192 } }).addLate
            { due := s.site.n + n.lat, n := s.site.n, slot := 1, dest := (s.here c).dest n.d, latch := .la,
              val := setGroup n.w n.p ((s.here c).destVal n.d) ((n.conv s c).map fun e => e.getD n.zero) })

/-! ## The M slot -/

/-- R147-R149, R97: a load of the cell store reads, one tick on in every executing cell, the bytes at the cell's own window offset into a late write; nothing else
changes.

R147-R149: a store writes, two ticks on in every executing cell, its value's bytes at the cell's own window offset; now it changes no byte of memory, no register and
no flag.

R148, R360: a load or store that is not aligned in its first executing cell, or passes the end of the window there, blocks the row: fault 0x11 before 0x10. -/
def Obligations.CellAccess : Prop :=
  (∀ (s : State) (o : MLoad) (i : Instr) (size : Nat) (spread : Bool), s.site.issue = false →
    (i = .ld o ∧ size = 32 ∧ spread = false ∨ i = .ldW o ∧ size = 4 ∧ spread = false ∨ i = .ldB o ∧ size = 4 ∧ spread = true) →
    let off := fun c => ((s.here c).sreg o.sadr + o.off.signExtend 32).toNat
    (∀ c ∈ s.execCols o.g, off c % size = 0 ∧ off c + size ≤ s.me.csSize) →
    exec i s = .next (laterEach s (s.execCols o.g) 1 rankRead fun c =>
      .micro (.cellRead (cellOf s.site.arr s.site.row c) s.site.ctx (cellOf s.site.arr s.site.row c * 32768 + s.me.csBase + off c) size spread (mLate s c 4 o.d)))) ∧
  (∀ (s : State) (o : MStore) (i : Instr) (size : Nat), s.site.issue = false → (i = .st o ∧ size = 32 ∨ i = .stW o ∧ size = 4) →
    let off := fun c => ((s.here c).sreg o.sadr + o.off.signExtend 32).toNat
    (∀ c ∈ s.execCols o.g, off c % size = 0 ∧ off c + size ≤ s.me.csSize) →
    ∃ t, exec i s = .next t ∧ t = { s with due := t.due, arrs := t.arrs } ∧
      t.due = (laterEach s (s.execCols o.g) 2 rankCellWrite fun c =>
        .micro (.write .cell (cellOf s.site.arr s.site.row c * 32768 + s.me.csBase + off c) (natBytes size (s.src (.int 32) c 0 o.v).toNat))).due ∧
      ∀ a, ∃ l, t.arr a = { s.arr a with lastWrite := l }) ∧
  ∀ (s : State) (l : MLoad) (v : MStore) (i : Instr) (g : Guard) (sadr : BitVec 4) (off16 : BitVec 16) (size c : Nat) (rest : List Nat), s.site.issue = false →
    (i = .ld l ∧ size = 32 ∧ g = l.g ∧ sadr = l.sadr ∧ off16 = l.off ∨ i = .ldW l ∧ size = 4 ∧ g = l.g ∧ sadr = l.sadr ∧ off16 = l.off ∨
     i = .ldB l ∧ size = 4 ∧ g = l.g ∧ sadr = l.sadr ∧ off16 = l.off ∨
     i = .st v ∧ size = 32 ∧ g = v.g ∧ sadr = v.sadr ∧ off16 = v.off ∨ i = .stW v ∧ size = 4 ∧ g = v.g ∧ sadr = v.sadr ∧ off16 = v.off) →
    s.execCols g = c :: rest →
    let off := ((s.here c).sreg sadr + off16.signExtend 32).toNat
    let cell := cellOf s.site.arr s.site.row c
    (off % size ≠ 0 → exec i s = .next ((rowFault 0x11 0 off cell).run s)) ∧
    (off % size = 0 → s.me.csSize < off + size → exec i s = .next ((rowFault 0x10 0 off cell).run s))

/-- R149, R227: when a write of bytes falls due, exactly those bytes change, at the address it was given, and no other byte of any memory.

R149: when a read of the cell store falls due on a word that is not uncorrectable, its bank gets the bytes as a late write, zero-extended or one word in every lane;
nothing else changes. R81: a context that another task has taken since, or that has none, gets nothing. -/
def Obligations.CellAccessEffects : Prop :=
  (∀ (s : State) (d : Due) (rest : List Due) (sp : Space) (addr : Nat) (bs : List Byte), Inv s → s.inputs = [] → s.due = d :: rest →
    d.act = .micro (.write sp addr bs) → addr + bs.length ≤ 2 ^ 80 →
    ∃ t, step s = .next t ∧
      (∀ i, i < bs.length → t.byte sp (addr + i) = bs.getD i 0) ∧
      ∀ sp' a, a < 2 ^ 80 → (sp' ≠ sp ∨ a < addr ∨ addr + bs.length ≤ a) → t.byte sp' a = s.byte sp' a) ∧
  ∀ (s : State) (d : Due) (rest : List Due) (cell ctx addr size : Nat) (spread : Bool) (e : LwbEntry), s.inputs = [] → s.due = d :: rest →
    d.act = .micro (.cellRead cell ctx addr size spread e) → (∀ l, (3, l) ∉ s.marks) →
    let u := s.take d rest
    ((u.ctx d.site.arr ctx).tid = d.site.a → step s = .next
      { u with banks := smSet u.banks (bankKey cell ctx) ((u.bank cell ctx).addLate
          { e with val := if spread then mkElems 32 (fun _ => leNat (s.bytes .cell addr size)) else BitVec.ofNat 256 (leNat (s.bytes .cell addr size)) }) }) ∧
    ((u.ctx d.site.arr ctx).tid ≠ d.site.a → step s = .next u)

/-- R159: on a shared queue with an element there, or room, the bundle of an `ldq` or `stq` reserves one position at issue; with none it waits. On a queue of another kind
it reserves none at issue.

R158, R159, R161: queue accesses of a row on a fit word: `ldq` and `qpeek` read the element in every executing cell one tick on, `qpeek.n` gives the fill, `stq`
writes the element two ticks on; on a cell queue (KIND 0) each cell reserves in its own pair. On a word that is not fit the row is blocked with fault 0x12. -/
def Obligations.QueueAccess : Prop :=
  (∀ (s : State) (g : Guard) (d : Dst) (v : Src) (k : BitVec 4), s.site.issue = true →
    let q := s.me.qwState k.toNat
    q.stamp ≤ s.site.n → s.fit k.toNat = true →
    (qwKind q.word ≠ 1 → exec (.ldq g d k) s = .next s) ∧ (qwKind q.word ≠ 2 → exec (.stq g k v) s = .next s) ∧
    (qwKind q.word = 1 → 1 ≤ q.fill → ∃ t, exec (.ldq g d k) s = .next t ∧ t.mem = s.mem ∧ t.banks = s.banks ∧
      t.me.qwState k.toNat = { q with cr := (q.cr + 1) % 8192, ops := q.ops + 1 }) ∧
    (s.site.picked = false → qwKind q.word = 1 → q.fill < 1 → exec (.ldq g d k) s = .next (withMe s { s.me with state := .stalled })) ∧
    (qwKind q.word = 2 → 1 ≤ q.room → ∃ t, exec (.stq g k v) s = .next t ∧ t.mem = s.mem ∧ t.banks = s.banks ∧
      t.me.qwState k.toNat = { q with pr := (q.pr + 1) % 8192, ops := q.ops + 1 }) ∧
    (s.site.picked = false → qwKind q.word = 2 → q.room < 1 → exec (.stq g k v) s = .next (withMe s { s.me with state := .stalled }))) ∧
  ∀ (s : State) (g : Guard) (d : Dst) (v : Src) (k : BitVec 4) (j : BitVec 12), s.site.issue = false →
    let w := s.me.qword k.toNat s.site.n
    let cell := fun c => cellOf s.site.arr s.site.row c
    let el := fun c pos => cell c * 32768 + s.me.csBase + qwElem w pos
    let size := eszBytes (qwEsz w)
    (s.fit k.toNat = true →
      (qwKind w = 1 → exec (.ldq g d k) s = .next (laterEach s (s.execCols g) 1 rankRead fun c =>
        .micro (.cellRead (cell c) s.site.ctx (el c s.site.qpos) size false (mLate s c 4 d)))) ∧
      (qwKind w = 0 → (∀ c ∈ s.execCols g, 1 ≤ (s.pair c k.toNat).fill) → ∃ t, exec (.ldq g d k) s = .next t ∧ t.mem = s.mem ∧
        ∀ c ∈ s.execCols g, t.here c
            = { s.here c with pairs := smSet (s.here c).pairs k.toNat { s.pair c k.toNat with cr := ((s.pair c k.toNat).cr + 1) % 8192 } } ∧
          ∃ e ∈ t.due, e.tick = s.now + 1 ∧
            e.act = .micro (.cellRead (cell c) s.site.ctx (el c (s.pair c k.toNat).cr) size false (mLate s c 4 d))) ∧
      (qwKind w < 2 → (∀ c ∈ s.execCols g, j.toNat < peekFill s c k.toNat) →
        exec (.qpeek g d k j) s = .next (laterEach s (s.execCols g) 1 rankRead fun c =>
          .micro (.cellRead (cell c) s.site.ctx (el c (peekBase s c k.toNat + j.toNat)) size false (mLate s c 4 d)))) ∧
      (qwKind w < 2 →
        RowWrites (exec (.qpeekN g d k) s) s (s.execCols g) 2 4 (fun c => (s.here c).dest d) .lm (fun c => mkElems 32 fun _ => peekFill s c k.toNat)) ∧
      (qwKind w = 2 → ∃ t, exec (.stq g k v) s = .next t ∧ t = { s with due := t.due, arrs := t.arrs } ∧
        t.due = (laterEach s (s.execCols g) 2 rankCellWrite fun c =>
          .micro (.write .cell (el c s.site.qpos) (natBytes size (s.src (.int 32) c 0 v).toNat))).due) ∧
      (qwKind w = 0 → (∀ c ∈ s.execCols g, 1 ≤ (s.pair c k.toNat).room (qwDepth w)) → ∃ t, exec (.stq g k v) s = .next t ∧ t.mem = s.mem ∧
        ∀ c ∈ s.execCols g, t.here c
            = { s.here c with pairs := smSet (s.here c).pairs k.toNat { s.pair c k.toNat with pr := ((s.pair c k.toNat).pr + 1) % 8192 } } ∧
          ∃ e ∈ t.due, e.tick = s.now + 2 ∧
            e.act = .micro (.write .cell (el c (s.pair c k.toNat).pr) (natBytes size (s.src (.int 32) c 0 v).toNat)))) ∧
    (∀ c rest i, s.execCols g = c :: rest → s.fit k.toNat = false → (i = .ldq g d k ∨ i = .stq g k v ∨ i = .qpeek g d k j ∨ i = .qpeekN g d k) →
      exec i s = .next ((rowFault 0x12 0 noAddr (cell c)).run s))

/-- R154: `cw` sets C of every executing cell to its operand, and nothing else changes; a cell in which it does not execute keeps its C.

R163-R165: the strait: `vpush` puts one entry that lands two ticks on (none once its launch is over: its entries have left), `vpop` takes the bonded cell's oldest landed entry one tick on, `vfree` and `vfree.in` count (an entry from the tick after it lands: log 21). The row is blocked with
fault 0x12 where the first executing cell may not: sub-code 5 where another partition owns the bonded cell's array, or, for `vpush`, another context's entries stand there (from their push
on: log 21); 4 with no room; 3 with no entry to take. -/
def Obligations.CommunicationAndStrait : Prop :=
  (∀ (s : State) (g : Guard) (v : Src), s.site.issue = false →
    ∃ t, exec (.cw g v) s = .next t ∧ t = { s with banks := t.banks } ∧
      (∀ c ∈ s.execCols g, (t.here c).cBefore s.site.n 0 = s.src (.int 32) c 0 v ∧
        t.here c = { s.here c with chist := (t.here c).chist, dirty := (t.here c).dirty }) ∧
      ∀ k, (∀ c ∈ s.execCols g, k ≠ hereKey s c) → smGet {} t.banks k = smGet {} s.banks k) ∧
  ∀ (s : State) (g : Guard) (d : Dst) (v : Src), s.site.issue = false →
    let cell := fun c => cellOf s.site.arr s.site.row c
    (∀ c rest, s.execCols g = c :: rest →
      let shared := decide ((s.arr (bonded (cell c) / 256)).owner = (s.arr (cell c / 256)).owner)
      let none' := ∀ e r, (s.cellx (bonded (cell c))).strait = e :: r → e.ctx ≠ s.site.ctx ∨ s.tick ≤ e.lands
      (shared = false → ∀ i, (i = .vpush g v ∨ i = .vpop g d ∨ i = .vfree g d ∨ i = .vfreeIn g d) → exec i s = .next ((rowFault 0x12 5 noAddr (cell c)).run s)) ∧
      (shared = true → straitOther s (cell c) = true → exec (.vpush g v) s = .next ((rowFault 0x12 5 noAddr (cell c)).run s)) ∧
      (shared = true → straitOther s (cell c) = false → straitFree s (cell c) = 0 → exec (.vpush g v) s = .next ((rowFault 0x12 4 noAddr (cell c)).run s)) ∧
      (shared = true → none' → exec (.vpop g d) s = .next ((rowFault 0x12 3 noAddr (cell c)).run s))) ∧
    ((∀ c ∈ s.execCols g, (s.arr (bonded (cell c) / 256)).owner = (s.arr (cell c / 256)).owner) →
    ((∀ c ∈ s.execCols g, straitOther s (cell c) = false ∧ 1 ≤ straitFree s (cell c)) →
      (launchOver s = true → exec (.vpush g v) s = .next s) ∧
      (launchOver s = false → ∃ t, exec (.vpush g v) s = .next t ∧ t = { s with cells := t.cells } ∧
        ∀ c ∈ s.execCols g, t.cellx (cell c) = { s.cellx (cell c) with
          strait := (s.cellx (cell c)).strait ++ [{ ctx := s.site.ctx, launch := s.me.launch, lands := s.tick + 2, val := s.src (.int 32) c 0 v }] })) ∧
    ((∀ c ∈ s.execCols g, ∃ e r, (s.cellx (bonded (cell c))).strait = e :: r ∧ e.ctx = s.site.ctx ∧ e.lands < s.tick) →
      exec (.vpop g d) s = .next (laterEach s (s.execCols g) 1 rankRead fun c => .micro (.straitPop (cell c) s.site.ctx (mLate s c 3 d)))) ∧
    RowWrites (exec (.vfree g d) s) s (s.execCols g) 2 1 (fun c => (s.here c).dest d) .lm
      (fun c => mkElems 32 fun _ => if straitOther s (cell c) then 0 else straitFree s (cell c)) ∧
    RowWrites (exec (.vfreeIn g d) s) s (s.execCols g) 2 1 (fun c => (s.here c).dest d) .lm
      (fun c => mkElems 32 fun _ => ((s.cellx (bonded (cell c))).strait.filter fun e => e.ctx == s.site.ctx && decide (e.lands < s.tick)).length))

/-! ## The T slot -/

/-- R168-R170: every issue of a bundle with `ldw` or `flip` advances SGEN of each array of its wavefront, whatever the guards; in a row `flip` swaps the planes of the
executing cells and `ldw` reads chunk j of its form at te + 1 + j for their shadow planes. An `ldw` that is not aligned to its form's bytes in its first executing cell, or passes the end of
the window there, blocks the row: fault 0x11 before 0x10. -/
def Obligations.PlaneInstructions : Prop :=
  ∀ (s : State) (g : Guard) (form : BitVec 2) (v : Src) (off : BitVec 16),
    (s.site.issue = true → ∀ i, (i = .ldw g form v off ∨ i = .flip g) → ∃ t, exec i s = .next t ∧ t = { s with arrs := t.arrs } ∧
      ∀ a, t.arr a = if a ∈ spanned s.site.arr s.me.h then { s.arr a with sgen := ((s.arr a).sgen + 1) % 2 ^ 64 } else s.arr a) ∧
    (s.site.issue = false → ∃ t, exec (.flip g) s = .next t ∧ t = { s with cells := t.cells } ∧
      ∀ n, t.cellx n = if n ∈ (s.execCols g).map (cellOf s.site.arr s.site.row) then { s.cellx n with plane1 := !(s.cellx n).plane1, shready := false } else s.cellx n) ∧
    (s.site.issue = false →
      let chunks := if form.toNat = 0 then 32 else if form.toNat = 1 then 16 else 8
      let at0 := fun c => (elem 32 0 (s.src (.int 32) c 0 v) + off.toNat) % 2 ^ 32
      let cell := fun c => cellOf s.site.arr s.site.row c
      (∀ c ∈ s.execCols g, at0 c % (32 * chunks) = 0 ∧ at0 c + 32 * chunks ≤ s.me.csSize) →
      exec (.ldw g form v off) s = .next
        (((s.execCols g).flatMap fun c => (List.range chunks).map fun j => (c, j)).foldl (fun t (e : Nat × Nat) =>
          laterAct t (1 + e.2) rankRead s.site (.micro (.chunk form.toNat (cell e.1) (1 - s.stationary (cell e.1)) e.2
            (cell e.1 * 32768 + s.me.csBase + at0 e.1 + 32 * e.2)))) s)) ∧
    (s.site.issue = false → ∀ c rest, s.execCols g = c :: rest →
      let size := 32 * (if form.toNat = 0 then 32 else if form.toNat = 1 then 16 else 8)
      let off' := (elem 32 0 (s.src (.int 32) c 0 v) + off.toNat) % 2 ^ 32
      let cell := cellOf s.site.arr s.site.row c
      (off' % size ≠ 0 → exec (.ldw g form v off) s = .next ((rowFault 0x11 0 off' cell).run s)) ∧
      (off' % size = 0 → s.me.csSize < off' + size → exec (.ldw g form v off) s = .next ((rowFault 0x10 0 off' cell).run s)))

/-- R173-R176, R182, R200: a matrix pass of a tower queue fires when the rails stand, the word is fit for passes, the rows lie in the window and the queue holds the
elements: it joins the array's feeder last, with its fields, and CR moves past its elements; with too few elements it waits; a word that is not fit and rows outside the window
fault before issue.

R264: a `.walk` pass takes its elements from the feed of the walker its context owns: it fires when the feed holds them, and they are reserved, or when the walker has ended; a context that does not own
the walker faults before issue.

R179, R200: the downstream member of a chain fires its pass with the pass its partner forwards at the same tick, and takes its operands from it; it waits, and the chain with it, while its own
array's rails stand below the pass, and does nothing where the partner forwards none (log 14).

R213-R215: `mmd` on a valid entry of its array, its H and its M-row count fires a pass of the entry's mode from its queue; an entry that is not valid, is bound for another
array or unit, or has another count faults before issue with 0x71. -/
def Obligations.PassesFire : Prop :=
  (∀ (s : State) (o : TPass) (i : Instr) (mode : PMode) (op : Nat), s.site.issue = true → o.walk = false →
    (i = .mmPs8 o ∧ mode = .ps8 ∧ op = 0x08 ∨ i = .mmI8 o ∧ mode = .i8 ∧ op = 0x09 ∨ i = .mmBf16 o ∧ mode = .bf16 ∧ op = 0x0A) →
    railsOk s s.site.arr s.me.h (fidLs1 s.me.fid) (fidLs2 s.me.fid) = true →
    let k := o.qw.toNat
    let q := s.me.qwState k
    let rows := if o.cnt = 0 then 256 else o.cnt.toNat
    let n := if s.me.h = 32 then 2 * rows else rows
    (passWordOk s k = true → o.arow.toNat + rows ≤ s.me.arSize → n ≤ q.fill →
      ∃ t p, exec i s = .next t ∧ t.mem = s.mem ∧ t.banks = s.banks ∧ (t.arr s.site.arr).passes = (s.arr s.site.arr).passes ++ [p] ∧
        t.me = { s.me with qw := smSet s.me.qw k { q with cr := (q.cr + n) % 8192, ops := q.ops + 1 } } ∧
        p.mode = mode ∧ p.opcode = op ∧ p.ctx = s.site.ctx ∧ p.n = s.site.n ∧ p.tid = s.me.tid ∧ p.arow = s.me.arBase + o.arow.toNat ∧ p.acol = o.acol.toNat ∧
        p.mrows = rows ∧ p.h = s.me.h ∧ p.fired = s.tick ∧ p.colsel = s.site.cols ∧ p.ls1 = fidLs1 s.me.fid ∧ p.ls2 = fidLs2 s.me.fid ∧
        p.qk = some k ∧ p.qpos = q.cr ∧ p.qaddr = s.myWin (qwBase q.word) ∧ p.qdepth = 2 ^ qwLDepth q.word) ∧
    (s.site.picked = false → passWordOk s k = true → q.fill < n → exec i s = .next (withMe s { s.me with state := .stalled })) ∧
    (passWordOk s k = false → exec i s = faultsAtIssue s 0x12 0 noAddr) ∧
    (passWordOk s k = true → n ≤ q.fill → s.me.arSize < o.arow.toNat + rows → exec i s = faultsAtIssue s 0x10 1 o.arow.toNat)) ∧
  (∀ (s : State) (o : TPass) (i : Instr), s.site.issue = true → o.walk = true →
    (i = .mmPs8 o ∨ i = .mmI8 o ∨ i = .mmBf16 o) → railsOk s s.site.arr s.me.h (fidLs1 s.me.fid) (fidLs2 s.me.fid) = true →
    let w := (s.arr s.site.arr).walker
    let rows := if o.cnt = 0 then 256 else o.cnt.toNat
    let n := if s.me.h = 32 then 2 * rows else rows
    (w.owner = some s.site.ctx → o.arow.toNat + rows ≤ s.me.arSize → n ≤ w.feed.length - w.feedRes →
      ∃ t p, exec i s = .next t ∧ t.mem = s.mem ∧ (t.arr s.site.arr).passes = (s.arr s.site.arr).passes ++ [p] ∧ p.walk = true ∧ p.feedN = n ∧
        (t.arr s.site.arr).walker = { w with feedRes := w.feedRes + n }) ∧
    (s.site.picked = false → w.owner = some s.site.ctx → w.ended = false → w.feed.length - w.feedRes < n → exec i s = .next (withMe s { s.me with state := .stalled })) ∧
    (w.owner = some s.site.ctx → w.ended = true → o.arow.toNat + rows ≤ s.me.arSize → w.feed.length - w.feedRes < n →
      ∃ t p, exec i s = .next t ∧ (t.arr s.site.arr).passes = (s.arr s.site.arr).passes ++ [p] ∧ p.walk = true ∧ p.mrows = rows ∧ p.feedN = w.feed.length - w.feedRes) ∧
    (w.owner ≠ some s.site.ctx → exec i s = faultsAtIssue s 0x60 5 0)) ∧
  (∀ (s : State) (g : Guard) (mode : BitVec 2) (arow : BitVec 8) (acol : BitVec 9) (cnt : BitVec 8), s.site.issue = true →
    let rails := railsOk s s.site.arr s.me.h (fidLs1 s.me.fid) (fidLs2 s.me.fid)
    let rows := if cnt = 0 then 256 else cnt.toNat
    (s.site.picked = false → chainFeeds s = true → rails = false → exec (.mmChain g mode arow acol cnt) s = .next (withMe s { s.me with state := .stalled })) ∧
    ((rails = true ∨ chainFeeds s = false) → s.me.arSize < arow.toNat + rows → exec (.mmChain g mode arow acol cnt) s = faultsAtIssue s 0x10 1 arow.toNat) ∧
    ((rails = true ∨ chainFeeds s = false) → arow.toNat + rows ≤ s.me.arSize → forwardingPass s = none → exec (.mmChain g mode arow acol cnt) s = .next s) ∧
    ∀ u, rails = true → arow.toNat + rows ≤ s.me.arSize → forwardingPass s = some u →
    ∃ t p, exec (.mmChain g mode arow acol cnt) s = .next t ∧ t.mem = s.mem ∧ t.ctxs = s.ctxs ∧
      (t.arr s.site.arr).passes = (s.arr s.site.arr).passes ++ [p] ∧ p.source = some (s.site.arr - 1, u.uid) ∧ p.mode = modeOf mode.toNat ∧
      p.mrows = rows ∧ p.arow = s.me.arBase + arow.toNat ∧ p.acol = acol.toNat ∧ p.fired = s.tick) ∧
  ∀ (s : State) (arow cnt : BitVec 8) (qw : BitVec 4) (name : BitVec 16), s.site.issue = true →
    let e := mmdEntry s name
    let q := s.me.qwState qw.toNat
    let rows := if cnt = 0 then 256 else cnt.toNat
    let n := if s.me.h = 32 then 2 * rows else rows
    railsOk s s.site.arr s.me.h (mmdRail s).1 (mmdRail s).2 = true → passWordOk s qw.toNat = true → arow.toNat + rows ≤ s.me.arSize → n ≤ q.fill →
    (e.valid = true → e.arr = s.site.arr → e.gang = (s.me.h == 32) → cnt.toNat = e.mrows →
      ∃ t p, exec (.mmd arow cnt qw name) s = .next t ∧ t.mem = s.mem ∧ (t.arr s.site.arr).passes = (s.arr s.site.arr).passes ++ [p] ∧
        t.me = { s.me with qw := smSet s.me.qw qw.toNat { q with cr := (q.cr + n) % 8192, ops := q.ops + 1 } } ∧
        p.kennel = some (kennelKey s.me.part name.toNat) ∧ p.mode = (if e.mode then .i8 else .ps8) ∧ p.mrows = rows ∧ p.acol = 0 ∧ p.fired = s.tick) ∧
    (e.valid = false → exec (.mmd arow cnt qw name) s = faultsAtIssue s 0x71 0 name.toNat) ∧
    (e.valid = true → (e.arr ≠ s.site.arr ∨ e.gang ≠ (s.me.h == 32)) → exec (.mmd arow cnt qw name) s = faultsAtIssue s 0x71 3 noAddr) ∧
    (e.valid = true → e.arr = s.site.arr → e.gang = (s.me.h == 32) → cnt.toNat ≠ e.mrows → exec (.mmd arow cnt qw name) s = faultsAtIssue s 0x71 4 noAddr)

/-- R176: as the bundle of a pass executes in a row, each executing cell takes part in the pass from its column on, and nothing but that is changed. -/
def Obligations.CellsTakePart : Prop :=
  ∀ (s : State) (o : TPass) (i : Instr) (g : Guard) (mode : BitVec 2) (arow cnt : BitVec 8) (acol : BitVec 9) (qw : BitVec 4) (name : BitVec 16), s.site.issue = false →
    ((i = .mmPs8 o ∨ i = .mmI8 o ∨ i = .mmBf16 o) ∧ g = o.g ∨ i = .mmChain g mode arow acol cnt ∨ i = .mmd arow cnt qw name ∧ g = { neg := false, reg := 0 }) →
    ∃ t, exec i s = .next t ∧ t = { s with arrs := t.arrs } ∧
      (t.arr s.site.arr).passes = (s.arr s.site.arr).passes.map fun p =>
        if p.ctx = s.site.ctx ∧ p.n = s.site.n ∧ p.tid = s.site.a then
          { p with taking := (s.execCols g).foldl (fun m c => m ||| 2 ^ (16 * s.site.row + c)) p.taking }
        else p

/-- R182, R184-R189: a band instruction does nothing when its bundle issues with its rows in the window, and faults 0x10 there with a row outside it.

R184-R189: what a band instruction puts on the agenda in a row, for each executing cell's block of the band row, with the tick of its access; nothing else changes
(`acc.cvt` notes the tick of its cell-store write). Of `acc.wr` the elements beyond column 511 are dropped (log 21). -/
def Obligations.BandInstructions : Prop :=
  (∀ (s : State) (g : Guard) (d : Dst) (v : Src) (drow arow : BitVec 8) (acol : BitVec 9) (x : BitVec 10) (rm : BitVec 2) (b : Bool) (i : Instr), s.site.issue = true →
    let one := i = .accZero g arow x ∨ i = .accRd g d arow acol ∨ i = .accRdSt g d arow ∨ i = .accWr g v arow acol x ∨ i = .accCvt g rm b v arow acol
    let two := i = .accCp g drow arow ∨ i = .accScl g drow arow acol v
    (one → arow.toNat + s.me.h ≤ s.me.arSize → exec i s = .next s) ∧
    (one ∨ two → s.me.arSize < arow.toNat + s.me.h → exec i s = faultsAtIssue s 0x10 1 arow.toNat) ∧
    (two → arow.toNat + s.me.h ≤ s.me.arSize → drow.toNat + s.me.h ≤ s.me.arSize → exec i s = .next s) ∧
    (two → arow.toNat + s.me.h ≤ s.me.arSize → s.me.arSize < drow.toNat + s.me.h → exec i s = faultsAtIssue s 0x10 1 drow.toNat)) ∧
  ∀ (s : State) (g : Guard) (d : Dst) (v : Src) (drow arow : BitVec 8) (acol : BitVec 9) (x : BitVec 10) (rm : BitVec 2) (b : Bool), s.site.issue = false →
    let cols := s.execCols g
    let band := fun (r : Nat) => accKey (if s.me.h = 32 then s.site.arr + 4 else s.site.arr) (s.me.arBase + r + s.site.row)
    let cell := fun c => cellOf s.site.arr s.site.row c
    let late := fun c => ({ due := s.site.n + 4, n := s.site.n, slot := 3, dest := (s.here c).dest d, latch := .no, val := 0 } : LwbEntry)
    exec (.accZero g arow x) s = .next (laterEachOrd s cols 2 rankAccWrite fun c =>
      .micro (.accSet (band arow.toNat) x.toNat ((List.range 32).map fun i => (32 * c + i, 0)) false false)) ∧
    exec (.accRd g d arow acol) s = .next (laterEach s cols 1 rankRead fun c =>
      .micro (.accRead (band arow.toNat) (32 * c + acol.toNat) false (cell c) s.site.ctx (late c))) ∧
    exec (.accRdSt g d arow) s = .next (laterEach s cols 1 rankRead fun c => .micro (.accRead (band arow.toNat) (32 * c + 0) true (cell c) s.site.ctx (late c))) ∧
    exec (.accWr g v arow acol x) s = .next (laterEachOrd s cols 2 rankAccWrite fun c =>
      .micro (.accSet (band arow.toNat) x.toNat
        (((List.range 4).map fun l => (32 * c + acol.toNat + l, (BitVec.ofNat 54 (elem 64 l (s.src (.int 64) c 0 v))).toInt)).filter
          fun e => decide (e.1 < 512)) false false)) ∧
    exec (.accCp g drow arow) s = .next (laterEach s cols 1 rankRead fun c => .micro (.accCopy (band arow.toNat) (band drow.toNat) c)) ∧
    exec (.accScl g drow arow acol v) s = .next (laterEach s cols 1 rankRead fun c =>
      .micro (.accScale (band arow.toNat) (band drow.toNat) (32 * c + acol.toNat) (s.src .f32 c 0 v))) ∧
    (let off := fun c => elem 32 0 (s.src (.int 32) c 0 v)
     (∀ c ∈ cols, off c % 32 = 0 ∧ off c + 32 ≤ s.me.csSize) → ∃ t, exec (.accCvt g rm b v arow acol) s = .next t ∧ t = { s with due := t.due, arrs := t.arrs } ∧
      t.due = (laterEach s cols 1 rankRead fun c =>
        .micro (.accConvert (band arow.toNat) (32 * c + acol.toNat) b rm (cell c * 32768 + s.me.csBase + off c))).due)

/-- R185, R186: when a band write falls due it sets the row's X and flags and exactly the listed elements; a read delivers X and N of four elements, or X and the flags,
to its cell as a late write, if the task that read it still has the context (R81). The 54 bits of N and the 10 bits of X stand in each 64-bit lane. -/
def Obligations.BandAccessEffects : Prop :=
  ∀ (s : State) (d : Due) (rest : List Due) (key : Nat), s.inputs = [] → s.due = d :: rest →
    (∀ x vals ovf nfi, d.act = .micro (.accSet key x vals ovf nfi) → (vals.map Prod.fst).Nodup →
      ∃ t, step s = .next t ∧ t.mem = s.mem ∧ t.banks = s.banks ∧ (t.accRow key).x = x ∧ (t.accRow key).ovf = ovf ∧ (t.accRow key).nfi = nfi ∧
        (∀ e ∈ vals, smGet 0 (t.accRow key).n e.1 = e.2) ∧ (∀ c, c ∉ vals.map Prod.fst → smGet 0 (t.accRow key).n c = smGet 0 (s.accRow key).n c) ∧
        ∀ k, k ≠ key → t.accRow k = s.accRow k) ∧
    (∀ col cell ctx e, d.act = .micro (.accRead key col false cell ctx e) →
      ∃ t v, step s = .next t ∧ t.mem = s.mem ∧ t.acc = s.acc ∧
        ((s.ctx d.site.arr ctx).tid = d.site.a → t.bank cell ctx = (s.bank cell ctx).addLate { e with val := v }) ∧
        ((s.ctx d.site.arr ctx).tid ≠ d.site.a → t.banks = s.banks) ∧
        ∀ l, l < 4 → col + l < 512 → elem 64 l v = (s.accRow key).x % 1024 * 2 ^ 54 + (smGet 0 (s.accRow key).n (col + l) % 2 ^ 54).toNat) ∧
    (∀ col cell ctx e, d.act = .micro (.accRead key col true cell ctx e) →
      ∃ t, step s = .next t ∧ t.mem = s.mem ∧ t.acc = s.acc ∧ ((s.ctx d.site.arr ctx).tid ≠ d.site.a → t.banks = s.banks) ∧
        ((s.ctx d.site.arr ctx).tid = d.site.a → t.bank cell ctx = (s.bank cell ctx).addLate { e with
          val := BitVec.ofNat 256 ((s.accRow key).x % 1024 + (if (s.accRow key).ovf then 1024 else 0) + (if (s.accRow key).nfi then 2048 else 0)) }))

/-! ## The E slot -/

/-- R231, R232: a loader operation fires on a fit word with blocks that start on 512-byte multiples and lie in the window, and room (`lrow`) or a filled element (`srow`): it
joins its array's loader with its reserved position, and the pointer it reserves moves; with none it waits, and each check that fails faults before issue. -/
def Obligations.LoaderFires : Prop :=
  ∀ (s : State) (g : Guard) (k : BitVec 4) (xa xb : BitVec 5) (store : Bool) (i : Instr), s.guardQ g = true →
    i = (if store then .srow g k xa xb else .lrow g k xa xb) →
    let q := s.me.qwState k.toNat
    let a := (s.x xa).toNat
    let b := (s.x xb).toNat
    let avail := if store then q.fill else q.room
    let ok := loaderWordOk s k.toNat (if store then 2 else 1)
    (ok = true → a % 512 = 0 → b % 512 = 0 → (∀ r, r < s.me.h → s.inMyWin (a + r * b) 512 = true) → 1 ≤ avail →
      ∃ t o, exec i s = .next t ∧ t.mem = s.mem ∧ t.banks = s.banks ∧ t.me = qwMoved s.me k.toNat (if store then QW.takeIn 1 else QW.takeOut 1) ∧
        (t.arr s.site.arr).loads = (s.arr s.site.arr).loads ++ [o] ∧ o.store = store ∧ o.ctx = s.site.ctx ∧ o.n = s.site.n ∧ o.tid = s.me.tid ∧ o.h = s.me.h ∧
        o.k = k.toNat ∧ o.q = (if store then q.cr else q.pr) ∧ o.base = s.myWin a ∧ o.stride = b ∧ o.rows = 0 ∧ o.presented = 0) ∧
    (s.site.picked = false → ok = true → avail < 1 → exec i s = .next (withMe s { s.me with state := .stalled })) ∧
    (ok = false → exec i s = faultsAtIssue s 0x12 0 noAddr) ∧
    (ok = true → 1 ≤ avail → a % 512 ≠ 0 → exec i s = faultsAtIssue s 0x11 0 a) ∧
    (ok = true → 1 ≤ avail → a % 512 = 0 → b % 512 ≠ 0 → exec i s = faultsAtIssue s 0x11 0 b) ∧
    (∀ r, ok = true → 1 ≤ avail → a % 512 = 0 → b % 512 = 0 → r < s.me.h → (∀ r', r' < r → s.inMyWin (a + r' * b) 512 = true) →
      s.inMyWin (a + r * b) 512 = false → exec i s = faultsAtIssue s 0x14 0 (a + r * b))

/-- R233, R234: `qw.set` on a word that is not busy sets it from the next bundle on, with the issuer's own OWNP and OWNC, and the pair from its PP and CP; on a busy word it
waits. The words set before it stay for the bundles that still see them. `qw.rd` reads the word as its bundle sees it. Nothing else changes.

R235, R237: `bo.init` writes the object's 32 bytes two ticks on: VALID, UNIT and, for EXPECT 0, COMPLETE; the task's tag; COUNT 0; EXPECT. `bo.rd` reads COUNT
at the end of the tick it issues at, after the port's writes of that tick: 0 where a `bo.init` of the object is written at that tick. An operand that names no object of the window faults
before issue.

R202: `ctr.rd` reads the counter its selector names into X; nothing else changes. -/
def Obligations.WordsObjectsCounters : Prop :=
  (∀ (s : State) (g : Guard) (k : BitVec 4) (xa xb : BitVec 5), s.guardQ g = true →
    let w := qwSetWord s (s.x xa) (s.x xb)
    let r := s.me.qword k.toNat s.site.n
    (wordBusy k.toNat s = false → exec (.qwSet g k xa xb) s = .next (withMe s (qwMoved s.me k.toNat fun q =>
      { q with word := w, stamp := s.site.n + 1, old := ((q.stamp, q.word) :: q.old).take 64, pr := qwPP w, cr := qwCP w }))) ∧
    (s.site.picked = false → wordBusy k.toNat s = true → exec (.qwSet g k xa xb) s = .next (withMe s { s.me with state := .stalled })) ∧
    exec (.qwRd g k xa xb) s = .next (seqWrite (seqWrite s 4 1 (.x xa) (r.extractLsb' 0 64)) 4 1 (.x xb) (r.extractLsb' 64 64))) ∧
  (∀ (s : State) (g : Guard) (unit : Bool) (xa xb : BitVec 5), s.guardQ g = true →
    let a := (s.x xa).toNat
    let b := (s.x xb).toNat
    (a % 32 = 0 → s.inMyWin a 32 = true → exec (.boInit g unit xa xb) s = .next (laterAct s 2 (rankControl + 1) s.site (.micro (.write .scratch (s.myWin a)
      (natBytes 8 (1 + (if unit then 4 else 0) + (if s.x xb = 0 then 2 else 0)) ++ natBytes 8 s.me.tag.toNat ++ natBytes 8 0 ++ natBytes 8 b))))) ∧
    (let read : Due := { tick := s.now, rank := rankControl, ord := 1, dom := none, site := s.site, act := .micro (.boRead (s.myWin b) xa) }
     b % 32 = 0 → s.inMyWin b 32 = true → exec (.boRd g xa xb) s = .next { s with due := insertDue read s.due }) ∧
    (a % 32 ≠ 0 → exec (.boInit g unit xa xb) s = faultsAtIssue s 0x11 0 a) ∧ (b % 32 ≠ 0 → exec (.boRd g xa xb) s = faultsAtIssue s 0x11 0 b) ∧
    (a % 32 = 0 → s.inMyWin a 32 = false → exec (.boInit g unit xa xb) s = faultsAtIssue s 0x14 0 a) ∧
    (b % 32 = 0 → s.inMyWin b 32 = false → exec (.boRd g xa xb) s = faultsAtIssue s 0x14 0 b)) ∧
  (∀ (s : State) (d : Due) (rest : List Due) (addr : Nat) (xa : BitVec 5), s.inputs = [] → s.due = d :: rest → d.act = .micro (.boRead addr xa) → s.marks = [] →
    let u := s.take d rest
    let init := rest.any fun e => e.tick == u.now && (match e.act with
      | .micro (.write .scratch dst bs) => e.rank == rankControl + 1 && dst == addr && bs.length == 32
      | _ => false)
    step s = .next (seqWrite u 4 2 (.x xa) (BitVec.ofNat 64 (if init then 0 else s.number .scratch (addr + 16) 8)))) ∧
  ∀ (s : State) (g : Guard) (xa : BitVec 5), s.guardQ g = true →
    let v := s.arr s.site.arr
    let wr := fun n => (.next (seqWrite s 4 2 (.x xa) (BitVec.ofNat 64 n)) : Host.Outcome State Fault Refusal)
    exec (.ctrRd g xa 0 false) s = wr s.me.terr1 ∧ exec (.ctrRd g xa 1 false) s = wr s.me.terr2 ∧ exec (.ctrRd g xa 2 false) s = wr v.aerr1 ∧
    exec (.ctrRd g xa 3 false) s = wr v.aerr2 ∧
    exec (.ctrRd g xa 4 false) s = wr (v.ls1.level + 4 * v.ls2.level + 16 * v.ls1.target + 64 * v.ls2.target
      + (if v.ls1.moving.isSome || v.ls2.moving.isSome then 256 else 0)) ∧
    exec (.ctrRd g xa 5 false) s = wr s.me.rstall ∧ exec (.ctrRd g xa 6 false) s = wr v.nmis ∧
    (s.me.h = 32 → exec (.ctrRd g xa 2 true) s = wr (s.arr (s.site.arr + 4)).aerr1) ∧ (s.me.h ≠ 32 → exec (.ctrRd g xa 2 true) s = wr 0)

/-- R239, R244, R394: `copy`, `tier.pf` and `msg.send` on a fit word of 64-byte elements that holds them reserve them, and the engine reads them 16 ticks on; with too few
elements they wait, and a word that is not fit faults before issue.

R328: `mp.run` reserves the lines it reads and writes, if any, in its queues, and the program record is read 16 ticks on. It waits while a fence before it is not passed (R289, R332;
DEDUCED, log 14). -/
def Obligations.DescriptorsAndPrograms : Prop :=
  (∀ (s : State) (g : Guard) (k n1 : BitVec 4), s.guardQ g = true →
    let q := s.me.qwState k.toNat
    let n := n1.toNat + 1
    let moved := withMe s (qwMoved s.me k.toNat (QW.takeIn n))
    (copyWordOk s k = true → n ≤ q.fill →
      exec (.copy g k n1) s = .next (laterAct moved 16 rankPortRead { s.site with a := q.cr, b := q.stamp, rowOn := s.me.phase.getLsbD 7 }
        (.micro (.descRead false s.site.arr s.me.tid k.toNat n))) ∧
      exec (.tierPf g k n1) s = .next (laterAct moved 16 rankPortRead { s.site with a := q.cr, b := q.stamp, rowOn := s.me.phase.getLsbD 7 }
        (.micro (.descRead true s.site.arr s.me.tid k.toNat n))) ∧
      (slotsFor s s.site.arr n = true → ∃ t rs, exec (.msgSend g k n1) s = .next t ∧ t.mem = s.mem ∧ t.me = qwMoved s.me k.toNat (QW.takeIn n) ∧
        t.reqs = s.reqs ++ rs ∧ rs.length = n ∧ ∀ r ∈ rs, r.kind = .message ∧ r.slot = true ∧ r.part = s.me.part ∧ r.n = s.site.n ∧ r.write = true)) ∧
    (s.site.picked = false → copyWordOk s k = true → q.fill < n → ∀ i, (i = .copy g k n1 ∨ i = .tierPf g k n1 ∨ i = .msgSend g k n1) →
      exec i s = .next (withMe s { s.me with state := .stalled })) ∧
    (copyWordOk s k = false → ∀ i, (i = .copy g k n1 ∨ i = .tierPf g k n1 ∨ i = .msgSend g k n1) → exec i s = faultsAtIssue s 0x12 0 noAddr)) ∧
  ∀ (s : State) (g : Guard) (xa : BitVec 5) (rq wq : BitVec 4) (nrd nwr : BitVec 13), s.guardQ g = true →
    (s.x xa).toNat % 64 = 0 → s.inMyWin (s.x xa).toNat 64 = true →
    (nrd = 0 ∨ mpQueueOk s rq = true ∧ nrd.toNat ≤ (s.me.qwState rq.toNat).room) → (nwr = 0 ∨ mpQueueOk s wq = true ∧ nwr.toNat ≤ (s.me.qwState wq.toNat).fill) →
    (s.site.picked = true ∨ fencesOpen s s.site.arr s.site.ctx s.me.tid s.site.n = true) →
    let c := if nrd = 0 then s.me else qwMoved s.me rq.toNat (QW.takeOut nrd.toNat)
    ∃ t m, exec (.mpRun g xa rq nrd wq nwr) s = .next t ∧ t.mem = s.mem ∧ t.reqs = s.reqs ∧ t.me = (if nwr = 0 then c else qwMoved c wq.toNat (QW.takeIn nwr.toNat)) ∧
      t.due = (laterAct s 16 rankPortRead s.site (.micro (.mpRecord s.site.arr (s.x xa).toNat s.me.tid m))).due ∧
      m.off = (s.x xa).toNat ∧ m.nrd = nrd.toNat ∧ m.nwr = nwr.toNat ∧ m.tid = s.me.tid

/-- R250, R254: `strm.set` names a 32-byte record of the window whose read is due 16 ticks on, and marks its stream as one being set; `probe` that passes its checks makes its stream probe, and its index
queue has one operation more; its end is due 32 ticks on or later.

R251: a gather or scatter of n elements fires on a valid stream whose words are fit and whose elements and slots are there: it reserves n positions of each queue, moves
SPEC by n, and makes one request for each element; on a stream that is not valid, or not probed far enough where REQP asks for it, it faults before issue. -/
def Obligations.Streams : Prop :=
  (∀ (s : State) (g : Guard) (j : BitVec 3) (xa xb : BitVec 5) (n1 : BitVec 12), s.guardQ g = true →
    let a := (s.x xa).toNat
    let v := s.strm j
    (a % 32 = 0 → s.inMyWin a 32 = true →
      exec (.strmSet g j xa) s = .next (laterAct (withMe s { s.me with st := smSet s.me.st j.toNat { v with setPending := true } }) 16 rankPortRead s.site
        (.micro (.strmRead s.site.arr j.toNat a s.me.tid)))) ∧
    (a % 32 ≠ 0 → exec (.strmSet g j xa) s = faultsAtIssue s 0x11 0 a) ∧
    (a % 32 = 0 → s.inMyWin a 32 = false → exec (.strmSet g j xa) s = faultsAtIssue s 0x14 0 a) ∧
    (probeCheck j xa xb s = none → v.setPending = false → v.probing = false →
      (stStrided v.word = true ∨ (stProbed v.word : Int) - stCommit v.word + (n1.toNat + 1) ≤ queueFill (s.me.qwState (stIq v.word))) →
      let c := { s.me with st := smSet s.me.st j.toNat { v with probing := true } }
      ∃ t, exec (.probe g j xa xb n1) s = .next t ∧ t.mem = s.mem ∧ t.reqs = s.reqs ∧
        t.me = (if stStrided v.word then c else qwMoved c (stIq v.word) fun q => { q with ops := q.ops + 1 }) ∧
        ∃ e ∈ t.due, e.act = .instr .probeComplete ∧ s.now + 32 ≤ e.tick)) ∧
  ∀ (s : State) (g : Guard) (j : BitVec 3) (n1 : BitVec 12) (gather : Bool) (i : Instr), s.guardQ g = true →
    i = (if gather then .gather g j n1 else .scatter g j n1) →
    let v := s.strm j
    let w := v.word
    let n := n1.toNat + 1
    let dq := s.me.qwState (stDq w)
    (stValid w = true → streamWordsOk s w = true → (stReqp w = false ∨ stSpec w + n ≤ stProbed w) →
      (stStrided w = true ∨ n ≤ (s.me.qwState (stIq w)).fill) → n ≤ (if gather then dq.room else dq.fill) → slotsFor s s.site.arr n = true →
      v.setPending = false → (stReqp w = false ∨ v.probing = false) →
      let c1 := qwMoved s.me (stDq w) (if gather then QW.takeOut n else QW.takeIn n)
      let c2 := if stStrided w then c1 else qwMoved c1 (stIq w) (QW.takeIn n)
      ∃ t o rs, exec i s = .next t ∧ t.mem = s.mem ∧ t.banks = s.banks ∧ t.reqs = s.reqs ++ rs ∧ rs.length = n ∧
        (∀ r ∈ rs, r.kind = (if gather then .gather else .scatter) ∧ r.slot = true ∧ r.part = s.me.part ∧ r.size = stElem w ∧ r.write = !gather) ∧
        t.me = { c2 with st := smSet s.me.st j.toNat { v with word := stSet w 128 32 (stSpec w + n), ops := v.ops ++ [o] } } ∧
        o.gather = gather ∧ o.first = stSpec w ∧ o.n = n) ∧
    (v.setPending = false → stValid w = false → exec i s = faultsAtIssue s 0x01 6 noAddr) ∧
    (v.setPending = false → stValid w = true → streamWordsOk s w = true → stReqp w = true → v.probing = false → stProbed w < stSpec w + n →
      exec i s = faultsAtIssue s 0x22 0 (stProbed w))

/-- R255: a remote atomic fires with its operation, its address, and its operands cut to its size; a fetch reserves a position of its return queue. A misaligned address, a
return queue that is not fit and, without FETCH, an object outside the window fault before issue.

R255: the new value of an atom, for each operation, on operands of n bytes. -/
def Obligations.Atoms : Prop :=
  (∀ (s : State) (o : EAtom) (i : Instr) (op : Nat), s.guardQ o.g = true →
    (i = .atomAdd o ∧ op = 0 ∨ i = .atomMin o ∧ op = 1 ∨ i = .atomMax o ∧ op = 2 ∨ i = .atomAnd o ∧ op = 3 ∨ i = .atomOr o ∧ op = 4 ∨ i = .atomXor o ∧ op = 5 ∨
     i = .atomSwap o ∧ op = 6 ∨ i = .atomCas o ∧ op = 7) →
    let size := if o.dword then 8 else 4
    let va := (s.x o.xa).toNat
    let q := s.me.qwState o.k.toNat
    let fits := s.fit o.k.toNat && qwKind (s.me.qword o.k.toNat s.site.n) == 3 && qwEsz (s.me.qword o.k.toNat s.site.n) == 1
    (va % size = 0 → (o.fetch = false ∨ fits = true ∧ 1 ≤ q.room) → (o.bo = false ∨ s.inMyWin (o.boff.toNat * 32) 32 = true) → slotsFor s s.site.arr 1 = true →
      ∃ t r, exec i s = .next t ∧ t.mem = s.mem ∧ t.banks = s.banks ∧ t.me = (if o.fetch then qwMoved s.me o.k.toNat (QW.takeOut 1) else s.me) ∧
        t.reqs = s.reqs ++ [r] ∧ r.kind = .atom ∧ r.op = op ∧ r.target = .virt va ∧ r.size = size ∧ r.arg = (s.x o.xb).toNat % 2 ^ (8 * size) ∧
        r.swap = (s.x (o.xb + 1)).toNat % 2 ^ (8 * size) ∧ r.fetch = o.fetch ∧ r.qk = o.k.toNat ∧ r.qpos = q.pr ∧
        r.bo = (if o.bo then some (o.boff.toNat * 32) else none)) ∧
    (va % size ≠ 0 → exec i s = faultsAtIssue s 0x11 0 va) ∧
    (va % size = 0 → o.fetch = true → fits = false → exec i s = faultsAtIssue s 0x12 0 noAddr) ∧
    (va % size = 0 → o.fetch = false → o.bo = true → s.inMyWin (o.boff.toNat * 32) 32 = false → exec i s = faultsAtIssue s 0x14 0 (o.boff.toNat * 32))) ∧
  ∀ (n old v swap : Nat), (n = 4 ∨ n = 8) → old < 2 ^ (8 * n) → v < 2 ^ (8 * n) →
    let so := (BitVec.ofNat (8 * n) old).toInt
    let sv := (BitVec.ofNat (8 * n) v).toInt
    atomNew 0 n old v swap = (old + v) % 2 ^ (8 * n) ∧
    (BitVec.ofNat (8 * n) (atomNew 1 n old v swap)).toInt = min so sv ∧ (BitVec.ofNat (8 * n) (atomNew 2 n old v swap)).toInt = max so sv ∧
    (∀ b, (atomNew 3 n old v swap).testBit b = (old.testBit b && v.testBit b)) ∧ (∀ b, (atomNew 4 n old v swap).testBit b = (old.testBit b || v.testBit b)) ∧
    (∀ b, (atomNew 5 n old v swap).testBit b = (old.testBit b ^^ v.testBit b)) ∧ atomNew 6 n old v swap = v ∧
    (old = v → atomNew 7 n old v swap = swap) ∧ (old ≠ v → atomNew 7 n old v swap = old)

/-- R246, R247, R75: `task.post` on an aligned record of the window with a queue entry free reserves the entry, and the record is read 16 ticks on; with none free it waits.
`dict.load` of n entries in the window and within DSZ reads the first 16 ticks on. Misaligned records, a post record outside the window and more than DSZ entries
fault before issue.

R212: the kennel instructions: `kn.bind` reads its record 16 ticks on, `kn.inv` and `kn.stat` act on their entry 20 ticks on, and `kn.inv.all` on every entry of the
partition in the tower that is valid at issue (log 21).

R395, R391: `msg.quiet` lets its bundle issue, with nothing changed, once the tag is quiet here and at every peer, and waits until then; `xch.go` issues when its
superstep has started, and the context is ready no more. -/
def Obligations.PostsKennelsQuiet : Prop :=
  (∀ (s : State) (g : Guard) (xa : BitVec 5) (n : BitVec 15), s.guardQ g = true →
    let a := (s.x xa).toNat
    let full := 64 ≤ (s.part s.me.part).queue.length + (s.part s.me.part).reserved
    (a % 64 = 0 → s.inMyWin a 64 = true → ¬full → ∃ t, exec (.taskPost g xa) s = .next t ∧ t = { s with parts := t.parts, due := t.due } ∧
      (t.part s.me.part).reserved = (s.part s.me.part).reserved + 1 ∧ (t.part s.me.part).queue = (s.part s.me.part).queue ∧
      t.due = (laterAct s 16 rankPortRead s.site (.micro (.post s.me.part s.me.launch s.site.arr s.site.ctx a s.me.tid s.site.n))).due) ∧
    (s.site.picked = false → a % 64 = 0 → s.inMyWin a 64 = true → full → exec (.taskPost g xa) s = .next (withMe s { s.me with state := .stalled })) ∧
    (a % 64 ≠ 0 → exec (.taskPost g xa) s = faultsAtIssue s 0x11 0 a ∧ exec (.dictLoad g xa n) s = faultsAtIssue s 0x11 0 a) ∧
    (a % 64 = 0 → s.inMyWin a 64 = false → exec (.taskPost g xa) s = faultsAtIssue s 0x14 0 a) ∧
    (a % 64 = 0 → s.inMyWin a (48 * n.toNat) = true → n.toNat ≤ s.me.dsz → exec (.dictLoad g xa n) s = .next (laterAct s 16 rankPortRead s.site
      (.micro (.dictRead s.site.arr n.toNat (s.myWin a) 0 [] (s.site.arr * 786432 + s.me.db * 48) s.me.tid)))) ∧
    (a % 64 = 0 → s.inMyWin a (48 * n.toNat) = true → s.me.dsz < n.toNat → exec (.dictLoad g xa n) s = faultsAtIssue s 0x01 2 noAddr)) ∧
  (∀ (s : State) (g : Guard) (xa : BitVec 5) (name : BitVec 16), s.guardQ g = true →
    let a := (s.x xa).toNat
    let acts := fun (t : State) (kind name off : Nat) => laterAct t 20 rankControl
      { s.site with a := s.me.part, b := kind, c := name, pos := off, bytes := [], qpos := s.uid, rowOn := false } (.instr .kennelEntryAction)
    (a % 64 = 0 → s.inMyWin a 64 = true →
      exec (.knBind g xa name) s = .next (laterAct s 16 rankPortRead s.site (.micro (.knBind s.site.arr a name.toNat s.me.tid s.uid (s.me.h == 32)))) ∧
      exec (.knStat g xa name) s = .next (acts s 2 name.toNat a)) ∧
    (a % 64 ≠ 0 → exec (.knBind g xa name) s = faultsAtIssue s 0x11 0 a ∧ exec (.knStat g xa name) s = faultsAtIssue s 0x11 0 a) ∧
    (a % 64 = 0 → s.inMyWin a 64 = false → exec (.knBind g xa name) s = faultsAtIssue s 0x14 0 a ∧ exec (.knStat g xa name) s = faultsAtIssue s 0x14 0 a) ∧
    exec (.knInv g name) s = .next (acts s 1 name.toNat 0) ∧
    exec (.knInvAll g) s = .next
      (((s.tower (s.site.arr / 8)).kennels.filter fun e => e.2.valid && e.1 / 65536 == s.me.part).foldl (fun t e => acts t 1 (e.1 % 65536) 0) s)) ∧
  ∀ (s : State) (g : Guard) (b : BitVec 2) (k : BitVec 4) (xa : BitVec 5) (n : BitVec 9), s.guardQ g = true →
    let tag := if b = 2 then !s.me.phase.getLsbD 7 else b == 1
    let quiet := quietHere s s.me.part tag && (s.part s.me.part).peers.all fun e => (smGet 0 (s.part s.me.part).peerQuiet e.1).testBit (if tag then 1 else 0)
    (quiet = true → exec (.msgQuiet g b) s = .next s) ∧
    (s.site.picked = false → quiet = false → exec (.msgQuiet g b) s = .next (withMe s { s.me with state := .stalled })) ∧
    (∀ x u, xchCheck k xa n s = none → s.me.xch = some x → x.n = s.site.n → x.start = some u → u ≤ s.now →
      exec (.xchGo g k xa n) s = .next (withMe s { s.me with xch := none })) ∧
    ((s.part s.me.part).xmask.getLsbD s.site.arr = false → exec (.xchGo g k xa n) s = faultsAtIssue s 0x50 3 noAddr)

/-- R261-R263: `walk.start` takes a walker nobody owns, and its record is read 16 ticks on; it waits for another's and faults on its own. `walk.stop` by the owner reads the
status and frees the walker, by anybody else reads 0; `walk.stop.w` waits for ENDED. A start whose record is not aligned, or not in the window, faults before issue. -/
def Obligations.WalkerStartAndStop : Prop :=
  ∀ (s : State) (g : Guard) (xa : BitVec 5), s.guardQ g = true →
    let a := (s.x xa).toNat
    let w := s.walker
    (a % 64 = 0 → s.inMyWin a 64 = true → w.owner = none → exec (.walkStart g xa) s = .next (laterAct
      (withWalker s { w with owner := some s.site.ctx, running := false, loading := true, ended := false, clamp := false, nemit := 0, epoch := w.epoch + 1, startN := s.site.n })
      16 rankPortRead s.site (.micro (.walkRecord s.site.arr a s.me.tid (w.epoch + 1))))) ∧
    (a % 64 = 0 → s.inMyWin a 64 = true → w.owner = some s.site.ctx → exec (.walkStart g xa) s = faultsAtIssue s 0x60 6 a) ∧
    (a % 64 ≠ 0 → exec (.walkStart g xa) s = faultsAtIssue s 0x11 0 a) ∧ (a % 64 = 0 → s.inMyWin a 64 = false → exec (.walkStart g xa) s = faultsAtIssue s 0x14 0 a) ∧
    (∀ k, s.site.picked = false → a % 64 = 0 → s.inMyWin a 64 = true → w.owner = some k → k ≠ s.site.ctx → exec (.walkStart g xa) s = .next (withMe s { s.me with state := .stalled })) ∧
    (w.owner ≠ some s.site.ctx → exec (.walkStop g xa) s = .next (seqWrite s 4 2 (.x xa) 0) ∧ exec (.walkStopW g xa) s = .next (seqWrite s 4 2 (.x xa) 0)) ∧
    (s.site.picked = false → w.owner = some s.site.ctx → w.ended = false → exec (.walkStopW g xa) s = .next (withMe s { s.me with state := .stalled })) ∧
    (∀ i, (i = .walkStop g xa ∨ i = .walkStopW g xa ∧ w.ended = true) → w.owner = some s.site.ctx → w.res = none → exec i s = .next (withWalker
      (seqWrite s 4 2 (.x xa) (BitVec.ofNat 64 ((w.reg 1).toNat * 2 ^ 32 + w.nemit % 65536 * 65536 + (if w.clamp then 4 else 0) + (if w.ended then 2 else 0) + 1)))
      { w with owner := none, running := false, loading := false, epoch := w.epoch + 1, need := [], flight := [], res := none, feed := w.feed.take w.feedRes }))

/-! ## The walker -/

/-- R270, R274, R277: each walker instruction of one tick leaves its result in its register (G0 excepted), the walker's PC moved on and its next instruction due a tick later;
nothing else of the state changes. The one at the program's end has its effect, runs off the end and faults (R279). R258: G0 reads 0 whatever is written to it; a register written reads its value, and no other changes. -/
def Obligations.WalkerScalarResult : Prop :=
  ∀ (s : State) (d a b : BitVec 4) (i18 : BitVec 18) (i14 : BitVec 14) (i12 : BitVec 12) (n : BitVec 5),
    let w := s.walker
    let put := fun (v : Lane) => (.next (walkerGoes s (w.setReg d v)) : Host.Outcome State Fault Refusal)
    exec .wNop s = .next (walkerGoes s w) ∧ exec (.wLi d i18) s = put (i18.signExtend 32) ∧ exec (.wLih d i14) s = put (i14 ++ (w.reg d).setWidth 18) ∧
    exec (.wAdd d a b) s = put (w.reg a + w.reg b) ∧ exec (.wAddi d a i12) s = put (w.reg a + i12.signExtend 32) ∧ exec (.wSub d a b) s = put (w.reg a - w.reg b) ∧
    exec (.wAnd d a b) s = put (w.reg a &&& w.reg b) ∧ exec (.wShl d a n) s = put (w.reg a <<< n.toNat) ∧ exec (.wShr d a n) s = put (w.reg a >>> n.toNat) ∧
    exec (.wRds d 0) s = put (BitVec.ofNat 32 w.ma.toNat) ∧ exec (.wRds d 1) s = put (BitVec.ofNat 32 w.mb.toNat) ∧ exec (.wRds d 2) s = put (BitVec.ofNat 32 w.cna) ∧
    exec (.wRds d 3) s = put (BitVec.ofNat 32 w.cnb) ∧ exec (.wRds d 4) s = put (BitVec.ofNat 32 w.bm.toNat) ∧
    exec (.wRds d 5) s = put (BitVec.ofNat 32 w.feed.length) ∧ exec (.wRds d 6) s = put (BitVec.ofNat 32 w.nemit) ∧
    exec (.wIsect d) s = .next (walkerGoes s ((compareWindows w).setReg d (BitVec.ofNat 32 (countBits (compareWindows w).ma.toNat 16)))) ∧
    exec (.wUnion d) s = .next (walkerGoes s ((putCoords (consumedValues w).eraseDups (compareWindows w)).setReg d
      (BitVec.ofNat 32 (consumedValues w).eraseDups.length))) ∧
    exec (.wMerge d) s = .next (walkerGoes s ((putCoords (consumedValues w) (compareWindows w)).setReg d (BitVec.ofNat 32 (consumedValues w).length))) ∧
    (∀ (e : BitVec 4) (v : Lane), w.reg 0 = 0 ∧ w.setReg 0 v = w ∧ (d ≠ 0 → (w.setReg d v).reg d = v) ∧ (d ≠ e → (w.setReg d v).reg e = w.reg e))

/-- R270, R279: branches go to their target when their condition holds and on otherwise; a taken branch's target is due a tick later. `dloop` counts its register down. An
instruction that would run past the program's end, whichever it is, faults with 0x60, sub-code 2, and stops the walker. -/
def Obligations.WalkerControlResult : Prop :=
  ∀ (s : State) (a b : BitVec 4) (t : BitVec 8),
    let w := s.walker
    let goes := fun (v : Walker) => (.next (walkerActs (withWalker s { v with pc := t.toNat }) 1 true) : Host.Outcome State Fault Refusal)
    exec (.wB t) s = goes w ∧
    (w.reg a = w.reg b → exec (.wBCond 0 a b t) s = goes w) ∧ (w.reg a ≠ w.reg b → exec (.wBCond 1 a b t) s = goes w) ∧
    ((w.reg a).toNat < (w.reg b).toNat → exec (.wBCond 2 a b t) s = goes w) ∧ ((w.reg b).toNat ≤ (w.reg a).toNat → exec (.wBCond 3 a b t) s = goes w) ∧
    (w.reg a - 1 ≠ 0 → exec (.wDloop a t) s = goes (w.setReg a (w.reg a - 1))) ∧
    ((w.reg a ≠ w.reg b → exec (.wBCond 0 a b t) s = .next (walkerGoes s w)) ∧ (w.reg a = w.reg b → exec (.wBCond 1 a b t) s = .next (walkerGoes s w)) ∧
      ((w.reg b).toNat ≤ (w.reg a).toNat → exec (.wBCond 2 a b t) s = .next (walkerGoes s w)) ∧
      ((w.reg a).toNat < (w.reg b).toNat → exec (.wBCond 3 a b t) s = .next (walkerGoes s w)) ∧
      (w.reg a - 1 = 0 → exec (.wDloop a t) s = .next (walkerGoes s (w.setReg a (w.reg a - 1))))) ∧
    ∀ v : Walker, v.plen ≤ v.pc + 1 → ∃ u, u = walkerGoes s v ∧ u.walker.running = false ∧ u.walker.pc = v.pc ∧ u.walker.offend = true ∧ u.mem = s.mem ∧
      u = ((walkFault 2 v.plen).run (withWalker s { v with offend := true, res := none }))

/-- R271: a walker read (of `ld.w`, `ld.h`, `cwin.a`, `cwin.b`, `nzc`, `bexp`, `topk`, `emit`) at its begin tick: misaligned it faults with 0x60, sub-code 3, outside the window
with 4; else it takes the lines that LBUF holds, presents the others that are not on their way to the data port at rank 4, and awaits them; with none to await it completes
a tick later (`topk` after its scan).

R272: a prefetch of a line that is not in the window, in LBUF or on its way does nothing but end; of another it asks the data port for the line. At the program's end it has its effect,
and the program has run off its end (R279). -/
def Obligations.WalkerReadsBegin : Prop :=
  (∀ (s : State) (x : Instr) (lb : Bool) (off n align extra : Nat), s.site.issue = true → walkerRead s.walker x = some (lb, off, n, align, extra) →
    (lb = true ∨ s.walker.feed.length < 16) →
    let w := s.walker
    let lines := linesOf off n
    let hits := if lb then w.lbuf.filter fun l => lines.contains l.1 else []
    let miss := lines.filter fun l => !(hits.any fun h => h.1 == l)
    let fresh := miss.filter fun l => !(lb && w.flight.contains l)
    let w' : Walker := { w with got := hits, need := miss, needLb := lb, extra, flight := if lb then w.flight ++ fresh else w.flight }
    (0 < n → off % align ≠ 0 → exec x s = .next ((walkFault 3 off).run s)) ∧
    (0 < n → off % align = 0 → s.inMyWin off n = false → exec x s = .next ((walkFault 4 off).run s)) ∧
    ((n = 0 ∨ off % align = 0 ∧ s.inMyWin off n = true) →
      (miss = [] → exec x s = .next (walkerActs (withWalker s w') (1 + extra) false)) ∧
      (∃ t ls, exec x s = .next t ∧ t.mem = s.mem ∧ t.ctxs = s.ctxs ∧ t.walker = w' ∧
        (t.tower (towerOf s.site.arr)).lines = (s.tower (towerOf s.site.arr)).lines ++ ls ∧
        ls.map LineReq.addr = fresh.map s.myWin ∧ ∀ l ∈ ls, l.rank = 4))) ∧
  ∀ (s : State) (a : BitVec 4) (i : BitVec 12),
    let w := s.walker
    let off := (w.reg a + i.signExtend 32).toNat
    let line := off / 64 * 64
    ((s.inMyWin off 1 = false ∨ w.lbuf.any (fun l => l.1 == line) = true ∨ w.flight.contains line = true) → exec (.wPf a i) s = .next (walkerGoes s w)) ∧
    (s.inMyWin off 1 = true → w.lbuf.any (fun l => l.1 == line) = false → w.flight.contains line = false →
      (w.pc + 1 < w.plen → ∃ t, exec (.wPf a i) s = .next t ∧ t.mem = s.mem ∧ t.ctxs = s.ctxs ∧
        t.walker = { w with flight := w.flight ++ [line], pc := w.pc + 1, need := [], got := [], res := none } ∧
        ∃ l, (t.tower (towerOf s.site.arr)).lines = (s.tower (towerOf s.site.arr)).lines ++ [l] ∧ l.addr = s.myWin line ∧ l.rank = 4) ∧
      (w.plen ≤ w.pc + 1 → ∃ t, exec (.wPf a i) s = .next t ∧ t.mem = s.mem ∧ t.walker.running = false ∧ t.walker.offend = true ∧
        ∃ l, (t.tower (towerOf s.site.arr)).lines = (s.tower (towerOf s.site.arr)).lines ++ [l] ∧ l.addr = s.myWin line ∧ l.rank = 4))

/-- R271, R274, R275: with the bytes it asked for at hand, a walker read has its effect: `ld.w` and `ld.h` their register, `cwin` a coordinate window, `nzc` the mask and the
count of nonzero elements, `bexp` the expanded slice of STG; then the next instruction is due, or the program has run off its end.

R276: `topk` of n values and k (a k out of its limits becomes min(n, 64) and sets CLAMP): STG becomes 64 entries: the k highest nonzero candidates in order of value or
magnitude, ties to the lower index, then unused ones, then zeros; G[D] becomes the number chosen. -/
def Obligations.WalkerReadResults : Prop :=
  (∀ (s : State) (d a b f : BitVec 4) (l : BitVec 1) (z : BitVec 2) (i : BitVec 12), s.site.issue = false →
    let w := s.walker
    let off := (w.reg a + i.signExtend 32).toNat
    let got := gotBytes w off
    exec (.wLdW d a i) s = .next (walkerGoes s (w.setReg d (BitVec.ofNat 32 (leNat (got 4))))) ∧
    exec (.wLdH d a i) s = .next (walkerGoes s (w.setReg d (BitVec.ofNat 32 (leNat (got 2))))) ∧
    exec (.wCwinA a b l i) s = .next (walkerGoes s
      { w with cwa := (List.range 16).map fun j => fieldAt (got 32) (2 * j) 2, nwa := min (w.reg b).toNat 16, lwa := l == 1 }) ∧
    exec (.wCwinB a b l i) s = .next (walkerGoes s
      { w with cwb := (List.range 16).map fun j => fieldAt (got 32) (2 * j) 2, nwb := min (w.reg b).toNat 16, lwb := l == 1 }) ∧
    (let es := (List.range (32 / nzcBytes f)).filter fun e => nzcTest f (fieldAt (got 32) (nzcBytes f * e) (nzcBytes f))
     exec (.wNzc d a f i) s = .next (walkerGoes s
      (({ w with bm := BitVec.ofNat 32 (es.foldl (fun n e => n + 2 ^ e) 0) } : Walker).setReg d (BitVec.ofNat 32 es.length)))) ∧
    (let mask := (w.reg b).toNat % 2 ^ (32 / 2 ^ z.toNat)
     exec (.wBexp f a b z i) s = .next (walkerGoes s
      (w.putStg (32 * f.toNat) (expandBits mask (2 ^ z.toNat) (got (countBits mask 32 * 2 ^ z.toNat))))))) ∧
  ∀ (s : State) (d a b : BitVec 4) (m : BitVec 1) (i : BitVec 12), s.site.issue = false →
    let w := s.walker
    let n := (w.reg b).toNat % 65536
    let k0 := (w.reg b).toNat / 65536
    let k := if n < k0 ∨ 64 < k0 then min n 64 else k0
    let cand := ((List.range n).map fun j => (j, fieldAt (gotBytes w (w.reg a + i.signExtend 32).toNat (4 * n)) (4 * j) 4)).filter fun e => e.2 % 2 ^ 31 != 0
    let key := fun (e : Nat × Nat) => topKey (m == 1) e.2
    ∃ top : List (Nat × Nat), top.length = min 64 cand.length ∧ (∀ e ∈ top, e ∈ cand) ∧
      top.Pairwise (fun e f => key f < key e ∨ key f = key e ∧ e.1 < f.1) ∧
      (∀ e ∈ cand, e ∉ top → ∀ f ∈ top, key e < key f ∨ key e = key f ∧ f.1 < e.1) ∧
      exec (.wTopk d a b m i) s = .next (walkerGoes s
        (({ w.putStg 0 ((List.range 64).flatMap fun j =>
              let e := if k ≤ j then (0, 0) else top.getD j (0xFFFFFFFF, 0)
              natBytes 4 e.1 ++ natBytes 4 e.2) with clamp := w.clamp || decide (n < k0 ∨ 64 < k0) } : Walker).setReg d
          (BitVec.ofNat 32 (min k cand.length))))

/-- R273, R278, R279: records: `emit` pushes the 512 bytes it read with its RV word, `emit.s` STG, each counted, when the feed has room, and waits when it has none; `emitz` of
none waits as the others do, and then does nothing; `wend` sets ENDED and stops the program. -/
def Obligations.WalkerRecordsPushed : Prop :=
  ∀ (s : State) (a b : BitVec 4) (c : BitVec 1) (i : BitVec 12),
    let w := s.walker
    let pushed := fun (bs : List Byte) (rv : Lane) => ({ w with feed := w.feed ++ [bs ++ natBytes 4 rv.toNat], nemit := (w.nemit + 1) % 65536 } : Walker)
    let again := fun (t : State) => laterAct t 1 rankWalk { s.site with issue := true, a := a.toNat, c := w.epoch } (.instr .emitzRecordPush)
    let zeros := fun (n : Nat) => { pushed (List.replicate 512 0) 0 with ecnt := n }
    (w.feed.length < 16 →
      (s.site.issue = false →
        exec (.wEmit a b i) s = .next (walkerGoes s (pushed (gotBytes w (w.reg a + i.signExtend 32).toNat 512) (w.reg b)))) ∧
      exec (.wEmitS b 0) s = .next (walkerGoes s (pushed w.stgAll (w.reg b))) ∧
      exec (.wEmitS b 1) s = .next (walkerGoes s { pushed w.stgAll (w.reg b) with stg := [] }) ∧
      ((w.reg a).toNat ≤ w.ecnt → exec (.wEmitz a) s = .next (walkerGoes s { w with ecnt := 0 })) ∧
      ((w.reg a).toNat = w.ecnt + 1 → exec (.wEmitz a) s = .next (walkerGoes s (zeros 0))) ∧
      (w.ecnt + 1 < (w.reg a).toNat → exec (.wEmitz a) s = .next (again (withWalker s (zeros (w.ecnt + 1)))))) ∧
    (16 ≤ w.feed.length → exec (.wEmitz a) s = .next (again s)) ∧
    (16 ≤ w.feed.length → exec (.wEmitS b c) s = .next (walkerActs s 1 true) ∧ (s.site.issue = true → exec (.wEmit a b i) s = .next (walkerActs s 1 true))) ∧
    (w.running = true → w.epoch = s.site.c → s.site.a = a.toNat → exec .emitzRecordPush s = exec (.wEmitz a) s) ∧
    ((w.running = false ∨ w.epoch ≠ s.site.c) → exec .emitzRecordPush s = .next s) ∧
    exec .wWend s = .next (withWalker s { w with ended := true, running := false })

/-- R272, R278: a walker's `qpop` and `qpush` reserve their position when an element, or room, is there, wait otherwise, fault on a word that is not fit, and move the pointer
as they complete. The owner's words are taken as they stand. One at the program's end has its effect, and the program has run off its end (R279). -/
def Obligations.WalkerQueueAccess : Prop :=
  ∀ (s : State) (d k : BitVec 4),
    let n := s.me.ctime
    let q := s.me.qwState k.toNat
    let w := s.walker
    let s' : State := { s with site := { s.site with n } }
    (s.site.issue = true → walkWordOk s' k [0, 1] = false → exec (.wQpop d k) s = .next ((walkFault 7 k.toNat).run s)) ∧
    (s.site.issue = true → walkWordOk s' k [4] = false → exec (.wQpush k) s = .next ((walkFault 7 k.toNat).run s)) ∧
    (s.site.issue = true → walkWordOk s' k [0, 1] = true → (d ≠ 15 ∨ qwEsz q.word ≠ 1) → q.fill = 0 → exec (.wQpop d k) s = .next (walkerActs s 1 true)) ∧
    (s.site.issue = true → walkWordOk s' k [4] = true → q.room = 0 → exec (.wQpush k) s = .next (walkerActs s 1 true)) ∧
    (s.site.issue = true → walkWordOk s' k [0, 1] = true → (d ≠ 15 ∨ qwEsz q.word ≠ 1) → q.fill ≠ 0 →
      ∃ t, exec (.wQpop d k) s = .next t ∧ t.mem = s.mem ∧ t.me = qwMoved s.me k.toNat (QW.takeIn 1) ∧ t.walker.res = some (k.toNat, q.stamp, false) ∧
        t.walker.pop = qwElem q.word q.cr) ∧
    (s.site.issue = true → walkWordOk s' k [4] = true → q.room ≠ 0 →
      ∃ t, exec (.wQpush k) s = .next t ∧ t.mem = s.mem ∧ t.me = qwMoved s.me k.toNat (QW.takeOut 1) ∧ t.walker.res = some (k.toNat, q.stamp, true) ∧
        ∃ ls, (t.tower (towerOf s.site.arr)).lines = (s.tower (towerOf s.site.arr)).lines ++ ls ∧
          ls.map LineReq.addr = (List.range 8).map fun m => s.myWin (qwElem q.word q.pr + 64 * m)) ∧
    (s.site.issue = false → w.res = some (k.toNat, q.stamp, false) →
      let bits := leNat (gotBytes w w.pop (if qwEsz q.word = 1 then 8 else 4))
      let w1 := w.setReg d (BitVec.ofNat 32 bits)
      let w2 := if qwEsz q.word = 1 then w1.setReg (d + 1) (BitVec.ofNat 32 (bits / 2 ^ 32)) else w1
      (w.plen ≤ w.pc + 1 → ∃ t, exec (.wQpop d k) s = .next t ∧ t.mem = s.mem ∧ t.walker.g = w2.g ∧ t.walker.running = false ∧ t.walker.offend = true) ∧
      (w.pc + 1 < w.plen → ∃ t, exec (.wQpop d k) s = .next t ∧ t.mem = s.mem ∧ t.walker = ({ w2 with pc := w.pc + 1, need := [], got := [], res := none } : Walker) ∧
        t.me = qwMoved s.me k.toNat (fun q => (q.advance false 1).opDone))) ∧
    (s.site.issue = false → w.res = some (k.toNat, q.stamp, true) →
      (w.plen ≤ w.pc + 1 → ∃ t, exec (.wQpush k) s = .next t ∧ t.mem = s.mem ∧ t.walker.running = false ∧ t.walker.offend = true) ∧
      (w.pc + 1 < w.plen → ∃ t, exec (.wQpush k) s = .next t ∧ t.walker = ({ w with pc := w.pc + 1, need := [], got := [], res := none } : Walker) ∧
        t.me = qwMoved s.me k.toNat (fun q => (q.advance true 1).opDone)))

/-! ## Availability, bring-up, power -/

/-- R406: the leak lowers every LEVEL of its class and no other. R406, R407, R414: an event of weight 1 counts, and the host hears of the one that makes the fault
lasting; the ROM's pass counts what it corrects and comes again within 2^46 ticks. R409-R412: a lasting row, bank, pseudo-channel or port is spared, and stands repaired (state 2) when
that is done; where no spare is left it stands at 3, and what holds it is halted. R333: a steward restarts, and a watchdog's takeover names its pseudo-channels for the next frame. R415: a
transceiver that is lost fails its port; a new one joins the spares, with its bucket in service again (DESIGN CHOICE, log 21). -/
def Obligations.BucketsAndSparing : Prop :=
  ∀ (s : State),
    let a := s.site.a
    let b := s.site.b
    (∃ t, exec .bucketLeak s = .next t ∧ t = { s with mod := t.mod, due := t.due } ∧
      ∀ c n, n < 2 ^ 20 → t.bucket c n = if c = a then { s.bucket c n with level := (s.bucket c n).level - 1 } else s.bucket c n) ∧
    ((a = 1 ∨ a = 2) → ∃ t, exec .scrub s = .next t ∧ t = { s with mod := t.mod, due := t.due } ∧
      let k := s.bucket a b
      t.bucket a b = { k with total := min (k.total + 1) 0xFFFFFFFF, level := if k.state = 0 then min (k.level + 1) 0xFFFF else k.level } ∧
      t.mod.latent = s.mod.latent.filter (fun e => e != (a, b)) ∧
      (t.mod.outputs ≠ s.mod.outputs ↔ k.state = 0 ∧ k.level < bucketThreshold a ∧ bucketThreshold a ≤ min (k.level + 1) 0xFFFF)) ∧
    (a ≠ 1 → a ≠ 2 → ∃ t, exec .scrub s = .next t ∧ t = { s with mod := t.mod, due := t.due, free := t.free } ∧ t.mod.latent = [] ∧
      (s.mod.latent = [] → t.mod.buckets = s.mod.buckets) ∧
      (∀ c n, s.mod.latent = [(c, n)] → (t.bucket c n).total = min ((s.bucket c n).total + 1) 0xFFFFFFFF) ∧
      ∃ d ∈ t.due, d.act = .instr .scrub ∧ d.site.a = 0 ∧ s.now < d.tick ∧ d.tick ≤ s.now + 2 ^ 46) ∧
    (b = 0 → sparedRows s (a / 16) = [] → ∃ t, exec .rowSpare s = .next t ∧ t.mem = s.mem ∧ t.bucket 1 a = { s.bucket 1 a with state := 1 } ∧
      ((s.arr (a / 16)).gate = .up → (t.arr (a / 16)).gate = .gating) ∧
      ∃ d ∈ t.due, d.act = .instr .rowSpare ∧ d.site.a = a ∧ d.site.b = 1 ∧ d.tick = s.now + 1) ∧
    (a < 1024 → b = 0 → sparedRows s (a / 16) ≠ [] → ∃ t, exec .rowSpare s = .next t ∧ t.mem = s.mem ∧ t.arrs = s.arrs ∧ t.bucket 1 a = { s.bucket 1 a with state := 3 } ∧
      ∀ p, (s.arr (a / 16)).owner = some p → (t.part p).leash = true) ∧
    (a < 1024 → b ≠ 0 → (s.arr (a / 16)).owner = none → ∃ t, exec .rowSpare s = .next t ∧ t.bucket 1 a = { s.bucket 1 a with state := 2 } ∧
      (t.arr (a / 16)).sgen = ((s.arr (a / 16)).sgen + 1) % 2 ^ 64 ∧
      ∀ i, i < 16 * 32768 → t.byte .cell ((a / 16 * 256 + a % 16 * 16) * 32768 + i) = 0) ∧
    (b = 1 → (s.tower (a / 256)).spares.length < 8 → ∃ t, exec .bankMirrorComplete s = .next t ∧ t.mem = s.mem ∧ t.bucket 2 a = { s.bucket 2 a with state := 1 } ∧
      (t.tower (a / 256)).spares = (s.tower (a / 256)).spares ++ [{ bank := a % 256 }] ∧
      ∃ d ∈ t.due, d.act = .micro (.mirror (a / 256) (a % 256)) ∧ d.tick = s.now ∧ d.rank = rankEnd) ∧
    (a < 2048 → b = 1 → 8 ≤ (s.tower (a / 256)).spares.length → ∃ t, exec .bankMirrorComplete s = .next t ∧ t.mem = s.mem ∧ t.towers = s.towers ∧
      t.bucket 2 a = { s.bucket 2 a with state := 3 } ∧ t.bucket 6 (a / 256) = { s.bucket 6 (a / 256) with state := 3 } ∧ ∀ p ∈ tenantsOf s (a / 256), (t.part p).leash = true) ∧
    (b ≠ 1 → ∃ t, exec .bankMirrorComplete s = .next t ∧ t = { s with mod := t.mod, towers := t.towers } ∧ t.bucket 2 a = { s.bucket 2 a with state := 2 } ∧
      (t.tower (a / 256)).spares = (s.tower (a / 256)).spares.map fun m => { m with done := m.done || m.bank == a % 256 }) ∧
    (b ≠ 1 → (s.stack (a / 36 / 64)).retired = none → ∃ t, exec .pseudoChannelRetire s = .next t ∧ t.mem = s.mem ∧
      t.bucket 3 a = { s.bucket 3 a with state := 1 } ∧ (t.stack (a / 36 / 64)).retired = some (a / 36 % 64) ∧ (t.stack (a / 36 / 64)).copied = 0 ∧
      let k := s.stack (a / 36 / 64)
      (t.stack (a / 36 / 64)).slotsNew = k.slotsNew.map (fun n => (n.1, undoStatic n.2 (a / 36 % 64 / 2)))
        ++ [(s.now, undoStatic ((k.slotsNew.getLast?.map fun n => n.2).getD k.slots) (a / 36 % 64 / 2))]) ∧
    (a < 18432 → b ≠ 1 → ∀ old, (s.stack (a / 36 / 64)).retired = some old → old ≠ a / 36 % 64 → ∃ t, exec .pseudoChannelRetire s = .next t ∧ t.mem = s.mem ∧ t.hbm = s.hbm ∧
      t.bucket 3 a = { s.bucket 3 a with state := 3 } ∧ t.bucket 5 (a / 36 / 64) = { s.bucket 5 (a / 36 / 64) with state := 3 } ∧
      ∀ p ∈ tenantsOf s (a / 36 / 64), (t.part p).leash = true) ∧
    (b = 1 → ∃ t, exec .pseudoChannelRetire s = .next t ∧ t = withMod s t.mod ∧
      ∀ n, n < 2 ^ 20 → t.bucket 3 n = if n / 36 = a / 36 ∧ (s.bucket 3 n).state = 1 then { s.bucket 3 n with state := 2 } else s.bucket 3 n) ∧
    (b = 0 → ∀ k, (smGet {} s.mod.ports a).trunk = some k → ∃ t add, exec .portSpareAdd s = .next t ∧ t = { s with mod := t.mod, due := t.due } ∧
      t.mod.trunkNew = s.mod.trunkNew ++ [(a, none)] ++ add ∧ (add = [] ∨ ∃ q, q < 80 ∧ q ≠ a ∧ (smGet {} s.mod.ports q).trunk = none ∧
        (smGet {} s.mod.ports q).failed = false ∧ (s.bucket 4 q).state = 0 ∧ add = [(q, some k)] ∧
        ∃ d ∈ t.due, d.act = .instr .portSpareAdd ∧ d.site.a = a ∧ d.site.b = q + 1 ∧ d.tick = s.now + 1) ∧
      t.bucket 4 a = { s.bucket 4 a with state := if add = [] then 3 else 1 }) ∧
    (b ≠ 0 → (s.mod.trunkNew.any fun c => c.1 + 1 == b) = true → ∃ t, exec .portSpareAdd s = .next t ∧ t = { s with due := t.due } ∧
      ∃ d ∈ t.due, d.act = .instr .portSpareAdd ∧ d.site = s.site ∧ d.tick = s.now + 1) ∧
    (b ≠ 0 → (s.mod.trunkNew.any fun c => c.1 + 1 == b) = false → ∃ t, exec .portSpareAdd s = .next t ∧ t = withMod s t.mod ∧
      t.bucket 4 a = { s.bucket 4 a with state := if (smGet {} s.mod.ports (b - 1)).trunk = none then 3 else 2 }) ∧
    exec .stewardRestart s = .next (withStack s a
      { s.stack a with lost := 0, dog := if (s.bucket 5 a).state = 0 then [] else (s.stack a).dog }) ∧
    (∃ t r, exec .refreshWatchdog s = .next t ∧ t = { s with mod := t.mod, hbm := t.hbm } ∧
      (∀ pc, pc < 64 → smGet 0 (t.stack a).dog pc
        = if (b = 0 ∨ b.testBit pc = true) ∧ (s.stack a).dog.any (fun e => e.1 == pc) = false then (s.stack a).frame + 1 else smGet 0 (s.stack a).dog pc) ∧ (t.bucket 5 a).total = min ((s.bucket 5 a).total + 1) 0xFFFFFFFF ∧
      t.mod.outputs = s.mod.outputs ++ .event 0xFF 2 (eventBody 0xFF 0 0 (5 + a * 65536) s.now 0 0) :: r) ∧
    (a = 0 → exec .transceiverChange s = .next s) ∧
    (a = 1 → (smGet {} s.mod.ports b).failed = false → ∃ t, exec .transceiverChange s = .next t ∧ t = { s with mod := t.mod, due := t.due } ∧
      (smGet {} t.mod.ports b).failed = true) ∧
    (a = 2 → ∃ t, exec .transceiverChange s = .next t ∧ t = { s with mod := t.mod } ∧ (smGet {} t.mod.ports b).failed = false ∧
      (smGet {} t.mod.ports b).left = none ∧ t.bucket 4 b = { s.bucket 4 b with state := 0, level := 0 })

/-- R384, R400, R415, R416: inserting, removing and resetting the module and trip 4 lose all state but what the host's memory holds; the cold start goes by its steps: identity,
1,600 units on the ring, the warming until every stack reads 0 °C or above (one that has told nothing reads 0: log 9), the training of each stack, and after the last of them the frames,
the ring's full total, and commands. Buckets leak from the start (R406). -/
def Obligations.BringUpAndLoss : Prop :=
  ∀ (s : State),
    let a := s.site.a
    (∀ powered, let t := s.lost powered
      t.ctxs = State.reset.ctxs ∧ t.banks = State.reset.banks ∧ t.cells = State.reset.cells ∧ t.arrs = State.reset.arrs ∧ t.towers = State.reset.towers ∧
      t.hbm = State.reset.hbm ∧ t.parts = State.reset.parts ∧ t.acc = State.reset.acc ∧ t.reqs = State.reset.reqs ∧ t.mod.boot = State.reset.mod.boot ∧
      (∀ sp addr, sp ≠ .host → addr < 2 ^ 80 → t.byte sp addr = State.reset.byte sp addr) ∧ (∀ addr, addr < 2 ^ 80 → t.byte .host addr = s.byte .host addr)) ∧
    exec .moduleInsert s = .next ((withMod s { s.mod with inserted := true }).lost true) ∧
    exec .moduleRemove s = .next ((withMod s { s.mod with inserted := false }).lost false) ∧
    exec .thermalTrip4 s = .next (s.lost false) ∧
    (s.site.frame.princ = 0 → exec .reset s = .next ((answered s 0 0 []).lost true)) ∧
    (s.site.frame.princ ≠ 0 → exec .reset s = .next (answered s 17 0 [])) ∧
    (∃ t, exec .coldStart s = .next t ∧ t = { s with mod := t.mod, due := t.due, free := t.free } ∧ t.mod.identity = true ∧ t.mod.powered = true ∧ t.mod.boot = 3 ∧
      t.mod.ringTotal = 1600 ∧ t.mod.ringLess = 0 ∧ (∃ d ∈ t.due, d.act = .instr .tokenVisit ∧ s.now < d.tick) ∧ (∃ d ∈ t.due, d.act = .instr .warmingDone ∧ d.tick = s.now ∧ d.rank = rankEnd) ∧
      (∀ c, 1 ≤ c → c ≤ 5 → ∃ d ∈ t.due, d.act = .instr .bucketLeak ∧ d.site.a = c ∧ s.now < d.tick ∧ d.tick ≤ s.now + leakPeriod c ∧ d.tick % leakPeriod c = 0) ∧
      ∃ d ∈ t.due, d.act = .instr .scrub ∧ s.now < d.tick ∧ d.tick ≤ s.now + 2 ^ 46) ∧
    ((s.mod.boot ≠ 3 ∨ ∃ st, st < 8 ∧ smGet 0 s.mod.stackTemp st < 0) → exec .warmingDone s = .next s) ∧
    (s.mod.boot = 3 → (∀ st, st < 8 → 0 ≤ smGet 0 s.mod.stackTemp st) → ∃ t, exec .warmingDone s = .next t ∧ t = { s with mod := { s.mod with boot := 4 }, due := t.due, free := t.free } ∧
      ∀ st, st < 8 → ∃ d ∈ t.due, d.act = .instr .stackTrainingDone ∧ d.site.a = st ∧ d.site.b = 0 ∧ s.now < d.tick) ∧
    (s.site.b = 0 → ((∃ st, st < 8 ∧ st ≠ a ∧ (s.stack st).up = false) ∨ s.mod.boot ≠ 4) →
      exec .stackTrainingDone s = .next (withStack s a { s.stack a with up := true })) ∧
    (s.site.b = 0 → (∀ st, st < 8 → st ≠ a → (s.stack st).up = true) → s.mod.boot = 4 → ∃ t, exec .stackTrainingDone s = .next t ∧
      t = { s with mod := t.mod, hbm := smSet s.hbm a { s.stack a with up := true }, due := t.due } ∧ t.mod.boot = 6 ∧ t.mod.ringTotal = 2000 ∧
      ∀ st, st < 8 → ∃ d ∈ t.due, d.act = .instr .frameBoundary ∧ d.site.a = st ∧ s.now ≤ d.tick)

/-- R384, R385: trips 1 and 2 tell the host, and from trip 2 on the tower's ticks are stretched while it stands, by an amount the spec leaves open (log 4); a clearing trip leaves the one
below; trip 3 raises fault 0x90, sub-code 3, in every live partition. A tower tick gathers thousandths of a global tick, never more than 126, and a whole one moves every act of the
tower to come. R200: a slice rail settles at its target. -/
def Obligations.HeatAndClocks : Prop :=
  ∀ (s : State),
    let a := s.site.a
    let b := s.site.b
    let v := s.tower a
    let told := fun (s : State) (info : Nat) => withMod s { s.mod with outputs := s.mod.outputs ++ [.event 0xFF 3 (eventBody 0xFF 0 0 info s.now 0 0)] }
    exec .thermalTrip1 s = .next (told (withTower s a { v with trip := max v.trip 1 }) (1 + 256 * a + 65536)) ∧
    (let u := withTower s a { v with trip := max v.trip 2 }
     exec .thermalTrip2 s
      = .next (told (if stretching s a then u else laterAct u 1 rankInput { arr := a * 8, a, c := 1 } (.instr .clockStretch)) (2 + 256 * a + 65536))) ∧
    (∃ t, exec .thermalTrip3 s = .next t ∧ t.mem = s.mem ∧ t.arrs = s.arrs ∧ t.banks = s.banks ∧ (t.tower a).trip = max v.trip 3 ∧
      ∀ p, p < 16 → (s.part p).live = true → (s.part p).faults = [] →
        (t.part p).leash = true ∧ ∃ f ∈ (t.part p).faults, f.code = 0x90 ∧ f.sub = 3 ∧ f.primary = true ∧ f.fgt = s.now) ∧
    ((b = 1 ∨ b = 2) → exec .thermalTripClear s = .next (told (withTower s a { v with trip := min v.trip (b - 1) }) (b + 256 * a))) ∧
    (b = 3 → exec .thermalTripClear s = .next (withTower s a { v with trip := min v.trip 2 })) ∧
    (let used := if v.stretched.1 = s.ttick a then v.stretched.2 else 0
     let n := min b (126 - used)
     let stretched := (s.ttick a, used + n)
     (s.site.c ≠ 1 → v.lagFrac + n < 1000 → exec .clockStretch s = .next (withTower s a { v with lagFrac := v.lagFrac + n, stretched })) ∧
     (s.site.c ≠ 1 → 1000 ≤ v.lagFrac + n → ∃ t, exec .clockStretch s = .next t ∧ t.mem = s.mem ∧
      t.tower a = { v with lagFrac := v.lagFrac + n - 1000, lag := v.lag + 1, stretched } ∧ t.due.length = s.due.length ∧
      ∀ d ∈ s.due, (if d.dom = some a then { d with tick := d.tick + 1 } else d) ∈ t.due)) ∧
    (s.site.c = 1 → v.trip < 2 → exec .clockStretch s = .next s) ∧
    (s.site.c = 1 → 2 ≤ v.trip → ∃ t n, exec .clockStretch s = .next t ∧ t.mem = s.mem ∧ t.ctxs = s.ctxs ∧ n ≤ 126 ∧
      1000 * (t.tower a).lag + (t.tower a).lagFrac = 1000 * v.lag + v.lagFrac + n ∧
      ∃ d ∈ t.due, d.act = .instr .clockStretch ∧ d.site = s.site ∧ s.now + 1 ≤ d.tick ∧ d.tick ≤ s.now + 2) ∧
    (let r := (s.arr s.site.arr).ls1
     b = 1 → r.moving = some s.site.c → exec .sliceRailSettle s = .next (withArr s s.site.arr
      { s.arr s.site.arr with ls1 := { r with level := r.target, moving := none } })) ∧
    (let r := (s.arr s.site.arr).ls2
     b ≠ 1 → r.moving = some s.site.c → exec .sliceRailSettle s = .next (withArr s s.site.arr
      { s.arr s.site.arr with ls2 := { r with level := r.target, moving := none } }))

/-- R376-R386: the token goes round the dies at their distances, a die with no request passes on what it holds, and one whose first request fits what it carries grants it; a lease ends at
its expiry, one released when its products are formed; a power sample at a multiple of 1,250 ticks is judged at its tick's end, and the second too high in a row raises the fault; gating waits for an idle array, ungating takes at most 50 µs and leaves the array's state zero. -/
def Obligations.PowerEvents : Prop :=
  ∀ (s : State),
    let a := s.site.arr
    let b := s.site.b
    (let d := s.site.a
     ∃ t, exec .tokenVisit s = .next t ∧ t.mem = s.mem ∧ t.banks = s.banks ∧
      (∃ e ∈ t.due, e.act = .instr .tokenVisit ∧ e.site.a = (d + 1) % 16 ∧ e.tick = s.now + (if d = 15 then 80 else 78)) ∧
      (dieRequests s d = [] →
        let back := smGet 0 s.mod.dieBack d + smGet 0 s.mod.dieHeld d
        t.mod = { s.mod with carried := s.mod.carried + (back - min s.mod.owed back), owed := s.mod.owed - min s.mod.owed back,
                             dieBack := smSet s.mod.dieBack d 0, dieHeld := smSet s.mod.dieHeld d 0 }) ∧
      ∀ e rest r, dieRequests s d = e :: rest → (s.ctx e.arr e.ctx).acq = some r → (s.ctx e.arr e.ctx).h ≠ 32 → markElsewhere s d = false → (s.tower (d / 2)).removed = false →
        (s.tower (d / 2)).trip < 2 → s.mod.owed = 0 → r.level ≤ s.mod.carried → committed s e.at' + r.level ≤ 96 →
        (t.ctx e.arr e.ctx).lease = some { level := r.level, expiry := s.now + r.ticks } ∧ (t.ctx e.arr e.ctx).acq = none) ∧
    (∀ l, (s.ctx a s.site.ctx).lease = some l → l.expiry = s.site.c → ∃ t, exec .leaseExpiry s = .next t ∧ t.mem = s.mem ∧ (t.ctx a s.site.ctx).lease = none) ∧
    ((∀ l, (s.ctx a s.site.ctx).lease = some l → l.expiry ≠ s.site.c) → exec .leaseExpiry s = .next s) ∧
    (let done := productsDone s a s.site.ctx s.site.n (s.ttick (towerOf a))
     let c := s.ctx a s.site.ctx
     (c.released ≠ some s.site.n → exec .leaseReleaseEffect s = .next s) ∧
     (c.released = some s.site.n → done = false → exec .leaseReleaseEffect s = .next (laterAct s 1 rankEvent s.site (.instr .leaseReleaseEffect))) ∧
     (c.released = some s.site.n → done = true → ∃ t, exec .leaseReleaseEffect s = .next t ∧ t.mem = s.mem ∧
      (t.ctx a s.site.ctx).lease = none ∧ (t.ctx a s.site.ctx).saved = none ∧ (t.ctx a s.site.ctx).released = none)) ∧
    (s.site.c ≠ 1 → (s.now % 1250 ≠ 0 ∨ (s.arr a).owner = none) → exec .powerSample s = .next s) ∧
    (s.site.c ≠ 1 → s.now % 1250 = 0 → (s.arr a).owner ≠ none → ∃ t, exec .powerSample s = .next t ∧ t = { s with due := t.due } ∧
      ∃ d ∈ t.due, d.act = .instr .powerSample ∧ d.site.arr = a ∧ d.site.b = b ∧ d.site.c = 1 ∧ d.tick = s.now ∧ d.rank = rankEnd) ∧
    (let tooHigh := decide (11 * 250 * declared s a < 10 * b)
     let second := tooHigh && decide (1250 ≤ s.now) && (s.arr a).tooHigh == some (s.now - 1250)
     (s.site.c = 1 → second = false → exec .powerSample s = .next (withArr s a { s.arr a with tooHigh := if tooHigh then some s.now else none })) ∧
     (s.site.c = 1 → second = true → ∀ x k sub p, overdrawCtx s a = some (x, k, sub) → (s.arr a).owner = some p →
      (s.part p).leash = false → (s.part p).byHalt = false → (s.part p).faults = [] →
      ∃ t, exec .powerSample s = .next t ∧ t.mem = s.mem ∧ (t.part p).leash = true ∧ (t.arr a).tooHigh = some s.now ∧
        ∃ f ∈ (t.part p).faults, f.code = 0x30 ∧ f.sub = sub ∧ f.addr = (if b = noAddr then f.addr else b) ∧ f.unit = x ∧ f.ctx = k ∧ f.primary = true)) ∧
    ((s.arr a).gate = .gating → (arrayIdle s a && straitLanded s a) = true → ∃ t, exec .gateRailsOff s = .next t ∧ (t.arr a).gate = .gated) ∧
    ((s.arr a).gate = .gating → (arrayIdle s a && straitLanded s a) = false → exec .gateRailsOff s = .next (laterAct s 1 rankEnd s.site (.instr .gateRailsOff))) ∧
    ((s.arr a).gate ≠ .gating → exec .gateRailsOff s = .next s) ∧
    ((s.arr a).gate = .gated → ∃ t, exec .arrayUngate s = .next t ∧ t = { s with arrs := smSet s.arrs a { s.arr a with gate := .ungating }, due := t.due, free := t.free } ∧
      ∃ e ∈ t.due, e.act = .instr .ungateComplete ∧ e.site.arr = a ∧ s.now < e.tick ∧ e.tick ≤ s.now + 62500) ∧
    (a < 64 → (s.arr a).gate = .ungating → ∃ t, exec .ungateComplete s = .next t ∧ (t.arr a).gate = .up ∧ (t.arr a).sgen = ((s.arr a).sgen + 1) % 2 ^ 64 ∧
      (∀ i, i < 256 * 32768 → t.byte .cell (a * 256 * 32768 + i) = 0) ∧ ∀ i, i < 256 * 2048 → t.byte .plane (a * 256 * 2048 + i) = 0) ∧
    (b ≤ 320 → ∃ t, exec .thermalRingReduction s = .next t ∧ t = withMod s t.mod ∧
      t.mod.intake = b ∧ t.mod.ringTotal = s.mod.ringTotal ∧ t.mod.ringLess = 0) ∧
    (320 < b → ∃ t, exec .thermalRingReduction s = .next t ∧ t = { s with mod := t.mod, free := s.free + 1 } ∧ t.mod.intake = b ∧
      t.mod.ringTotal = s.mod.ringTotal ∧ t.mod.ringLess ≤ s.mod.ringTotal)

/-! ## HBM, requests, copies, messages, the fabric -/

/-- R317-R336, R251-R256, R306-R312: the frames and slots of a stack follow one another, and new tables stand from the first frame after they were given; a memory program's
completion counts at its object; a request performs, lands, confirms, or translates. -/
def Obligations.MemoryRequestEvents : Prop :=
  ∀ (s : State) (r : Req), s.req? s.site.a = some r →
    let a := s.site.a
    let gone := s.reqs.filter fun q => q.uid != r.uid
    let c := s.ctxOf r.arr r.ctx r.tid
    let live := c.tid == r.tid && (c.stream r.j).gen == r.gen && !r.dropped && !engineHeld s r.part 4 r.arr
    (∀ pa, r.target = .phys pa → r.kind = .gather → isHost pa = false → r.write = false → reqUncorrectable s r = none →
      ∃ t q, exec .deepTierAccess s = .next t ∧ t.mem = s.mem ∧ t.ctxs = s.ctxs ∧ t.req? a = some q ∧ q.stage = .performed ∧ q.uid = a ∧ q.data = reqRead s r) ∧
    (∀ pa, r.target = .phys pa → r.kind = .scatter → isHost pa = false → r.write = true →
      ∃ t q, exec .deepTierAccess s = .next t ∧ t.mem = ((reqWrite r r.data).run s).mem ∧ t.ctxs = s.ctxs ∧ t.req? a = some q ∧ q.stage = .performed) ∧
    (∀ va, r.target = .virt va → r.dropped = true → ∃ t, exec .tableWalkComplete s = .next t ∧ t.mem = s.mem ∧ t.ctxs = s.ctxs ∧ t.parts = s.parts ∧ t.reqs = gone) ∧
    (∀ va x, r.target = .virt va → r.dropped = false → (∀ q ∈ tableReads s r.part va, lostLineAt s r.part q = none) →
      permitted r.access (translate s r.part va r.size) = .ok x →
      ∃ t q, exec .tableWalkComplete s = .next t ∧ t.mem = s.mem ∧ t.ctxs = s.ctxs ∧ t.req? a = some q ∧ q.target = .phys x.pa ∧ q.walking = false) ∧
    (∀ va code sub, r.target = .virt va → r.va = none → r.dropped = false → (∀ q ∈ tableReads s r.part va, lostLineAt s r.part q = none) → permitted r.access (translate s r.part va r.size) = .error (code, sub) →
      ∃ t q, exec .tableWalkComplete s = .next t ∧ t.mem = s.mem ∧ t.req? a = some q ∧ q.held = true ∧ q.walking = false ∧ q.target = r.target) ∧
    (∀ pa, r.target = .phys pa →
      let old := leNat (reqRead s r)
      let w := (reqWrite r (natBytes r.size (atomNew r.op r.size old r.arg r.swap))).run s
      ∃ t, exec .atomPerform s = .next t ∧ t.mem = w.mem ∧ t.ctxs = s.ctxs ∧ (r.fetch = false → r.toHost = false → t.reqs = gone) ∧
        (r.fetch = true ∨ r.toHost = true → ∃ q, t.req? a = some q ∧ q.stage = .performed ∧ q.data = natBytes 8 old) ∧
        ∀ off, r.bo = some off → r.fetch = false → r.toHost = false → ∃ d ∈ t.due, d.act = .instr .boArrival ∧ d.site.a = towerOf r.arr ∧ d.site.b = r.part ∧ d.site.c = off ∧ d.site.n = r.size ∧
          d.site.pos = 1 ∧ d.tick = s.now) ∧
    (live = false → exec .gatherElementLand s = .next { s with reqs := gone } ∧ exec .scatterWriteConfirm s = .next { s with reqs := gone }) ∧
    (live = true →
      (∃ t, exec .gatherElementLand s = .next t ∧ t.reqs = gone ∧
        t.mem = ((scratchWrite (s.winAddr (towerOf r.arr) r.part (qwElem (c.qwState r.qk).word r.qpos)) r.data).run s).mem) ∧
      ∃ t, exec .scatterWriteConfirm s = .next t ∧ t.reqs = gone ∧ t.mem = s.mem)

/-- R319, R321, R323, R330-R334, R254: a frame begins at its boundary and the next is due at its own; tables and masks given before it stand from it on; a slot is the steward's
refreshes and training, what each of the 64 pseudo-channels does in it in turn, the ends of the programs that complete in it, and the next slot; a memory program's completion counts 64
bytes as one operation; a probe's end presents its report, pins the pages it has reached, and waits while its engine is held or its task is saved. That a probe reads all of it at this
tick is the model's choice (log 18). -/
def Obligations.StackEvents : Prop :=
  ∀ (s : State),
    let a := s.site.a
    let b := s.site.b
    let k := s.stack a
    (k.up = true →
      (∃ t, exec .frameBoundary s = .next t ∧ (t.stack a).frame = b ∧
        (∃ d ∈ t.due, d.act = .instr .frameBoundary ∧ d.site.a = a ∧ d.site.b = b + 1 ∧ d.tick = max (frameTick (b + 1)) s.now) ∧
        (let past := k.slotsNew.filter fun e => decide (e.1 < s.now)
         (past = [] → (t.stack a).slots = k.slots) ∧ (∀ e, past.getLast? = some e → (t.stack a).slots = e.2)) ∧
        (t.stack a).slotsNew = k.slotsNew.filter (fun e => !decide (e.1 < s.now)) ∧ (t.stack a).masksNew = k.masksNew.filter (fun e => !decide (e.1 < s.now)) ∧
        (∀ τ p bs ps, k.masksNew = [(τ, p, bs, ps)] → τ < s.now →
          (∀ i, i < 4 → smGet 0 (t.stack a).hmb (p * 4 + i) = bs.getD i 0) ∧ ∀ i, i < 6 → smGet 0 (t.stack a).hmp (p * 6 + i) = ps.getD i 0)) ∧
      (∃ t, exec .hbmSlot s = .next t ∧ ∃ d ∈ t.due, d.act = .instr .hbmSlot ∧ d.site.a = a ∧ d.site.b = b + 1 ∧ d.tick = max (slotTick (b + 1)) s.now) ∧
      (let t0 := (stewardSlot a b).run s
       exec .hbmSlot s = .next ((atTick (slotTick (b + 1)) rankSchedule none { a, b := b + 1 } (.instr .hbmSlot)).run
        ((endPrograms a b).run ((List.range 64).foldl (fun u pc => (pcSlot a pc b).run u) t0))) ∧
       (b % 512 = 0 → ∀ e ∈ refreshed k (b / 512), smGet 0 (t0.stack a).refAt (e.1 * 16 + e.2) = b / 512 + 1) ∧
       (b % 512 = 256 → t0.stack a = { k with training := (k.training + 1) % 64 }) ∧
       (b % 512 = 48 → missedRefresh k (b / 512) ≠ [] → ∃ d ∈ t0.due, d.act = .instr .refreshWatchdog ∧ d.site.a = a ∧
        d.site.b = ((missedRefresh k (b / 512)).map fun pc => 2 ^ pc).foldl (· + ·) 0 ∧ d.tick = s.now) ∧
       (b % 512 ≠ 0 → b % 512 ≠ 48 → b % 512 ≠ 256 → t0 = s))) ∧
    (k.up = false → exec .frameBoundary s = .next s ∧ exec .hbmSlot s = .next s) ∧
    (∀ m, k.prog? b = some m → s.inWin (towerOf m.arr) m.part (mpBo m) 32 = true → ∃ t, exec .mpCompletion s = .next t ∧ t.mem = s.mem ∧
      t.stack a = { k with progs := k.progs.map fun g => if g.uid == m.uid then { g with sent := true } else g } ∧
      ∃ d ∈ t.due, d.act = .instr .boArrival ∧ d.site.a = towerOf m.arr ∧ d.site.b = m.part ∧ d.site.c = mpBo m ∧ d.site.n = 64 ∧ d.site.pos = 1 ∧ d.tick = s.now) ∧
    (k.prog? b = none → exec .mpCompletion s = .next s) ∧
    (let x := s.site
     let c := s.ctxOf x.arr x.ctx x.row
     let h := towerOf x.arr
     (s.partOf x.arr x.ctx x.row = none → exec .probeComplete s = .next s) ∧
     ∀ p, s.partOf x.arr x.ctx x.row = some p →
      let task := (s.part p).task x.row
      let saved := task.any fun t => t.state == .checkpointed
      ((engineHeld s p 4 x.arr = true ∨ saved = true) → exec .probeComplete s = .next (laterAct s 1 rankControl x (.instr .probeComplete))) ∧
      (engineHeld s p 4 x.arr = false → saved = false →
        let w := BitVec.ofNat 256 (fieldAt x.bytes 0 32)
        let iq := BitVec.ofNat 128 (fieldAt x.bytes 32 16)
        let idx := fun pos => if stStrided w then 0 else s.number .scratch (s.winAddr h p (qwElem iq (qwCP iq + 8192 + pos - stCommit w))) 4
        let found := probeRun s h p (pinHolder x.arr x.row) x.a w idx ((List.range x.pos).map fun i => stProbed w + i) (s.tower h).pins 0
        let (pos, i, va, code) := found.2.2.getD (0, 0, 0, 0)
        let report := natBytes 4 code ++ natBytes 4 pos ++ natBytes 4 i ++ natBytes 4 found.2.1 ++ natBytes 8 va ++ List.replicate 8 0
        let probed := if found.2.2.isSome then pos else stProbed w + x.pos
        let addr := s.winAddr h p x.b
        ∃ t, exec .probeComplete s = .next t ∧ t.mem = s.mem ∧ t.reqs = s.reqs ∧ t.banks = s.banks ∧
          (t.tower h).lines = (s.tower h).lines ++
            [{ arr := h * 8, rank := 6, order := x.wave, addr, presented := s.ttick h, part := p, tag := s.tagOf p x.row,
               use := .report x.arr x.ctx x.row x.n x.a x.qpos probed x.c addr report }] ∧
          (c.tid = x.row → (c.stream x.a).sets = x.qpos → (task.any fun k => k.state == .running) = true → (t.tower h).pins = found.1) ∧
          ((c.tid ≠ x.row ∨ (c.stream x.a).sets ≠ x.qpos) → (t.tower h).pins = (s.tower h).pins)))

/-- R239-R243, R245: a tower's copy engine takes one descriptor at a time, checked; a line landed is counted; a shadow load moves SGEN and has 256 reads due, one for each cell's image; a post
record follows when the queue has room; no follow-on runs for a killed task. That the shadow load reads as it goes and the post record waits for room is the model's choice (log 14). R393,
R394: a message that has arrived counts in its inbox and at its object; one refused faults its sender. -/
def Obligations.CopyAndMessageEvents : Prop :=
  ∀ (s : State),
    let x := s.site
    let v := s.tower x.a
    (v.descs.any (Desc.busy s x.a) = true → exec .copyDescriptorTake s = .next s) ∧
    (∀ d, v.descs.any (Desc.busy s x.a) = false → v.cend ≤ s.ttick x.a → (v.descs.find? fun d => !d.taken && !d.stopped && !engineStopped s d.part 5 x.a) = some d →
      descOk s d = true → descOutside s d = none →
      ∃ t, exec .copyDescriptorTake s = .next t ∧ t.mem = s.mem ∧ t.ctxs = s.ctxs ∧ t.parts = s.parts ∧
        (t.tower x.a).descs = v.descs.map (fun e => if e.uid == d.uid then { e with taken := true, inTower := dsInTower e.bytes x.a } else e) ∧
        ∃ e ∈ t.due, e.act = .micro (.copyLine x.a d.uid) ∧ e.tick = s.now) ∧
    (∀ d, v.descs.any (Desc.busy s x.a) = false → v.cend ≤ s.ttick x.a → (v.descs.find? fun d => !d.taken && !d.stopped && !engineStopped s d.part 5 x.a) = some d →
      descOk s d = false → ∃ t, exec .copyDescriptorTake s = .next t ∧ t.mem = s.mem ∧ ∀ e ∈ (t.tower x.a).descs, e.uid = d.uid → e.faulted = true) ∧
    (∀ r d, s.req? x.a = some r → (s.tower (towerOf r.arr)).desc? r.j = some d → ∃ t, exec .copyLineLand s = .next t ∧ t.mem = s.mem ∧ t.reqs = s.reqs ∧
      (t.tower (towerOf r.arr)).descs = (s.tower (towerOf r.arr)).descs.map (fun e => if e.uid == d.uid then { e with counted := e.counted + 1 } else e) ∧
      (dsBoen d.bytes = true → ∃ e ∈ t.due, e.act = .instr .boArrival ∧ e.site.c = dsBo d.bytes ∧ e.site.n = 64 ∧
        e.site.pos = (if d.counted + 1 = dsLines d.bytes then 1 else 0))) ∧
    (taskKilled s x.b x.pos = true → exec .shadowLoadFollowon s = .next s ∧ exec .taskPostFollowon s = .next s) ∧
    (let far := 8 * x.a + dsFarr x.bytes
     taskKilled s x.b x.pos = false → ∃ t, exec .shadowLoadFollowon s = .next t ∧ t = { s with arrs := smSet s.arrs far { s.arr far with sgen := ((s.arr far).sgen + 1) % 2 ^ 64 }, due := t.due } ∧
       t.due.length = s.due.length + 256 ∧
       ∀ i, i < 256 → ∃ d ∈ t.due, d.dom = some (towerOf far) ∧ d.tick = s.now + i * formBytes (dsForm x.bytes) / 2048 ∧
        d.act = .micro (.shadowRead (far * 256 + i) (dsForm x.bytes) (s.winAddr x.a x.b (dsDst x.bytes + i * formBytes (dsForm x.bytes))))) ∧
    (taskKilled s x.b x.pos = false → queueFull s x.b = true → exec .taskPostFollowon s = .next (laterAct s 1 rankPortRead s.site (.instr .taskPostFollowon))) ∧
    (let p := s.part x.b
     let s1 := withPart s x.b { p with reserved := p.reserved + 1, launches := p.launches.map fun l => if l.uid == x.c then { l with live := l.live + 1 } else l }
     taskKilled s x.b x.pos = false → queueFull s x.b = false → s.marks = [] → s.inWin (towerOf x.arr) x.b (dsFrec x.bytes) 64 = true →
      postRecordOk s1 x.b (s1.record x.b x.c) (s.bytes .scratch (s.winAddr (towerOf x.arr) x.b (dsFrec x.bytes)) 64) = true →
      ∃ t, exec .taskPostFollowon s = .next t ∧ t.mem = s.mem ∧ t.ctxs = s.ctxs ∧ (t.part x.b).reserved = (s.part x.b).reserved + 1 ∧
        ∃ e ∈ t.due, e.tick = s.now + 1 ∧ e.rank = rankControl ∧ e.site = s.site) ∧
    (∀ r, x.bytes = [] → s.req? x.a = some r → ∃ t, exec .messageArrive s = .next t ∧ t.mem = s.mem ∧ t.ctxs = s.ctxs ∧ t.reqs = s.reqs.filter (fun q => q.uid != r.uid) ∧
      (let b := smGet {} (s.part r.part).inboxes r.p
       smGet {} (t.part r.part).inboxes r.p = { b with arrivals := b.arrivals + 1 } ∧
       ∃ e ∈ t.due, e.act = .instr .boArrival ∧ e.site.a = b.tower ∧ e.site.b = r.part ∧ e.site.c = b.object ∧ e.site.n = 64 ∧ e.site.pos = 1)) ∧
    (∀ r, s.req? x.a = some r → (s.part r.part).leash = false → (s.part r.part).byHalt = false → (s.part r.part).faults = [] → ∃ t, exec .messageRefusal s = .next t ∧ t.mem = s.mem ∧
      t.reqs = s.reqs.filter (fun q => q.uid != r.uid) ∧ (t.part r.part).leash = true ∧ ∃ f ∈ (t.part r.part).faults, f.code = 0x51 ∧ f.ctx = r.ctx ∧ f.unit = r.arr ∧ f.primary = true)

/-- R387-R392: a flit in sequence, its CRC right, is acknowledged and taken, and one that is damaged or out of order is not; a silent port fails after 128 ticks; a trunk's change is
applied when it may be; a superstep's length is its lines over its fewest ports, its descriptors are read 16 ticks after its start, one over a trunk without ports faults its contexts, and
at its end what has not performed, is not read or has not come in faults. The length of one that uses no trunk, the acknowledgement's form and the order of the CRC's bits are the model's
choice (log 15). -/
def Obligations.FabricEvents : Prop :=
  ∀ (s : State),
    let x := s.site
    let v := smGet {} s.mod.ports x.a
    let acked := s.mod.outputs ++ [.ack x.a x.c]
    let setPort := fun (w : Port) => withMod s { s.mod with outputs := acked, ports := smSet s.mod.ports x.a w }
    let f : Flit := { crc := x.b, cls := x.qpos, ph := x.row, kind := x.pos, seq := x.c, pay := (x.bytes ++ List.replicate 64 0).take 64 }
    let good := x.b = flitCrc f
    (v.trunk = none → exec .flitReceive s = .next s) ∧
    (v.failed = true ∨ ¬good ∨ x.c ≠ v.rxSeq → exec .flitReceive s = .next s) ∧
    (∀ k, v.trunk = some k → v.failed = false → good → x.c = v.rxSeq → 6 ≤ x.pos →
      exec .flitReceive s = .next (setPort { v with rxSeq := (v.rxSeq + 1) % 1024, good := s.now, discarded := v.discarded + 1 })) ∧
    (∀ k, v.trunk = some k → v.failed = false → good → x.c = v.rxSeq → x.pos < 6 → ∃ t, exec .flitReceive s = .next t ∧ t = withMod s t.mod ∧ t.mod.outputs = acked ∧
      (smGet {} t.mod.ports x.a).rxSeq = (v.rxSeq + 1) % 1024 ∧ (smGet {} t.mod.ports x.a).good = s.now ∧
      (x.pos = 0 → v.rx = [] → (smGet {} t.mod.ports x.a).rx = [])) ∧
    ((v.trunk = none ∨ v.failed = true) → exec .portFailed s = .next s) ∧
    (v.trunk ≠ none → v.failed = false → s.now < v.good + 128 → ∃ t, exec .portFailed s = .next t ∧ t = { s with due := t.due } ∧
      ∃ d ∈ t.due, d.act = .instr .portFailed ∧ d.site = x ∧ d.tick = v.good + 128) ∧
    (v.trunk ≠ none → v.failed = false → v.good + 128 ≤ s.now → ∃ t, exec .portFailed s = .next t ∧ t = { s with mod := t.mod, due := t.due } ∧
      (smGet {} t.mod.ports x.a).failed = true ∧ (smGet {} t.mod.ports x.a).trunk = none) ∧
    (∃ t, exec .trunkChangeApply s = .next t ∧ t = { s with mod := t.mod, due := t.due } ∧
      t.mod.trunkNew = s.mod.trunkNew.filter (fun c => !(changesNow s).contains c) ∧ (changesNow s = [] → s.mod.trunkNew = [] → t = s) ∧
      ∀ q, ((changesNow s).filter fun c => c.1 == q) ≠ [] → ∃ k, (q, k) ∈ changesNow s ∧ (smGet {} t.mod.ports q).trunk = k) ∧
    (let ready := xchReadyCtxs s x.a (some s.now)
     let trunks := xchTrunks s x.a ready
     let w := (ready.head?.map fun (_, _, z) => z.word).getD 0
     let ports := (trunks.map fun k => (trunkPorts s.mod k).length).foldl min 16
     let portless := fun k => (trunkPorts s.mod k).isEmpty
     (ready = [] → exec .superstepStart s = .next s) ∧
     (ready ≠ [] → trunks.any portless = false → ∃ t e, exec .superstepStart s = .next t ∧ t.mem = s.mem ∧ t.ctxs = s.ctxs ∧
       e = s.now + (if trunks = [] then xchLen w else (xchLen w * xchWref w + ports - 1) / ports) + xchGuard w ∧
       (t.part x.a).runs = (s.part x.a).runs.map (fun r => if r.step == x.b then { r with stop := some e, trunks } else r) ∧
       (∀ z ∈ ready, 0 < z.2.2.cnt → ∃ d ∈ t.due, d.act = .micro (.xchRead z.1 z.2.2) ∧ d.dom = none ∧ d.site.ctx = z.2.1 ∧ d.tick = s.now + 16) ∧
       ∃ d ∈ t.due, d.act = .instr .superstepEnd ∧ d.site.a = x.a ∧ d.site.b = x.b ∧ d.dom = none ∧ d.tick = e) ∧
     (trunks.any portless = true → ∃ t, exec .superstepStart s = .next t ∧ t.mem = s.mem ∧ (t.part x.a).runs = (s.part x.a).runs.filter (fun r => r.step != x.b) ∧
       ∀ z ∈ ready, (t.ctx z.1 z.2.1).xch = none ∧ ((t.ctx z.1 z.2.1).faulted = ((s.ctx z.1 z.2.1).faulted || (xchTrunks s x.a [z]).any portless)))) ∧
    (let run := (s.part x.a).runs.filter fun r => r.step == x.b
     let late := s.reqs.filter fun r => r.part == x.a && (r.kind == .exchRead || (r.kind == .exchWrite && !doneAtScope 2 r)) && r.gen == x.b
     let short := run.any fun r => decide (r.inbound < r.announced)
     ∃ t, exec .superstepEnd s = .next t ∧ t.mem = s.mem ∧ t.reqs = s.reqs ∧ t.arrs = s.arrs ∧ (t.part x.a).runs = (s.part x.a).runs.filter (fun r => r.step != x.b) ∧
      (late = [] → unreadXch s x.a x.b = [] → short = false → t = withPart s x.a { s.part x.a with runs := (s.part x.a).runs.filter fun r => r.step != x.b }) ∧
      ((late ≠ [] ∨ unreadXch s x.a x.b ≠ [] ∨ short = true) → (s.part x.a).leash = false → (s.part x.a).byHalt = false → (s.part x.a).faults = [] →
        (t.part x.a).leash = true ∧ ∃ f ∈ (t.part x.a).faults, f.code = 0x50))

/-! ## Passes, loaders, objects -/

/-- R175, R180: a row of a pass enters once, at its tick, and its sixteen column blocks land H + 4 ticks after their entries. R215: the decision of an `mmd`, at s - 16, takes the refresh
path for the first invocation, one at its period, one after an observed error or a forced entry, and one whose SGEN, the gang's other SGEN or GEN has moved, and the delta path else; a
decision that comes sooner than the pass's s - 16, or a second one, does nothing. R209: of GEN's youngest advances it may miss some. R219: row i of the band, each word X and N of its
accumulator row, and row i of x_prev are written at one tick, one row a tick, and then the entry's counts. -/
def Obligations.PassEvents : Prop :=
  ∀ (s : State) (p : Pass),
    let a := s.site.arr
    (s.arr a).pass? s.site.a = some p →
    let u := s.ttick (towerOf a)
    let key := p.kennel.getD 0
    let k := s.kennel (towerOf a) key
    (∀ w, (s.arr a).mrow? s.site.a s.site.b = some w → (s.arr a).stopped u = false → w.entered = false → w.enter = u →
      ∃ t q, exec .mRowEnter s = .next t ∧ t.mem = s.mem ∧ t.banks = s.banks ∧ t.acc = s.acc ∧ (t.arr a).pass? s.site.a = some q ∧ q.entered = p.entered + 1 ∧
        (∀ m ∈ (t.arr a).mrows, m.uid = w.uid → m.entered = true) ∧
        ∀ c, c < 16 → ∃ d ∈ t.due, d.act = .instr .passLanding ∧ d.site.a = p.uid ∧ d.site.b = w.uid ∧ d.site.c = c ∧ d.tick = s.now + (c + p.h + 4)) ∧
    (∀ w, (s.arr a).mrow? s.site.a s.site.b = some w → ((s.arr a).stopped u = true ∨ w.entered = true ∨ w.enter ≠ u) → exec .mRowEnter s = .next s) ∧
    (∀ w, (s.arr a).mrows.find? (fun m => m.uid == s.site.b) = some w → ∃ t, exec .passLanding s = .next t ∧ t.mem = s.mem ∧ t.banks = s.banks ∧
      t.acc = ((landColumn p w (if p.h = 32 then a + 4 else a) s.site.c).run s).acc ∧ (s.site.c = 15 → ∀ m ∈ (t.arr a).mrows, m.uid ≠ w.uid) ∧
      (s.site.c ≠ 15 → (t.arr a).mrows = (s.arr a).mrows)) ∧
    ((p.decided = true ∨ p.known = false ∨ u + 16 < p.start) → exec .mmdDecision s = .next s) ∧
    (p.decided = false → p.known = true → p.start ≤ u + 16 →
      let w := smGet 0 (s.part p.part).watch k.wix
      let young := ((smGet [] (s.part p.part).watchAt k.wix).filter fun e => !e.sure && decide (s.now < e.tick + 64)).length
      let sgen2 := if p.h = 32 then (s.arr (a + 4)).sgen else k.pgen2
      ∃ t q, exec .mmdDecision s = .next t ∧ t.mem = s.mem ∧ t.acc = s.acc ∧ t.banks = s.banks ∧ t.ctxs = s.ctxs ∧ t.due = s.due ∧
        (t.arr a).pass? s.site.a = some q ∧ q.decided = true ∧ q.ns = 0 ∧
        (let k' := t.kennel (towerOf a) key
         k'.errseen = false ∧ k'.inv = k.inv ∧ k'.xprev = k.xprev ∧ k'.yprev = k.yprev ∧ (p.dead = false → k'.sforce = false ∧ k'.bforce = false) ∧
         ((p.peeks.find? fun e => e.1 + 16 == p.start) = none → ∃ m, m ≤ young ∧
          (let seen := (wrGen w + 2 ^ 32 - m) % 2 ^ 32
           (q.delta = false ↔ k.inv = 0 ∨ k.period ≤ k.inv ∨ k.errseen = true ∨ k.sforce = true ∨ k.bforce = true ∨ k.pgen ≠ (s.arr a).sgen ∨ k.pgen2 ≠ sgen2 ∨
              wrSpace w ≠ 0 ∧ k.wgen ≠ seen) ∧
           (p.dead = false → k'.pgen = (s.arr a).sgen ∧ k'.pgen2 = sgen2 ∧ k'.wgen = seen))) ∧
         (∀ e, (p.peeks.find? fun e => e.1 + 16 == p.start) = some e →
           q.delta = !e.2.1 ∧ (p.dead = false → k'.pgen = e.2.2.1 ∧ k'.pgen2 = e.2.2.2.1 ∧ k'.wgen = e.2.2.2.2)))) ∧
    (p.mrows ≤ s.site.b → ∃ t, exec .kennelWriteback s = .next t ∧ t.mem = s.mem ∧ t.acc = s.acc ∧ t.banks = s.banks ∧ t.due = s.due ∧ (t.arr a).pass? s.site.a = none ∧
      (let k' := t.kennel (towerOf a) key
       k'.inv = (if p.delta then min (k.inv + 1) 255 else 1) ∧ k'.nstray = min p.ns 65535 ∧ k'.sforce = (k.sforce || decide (k.slim < p.ns)) ∧
       k'.bforce = (k.bforce || p.bforce))) ∧
    (s.site.b < p.mrows →
      let i := s.site.b
      let g := if p.h = 32 then 2 else 1
      let r := s.accRow (accKey (if p.h = 32 then a + 4 else a) (p.arow + i))
      let y := (List.range 512).flatMap fun c => natBytes 8 ((r.x % 1024) * 2 ^ 54 + (smGet 0 r.n c % 2 ^ 54).toNat)
      let x := (List.range (512 * g)).flatMap fun m => natBytes 2 ((smGet [] p.xnew i).getD m 0 % 65536).toNat
      let ya := s.winAddr (towerOf a) p.part (k.yprev + 4096 * i)
      let xa := s.winAddr (towerOf a) p.part (k.xprev + 1024 * g * i)
      y.length = 4096 ∧ x.length = 1024 * g ∧
      ∃ t, exec .kennelWriteback s = .next t ∧ t.acc = s.acc ∧ t.banks = s.banks ∧ t.ctxs = s.ctxs ∧
        (t.arr a).pass? s.site.a = some { p with bforce := p.bforce || ((List.range 512).any fun c => decide (2 ^ 52 ≤ (smGet 0 r.n c).natAbs)) || r.ovf } ∧
        (∃ d ∈ t.due, d.act = .instr .kennelWriteback ∧ d.site.a = s.site.a ∧ d.site.b = i + 1 ∧ d.tick = s.now + 1) ∧
        t.mem = ((writeBytes .scratch xa x).run ((writeBytes .scratch ya y).run s)).mem ∧
        (ya + 4096 ≤ 2 ^ 80 → xa + 1024 * g ≤ 2 ^ 80 → ∀ sp n, n < 2 ^ 80 →
          (sp ≠ .scratch ∨ (n < ya ∨ ya + 4096 ≤ n) ∧ (n < xa ∨ xa + 1024 * g ≤ n)) → t.byte sp n = s.byte sp n))

/-- R225: the requests of a tower that perform at a tick leave its list, each with its read or what follows its write due at that tick, and the port looks again while some are left.
R231: a loader's row reaches the sixteen cells of its row, 32 bytes each, and no other byte. R235, R236: an arrival raises COUNT, and COMPLETE and OVER follow from it; other bytes stay.
R228: one at an object whose line is uncorrectable faults 0x44. R212: a kennel entry is bound, with its watch range, released or read when no earlier invocation of it is under way, and
waits a tick at a time while one is; the entry under an invocation fired since is the model's choice (log 21). -/
def Obligations.PortAndObjectEvents : Prop :=
  ∀ (s : State),
    let x := s.site
    (let ready := (s.tower x.a).lines.filter (lineReady s x.a (s.ttick x.a))
     let wins := ready.filter (lineWins ready)
     let left := (s.tower x.a).lines.filter fun l => !wins.contains l
     ∃ t, exec .dataPortPerform s = .next t ∧ t.ctxs = s.ctxs ∧ t.banks = s.banks ∧ t.arrs = s.arrs ∧ (t.tower x.a).lines = left ∧
      (left ≠ [] → ∃ d ∈ t.due, d.act = .instr .dataPortPerform ∧ d.site.a = x.a ∧ d.tick = s.now + 1) ∧
      (∀ l ∈ wins, ∃ d ∈ t.due, d.tick = s.now ∧ d.act = (if l.use.isRead then .micro (.lineRead l.addr l.use) else .micro (.lineWritten l.use))) ∧
      ((∀ l ∈ wins, l.use.isRead = true) → t.mem = s.mem) ∧
      (wins = [] → t.mem = s.mem ∧ t.parts = s.parts)) ∧
    (∀ o, (s.arr x.arr).load? x.a = some o → Memory.wf s.mem = true → x.arr < 64 → x.b < 32 → o.cellOff + 32 ≤ 32768 →
      ∃ t, exec .lrowRowWrite s = .next t ∧ t.banks = s.banks ∧ t.ctxs = s.ctxs ∧
        (∀ sp n, n < 2 ^ 80 → (sp ≠ .cell ∨ ∀ c, c < 16 → n < cellOf x.arr x.b c * 32768 + o.cellOff ∨ cellOf x.arr x.b c * 32768 + o.cellOff + 32 ≤ n) →
          t.byte sp n = s.byte sp n) ∧
        ∀ c i, c < 16 → i < 32 → t.byte .cell (cellOf x.arr x.b c * 32768 + o.cellOff + i)
          = (((List.range 8).flatMap fun m => smGet [] o.lines (8 * x.b + m)).drop (32 * c)).getD i (s.byte .cell (cellOf x.arr x.b c * 32768 + o.cellOff + i))) ∧
    (let w := towerOf x.arr
     let key := kennelKey x.a x.c
     let setK := fun (ks : SMap Kennel) => withTower s w { s.tower w with kennels := ks }
     (mmdFlying s w key x.qpos = true → exec .kennelEntryAction s = .next (laterAct s 1 rankControl x (.instr .kennelEntryAction))) ∧
     (mmdFlying s w key x.qpos = false →
      (let r := bindRec x.bytes
       let done := (s.kennel w key).done
       let bound := setK (smSet (s.tower w).kennels key { boundEntry r x.arr x.a x.c x.rowOn with done })
       let base := if r.wspace = 2 then (r.image (s.part x.a)).getD 0 else r.wbase
       let old := smGet 0 (s.part x.a).watch r.wix
       (x.b = 0 → r.wset = false → exec .kennelEntryAction s = .next bound) ∧
       (x.b = 0 → r.wset = true → ∃ t, exec .kennelEntryAction s = .next t ∧ t = { bound with parts := t.parts } ∧
        (t.part x.a).watch = smSet (s.part x.a).watch r.wix (wrMake (wrGen old) w r.wspace (base + r.wlen - 1) base) ∧ (t.part x.a).launches = (s.part x.a).launches ∧
        ∀ p, p ≠ x.a → t.part p = s.part p) ∧
       (x.b = 1 → exec .kennelEntryAction s = .next (setK (if mmdFlying s w key s.uid then smSet (s.tower w).kennels key { done } else smDel (s.tower w).kennels key)))) ∧
      (2 ≤ x.b → exec .kennelEntryAction s = .next ((scratchWrite (s.winAddr w x.a x.pos)
        (if (s.kennel w key).valid then kennelImage (s.kennel w key) ++ List.replicate 24 0 else List.replicate 64 0)).run s)))) ∧
    (s.inWin x.a x.b x.c 32 = false → exec .boArrival s = .next s) ∧
    (s.inWin x.a x.b x.c 32 = true → let o := s.winAddr x.a x.b x.c
      let b := s.byte .scratch o
      let clean := s.marked 2 (o / 64) = false ∧ s.marked 2 (o / 64 + 1) = false
      (clean → b.getLsbD 0 = false → exec .boArrival s = .next s) ∧
      (clean → b.getLsbD 0 = true → b.getLsbD 2 = true → x.pos = 0 → exec .boArrival s = .next s) ∧
      (s.marked 2 (o / 64) = true → ∃ t, exec .boArrival s = .next t ∧
        ∀ p, x.row ≠ 0 → s.partOf x.arr x.ctx x.row = some p → (s.part p).leash = false → (s.part p).byHalt = false → (s.part p).faults = [] →
          (t.part p).leash = true ∧ ∃ f ∈ (t.part p).faults, f.code = 0x44) ∧
      (clean → Memory.wf s.mem = true → o + 32 ≤ 2 ^ 80 → b.getLsbD 0 = true → (b.getLsbD 2 = false ∨ 0 < x.pos) →
        let count := (s.number .scratch (o + 16) 8 + (if b.getLsbD 2 then x.pos else x.n)) % 2 ^ 64
        let expect := s.number .scratch (o + 24) 8
        ∃ t, exec .boArrival s = .next t ∧ t.ctxs = s.ctxs ∧ t.banks = s.banks ∧ t.due = s.due ∧ t.number .scratch (o + 16) 8 = count ∧
          t.byte .scratch o = ((b &&& ~~~2) ||| (if expect ≤ count then 2 else 0)) ||| (if expect < count then 8 else 0) ∧
          ∀ sp addr, addr < 2 ^ 80 → (sp ≠ .scratch ∨ addr ≠ o ∧ (addr < o + 16 ∨ o + 24 ≤ addr)) → t.byte sp addr = s.byte sp addr))

/-! ## Tasks and the issue of bundles -/

/-- R337-R351, R81: placing, preempting by mode or, in mode 0, by policy, saving, resuming, killing and the release of windows. A saved context keeps its partition, TAG and PHASE (R355). -/
def Obligations.TaskEvents : Prop :=
  ∀ (s : State),
    let x := s.site
    let p := x.a
    let v := s.part p
    (v.queue = [] → exec .placement s = .next s) ∧
    (∀ uid l, queueFront s p = some uid → v.launch uid = some l →
      let parts := launchParts l.record (eligibleUnits s p l.record)
      (parts.all fun (u, _) => decide ((pendingOn s p u (unitKind l.record)).length < 16)) = true →
      ∃ t l', exec .placement s = .next t ∧ t.mem = s.mem ∧ t.ctxs = s.ctxs ∧ (t.part p).queue = v.queue.filter (fun q => q != l.uid) ∧
        (t.part p).tasks.length = v.tasks.length + parts.length ∧ (t.part p).launch uid = some l' ∧ l'.state = .placed ∧ l'.live = l.live + parts.length) ∧
    (v.task x.b = none → exec .preemptRequest s = .next s ∧ exec .taskResume s = .next s ∧ exec .saveComplete s = .next s) ∧
    (∀ k, v.task x.b = some k → taskCtxs s p k = [] → exec .preemptRequest s = .next s) ∧
    (∀ k e rest, v.task x.b = some k → taskCtxs s p k = e :: rest →
      let prio := if x.n = 0 then none else (v.task x.n).map fun m => recPrio (s.taskRecord p m)
      let mode := if x.pos = 0 then preemptPolicyOf v (s.ctx e.1 e.2) (s.taskRecord p k) prio else x.pos
      (mode ≠ 2 → ∃ t, exec .preemptRequest s = .next t ∧ t.mem = s.mem ∧ t.parts = s.parts ∧
        ∀ e ∈ taskCtxs s p k, (t.ctx e.1 e.2).preq = (s.ctx e.1 e.2).preq ++ [{ lq := x.c, mode, newcomer := if x.n = 0 then none else some x.n, gate := !x.rowOn }]) ∧
      (mode = 2 → ∃ t, exec .preemptRequest s = .next t ∧ t.mem = s.mem ∧ ∀ e ∈ taskCtxs s p k, (t.ctx e.1 e.2).killed = true)) ∧
    (let c := s.ctx x.arr x.ctx
     let partner := (unitMembers { s with site := { arr := x.arr, ctx := x.ctx } }).length = 2
     (c.state ≠ .saving ∨ c.killed = true ∨ c.role = 3 ∧ partner → exec .checkpointSave s = .next s) ∧
     (∀ k, c.state = .saving → c.killed = false → (c.role ≠ 3 ∨ ¬partner) → (s.part c.part).task c.tid = some k →
      let ms := taskMembers s (s.taskRecord c.part k) k
      ((ms.all fun (b, j, _) => drained s b j) = false → exec .checkpointSave s = .next (laterAct s 1 rankEnd x (.instr .checkpointSave))) ∧
      ((ms.all fun (b, j, _) => drained s b j) = true → ∃ t, exec .checkpointSave s = .next t ∧ t.mem = s.mem ∧
        ∃ d ∈ t.due, d.act = .instr .saveComplete ∧ d.site.a = c.part ∧ d.site.b = c.tid ∧ s.now < d.tick))) ∧
    (∀ k, v.task x.b = some k →
      let ms := taskMembers s (s.taskRecord p k) k
      ms ≠ [] → (∀ e ∈ ms, (s.ctx e.1 e.2.1).state = .saving ∧ (s.ctx e.1 e.2.1).tid = k.uid) →
      ∃ t k', exec .saveComplete s = .next t ∧ (t.part p).task x.b = some k' ∧ k'.nsave = k.nsave + 1 ∧
        (v.leash = false → k'.state = .checkpointed ∧ ∀ e ∈ ms, (t.ctx e.1 e.2.1).state = .free ∧ (t.ctx e.1 e.2.1).part = (s.ctx e.1 e.2.1).part ∧
          (t.ctx e.1 e.2.1).tag = (s.ctx e.1 e.2.1).tag ∧ (t.ctx e.1 e.2.1).phase = (s.ctx e.1 e.2.1).phase) ∧
        (v.leash = true → k'.state = k.state ∧ ∀ e ∈ ms, (t.ctx e.1 e.2.1).state = .halted)) ∧
    (∀ k, v.task x.b = some k → (k.state ≠ .checkpointed ∨ resumeReady s p k = false) → exec .taskResume s = .next s) ∧
    (∀ k, v.task x.b = some k → k.state = .checkpointed → resumeReady s p k = true →
      ∃ t k', exec .taskResume s = .next t ∧ (t.part p).task x.b = some k' ∧ k'.state = .running ∧ k'.walkers = []) ∧
    (let s1 := (abandonTask x.arr x.ctx p).run s
     let c := s1.ctx x.arr x.ctx
     (c.tid ≠ p ∨ c.state = .free → exec .killedContextFree s = .next s1) ∧
     (c.tid = p → c.state ≠ .free → killSettled s1 x.arr x.ctx p = false → exec .killedContextFree s = .next (laterAct s1 1 rankEvent s1.site (.instr .killedContextFree))) ∧
     (c.tid = p → c.state ≠ .free → killSettled s1 x.arr x.ctx p = true → ∃ t, exec .killedContextFree s = .next t ∧ (t.ctx x.arr x.ctx).state = .free ∧ t.mem = s.mem)) ∧
    (let mine := (s.arr x.arr).held.filter fun h => h.tid == p
     let left := mine.filter fun h => !windowDone s (s.ttick (towerOf x.arr)) h
     ∃ t, exec .cellStoreWindowRelease s = .next t ∧ t = { s with arrs := t.arrs, due := t.due } ∧
       (t.arr x.arr).held = (s.arr x.arr).held.filter (fun h => h.tid != p || left.contains h) ∧
       (left ≠ [] → ∃ d ∈ t.due, d.act = .instr .cellStoreWindowRelease ∧ d.site = x ∧ d.tick = s.now + 1))

/-- R33, R341, R342, R349: the scheduler starts the first waiting task that may start, or lets a checkpointed one go on, once those of other units that go before it have, and looks on for
the other kinds; it starts none under the leash; the selector issues the bundle of the context it has chosen, whose PC and context time go on, and looks again at the next tick; a row runs
the slots of its bundle. That a position of 2^16 or more stands beside a PC of 65,535 is the model's choice (log 21). -/
def Obligations.StartAndIssueEvents : Prop :=
  ∀ (s : State),
    let x := s.site
    let a := x.arr
    let v := s.arr a
    (v.owner = none → exec .taskStart s = .next s ∧ exec .issueSelect s = .next s) ∧
    (∀ p, v.owner = some p → (s.part p).leash = true → ∃ t, exec .taskStart s = .next t ∧ t = { s with due := t.due }) ∧
    (∀ p, v.owner = some p → (s.part p).leash = false → nextStart s p a x.a = none → ∃ t, exec .taskStart s = .next t ∧ t = { s with ctxs := t.ctxs, due := t.due } ∧
      ((List.range 3).any (fun kind => !(waitingOn s p a kind).isEmpty) = true → ∃ d ∈ t.due, d.act = .instr .taskStart ∧ d.site.arr = a)) ∧
    (∀ p kind k, v.owner = some p → (s.part p).leash = false → nextStart s p a x.a = some (kind, k) →
      (outranked s p a k = true → exec .taskStart s = .next (laterAct s 0 rankSchedule { arr := a, a := x.a } (.instr .taskStart))) ∧
      (outranked s p a k = false → ∃ t, exec .taskStart s = .next t ∧
        (∃ d ∈ t.due, d.act = .instr .taskStart ∧ d.site.arr = a ∧ d.site.a = x.a + 2 ^ kind ∧ d.tick = s.now) ∧
        (k.state = .checkpointed → ∃ d rest, t.due = d :: rest ∧ d.act = .instr .taskResume ∧ d.site.a = p ∧ d.site.b = k.uid ∧ d.tick = s.now) ∧
        ∀ sp, k.state = .pending → startSpot s p k = some sp → ∃ k', (t.part p).task k.uid = some k' ∧ k'.state = .running ∧ k'.ctx = sp.k)) ∧
    (v.owner ≠ none → ∃ t, exec .issueSelect s = .next t ∧ t.mem = s.mem ∧ t.banks = s.banks ∧ t.acc = s.acc ∧
      ∃ d ∈ t.due, d.act = .instr .issueSelect ∧ d.site.arr = a ∧ d.tick = s.now + 1) ∧
    (∀ k b next, let t := (issueBundle a k b next).run s
      let c := s.ctx a k
      t.mem = s.mem ∧ t.banks = s.banks ∧ t.acc = s.acc ∧
      t.ctx a k = { c.landPend c.ctime with pc := min next 0xFFFF, widePc := if next < 2 ^ 16 then 0 else next, ctime := c.ctime + 1, state := .ready, wait := 0, lastIssue := s.ttick (towerOf a), issued := true,
                                            ring := smSet c.ring (c.ctime % 64) (List.replicate 8 {}) } ∧
      (∃ w ∈ (t.arr a).waves, w.uid = s.uid ∧ w.ctx = k ∧ w.n = c.ctime ∧ w.bundle = b) ∧
      (∃ d ∈ t.due, d.act = .instr .rowExecute ∧ d.site.arr = a ∧ d.site.ctx = k ∧ d.site.row = 0 ∧ d.site.wave = s.uid ∧ d.tick = s.now) ∧
      ∀ e ∈ instrsOf b, e.1 ≠ .a → ∃ d ∈ t.due, d.act = .slot e.1 (slotWord e.1 b) ∧ d.tick = s.now ∧ d.site.issue = true ∧ d.site.arr = a ∧ d.site.ctx = k ∧
        d.site.n = c.ctime) ∧
    (v.waves.find? (fun w => w.uid == x.wave) = none → exec .rowExecute s = .next s) ∧
    (∀ w, v.waves.find? (fun w => w.uid == x.wave) = some w → (∃ u, v.ta = some u ∧ u + 6 ≤ s.tick) → exec .rowExecute s = .next s) ∧
    (∀ w, v.waves.find? (fun w => w.uid == x.wave) = some w → v.ta = none → w.done.getLsbD x.row = false → v.blocked.contains (x.ctx, x.row) = false →
      let x' : Site := { x with rowOn := w.mask.getLsbD x.row, qpos := w.qpos }
      let s1 := (Plan.both (.edit (.site x')) landRow).run s
      (s1.selCols.flatMap fun c => cellChecks s1 w.bundle c) = [] →
      ∃ t rest, exec .rowExecute s = .next t ∧ t.mem = s.mem ∧ t.acc = s.acc ∧
        t.due = ((instrsOf w.bundle).filter fun (sl, _) => sl == .a || sl == .m || sl == .t).map
          (fun (sl, _) => ({ tick := s.now, rank := rankRow, dom := none, site := x', act := .slot sl (slotWord sl w.bundle) } : Due)) ++ rest)

/-- R356-R374: the leash reaches an engine once, which stops at its own T_s; a ready context of the array halts, the atoms of an array's streams are looked at when its tick ends, memory
programs stop with their frame. RESUME clears the leash and the stop records and restarts the engines, but not a walker that stands still for a save; waves stopped midway go in again, one
per tick. -/
def Obligations.LeashEvents : Prop :=
  ∀ (s : State),
    let x := s.site
    let p := x.a
    let u := x.c
    ((s.part p).leash = false → exec .leashReach s = .next s) ∧
    ((s.part p).leash = true → ∃ t, exec .leashReach s = .next t ∧ t.mem = s.mem ∧ t.banks = s.banks ∧
      (∃ rest, (t.part p).stops = (s.part p).stops ++ { kind := x.b, unit := u, ta := s.now, ts := stopTick s p x.b u } :: rest) ∧
      (∃ d ∈ t.due, d.act = .micro (.enginesStop p x.b u)) ∧
      (x.b = 4 → ∃ d ∈ t.due, d.act = .micro (.atomStop p u) ∧ d.tick = s.now ∧ d.rank = rankEnd) ∧
      (x.b = 6 → t.stack u = { s.stack u with progs := (s.stack u).progs.map fun m =>
        if m.part == p then { m with stop := some (min (m.stop.getD ((s.stack u).frame + 1)) ((s.stack u).frame + 1)) } else m }) ∧
      (x.b = 2 → (t.arr u).ta = some (s.ttick (towerOf u)) ∧ ∀ k, k < 4 → (s.ctx u k).part = p → ((s.ctx u k).state = .ready ∨ (s.ctx u k).state = .stalled) →
        (t.ctx u k).state = .halted ∧ (t.ctx u k).pc = (s.ctx u k).pc) ∧
      (x.b = 7 → (t.arr u).walker.running = false)) ∧
    (x.b = 0 → ∃ t, exec .engineRestart s = .next t ∧ t.mem = s.mem ∧ t.ctxs = s.ctxs ∧ (t.part p).leash = false ∧ (t.part p).byHalt = false ∧ (t.part p).imaged = false ∧
      (t.part p).faults = [] ∧ (t.part p).stops = [] ∧ (t.part p).stopped = [] ∧ (t.part p).atomStops = [] ∧ (t.part p).nsup = [] ∧ (t.part p).resumeAt = none ∧ (t.part p).tasks = (s.part p).tasks) ∧
    ((x.b = 1 ∨ x.b = 6) → exec .engineRestart s = .next s) ∧
    (x.b = 2 → ∃ t, exec .engineRestart s = .next t ∧ (t.arr u).ta = none ∧ (t.arr u).blocked = [] ∧ (t.arr u).again = (s.arr u).waves.map (fun w => w.uid) ∧
      (x.row ≠ 1 → t.mem = s.mem ∧ t.banks = s.banks ∧ ∀ k, k < 4 → (s.ctx u k).part = p → (s.ctx u k).state = .halted → (t.ctx u k).state = .ready ∧ (t.ctx u k).faulted = false ∧ (t.ctx u k).pc = (s.ctx u k).pc)) ∧
    (x.b = 3 → ∃ t, exec .engineRestart s = .next t ∧ t = { s with due := t.due } ∧
      ∀ o ∈ (s.arr u).loads, ∃ d ∈ t.due, d.act = .micro (.loadRow u o.uid 0) ∧ d.site.ctx = o.ctx ∧ d.tick = s.now) ∧
    (let w := (s.arr u).walker
     x.b = 7 → (w.owner = none ∨ w.ended = true ∨ w.loading = true → exec .engineRestart s = .next s) ∧
      ∀ k, w.owner = some k → w.ended = false → w.loading = false →
       let c := s.ctx u k
       (savePending s c.part c.tid = true → exec .engineRestart s = .next s) ∧
       (savePending s c.part c.tid = false → w.offend = false → ∃ t, exec .engineRestart s = .next t ∧ t.mem = s.mem ∧
        (t.arr u).walker = { w with running := true } ∧ ∃ d ∈ t.due, d.act = .walk u ∧ d.tick = s.now ∧ d.site.issue = true) ∧
       (savePending s c.part c.tid = false → w.offend = true → ∃ t, exec .engineRestart s = .next t ∧ t.mem = s.mem ∧ (t.arr u).walker = { w with epoch := w.epoch + 1 } ∧
        ((s.part c.part).leash = false → (s.part c.part).byHalt = false → (s.part c.part).faults = [] →
          (t.part c.part).leash = true ∧ ∃ f ∈ (t.part c.part).faults, f.code = 0x60 ∧ f.sub = 2 ∧ f.addr = w.plen))) ∧
    (x.b = 5 → ∃ t, exec .engineRestart s = .next t ∧ t.mem = s.mem ∧ ∀ d ∈ (t.tower u).descs, d.part = p → d.faulted = false) ∧
    (let v := s.arr x.arr
     (v.ta ≠ none ∨ v.again = [] → exec .reinject s = .next s) ∧
     (∀ uid rest, v.ta = none → v.again = uid :: rest → ∃ t, exec .reinject s = .next t ∧ t.mem = s.mem ∧ t.banks = s.banks ∧ (t.arr x.arr).again = rest ∧
      (rest ≠ [] → ∃ d ∈ t.due, d.act = .instr .reinject ∧ d.site = x ∧ d.tick = s.now + 1) ∧
      ∀ w, v.waves.find? (fun w => w.uid == uid) = some w → ∃ d ∈ t.due, d.act = .instr .rowExecute ∧ d.site.wave = w.uid ∧ d.site.row = 0 ∧ d.tick = s.now))

/-! ## Oxell commands -/

/-- R398, R399, R403-R405, R408: the commands that report answer with their bodies and change nothing else; REPAIR forces a sound resource, and consents to what a lasting one asks for; a
command that may not be done is refused with its status and does nothing. That the operator may ask ATTEST of a partition that is not live, and that form 1 on a row at STATE 3 consents to
the array's removal, are the model's choices (logs 12 and 21). -/
def Obligations.CommandsReport : Prop :=
  ∀ (s : State),
    let f := s.site.frame
    let p := f.part
    let no := fun (st : Nat) => (.next (answered s st 0 []) : Host.Outcome State Fault Refusal)
    let mine := booted s = true ∧ mayAct s f.princ p = true ∧ (s.part p).live = true
    exec .ident s = .next (answered s 0 0 (partNumber ++ sized 2592 (Config.mldsaPublicKey keySeed) ++ natBytes 4 Config.certificateChain.length ++ Config.certificateChain)) ∧
    exec .therm s = .next (answered s 0 0 (thermBody s)) ∧
    (mayAct s f.princ p = true → exec .attest s = .next (answered s 0 0 (attestReport s p f.body ++ sized 4627 (Config.mldsaSign keySeed (attestReport s p f.body))))) ∧
    (mayAct s f.princ p = false → exec .attest s = no 2 ∧ exec .status s = no 2) ∧
    (mayAct s f.princ p = true → (s.part p).live = true → exec .status s = .next (answered s 0 0 (statusBody s p))) ∧
    (mine → fieldAt f.body 1 1 ≠ 1 →
      (fieldAt f.body 0 1 = 0 → exec .counters s = .next (answered s 0 0 ((s.part p).accounts.flatMap fun (t, a) => accountEntry t a))) ∧
      (fieldAt f.body 0 1 = 1 → exec .counters s = .next (answered s 0 0 (slotAccounts s p))) ∧
      (fieldAt f.body 0 1 = 2 → exec .counters s = .next (answered s 0 0 (placementBytes s p)))) ∧
    (mine → fieldAt f.body 1 1 = 1 → ∃ t, exec .counters s = .next t ∧ t.mem = s.mem ∧ t.ctxs = s.ctxs ∧
      (fieldAt f.body 0 1 = 0 → (t.part p).accounts = (s.part p).accounts.map fun e => (e.1, {})) ∧
      (fieldAt f.body 0 1 = 1 → ∀ k, k < 8 → (t.stack k).acct = (s.stack k).acct.filter fun e => e.1 / 128 != p) ∧
      (fieldAt f.body 0 1 = 2 → (t.part p).placement = [])) ∧
    (let c := fieldAt f.body 0 1
     let n := fieldAt f.body 2 2
     booted s = true → f.princ = 0 → n < resourceCount c →
      exec .repairRead s = .next (answered s 0 0 (natBytes 8 ((s.bucket c n).total % 2 ^ 32 * 2 ^ 32 + (s.bucket c n).state % 4 * 2 ^ 30 + (s.bucket c n).level % 2 ^ 16))) ∧
      (∃ t, exec .repairClearLevel s = .next t ∧ t = { s with mod := t.mod } ∧
        t.bucket c n = (if (s.bucket c n).state = 0 then { s.bucket c n with level := 0 } else s.bucket c n)) ∧
      (c ≠ 6 → (s.bucket c n).state = 0 → ∃ t, exec .repairForceLasting s = .next t ∧ t = { s with mod := t.mod, due := t.due } ∧
        t.mod.outputs = s.mod.outputs ++ [.event 0xFF 4 (eventBody 0xFF 0 0 (c + n * 65536) s.now 0 0), .response f.cmd f.seq 0 0 []]) ∧
      (c ≠ 6 → (s.bucket c n).state ≠ 0 → ¬(c = 1 ∧ (s.bucket c n).state = 3) → exec .repairForceLasting s = .next (answered s 0 0 [])) ∧
      (c = 1 → (s.bucket c n).state = 3 → ∀ q, (s.arr (n / 16)).owner = some q → ∃ t, exec .repairForceLasting s = .next t ∧ t.mem = s.mem ∧ (t.arr (n / 16)).owner = none ∧
        (∀ b, b ≠ n / 16 → (t.arr b).owner = (s.arr b).owner) ∧ (∀ e ∈ (t.part q).sa, e.1 ≠ n / 16) ∧ (∀ i ∈ (t.part q).images, i.arr ≠ n / 16) ∧
        ∀ e ∈ (t.tower (towerOf (n / 16))).kennels, e.2.part = q → e.2.arr ≠ n / 16) ∧
      (c = 1 → (s.bucket c n).state = 3 → (s.arr (n / 16)).owner = none → exec .repairForceLasting s = .next (answered s 0 0 []))) ∧
    (∀ i, i ∈ [Instr.partMake, .slotSetTables, .slotSetDonate, .slotSetHashMasks, .trunkSet, .repairRead, .repairForceLasting, .repairClearLevel, .powerRingTotal, .powerGate,
        .powerUngate] →
      (booted s = false → exec i s = no 9) ∧ (booted s = true → f.princ ≠ 0 → exec i s = no 17)) ∧
    (∀ i, i ∈ [Instr.mapRangeEntry, .mapControlWord, .mapInvalidate, .dict, .load, .read, .preemptPolicy, .preemptCheckpoint, .preemptKill, .halt, .resume, .counters] →
      (booted s = false → exec i s = no 9) ∧ (booted s = true → mayAct s f.princ p = false → exec i s = no 2))

/-- R28, R343, R364, R371, R398, R400, R42: a launch that passes its checks joins the queue with its record; a preemption is asked of the task named, or kills it, running or not; a halt
raises the leash with no fault; a resume sets G_r for every engine; frames of one body are joined. G_r is some tick to come: that it is at most 1,024 ticks away is the model's choice
(log 4). -/
def Obligations.CommandsOnTasks : Prop :=
  ∀ (s : State), booted s = true →
    let f := s.site.frame
    let ok := fun (t : State) => t.mod.outputs = s.mod.outputs ++ [.response f.cmd f.seq 0 0 []]
    (let r := s.bytes .host (fieldAt f.body 0 8) 256
     let p := recPart r
     (launchStatus s f r = 0 → ∃ t, exec .launch s = .next t ∧ t.mem = s.mem ∧ t.ctxs = s.ctxs ∧ ok t ∧ (t.part p).queue = (s.part p).queue ++ [s.uid] ∧
      (t.part p).launches = (s.part p).launches ++ [{ uid := s.uid, record := r }]) ∧
     (launchStatus s f r ≠ 0 → exec .launch s = .next (answered s (launchStatus s f r) 0 []))) ∧
    (let p := f.part
     mayAct s f.princ p = true → (s.part p).live = true →
      (∀ k, namedTask s p (fieldAt f.body 0 8) (fieldAt f.body 8 4) = some k → k.state = .running →
        (∀ e ∈ taskCtxs s p k, (s.ctx e.1 e.2).state ≠ .saving ∧ (s.ctx e.1 e.2).state ≠ .halted) →
        (∀ i mode, (i = Instr.preemptPolicy ∧ mode = 0 ∨ i = .preemptCheckpoint ∧ mode = 1) → ∃ t, exec i s = .next t ∧ t = { s with mod := t.mod, due := t.due } ∧ ok t ∧
          ∃ d ∈ t.due, d.act = .instr .preemptRequest ∧ d.site.a = p ∧ d.site.b = k.uid ∧ d.site.c = fieldAt f.body 12 1 ∧ d.site.pos = mode ∧ d.tick = s.now) ∧
        (recKill (s.taskRecord p k) = false → exec .preemptKill s = .next (answered s 13 0 [])) ∧
        (recKill (s.taskRecord p k) = true → ∃ t, exec .preemptKill s = .next t ∧ t.mem = s.mem ∧ ∀ e ∈ taskCtxs s p k, (t.ctx e.1 e.2).killed = true)) ∧
      (∀ k, namedTask s p (fieldAt f.body 0 8) (fieldAt f.body 8 4) = some k → (k.state = .pending ∨ k.state = .checkpointed) →
        (∀ e ∈ taskCtxs s p k, (s.ctx e.1 e.2).state ≠ .saving) →
        exec .preemptPolicy s = .next (answered s 9 0 []) ∧ exec .preemptCheckpoint s = .next (answered s 9 0 []) ∧
        (recKill (s.taskRecord p k) = false → exec .preemptKill s = .next (answered s 13 0 [])) ∧
        (recKill (s.taskRecord p k) = true → ∃ t, exec .preemptKill s = .next t ∧ t.mem = s.mem ∧ k.uid ∉ (t.part p).queue ∧
          ∀ k', (t.part p).task k.uid = some k' → k'.state = .killed ∨ k'.state = .ended)) ∧
      (namedTask s p (fieldAt f.body 0 8) (fieldAt f.body 8 4) = none → ∀ i ∈ [Instr.preemptPolicy, .preemptCheckpoint, .preemptKill], exec i s = .next (answered s 16 0 [])) ∧
      (∃ t, exec .halt s = .next t ∧ t.mem = s.mem ∧ t.ctxs = s.ctxs ∧ (t.part p).leash = true ∧ ok t ∧ (t.part p).faults = (s.part p).faults ∧
        (t.part p).byHalt = ((s.part p).byHalt || !(s.part p).leash)) ∧
      ((resumeBusy s p || (s.part p).resumeAt.isSome) = true → exec .resume s = .next (answered s 9 0 [])) ∧
      ((resumeBusy s p || (s.part p).resumeAt.isSome) = false → ∃ t g, exec .resume s = .next t ∧ t.mem = s.mem ∧ t.ctxs = s.ctxs ∧ ok t ∧ s.now < g ∧ g ≤ s.now + 1024 ∧
        (t.part p).resumeAt = some g ∧ ∀ e ∈ (0, 0) :: enginesOf s p, ∃ d ∈ t.due, d.act = .instr .engineRestart ∧ d.site.a = p ∧ d.site.b = e.1 ∧ d.site.c = e.2 ∧ d.tick = g)) ∧
    (let old := joinedOf s f.princ
     let kept := s.mod.joined.filter fun e => e.1 != f.princ
     (joinOk f old = false → exec .contFrame s = .next (withMod (answered s 16 0 []) { (answered s 16 0 []).mod with joined := kept })) ∧
     (joinOk f old = true → exec .contFrame s = .next (withMod s { s.mod with joined := kept ++ [(f.princ, (old.getD (natBytes 2 f.cmd ++ natBytes 2 f.seq)) ++ f.body)] })))

/-- R401, R42, R402, R397, R365, R62, R73: the commands that make and free partitions and move bytes: what PART.MAKE accepts becomes live with its arrays; PART.FREE kills what waits and
looks every tick until it may zero the partition; LOAD and READ, checked, put their units on the link in turn: a unit's lines of a window go to its tower's data port, each moving its bytes
as it performs, and those of virtual memory to their points; of halted state the bytes move at once (the model's choice, log 12); DICT writes an image to every array named, or empties a
slot, where no launch names it. -/
def Obligations.CommandsOnPartitions : Prop :=
  ∀ (s : State), booted s = true →
    let f := s.site.frame
    let ok := fun (t : State) => t.mod.outputs = s.mod.outputs ++ [.response f.cmd f.seq 0 0 []]
    let begun := fun (t : State) (load : Bool) (len : Nat) =>
      t.mod.outputs = s.mod.outputs ∧ (t.part f.part).current = some f ∧ (t.part f.part).xfer = some { frame := f, load, len } ∧
        (s.mod.xferBusy = false → t.mod.xferBusy = true ∧ ∃ q, ∃ d ∈ t.due, d.act = .micro (.hostUnit q) ∧ s.now < d.tick)
    (f.princ = 0 →
      (∀ b, parsePartBody f.body = some b → makeStatus s b = 0 → ∃ t, exec .partMake s = .next t ∧ t.mem = s.mem ∧ t.ctxs = s.ctxs ∧ ok t ∧ (t.part b.part).live = true ∧
        (t.part b.part).princ = b.princ ∧ ∀ a ∈ maskArrays b.arrmask, (t.arr a).owner = some b.part) ∧
      (∀ b, parsePartBody f.body = some b → makeStatus s b ≠ 0 → exec .partMake s = .next (answered s (makeStatus s b) 0 [])) ∧
      (parsePartBody f.body = none → exec .partMake s = .next (answered s 16 0 [])) ∧
      (s.site.b ≠ 1 → f.part < 16 → (s.part f.part).live = true → ∃ t, exec .partFree s = .next t ∧ t.mem = s.mem ∧ t.ctxs = s.ctxs ∧
        (∀ l ∈ (t.part f.part).launches, l.state ≠ .waiting) ∧ (t.part f.part).current = some f ∧
        ∃ d ∈ t.due, d.act = .instr .partFree ∧ d.site.b = 1 ∧ d.site.frame = f ∧ d.tick = s.now) ∧
      (s.site.b ≠ 1 → (s.part f.part).live = false → exec .partFree s = .next (answered s 2 0 []))) ∧
    (s.site.b = 1 → freeReady s f.part = false → ∃ t, exec .partFree s = .next t ∧ t = { s with due := t.due } ∧
      ∃ d ∈ t.due, d.act = .instr .partFree ∧ d.site.b = 1 ∧ d.site.frame = f ∧ d.tick = s.now + 1) ∧
    (s.site.b = 1 → freeReady s f.part = true → ∃ t, exec .partFree s = .next t ∧ ok t ∧ (t.part f.part).live = false ∧ (t.part f.part).launches = [] ∧
      (∀ r ∈ t.reqs, r.part ≠ f.part) ∧ ∀ a, a < 64 → (s.arr a).owner = some f.part → (t.arr a).owner = none ∧ ∀ k, k < 4 → t.ctx a k = {}) ∧
    (let p := f.part
     mayAct s f.princ p = true → (s.part p).live = true →
      (∀ x, parseXfer f.body = some x → x.space = 0 →
        (s.inWin x.tower p x.target x.len = true → (∃ t, exec .load s = .next t ∧ t.mem = s.mem ∧ t.ctxs = s.ctxs ∧ begun t true x.len) ∧
          ∃ t, exec .read s = .next t ∧ t.mem = s.mem ∧ t.ctxs = s.ctxs ∧ begun t false x.len) ∧
        (s.inWin x.tower p x.target x.len = false →
          let d := s.winSize x.tower p - min x.target (s.winSize x.tower p)
          exec .load s = .next (answered s 15 d []) ∧ exec .read s = .next (answered s 15 d []))) ∧
      (∀ x, parseXfer f.body = some x → x.space = 1 →
        (∀ o, firstBad s p x.target x.len .write = some o → exec .load s = .next (answered s 11 o [])) ∧
        (∀ o, firstBad s p x.target x.len .read = some o → exec .read s = .next (answered s 11 o [])) ∧
        (firstBad s p x.target x.len .write = none → ∃ t, exec .load s = .next t ∧ t.mem = s.mem ∧ t.ctxs = s.ctxs ∧ begun t true x.len) ∧
        (firstBad s p x.target x.len .read = none → ∃ t, exec .read s = .next t ∧ t.mem = s.mem ∧ t.ctxs = s.ctxs ∧ begun t false x.len)) ∧
      (∀ x, parseXfer f.body = some x → x.space = 2 →
        (namedTask s p x.target x.task = none → exec .load s = .next (answered s 16 0 []) ∧ exec .read s = .next (answered s 16 0 [])) ∧
        ∀ k, namedTask s p x.target x.task = some k →
          let g := recShape (s.taskRecord p k)
          let (m, off) := memberOff (s.taskRecord p k) x.offset
          let va := slotVa s p k m
          let data := s.bytes .host x.haddr x.len
          let past := decide (g.size < off + x.len)
          (heldState s p k = .nowhere → exec .load s = .next (answered s 16 0 []) ∧ exec .read s = .next (answered s 16 0 [])) ∧
          (heldState s p k = .busy → exec .load s = .next (answered s 9 0 []) ∧ exec .read s = .next (answered s 9 0 [])) ∧
          (∀ ms, heldState s p k = .live ms →
            let (a, j) := ms.getD m (0, 0)
            let no := loadRefused s g ((s.arr a).walker.owner == some j) (imgByte s a j) off data
            (∀ o, no = some o → exec .load s = .next (answered s 15 o [])) ∧
            (no = none → ∃ t, exec .load s = .next t ∧ begun t true x.len ∧ t.mem = ((imgPut a j false off data).run s).mem ∧ t.ctxs = ((imgPut a j false off data).run s).ctxs ∧
              t.banks = ((imgPut a j false off data).run s).banks) ∧
            (past = true → exec .read s = .next (answered s 15 (g.size - off) [])) ∧
            (past = false → ∃ t, exec .read s = .next t ∧ begun t false x.len ∧ t.ctxs = s.ctxs ∧ t.banks = s.banks ∧
              t.mem = ((physWrite p (2 ^ 51 + x.haddr) (imgBytes s a j off x.len)).run s).mem)) ∧
          (∀ ms, heldState s p k = .slot ms →
            let no := loadRefused s g (slotWalks s k ms m) (fun o => (virtBytes s p (va + o) 1).getD 0 0) off data
            (∀ o, no = some o → exec .load s = .next (answered s 15 o [])) ∧
            (no = none → ∃ t, exec .load s = .next t ∧ begun t true x.len ∧ (ms = [] → t.mem = ((virtWrite p (va + off) data).run s).mem)) ∧
            (past = true → exec .read s = .next (answered s 15 (g.size - off) [])) ∧
            (past = false → ∃ t, exec .read s = .next t ∧ begun t false x.len ∧ t.ctxs = s.ctxs ∧ t.banks = s.banks ∧
              t.mem = ((physWrite p (2 ^ 51 + x.haddr) (slotRead s p va off x.len (slotWalks s k ms m))).run s).mem))) ∧
      (∀ (y : Xfer) (b : XferBody) (n : Nat), b.space = 0 → (s.part p).xfer = some y →
        let ps := linePieces (b.target + y.sent) n
        let t := (moveUnit p y b n).run s
        (∀ q, (∃ e ∈ ps, e.1 ≤ q ∧ q < e.1 + e.2) ↔ b.target + y.sent ≤ q ∧ q < b.target + y.sent + n) ∧ (∀ e ∈ ps, e.1 / 64 = (e.1 + e.2 - 1) / 64) ∧
        (t.part p).xfer = some { y with sent := y.sent + n, left := y.left + ps.length } ∧
        (t.tower b.tower).lines.map (fun l => (l.addr, l.use)) = (s.tower b.tower).lines.map (fun l => (l.addr, l.use)) ++ ps.map fun e =>
          (s.winAddr b.tower p e.1, if y.load then .hostWrite p (s.winAddr b.tower p e.1) (s.bytes .host (b.haddr + (e.1 - b.target)) e.2)
            else .hostRead p e.2 (b.haddr + (e.1 - b.target)))) ∧
      (∀ addr data, ((lineWrittenPlan (.hostWrite p addr data)).run s).mem = ((scratchWrite addr data).run s).mem) ∧
      (∀ addr n haddr, ((lineReadPlan addr (.hostRead p n haddr)).run s).mem = ((physWrite p (2 ^ 51 + haddr) (s.bytes .scratch addr n)).run s).mem) ∧
      (∀ uid r, s.req? uid = some r → r.kind = .host → r.toHost = false → ((performPlan uid).run s).reqs = s.reqs.filter (fun q => q.uid != uid) ∧
        ((performPlan uid).run s).mem = (if r.write then (reqWrite r r.data).run s else (physWrite r.part (2 ^ 51 + r.arg) (reqRead s r)).run s).mem) ∧
      (parseXfer f.body = none → exec .load s = .next (answered s 16 0 []) ∧ exec .read s = .next (answered s 16 0 [])) ∧
      (let arrs := maskArrays (fieldAt f.body 8 8)
       let kind := fieldAt f.body 0 1
       let slot := fieldAt f.body 1 1
       let size := fieldAt f.body 4 4
       let unit := if kind = 0 then 48 else 2
       let data := s.bytes .host (fieldAt f.body 16 8) (size * unit)
       let others := (s.part p).images.filter fun i => !(i.kind == kind && i.slot == slot)
       let bad := if kind = 0 then (List.range size).find? fun j => !dictEntryOk j ((data.drop (48 * j)).take 48) else none
       let room := fun a => storeBase s p kind slot a size
       ((arrs.any fun a => (s.arr a).owner != some p) = true → exec .dict s = .next (answered s 2 0 [])) ∧
       ((arrs.any fun a => (s.arr a).owner != some p) = false →
        (slotReferenced (s.part p) kind slot = true → exec .dict s = .next (answered s 9 0 [])) ∧
        (slotReferenced (s.part p) kind slot = false → size ≠ 0 → ∀ j, bad = some j → exec .dict s = .next (answered s 5 j [])) ∧
        (slotReferenced (s.part p) kind slot = false → size ≠ 0 → bad = none → (arrs.any fun a => (room a).isNone) = true → exec .dict s = .next (answered s 8 0 [])) ∧
        (slotReferenced (s.part p) kind slot = false → size ≠ 0 → bad = none → (arrs.any fun a => (room a).isNone) = false → Inv s →
          ∃ t, exec .dict s = .next t ∧ ok t ∧ t.ctxs = s.ctxs ∧
            (t.part p).images = others ++ arrs.map (fun a => { kind, slot, arr := a, base := (room a).getD 0, size }) ∧
            (∀ a ∈ arrs, ∀ i, i < size * unit → (if kind = 0 then t.byte .dict (dictEntry a ((room a).getD 0) + i) else t.byte .code (a * 131072 + (room a).getD 0 * 2 + i)) = data.getD i 0) ∧
            ∀ sp n, n < 2 ^ 80 → sp ≠ (if kind = 0 then Space.dict else .code) → t.byte sp n = s.byte sp n) ∧
        (slotReferenced (s.part p) kind slot = false → fieldAt f.body 4 4 = 0 → ∃ t, exec .dict s = .next t ∧ t.mem = s.mem ∧ ok t ∧
          (t.part p).images = others))))

/-- R297-R305, R314, R315, R321, R323, R331, R350, R376, R386, R389, R390: the operator's tables: what SLOT.SET, MAP, TRUNK.SET and POWER accept stands, or waits for its frame or its
array, and is answered, a MAP once the requests translated by the old state have performed; what they may not change they refuse. A range entry written, valid or not, gets the next GEN and
drops the pages it and the old one translate; the watch ranges it fixed advance. -/
def Obligations.CommandsOnTables : Prop :=
  ∀ (s : State), booted s = true →
    let f := s.site.frame
    let ok := fun (t : State) => t.mod.outputs = s.mod.outputs ++ [.response f.cmd f.seq 0 0 []]
    (f.princ = 0 →
      (let k := s.stack (fieldAt f.body 0 1)
       let entry := fun (i : Nat) => ((f.body.drop 4).getD i 0).toNat
       (∀ i, i < 16384 → slotFixed (i % 512) = false → slotKind (entry i) ≤ 4 ∧ (entry i).testBit 4 = false) → (∀ p, progsOn s (fieldAt f.body 0 1) p = false) →
        ∃ t tab, exec .slotSetTables s = .next t ∧ t.mem = s.mem ∧ ok t ∧ t.stack (fieldAt f.body 0 1) = { k with slotsNew := k.slotsNew ++ [(s.now, tab)] } ∧
          ∀ i, i < 16384 → slotFixed (i % 512) = false → (i, entry i) ∈ tab) ∧
      (let p := fieldAt f.body 4 1
       (s.part p).live = true → ∃ t, exec .slotSetDonate s = .next t ∧ t.mem = s.mem ∧ ok t ∧ (t.part p).don = (fieldAt f.body 5 1 == 1)) ∧
      (let p := fieldAt f.body 4 1
       let st := fieldAt f.body 0 1
       let hmb := fieldsAt f.body 8 8 4
       let hmp := fieldsAt f.body 40 8 6
       (s.part p).live = true → ((hmb ++ hmp).any fun v => decide (2 ^ 33 ≤ v)) = false → (hmb.all (maskOk 14) && hmp.all (maskOk 6)) = true →
        ∃ t, exec .slotSetHashMasks s = .next t ∧ t.mem = s.mem ∧ ok t ∧ (t.stack st).masksNew = (s.stack st).masksNew ++ [(s.now, p, hmb, hmp)] ∧ (t.stack st).hmb = (s.stack st).hmb) ∧
      (∀ b, parseTrunkBody f.body = some b → ∃ t, exec .trunkSet s = .next t ∧ t.mem = s.mem ∧ ok t ∧ t.mod.ports = s.mod.ports ∧
        (∀ c ∈ t.mod.trunkNew, c.1 < 80 ∧ c.2 ≠ (smGet {} s.mod.ports c.1).trunk) ∧
        (∀ p, p < 16 → (t.part p).xmask = BitVec.ofNat 64 (b.groups.getD p (0, [])).1 ∧ (t.part p).step = 0) ∧ ∃ d ∈ t.due, d.act = .instr .trunkChangeApply ∧ d.tick = s.now) ∧
      (let units := fieldAt f.body 4 4
       let asked := allotted s fun v => (v.sa.map fun e => e.2).foldl (· + ·) 0
       (5400 < asked + units → exec .powerRingTotal s = .next (answered s 8 0 [])) ∧
       (asked + units ≤ 5400 → ∃ t, exec .powerRingTotal s = .next t ∧ t = withMod s t.mod ∧ ok t ∧ t.mod.ringTotal = units ∧ t.mod.ringLess = min units s.mod.ringLess)) ∧
      (let a := fieldAt f.body 1 1
       ((s.arr a).gate = .up → ∃ t, exec .powerGate s = .next t ∧ t.mem = s.mem ∧ ok t ∧ (t.arr a).gate = .gating ∧ ∃ d ∈ t.due, d.act = .instr .gateRailsOff ∧ d.site.arr = a ∧ d.tick = s.now) ∧
       ((s.arr a).gate ≠ .up → exec .powerGate s = .next (answered s 9 0 [])) ∧
       ((s.arr a).gate = .gating → ∃ t, exec .powerUngate s = .next t ∧ t.mem = s.mem ∧ ok t ∧ t.arr a = { s.arr a with ungateAfter := true }) ∧
       ((s.arr a).gate = .gated → ∃ t, exec .powerUngate s = .next t ∧ t = { s with mod := t.mod, due := t.due } ∧ ok t ∧
        ∃ d ∈ t.due, d.act = .instr .arrayUngate ∧ d.site.arr = a ∧ d.tick = s.now) ∧
       ((s.arr a).gate = .up ∨ (s.arr a).gate = .ungating → exec .powerUngate s = .next (answered s 0 0 [])))) ∧
    (let p := f.part
     let late := translatedReqs s p
     let done := fun (t : State) => (late = [] → ok t) ∧ (late ≠ [] → t.mod.outputs = s.mod.outputs ∧ (t.part p).current = some f ∧
       ∃ d ∈ t.due, d.act = .micro (.answerWhen p late) ∧ d.site.frame = f ∧ d.tick = s.now)
     mayAct s f.princ p = true → (s.part p).live = true →
      (let i := fieldAt f.body 8 1
       let e := BitVec.ofNat 256 (fieldAt f.body 16 32)
       let old := smGet 0 (s.part p).ranges i
       let met := ([old, e].filter reValid).map fun x => (reBase x, reLimit x)
       let hit := (List.range 64).find? fun j =>
         let o := smGet 0 (s.part p).ranges j
         j != i && reValid e && reValid o && decide (reBase e ≤ reLimit o) && decide (reBase o ≤ reLimit e)
       let lies := inExtent (s.part p) (rePbase e) (reLimit e + 1 - reBase e)
       let pins := pinsMet s p met + regionsMet s p met
       (rangeFieldsOk e = false → exec .mapRangeEntry s = .next (answered s 16 0 [])) ∧
       (rangeFieldsOk e = true → ∀ j, hit = some j → exec .mapRangeEntry s = .next (answered s 10 j [])) ∧
       (rangeFieldsOk e = true → hit = none → reValid e = true → lies = false → exec .mapRangeEntry s = .next (answered s 11 0 [])) ∧
       (rangeFieldsOk e = true → hit = none → (reValid e = true → lies = true) → pins ≠ 0 → exec .mapRangeEntry s = .next (answered s 12 pins [])) ∧
       (rangeFieldsOk e = true → hit = none → (reValid e = true → lies = true) → pins = 0 → ∃ t, exec .mapRangeEntry s = .next t ∧ t.mem = s.mem ∧ t.ctxs = s.ctxs ∧ done t ∧
        (let r := smGet 0 (t.part p).ranges i
         reGen r = (reGen old + 1) % 2 ^ 32 ∧ r.extractLsb' 0 224 = e.extractLsb' 0 224) ∧
        (∀ j, j ≠ i → smGet 0 (t.part p).ranges j = smGet 0 (s.part p).ranges j) ∧
        (∀ w, w < 8 → ∀ x ∈ (t.tower w).ranges, ¬(x.1 = p ∧ x.2.1 = i)) ∧
        (∀ w, w < 8 → ∀ g ∈ (t.tower w).pages, g.part = p → rangesMeet met g.page (g.page + g.size - 1) = true → g.size = 0) ∧
        ∀ k w, (k, w) ∈ (s.part p).watch →
          (k, if wrSpace w == 2 && (s.part p).watchVia.contains (k, i) then wrBump w else w) ∈ (t.part p).watch)) ∧
      (let c := fieldAt f.body 8 8
       c < 2 ^ 52 → c / 2 % 2 ^ 19 = 0 → (walkedPins s p = 0 ∨ BitVec.ofNat 64 c = (s.part p).ctrl) → ∃ t, exec .mapControlWord s = .next t ∧ t.mem = s.mem ∧ done t ∧ (t.part p).ctrl = BitVec.ofNat 64 c ∧
        ∀ w, w < 8 → ∀ e ∈ (t.tower w).pages, e.part = p → ¬(e.page ≤ 2 ^ 56 ∧ 0 < e.page + e.size)) ∧
      (let lo := fieldAt f.body 8 8
       let hi := fieldAt f.body 16 8
       (lo ≤ hi → hi < 2 ^ 56 → pinsMet s p [(lo, hi)] ≠ 0 → exec .mapInvalidate s = .next (answered s 12 (pinsMet s p [(lo, hi)]) [])) ∧
       (lo ≤ hi → hi < 2 ^ 56 → pinsMet s p [(lo, hi)] = 0 → ∃ t, exec .mapInvalidate s = .next t ∧ t.mem = s.mem ∧ done t ∧
        (∀ w, w < 8 → ∀ e ∈ (t.tower w).pages, e.part = p → ¬(e.page ≤ hi ∧ lo < e.page + e.size)) ∧
        ∀ w, w < 8 → ∀ e ∈ (s.tower w).pages, e.part ≠ p ∨ ¬(e.page ≤ hi ∧ lo < e.page + e.size) → e ∈ (t.tower w).pages)) ∧
      (fieldAt f.body 16 8 < fieldAt f.body 8 8 → exec .mapInvalidate s = .next (answered s 16 0 [])))

end Statements
end

