-- ==== Sys2Proof/Laws/Maps.lean ====
section
/-! SUPPORT. Sparse maps and memory: a read after a write, and the canonical form of memory. -/

namespace Sys2Proof.Machine

@[simp] theorem smGet_smSet_same {α : Type} (d v : α) (m : SMap α) (k : Nat) : smGet d (smSet m k v) k = v := by
  induction m with
  | nil => simp [smSet, smGet]
  | cons e rest ih =>
    obtain ⟨a, w⟩ := e
    simp only [smSet]
    split
    · rename_i h; simp [smGet, Nat.ne_of_lt h, ih]
    · split <;> simp [smGet]

theorem smGet_smSet_other {α : Type} (d v : α) (m : SMap α) (k j : Nat) (h : j ≠ k) : smGet d (smSet m k v) j = smGet d m j := by
  induction m with
  | nil => simp [smSet, smGet, Ne.symm h]
  | cons e rest ih =>
    obtain ⟨a, w⟩ := e
    simp only [smSet]
    split
    · simp [smGet, ih]
    · split
      · rename_i h2; subst h2; simp [smGet, Ne.symm h]
      · simp [smGet, Ne.symm h]

theorem smGet_smSet {α : Type} (d v : α) (m : SMap α) (k j : Nat) : smGet d (smSet m k v) j = if j = k then v else smGet d m j := by
  split
  · rename_i h; subst h; simp
  · rename_i h; exact smGet_smSet_other d v m k j h

/-- The addresses of a listed memory rise and no listed byte is 0: the canonical form as a chain. -/
theorem wf_cons (a : Nat) (b : Byte) (m : List Host.Cell) :
    Memory.wf ((a, b) :: m) = true ↔ b ≠ 0 ∧ (∀ e ∈ m, a < e.1) ∧ Memory.wf m = true := by
  induction m generalizing a b with
  | nil => simp [Memory.wf]
  | cons e rest ih =>
    obtain ⟨c, d⟩ := e
    simp only [Memory.wf, Bool.and_eq_true, decide_eq_true_eq, bne_iff_ne, ne_eq, List.mem_cons, forall_eq_or_imp]
    constructor
    · rintro ⟨⟨hac, hb⟩, hm⟩
      refine ⟨hb, ⟨hac, fun e he => ?_⟩, hm⟩
      exact Nat.lt_trans hac (((ih c d).1 hm).2.1 e he)
    · rintro ⟨hb, ⟨hac, -⟩, hm⟩
      exact ⟨⟨hac, hb⟩, hm⟩

theorem memSet_keys (m : List Host.Cell) (k : Nat) (v : Byte) (e : Host.Cell) (h : e ∈ memSet m k v) : e.1 = k ∨ e ∈ m := by
  induction m with
  | nil => simp only [memSet] at h; split at h <;> simp_all
  | cons f rest ih =>
    obtain ⟨a, b⟩ := f
    simp only [memSet] at h
    split at h
    · simp only [List.mem_cons] at h ⊢
      rcases h with h | h
      · exact .inr (.inl h)
      · exact (ih h).imp_right .inr
    · split at h <;> split at h <;> simp only [List.mem_cons] at h ⊢
      · exact .inr (.inr h)
      · rcases h with h | h
        · exact .inl (by rw [h])
        · exact .inr (.inr h)
      · exact .inr h
      · rcases h with h | h
        · exact .inl (by rw [h])
        · exact .inr h

/-- Writing a byte keeps the canonical form. -/
theorem memSet_wf (m : List Host.Cell) (k : Nat) (v : Byte) (h : Memory.wf m = true) : Memory.wf (memSet m k v) = true := by
  induction m with
  | nil => simp only [memSet]; split <;> simp_all [Memory.wf]
  | cons f rest ih =>
    obtain ⟨a, b⟩ := f
    have hc := (wf_cons a b rest).1 h
    simp only [memSet]
    split
    · rename_i hak
      refine (wf_cons _ _ _).2 ⟨hc.1, fun e he => ?_, ih hc.2.2⟩
      rcases memSet_keys rest k v e he with he | he
      · rw [he]; exact hak
      · exact hc.2.1 e he
    · rename_i hak
      split
      · rename_i hk
        subst hk
        split
        · exact hc.2.2
        · rename_i hv; exact (wf_cons _ _ _).2 ⟨hv, hc.2.1, hc.2.2⟩
      · rename_i hne
        split
        · exact h
        · rename_i hv
          refine (wf_cons _ _ _).2 ⟨hv, fun e he => ?_, h⟩
          have hka : k < a := by omega
          simp only [List.mem_cons] at he
          rcases he with he | he
          · rw [he]; exact hka
          · exact Nat.lt_trans hka (hc.2.1 e he)

/-- Dropping listed bytes keeps the canonical form. -/
theorem filter_wf (m : List Host.Cell) (p : Host.Cell → Bool) (h : Memory.wf m = true) : Memory.wf (m.filter p) = true := by
  induction m with
  | nil => exact h
  | cons f rest ih =>
    obtain ⟨a, b⟩ := f
    have hc := (wf_cons a b rest).1 h
    simp only [List.filter_cons]
    split
    · exact (wf_cons _ _ _).2 ⟨hc.1, fun e he => hc.2.1 e (List.mem_filter.1 he).1, ih hc.2.2⟩
    · exact ih hc.2.2

theorem memClear_wf (m : List Host.Cell) (lo hi : Nat) (h : Memory.wf m = true) : Memory.wf (memClear m lo hi) = true :=
  filter_wf m _ h

/-- An address below every listed one reads 0. -/
theorem memGet_below (m : List Host.Cell) (k : Nat) (h : ∀ e ∈ m, k < e.1) : memGet m k = 0 := by
  induction m with
  | nil => rfl
  | cons f rest ih =>
    obtain ⟨a, b⟩ := f
    have hk : k < a := h (a, b) (List.mem_cons_self ..)
    have : a ≠ k := by omega
    simp [memGet, this, ih fun e he => h e (List.mem_cons_of_mem _ he)]

/-- A byte written is read back. -/
theorem memGet_memSet_same (m : List Host.Cell) (k : Nat) (v : Byte) (h : Memory.wf m = true) : memGet (memSet m k v) k = v := by
  induction m with
  | nil => simp only [memSet]; split <;> simp_all [memGet]
  | cons f rest ih =>
    obtain ⟨a, b⟩ := f
    have hc := (wf_cons a b rest).1 h
    simp only [memSet]
    split
    · rename_i hak; simp [memGet, Nat.ne_of_lt hak, ih hc.2.2]
    · split
      · rename_i hk
        subst hk
        split
        · rename_i hv; rw [hv]; exact memGet_below rest a hc.2.1
        · simp [memGet]
      · rename_i h1 h2
        split
        · rename_i hv
          rw [hv]
          refine memGet_below _ k fun e he => ?_
          simp only [List.mem_cons] at he
          rcases he with he | he
          · rw [he]; exact by omega
          · have := hc.2.1 e he; omega
        · simp [memGet]

/-- A write leaves every other byte as it was. -/
theorem memGet_memSet_other (m : List Host.Cell) (k j : Nat) (v : Byte) (h : j ≠ k) : memGet (memSet m k v) j = memGet m j := by
  induction m with
  | nil => simp only [memSet]; split <;> simp_all [memGet, Ne.symm h]
  | cons f rest ih =>
    obtain ⟨a, b⟩ := f
    simp only [memSet]
    split
    · simp [memGet, ih]
    · split
      · rename_i hk; subst hk
        split <;> simp [memGet, Ne.symm h]
      · split <;> simp [memGet, Ne.symm h]

end Sys2Proof.Machine
end

