-- ==== Sys2Proof/Laws/State.lean ====
section
/-! SUPPORT. What each edit of the state leaves in each field: one lemma per field per update, so that no proof unfolds a record update. -/

namespace Sys2Proof.Machine

@[simp] theorem edit_now_now (s : State) (n : Nat) : ((Edit.now n).apply s).now = n := rfl
@[simp] theorem edit_now_due (s : State) (n : Nat) : ((Edit.now n).apply s).due = s.due := rfl
@[simp] theorem edit_now_site (s : State) (n : Nat) : ((Edit.now n).apply s).site = s.site := rfl
@[simp] theorem edit_now_uid (s : State) (n : Nat) : ((Edit.now n).apply s).uid = s.uid := rfl
@[simp] theorem edit_now_free (s : State) (n : Nat) : ((Edit.now n).apply s).free = s.free := rfl
@[simp] theorem edit_now_mod (s : State) (n : Nat) : ((Edit.now n).apply s).mod = s.mod := rfl
@[simp] theorem edit_now_towers (s : State) (n : Nat) : ((Edit.now n).apply s).towers = s.towers := rfl
@[simp] theorem edit_now_stacks (s : State) (n : Nat) : ((Edit.now n).apply s).hbm = s.hbm := rfl
@[simp] theorem edit_now_parts (s : State) (n : Nat) : ((Edit.now n).apply s).parts = s.parts := rfl
@[simp] theorem edit_now_arrs (s : State) (n : Nat) : ((Edit.now n).apply s).arrs = s.arrs := rfl
@[simp] theorem edit_now_ctxs (s : State) (n : Nat) : ((Edit.now n).apply s).ctxs = s.ctxs := rfl
@[simp] theorem edit_now_cells (s : State) (n : Nat) : ((Edit.now n).apply s).cells = s.cells := rfl
@[simp] theorem edit_now_banks (s : State) (n : Nat) : ((Edit.now n).apply s).banks = s.banks := rfl
@[simp] theorem edit_now_acc (s : State) (n : Nat) : ((Edit.now n).apply s).acc = s.acc := rfl
@[simp] theorem edit_now_reqs (s : State) (n : Nat) : ((Edit.now n).apply s).reqs = s.reqs := rfl
@[simp] theorem edit_now_inputs (s : State) (n : Nat) : ((Edit.now n).apply s).inputs = s.inputs := rfl
@[simp] theorem edit_now_marks (s : State) (n : Nat) : ((Edit.now n).apply s).marks = s.marks := rfl
@[simp] theorem edit_now_mem (s : State) (n : Nat) : ((Edit.now n).apply s).mem = s.mem := rfl
@[simp] theorem edit_due_now (s : State) (ds : List Due) : ((Edit.due ds).apply s).now = s.now := rfl
@[simp] theorem edit_due_due (s : State) (ds : List Due) : ((Edit.due ds).apply s).due = ds := rfl
@[simp] theorem edit_due_site (s : State) (ds : List Due) : ((Edit.due ds).apply s).site = s.site := rfl
@[simp] theorem edit_due_uid (s : State) (ds : List Due) : ((Edit.due ds).apply s).uid = s.uid := rfl
@[simp] theorem edit_due_free (s : State) (ds : List Due) : ((Edit.due ds).apply s).free = s.free := rfl
@[simp] theorem edit_due_mod (s : State) (ds : List Due) : ((Edit.due ds).apply s).mod = s.mod := rfl
@[simp] theorem edit_due_towers (s : State) (ds : List Due) : ((Edit.due ds).apply s).towers = s.towers := rfl
@[simp] theorem edit_due_stacks (s : State) (ds : List Due) : ((Edit.due ds).apply s).hbm = s.hbm := rfl
@[simp] theorem edit_due_parts (s : State) (ds : List Due) : ((Edit.due ds).apply s).parts = s.parts := rfl
@[simp] theorem edit_due_arrs (s : State) (ds : List Due) : ((Edit.due ds).apply s).arrs = s.arrs := rfl
@[simp] theorem edit_due_ctxs (s : State) (ds : List Due) : ((Edit.due ds).apply s).ctxs = s.ctxs := rfl
@[simp] theorem edit_due_cells (s : State) (ds : List Due) : ((Edit.due ds).apply s).cells = s.cells := rfl
@[simp] theorem edit_due_banks (s : State) (ds : List Due) : ((Edit.due ds).apply s).banks = s.banks := rfl
@[simp] theorem edit_due_acc (s : State) (ds : List Due) : ((Edit.due ds).apply s).acc = s.acc := rfl
@[simp] theorem edit_due_reqs (s : State) (ds : List Due) : ((Edit.due ds).apply s).reqs = s.reqs := rfl
@[simp] theorem edit_due_inputs (s : State) (ds : List Due) : ((Edit.due ds).apply s).inputs = s.inputs := rfl
@[simp] theorem edit_due_marks (s : State) (ds : List Due) : ((Edit.due ds).apply s).marks = s.marks := rfl
@[simp] theorem edit_due_mem (s : State) (ds : List Due) : ((Edit.due ds).apply s).mem = s.mem := rfl
@[simp] theorem edit_site_now (s : State) (x : Site) : ((Edit.site x).apply s).now = s.now := rfl
@[simp] theorem edit_site_due (s : State) (x : Site) : ((Edit.site x).apply s).due = s.due := rfl
@[simp] theorem edit_site_site (s : State) (x : Site) : ((Edit.site x).apply s).site = x := rfl
@[simp] theorem edit_site_uid (s : State) (x : Site) : ((Edit.site x).apply s).uid = s.uid := rfl
@[simp] theorem edit_site_free (s : State) (x : Site) : ((Edit.site x).apply s).free = s.free := rfl
@[simp] theorem edit_site_mod (s : State) (x : Site) : ((Edit.site x).apply s).mod = s.mod := rfl
@[simp] theorem edit_site_towers (s : State) (x : Site) : ((Edit.site x).apply s).towers = s.towers := rfl
@[simp] theorem edit_site_stacks (s : State) (x : Site) : ((Edit.site x).apply s).hbm = s.hbm := rfl
@[simp] theorem edit_site_parts (s : State) (x : Site) : ((Edit.site x).apply s).parts = s.parts := rfl
@[simp] theorem edit_site_arrs (s : State) (x : Site) : ((Edit.site x).apply s).arrs = s.arrs := rfl
@[simp] theorem edit_site_ctxs (s : State) (x : Site) : ((Edit.site x).apply s).ctxs = s.ctxs := rfl
@[simp] theorem edit_site_cells (s : State) (x : Site) : ((Edit.site x).apply s).cells = s.cells := rfl
@[simp] theorem edit_site_banks (s : State) (x : Site) : ((Edit.site x).apply s).banks = s.banks := rfl
@[simp] theorem edit_site_acc (s : State) (x : Site) : ((Edit.site x).apply s).acc = s.acc := rfl
@[simp] theorem edit_site_reqs (s : State) (x : Site) : ((Edit.site x).apply s).reqs = s.reqs := rfl
@[simp] theorem edit_site_inputs (s : State) (x : Site) : ((Edit.site x).apply s).inputs = s.inputs := rfl
@[simp] theorem edit_site_marks (s : State) (x : Site) : ((Edit.site x).apply s).marks = s.marks := rfl
@[simp] theorem edit_site_mem (s : State) (x : Site) : ((Edit.site x).apply s).mem = s.mem := rfl
@[simp] theorem edit_uid_now (s : State) (n : Nat) : ((Edit.uid n).apply s).now = s.now := rfl
@[simp] theorem edit_uid_due (s : State) (n : Nat) : ((Edit.uid n).apply s).due = s.due := rfl
@[simp] theorem edit_uid_site (s : State) (n : Nat) : ((Edit.uid n).apply s).site = s.site := rfl
@[simp] theorem edit_uid_uid (s : State) (n : Nat) : ((Edit.uid n).apply s).uid = n := rfl
@[simp] theorem edit_uid_free (s : State) (n : Nat) : ((Edit.uid n).apply s).free = s.free := rfl
@[simp] theorem edit_uid_mod (s : State) (n : Nat) : ((Edit.uid n).apply s).mod = s.mod := rfl
@[simp] theorem edit_uid_towers (s : State) (n : Nat) : ((Edit.uid n).apply s).towers = s.towers := rfl
@[simp] theorem edit_uid_stacks (s : State) (n : Nat) : ((Edit.uid n).apply s).hbm = s.hbm := rfl
@[simp] theorem edit_uid_parts (s : State) (n : Nat) : ((Edit.uid n).apply s).parts = s.parts := rfl
@[simp] theorem edit_uid_arrs (s : State) (n : Nat) : ((Edit.uid n).apply s).arrs = s.arrs := rfl
@[simp] theorem edit_uid_ctxs (s : State) (n : Nat) : ((Edit.uid n).apply s).ctxs = s.ctxs := rfl
@[simp] theorem edit_uid_cells (s : State) (n : Nat) : ((Edit.uid n).apply s).cells = s.cells := rfl
@[simp] theorem edit_uid_banks (s : State) (n : Nat) : ((Edit.uid n).apply s).banks = s.banks := rfl
@[simp] theorem edit_uid_acc (s : State) (n : Nat) : ((Edit.uid n).apply s).acc = s.acc := rfl
@[simp] theorem edit_uid_reqs (s : State) (n : Nat) : ((Edit.uid n).apply s).reqs = s.reqs := rfl
@[simp] theorem edit_uid_inputs (s : State) (n : Nat) : ((Edit.uid n).apply s).inputs = s.inputs := rfl
@[simp] theorem edit_uid_marks (s : State) (n : Nat) : ((Edit.uid n).apply s).marks = s.marks := rfl
@[simp] theorem edit_uid_mem (s : State) (n : Nat) : ((Edit.uid n).apply s).mem = s.mem := rfl
@[simp] theorem edit_free_now (s : State) (n : Nat) : ((Edit.free n).apply s).now = s.now := rfl
@[simp] theorem edit_free_due (s : State) (n : Nat) : ((Edit.free n).apply s).due = s.due := rfl
@[simp] theorem edit_free_site (s : State) (n : Nat) : ((Edit.free n).apply s).site = s.site := rfl
@[simp] theorem edit_free_uid (s : State) (n : Nat) : ((Edit.free n).apply s).uid = s.uid := rfl
@[simp] theorem edit_free_free (s : State) (n : Nat) : ((Edit.free n).apply s).free = n := rfl
@[simp] theorem edit_free_mod (s : State) (n : Nat) : ((Edit.free n).apply s).mod = s.mod := rfl
@[simp] theorem edit_free_towers (s : State) (n : Nat) : ((Edit.free n).apply s).towers = s.towers := rfl
@[simp] theorem edit_free_stacks (s : State) (n : Nat) : ((Edit.free n).apply s).hbm = s.hbm := rfl
@[simp] theorem edit_free_parts (s : State) (n : Nat) : ((Edit.free n).apply s).parts = s.parts := rfl
@[simp] theorem edit_free_arrs (s : State) (n : Nat) : ((Edit.free n).apply s).arrs = s.arrs := rfl
@[simp] theorem edit_free_ctxs (s : State) (n : Nat) : ((Edit.free n).apply s).ctxs = s.ctxs := rfl
@[simp] theorem edit_free_cells (s : State) (n : Nat) : ((Edit.free n).apply s).cells = s.cells := rfl
@[simp] theorem edit_free_banks (s : State) (n : Nat) : ((Edit.free n).apply s).banks = s.banks := rfl
@[simp] theorem edit_free_acc (s : State) (n : Nat) : ((Edit.free n).apply s).acc = s.acc := rfl
@[simp] theorem edit_free_reqs (s : State) (n : Nat) : ((Edit.free n).apply s).reqs = s.reqs := rfl
@[simp] theorem edit_free_inputs (s : State) (n : Nat) : ((Edit.free n).apply s).inputs = s.inputs := rfl
@[simp] theorem edit_free_marks (s : State) (n : Nat) : ((Edit.free n).apply s).marks = s.marks := rfl
@[simp] theorem edit_free_mem (s : State) (n : Nat) : ((Edit.free n).apply s).mem = s.mem := rfl
@[simp] theorem edit_mod_now (s : State) (m : Module) : ((Edit.mod m).apply s).now = s.now := rfl
@[simp] theorem edit_mod_due (s : State) (m : Module) : ((Edit.mod m).apply s).due = s.due := rfl
@[simp] theorem edit_mod_site (s : State) (m : Module) : ((Edit.mod m).apply s).site = s.site := rfl
@[simp] theorem edit_mod_uid (s : State) (m : Module) : ((Edit.mod m).apply s).uid = s.uid := rfl
@[simp] theorem edit_mod_free (s : State) (m : Module) : ((Edit.mod m).apply s).free = s.free := rfl
@[simp] theorem edit_mod_mod (s : State) (m : Module) : ((Edit.mod m).apply s).mod = m := rfl
@[simp] theorem edit_mod_towers (s : State) (m : Module) : ((Edit.mod m).apply s).towers = s.towers := rfl
@[simp] theorem edit_mod_stacks (s : State) (m : Module) : ((Edit.mod m).apply s).hbm = s.hbm := rfl
@[simp] theorem edit_mod_parts (s : State) (m : Module) : ((Edit.mod m).apply s).parts = s.parts := rfl
@[simp] theorem edit_mod_arrs (s : State) (m : Module) : ((Edit.mod m).apply s).arrs = s.arrs := rfl
@[simp] theorem edit_mod_ctxs (s : State) (m : Module) : ((Edit.mod m).apply s).ctxs = s.ctxs := rfl
@[simp] theorem edit_mod_cells (s : State) (m : Module) : ((Edit.mod m).apply s).cells = s.cells := rfl
@[simp] theorem edit_mod_banks (s : State) (m : Module) : ((Edit.mod m).apply s).banks = s.banks := rfl
@[simp] theorem edit_mod_acc (s : State) (m : Module) : ((Edit.mod m).apply s).acc = s.acc := rfl
@[simp] theorem edit_mod_reqs (s : State) (m : Module) : ((Edit.mod m).apply s).reqs = s.reqs := rfl
@[simp] theorem edit_mod_inputs (s : State) (m : Module) : ((Edit.mod m).apply s).inputs = s.inputs := rfl
@[simp] theorem edit_mod_marks (s : State) (m : Module) : ((Edit.mod m).apply s).marks = s.marks := rfl
@[simp] theorem edit_mod_mem (s : State) (m : Module) : ((Edit.mod m).apply s).mem = s.mem := rfl
@[simp] theorem edit_tower_now (s : State) (k : Nat) (v : Tower) : ((Edit.tower k v).apply s).now = s.now := rfl
@[simp] theorem edit_tower_due (s : State) (k : Nat) (v : Tower) : ((Edit.tower k v).apply s).due = s.due := rfl
@[simp] theorem edit_tower_site (s : State) (k : Nat) (v : Tower) : ((Edit.tower k v).apply s).site = s.site := rfl
@[simp] theorem edit_tower_uid (s : State) (k : Nat) (v : Tower) : ((Edit.tower k v).apply s).uid = s.uid := rfl
@[simp] theorem edit_tower_free (s : State) (k : Nat) (v : Tower) : ((Edit.tower k v).apply s).free = s.free := rfl
@[simp] theorem edit_tower_mod (s : State) (k : Nat) (v : Tower) : ((Edit.tower k v).apply s).mod = s.mod := rfl
@[simp] theorem edit_tower_towers (s : State) (k : Nat) (v : Tower) : ((Edit.tower k v).apply s).towers = smSet s.towers k v := rfl
@[simp] theorem edit_tower_stacks (s : State) (k : Nat) (v : Tower) : ((Edit.tower k v).apply s).hbm = s.hbm := rfl
@[simp] theorem edit_tower_parts (s : State) (k : Nat) (v : Tower) : ((Edit.tower k v).apply s).parts = s.parts := rfl
@[simp] theorem edit_tower_arrs (s : State) (k : Nat) (v : Tower) : ((Edit.tower k v).apply s).arrs = s.arrs := rfl
@[simp] theorem edit_tower_ctxs (s : State) (k : Nat) (v : Tower) : ((Edit.tower k v).apply s).ctxs = s.ctxs := rfl
@[simp] theorem edit_tower_cells (s : State) (k : Nat) (v : Tower) : ((Edit.tower k v).apply s).cells = s.cells := rfl
@[simp] theorem edit_tower_banks (s : State) (k : Nat) (v : Tower) : ((Edit.tower k v).apply s).banks = s.banks := rfl
@[simp] theorem edit_tower_acc (s : State) (k : Nat) (v : Tower) : ((Edit.tower k v).apply s).acc = s.acc := rfl
@[simp] theorem edit_tower_reqs (s : State) (k : Nat) (v : Tower) : ((Edit.tower k v).apply s).reqs = s.reqs := rfl
@[simp] theorem edit_tower_inputs (s : State) (k : Nat) (v : Tower) : ((Edit.tower k v).apply s).inputs = s.inputs := rfl
@[simp] theorem edit_tower_marks (s : State) (k : Nat) (v : Tower) : ((Edit.tower k v).apply s).marks = s.marks := rfl
@[simp] theorem edit_tower_mem (s : State) (k : Nat) (v : Tower) : ((Edit.tower k v).apply s).mem = s.mem := rfl
@[simp] theorem edit_stack_now (s : State) (k : Nat) (v : Stack) : ((Edit.stack k v).apply s).now = s.now := rfl
@[simp] theorem edit_stack_due (s : State) (k : Nat) (v : Stack) : ((Edit.stack k v).apply s).due = s.due := rfl
@[simp] theorem edit_stack_site (s : State) (k : Nat) (v : Stack) : ((Edit.stack k v).apply s).site = s.site := rfl
@[simp] theorem edit_stack_uid (s : State) (k : Nat) (v : Stack) : ((Edit.stack k v).apply s).uid = s.uid := rfl
@[simp] theorem edit_stack_free (s : State) (k : Nat) (v : Stack) : ((Edit.stack k v).apply s).free = s.free := rfl
@[simp] theorem edit_stack_mod (s : State) (k : Nat) (v : Stack) : ((Edit.stack k v).apply s).mod = s.mod := rfl
@[simp] theorem edit_stack_towers (s : State) (k : Nat) (v : Stack) : ((Edit.stack k v).apply s).towers = s.towers := rfl
@[simp] theorem edit_stack_stacks (s : State) (k : Nat) (v : Stack) : ((Edit.stack k v).apply s).hbm = smSet s.hbm k v := rfl
@[simp] theorem edit_stack_parts (s : State) (k : Nat) (v : Stack) : ((Edit.stack k v).apply s).parts = s.parts := rfl
@[simp] theorem edit_stack_arrs (s : State) (k : Nat) (v : Stack) : ((Edit.stack k v).apply s).arrs = s.arrs := rfl
@[simp] theorem edit_stack_ctxs (s : State) (k : Nat) (v : Stack) : ((Edit.stack k v).apply s).ctxs = s.ctxs := rfl
@[simp] theorem edit_stack_cells (s : State) (k : Nat) (v : Stack) : ((Edit.stack k v).apply s).cells = s.cells := rfl
@[simp] theorem edit_stack_banks (s : State) (k : Nat) (v : Stack) : ((Edit.stack k v).apply s).banks = s.banks := rfl
@[simp] theorem edit_stack_acc (s : State) (k : Nat) (v : Stack) : ((Edit.stack k v).apply s).acc = s.acc := rfl
@[simp] theorem edit_stack_reqs (s : State) (k : Nat) (v : Stack) : ((Edit.stack k v).apply s).reqs = s.reqs := rfl
@[simp] theorem edit_stack_inputs (s : State) (k : Nat) (v : Stack) : ((Edit.stack k v).apply s).inputs = s.inputs := rfl
@[simp] theorem edit_stack_marks (s : State) (k : Nat) (v : Stack) : ((Edit.stack k v).apply s).marks = s.marks := rfl
@[simp] theorem edit_stack_mem (s : State) (k : Nat) (v : Stack) : ((Edit.stack k v).apply s).mem = s.mem := rfl
@[simp] theorem edit_part_now (s : State) (k : Nat) (v : Part) : ((Edit.part k v).apply s).now = s.now := rfl
@[simp] theorem edit_part_due (s : State) (k : Nat) (v : Part) : ((Edit.part k v).apply s).due = s.due := rfl
@[simp] theorem edit_part_site (s : State) (k : Nat) (v : Part) : ((Edit.part k v).apply s).site = s.site := rfl
@[simp] theorem edit_part_uid (s : State) (k : Nat) (v : Part) : ((Edit.part k v).apply s).uid = s.uid := rfl
@[simp] theorem edit_part_free (s : State) (k : Nat) (v : Part) : ((Edit.part k v).apply s).free = s.free := rfl
@[simp] theorem edit_part_mod (s : State) (k : Nat) (v : Part) : ((Edit.part k v).apply s).mod = s.mod := rfl
@[simp] theorem edit_part_towers (s : State) (k : Nat) (v : Part) : ((Edit.part k v).apply s).towers = s.towers := rfl
@[simp] theorem edit_part_stacks (s : State) (k : Nat) (v : Part) : ((Edit.part k v).apply s).hbm = s.hbm := rfl
@[simp] theorem edit_part_parts (s : State) (k : Nat) (v : Part) : ((Edit.part k v).apply s).parts = smSet s.parts k v := rfl
@[simp] theorem edit_part_arrs (s : State) (k : Nat) (v : Part) : ((Edit.part k v).apply s).arrs = s.arrs := rfl
@[simp] theorem edit_part_ctxs (s : State) (k : Nat) (v : Part) : ((Edit.part k v).apply s).ctxs = s.ctxs := rfl
@[simp] theorem edit_part_cells (s : State) (k : Nat) (v : Part) : ((Edit.part k v).apply s).cells = s.cells := rfl
@[simp] theorem edit_part_banks (s : State) (k : Nat) (v : Part) : ((Edit.part k v).apply s).banks = s.banks := rfl
@[simp] theorem edit_part_acc (s : State) (k : Nat) (v : Part) : ((Edit.part k v).apply s).acc = s.acc := rfl
@[simp] theorem edit_part_reqs (s : State) (k : Nat) (v : Part) : ((Edit.part k v).apply s).reqs = s.reqs := rfl
@[simp] theorem edit_part_inputs (s : State) (k : Nat) (v : Part) : ((Edit.part k v).apply s).inputs = s.inputs := rfl
@[simp] theorem edit_part_marks (s : State) (k : Nat) (v : Part) : ((Edit.part k v).apply s).marks = s.marks := rfl
@[simp] theorem edit_part_mem (s : State) (k : Nat) (v : Part) : ((Edit.part k v).apply s).mem = s.mem := rfl
@[simp] theorem edit_arr_now (s : State) (k : Nat) (v : Arr) : ((Edit.arr k v).apply s).now = s.now := rfl
@[simp] theorem edit_arr_due (s : State) (k : Nat) (v : Arr) : ((Edit.arr k v).apply s).due = s.due := rfl
@[simp] theorem edit_arr_site (s : State) (k : Nat) (v : Arr) : ((Edit.arr k v).apply s).site = s.site := rfl
@[simp] theorem edit_arr_uid (s : State) (k : Nat) (v : Arr) : ((Edit.arr k v).apply s).uid = s.uid := rfl
@[simp] theorem edit_arr_free (s : State) (k : Nat) (v : Arr) : ((Edit.arr k v).apply s).free = s.free := rfl
@[simp] theorem edit_arr_mod (s : State) (k : Nat) (v : Arr) : ((Edit.arr k v).apply s).mod = s.mod := rfl
@[simp] theorem edit_arr_towers (s : State) (k : Nat) (v : Arr) : ((Edit.arr k v).apply s).towers = s.towers := rfl
@[simp] theorem edit_arr_stacks (s : State) (k : Nat) (v : Arr) : ((Edit.arr k v).apply s).hbm = s.hbm := rfl
@[simp] theorem edit_arr_parts (s : State) (k : Nat) (v : Arr) : ((Edit.arr k v).apply s).parts = s.parts := rfl
@[simp] theorem edit_arr_arrs (s : State) (k : Nat) (v : Arr) : ((Edit.arr k v).apply s).arrs = smSet s.arrs k v := rfl
@[simp] theorem edit_arr_ctxs (s : State) (k : Nat) (v : Arr) : ((Edit.arr k v).apply s).ctxs = s.ctxs := rfl
@[simp] theorem edit_arr_cells (s : State) (k : Nat) (v : Arr) : ((Edit.arr k v).apply s).cells = s.cells := rfl
@[simp] theorem edit_arr_banks (s : State) (k : Nat) (v : Arr) : ((Edit.arr k v).apply s).banks = s.banks := rfl
@[simp] theorem edit_arr_acc (s : State) (k : Nat) (v : Arr) : ((Edit.arr k v).apply s).acc = s.acc := rfl
@[simp] theorem edit_arr_reqs (s : State) (k : Nat) (v : Arr) : ((Edit.arr k v).apply s).reqs = s.reqs := rfl
@[simp] theorem edit_arr_inputs (s : State) (k : Nat) (v : Arr) : ((Edit.arr k v).apply s).inputs = s.inputs := rfl
@[simp] theorem edit_arr_marks (s : State) (k : Nat) (v : Arr) : ((Edit.arr k v).apply s).marks = s.marks := rfl
@[simp] theorem edit_arr_mem (s : State) (k : Nat) (v : Arr) : ((Edit.arr k v).apply s).mem = s.mem := rfl
@[simp] theorem edit_ctx_now (s : State) (k : Nat) (v : Ctx) : ((Edit.ctx k v).apply s).now = s.now := rfl
@[simp] theorem edit_ctx_due (s : State) (k : Nat) (v : Ctx) : ((Edit.ctx k v).apply s).due = s.due := rfl
@[simp] theorem edit_ctx_site (s : State) (k : Nat) (v : Ctx) : ((Edit.ctx k v).apply s).site = s.site := rfl
@[simp] theorem edit_ctx_uid (s : State) (k : Nat) (v : Ctx) : ((Edit.ctx k v).apply s).uid = s.uid := rfl
@[simp] theorem edit_ctx_free (s : State) (k : Nat) (v : Ctx) : ((Edit.ctx k v).apply s).free = s.free := rfl
@[simp] theorem edit_ctx_mod (s : State) (k : Nat) (v : Ctx) : ((Edit.ctx k v).apply s).mod = s.mod := rfl
@[simp] theorem edit_ctx_towers (s : State) (k : Nat) (v : Ctx) : ((Edit.ctx k v).apply s).towers = s.towers := rfl
@[simp] theorem edit_ctx_stacks (s : State) (k : Nat) (v : Ctx) : ((Edit.ctx k v).apply s).hbm = s.hbm := rfl
@[simp] theorem edit_ctx_parts (s : State) (k : Nat) (v : Ctx) : ((Edit.ctx k v).apply s).parts = s.parts := rfl
@[simp] theorem edit_ctx_arrs (s : State) (k : Nat) (v : Ctx) : ((Edit.ctx k v).apply s).arrs = s.arrs := rfl
@[simp] theorem edit_ctx_ctxs (s : State) (k : Nat) (v : Ctx) : ((Edit.ctx k v).apply s).ctxs = smSet s.ctxs k v := rfl
@[simp] theorem edit_ctx_cells (s : State) (k : Nat) (v : Ctx) : ((Edit.ctx k v).apply s).cells = s.cells := rfl
@[simp] theorem edit_ctx_banks (s : State) (k : Nat) (v : Ctx) : ((Edit.ctx k v).apply s).banks = s.banks := rfl
@[simp] theorem edit_ctx_acc (s : State) (k : Nat) (v : Ctx) : ((Edit.ctx k v).apply s).acc = s.acc := rfl
@[simp] theorem edit_ctx_reqs (s : State) (k : Nat) (v : Ctx) : ((Edit.ctx k v).apply s).reqs = s.reqs := rfl
@[simp] theorem edit_ctx_inputs (s : State) (k : Nat) (v : Ctx) : ((Edit.ctx k v).apply s).inputs = s.inputs := rfl
@[simp] theorem edit_ctx_marks (s : State) (k : Nat) (v : Ctx) : ((Edit.ctx k v).apply s).marks = s.marks := rfl
@[simp] theorem edit_ctx_mem (s : State) (k : Nat) (v : Ctx) : ((Edit.ctx k v).apply s).mem = s.mem := rfl
@[simp] theorem edit_cell_now (s : State) (k : Nat) (v : CellX) : ((Edit.cell k v).apply s).now = s.now := rfl
@[simp] theorem edit_cell_due (s : State) (k : Nat) (v : CellX) : ((Edit.cell k v).apply s).due = s.due := rfl
@[simp] theorem edit_cell_site (s : State) (k : Nat) (v : CellX) : ((Edit.cell k v).apply s).site = s.site := rfl
@[simp] theorem edit_cell_uid (s : State) (k : Nat) (v : CellX) : ((Edit.cell k v).apply s).uid = s.uid := rfl
@[simp] theorem edit_cell_free (s : State) (k : Nat) (v : CellX) : ((Edit.cell k v).apply s).free = s.free := rfl
@[simp] theorem edit_cell_mod (s : State) (k : Nat) (v : CellX) : ((Edit.cell k v).apply s).mod = s.mod := rfl
@[simp] theorem edit_cell_towers (s : State) (k : Nat) (v : CellX) : ((Edit.cell k v).apply s).towers = s.towers := rfl
@[simp] theorem edit_cell_stacks (s : State) (k : Nat) (v : CellX) : ((Edit.cell k v).apply s).hbm = s.hbm := rfl
@[simp] theorem edit_cell_parts (s : State) (k : Nat) (v : CellX) : ((Edit.cell k v).apply s).parts = s.parts := rfl
@[simp] theorem edit_cell_arrs (s : State) (k : Nat) (v : CellX) : ((Edit.cell k v).apply s).arrs = s.arrs := rfl
@[simp] theorem edit_cell_ctxs (s : State) (k : Nat) (v : CellX) : ((Edit.cell k v).apply s).ctxs = s.ctxs := rfl
@[simp] theorem edit_cell_cells (s : State) (k : Nat) (v : CellX) : ((Edit.cell k v).apply s).cells = smSet s.cells k v := rfl
@[simp] theorem edit_cell_banks (s : State) (k : Nat) (v : CellX) : ((Edit.cell k v).apply s).banks = s.banks := rfl
@[simp] theorem edit_cell_acc (s : State) (k : Nat) (v : CellX) : ((Edit.cell k v).apply s).acc = s.acc := rfl
@[simp] theorem edit_cell_reqs (s : State) (k : Nat) (v : CellX) : ((Edit.cell k v).apply s).reqs = s.reqs := rfl
@[simp] theorem edit_cell_inputs (s : State) (k : Nat) (v : CellX) : ((Edit.cell k v).apply s).inputs = s.inputs := rfl
@[simp] theorem edit_cell_marks (s : State) (k : Nat) (v : CellX) : ((Edit.cell k v).apply s).marks = s.marks := rfl
@[simp] theorem edit_cell_mem (s : State) (k : Nat) (v : CellX) : ((Edit.cell k v).apply s).mem = s.mem := rfl
@[simp] theorem edit_bank_now (s : State) (k : Nat) (v : Bank) : ((Edit.bank k v).apply s).now = s.now := rfl
@[simp] theorem edit_bank_due (s : State) (k : Nat) (v : Bank) : ((Edit.bank k v).apply s).due = s.due := rfl
@[simp] theorem edit_bank_site (s : State) (k : Nat) (v : Bank) : ((Edit.bank k v).apply s).site = s.site := rfl
@[simp] theorem edit_bank_uid (s : State) (k : Nat) (v : Bank) : ((Edit.bank k v).apply s).uid = s.uid := rfl
@[simp] theorem edit_bank_free (s : State) (k : Nat) (v : Bank) : ((Edit.bank k v).apply s).free = s.free := rfl
@[simp] theorem edit_bank_mod (s : State) (k : Nat) (v : Bank) : ((Edit.bank k v).apply s).mod = s.mod := rfl
@[simp] theorem edit_bank_towers (s : State) (k : Nat) (v : Bank) : ((Edit.bank k v).apply s).towers = s.towers := rfl
@[simp] theorem edit_bank_stacks (s : State) (k : Nat) (v : Bank) : ((Edit.bank k v).apply s).hbm = s.hbm := rfl
@[simp] theorem edit_bank_parts (s : State) (k : Nat) (v : Bank) : ((Edit.bank k v).apply s).parts = s.parts := rfl
@[simp] theorem edit_bank_arrs (s : State) (k : Nat) (v : Bank) : ((Edit.bank k v).apply s).arrs = s.arrs := rfl
@[simp] theorem edit_bank_ctxs (s : State) (k : Nat) (v : Bank) : ((Edit.bank k v).apply s).ctxs = s.ctxs := rfl
@[simp] theorem edit_bank_cells (s : State) (k : Nat) (v : Bank) : ((Edit.bank k v).apply s).cells = s.cells := rfl
@[simp] theorem edit_bank_banks (s : State) (k : Nat) (v : Bank) : ((Edit.bank k v).apply s).banks = smSet s.banks k v := rfl
@[simp] theorem edit_bank_acc (s : State) (k : Nat) (v : Bank) : ((Edit.bank k v).apply s).acc = s.acc := rfl
@[simp] theorem edit_bank_reqs (s : State) (k : Nat) (v : Bank) : ((Edit.bank k v).apply s).reqs = s.reqs := rfl
@[simp] theorem edit_bank_inputs (s : State) (k : Nat) (v : Bank) : ((Edit.bank k v).apply s).inputs = s.inputs := rfl
@[simp] theorem edit_bank_marks (s : State) (k : Nat) (v : Bank) : ((Edit.bank k v).apply s).marks = s.marks := rfl
@[simp] theorem edit_bank_mem (s : State) (k : Nat) (v : Bank) : ((Edit.bank k v).apply s).mem = s.mem := rfl
@[simp] theorem edit_acc_now (s : State) (k : Nat) (v : AccRow) : ((Edit.acc k v).apply s).now = s.now := rfl
@[simp] theorem edit_acc_due (s : State) (k : Nat) (v : AccRow) : ((Edit.acc k v).apply s).due = s.due := rfl
@[simp] theorem edit_acc_site (s : State) (k : Nat) (v : AccRow) : ((Edit.acc k v).apply s).site = s.site := rfl
@[simp] theorem edit_acc_uid (s : State) (k : Nat) (v : AccRow) : ((Edit.acc k v).apply s).uid = s.uid := rfl
@[simp] theorem edit_acc_free (s : State) (k : Nat) (v : AccRow) : ((Edit.acc k v).apply s).free = s.free := rfl
@[simp] theorem edit_acc_mod (s : State) (k : Nat) (v : AccRow) : ((Edit.acc k v).apply s).mod = s.mod := rfl
@[simp] theorem edit_acc_towers (s : State) (k : Nat) (v : AccRow) : ((Edit.acc k v).apply s).towers = s.towers := rfl
@[simp] theorem edit_acc_stacks (s : State) (k : Nat) (v : AccRow) : ((Edit.acc k v).apply s).hbm = s.hbm := rfl
@[simp] theorem edit_acc_parts (s : State) (k : Nat) (v : AccRow) : ((Edit.acc k v).apply s).parts = s.parts := rfl
@[simp] theorem edit_acc_arrs (s : State) (k : Nat) (v : AccRow) : ((Edit.acc k v).apply s).arrs = s.arrs := rfl
@[simp] theorem edit_acc_ctxs (s : State) (k : Nat) (v : AccRow) : ((Edit.acc k v).apply s).ctxs = s.ctxs := rfl
@[simp] theorem edit_acc_cells (s : State) (k : Nat) (v : AccRow) : ((Edit.acc k v).apply s).cells = s.cells := rfl
@[simp] theorem edit_acc_banks (s : State) (k : Nat) (v : AccRow) : ((Edit.acc k v).apply s).banks = s.banks := rfl
@[simp] theorem edit_acc_acc (s : State) (k : Nat) (v : AccRow) : ((Edit.acc k v).apply s).acc = smSet s.acc k v := rfl
@[simp] theorem edit_acc_reqs (s : State) (k : Nat) (v : AccRow) : ((Edit.acc k v).apply s).reqs = s.reqs := rfl
@[simp] theorem edit_acc_inputs (s : State) (k : Nat) (v : AccRow) : ((Edit.acc k v).apply s).inputs = s.inputs := rfl
@[simp] theorem edit_acc_marks (s : State) (k : Nat) (v : AccRow) : ((Edit.acc k v).apply s).marks = s.marks := rfl
@[simp] theorem edit_acc_mem (s : State) (k : Nat) (v : AccRow) : ((Edit.acc k v).apply s).mem = s.mem := rfl
@[simp] theorem edit_dropBank_now (s : State) (k : Nat) : ((Edit.dropBank k).apply s).now = s.now := rfl
@[simp] theorem edit_dropBank_due (s : State) (k : Nat) : ((Edit.dropBank k).apply s).due = s.due := rfl
@[simp] theorem edit_dropBank_site (s : State) (k : Nat) : ((Edit.dropBank k).apply s).site = s.site := rfl
@[simp] theorem edit_dropBank_uid (s : State) (k : Nat) : ((Edit.dropBank k).apply s).uid = s.uid := rfl
@[simp] theorem edit_dropBank_free (s : State) (k : Nat) : ((Edit.dropBank k).apply s).free = s.free := rfl
@[simp] theorem edit_dropBank_mod (s : State) (k : Nat) : ((Edit.dropBank k).apply s).mod = s.mod := rfl
@[simp] theorem edit_dropBank_towers (s : State) (k : Nat) : ((Edit.dropBank k).apply s).towers = s.towers := rfl
@[simp] theorem edit_dropBank_stacks (s : State) (k : Nat) : ((Edit.dropBank k).apply s).hbm = s.hbm := rfl
@[simp] theorem edit_dropBank_parts (s : State) (k : Nat) : ((Edit.dropBank k).apply s).parts = s.parts := rfl
@[simp] theorem edit_dropBank_arrs (s : State) (k : Nat) : ((Edit.dropBank k).apply s).arrs = s.arrs := rfl
@[simp] theorem edit_dropBank_ctxs (s : State) (k : Nat) : ((Edit.dropBank k).apply s).ctxs = s.ctxs := rfl
@[simp] theorem edit_dropBank_cells (s : State) (k : Nat) : ((Edit.dropBank k).apply s).cells = s.cells := rfl
@[simp] theorem edit_dropBank_banks (s : State) (k : Nat) : ((Edit.dropBank k).apply s).banks = smDel s.banks k := rfl
@[simp] theorem edit_dropBank_acc (s : State) (k : Nat) : ((Edit.dropBank k).apply s).acc = s.acc := rfl
@[simp] theorem edit_dropBank_reqs (s : State) (k : Nat) : ((Edit.dropBank k).apply s).reqs = s.reqs := rfl
@[simp] theorem edit_dropBank_inputs (s : State) (k : Nat) : ((Edit.dropBank k).apply s).inputs = s.inputs := rfl
@[simp] theorem edit_dropBank_marks (s : State) (k : Nat) : ((Edit.dropBank k).apply s).marks = s.marks := rfl
@[simp] theorem edit_dropBank_mem (s : State) (k : Nat) : ((Edit.dropBank k).apply s).mem = s.mem := rfl
@[simp] theorem edit_dropAcc_now (s : State) (k : Nat) : ((Edit.dropAcc k).apply s).now = s.now := rfl
@[simp] theorem edit_dropAcc_due (s : State) (k : Nat) : ((Edit.dropAcc k).apply s).due = s.due := rfl
@[simp] theorem edit_dropAcc_site (s : State) (k : Nat) : ((Edit.dropAcc k).apply s).site = s.site := rfl
@[simp] theorem edit_dropAcc_uid (s : State) (k : Nat) : ((Edit.dropAcc k).apply s).uid = s.uid := rfl
@[simp] theorem edit_dropAcc_free (s : State) (k : Nat) : ((Edit.dropAcc k).apply s).free = s.free := rfl
@[simp] theorem edit_dropAcc_mod (s : State) (k : Nat) : ((Edit.dropAcc k).apply s).mod = s.mod := rfl
@[simp] theorem edit_dropAcc_towers (s : State) (k : Nat) : ((Edit.dropAcc k).apply s).towers = s.towers := rfl
@[simp] theorem edit_dropAcc_stacks (s : State) (k : Nat) : ((Edit.dropAcc k).apply s).hbm = s.hbm := rfl
@[simp] theorem edit_dropAcc_parts (s : State) (k : Nat) : ((Edit.dropAcc k).apply s).parts = s.parts := rfl
@[simp] theorem edit_dropAcc_arrs (s : State) (k : Nat) : ((Edit.dropAcc k).apply s).arrs = s.arrs := rfl
@[simp] theorem edit_dropAcc_ctxs (s : State) (k : Nat) : ((Edit.dropAcc k).apply s).ctxs = s.ctxs := rfl
@[simp] theorem edit_dropAcc_cells (s : State) (k : Nat) : ((Edit.dropAcc k).apply s).cells = s.cells := rfl
@[simp] theorem edit_dropAcc_banks (s : State) (k : Nat) : ((Edit.dropAcc k).apply s).banks = s.banks := rfl
@[simp] theorem edit_dropAcc_acc (s : State) (k : Nat) : ((Edit.dropAcc k).apply s).acc = smDel s.acc k := rfl
@[simp] theorem edit_dropAcc_reqs (s : State) (k : Nat) : ((Edit.dropAcc k).apply s).reqs = s.reqs := rfl
@[simp] theorem edit_dropAcc_inputs (s : State) (k : Nat) : ((Edit.dropAcc k).apply s).inputs = s.inputs := rfl
@[simp] theorem edit_dropAcc_marks (s : State) (k : Nat) : ((Edit.dropAcc k).apply s).marks = s.marks := rfl
@[simp] theorem edit_dropAcc_mem (s : State) (k : Nat) : ((Edit.dropAcc k).apply s).mem = s.mem := rfl
@[simp] theorem edit_reqs_now (s : State) (rs : List Req) : ((Edit.reqs rs).apply s).now = s.now := rfl
@[simp] theorem edit_reqs_due (s : State) (rs : List Req) : ((Edit.reqs rs).apply s).due = s.due := rfl
@[simp] theorem edit_reqs_site (s : State) (rs : List Req) : ((Edit.reqs rs).apply s).site = s.site := rfl
@[simp] theorem edit_reqs_uid (s : State) (rs : List Req) : ((Edit.reqs rs).apply s).uid = s.uid := rfl
@[simp] theorem edit_reqs_free (s : State) (rs : List Req) : ((Edit.reqs rs).apply s).free = s.free := rfl
@[simp] theorem edit_reqs_mod (s : State) (rs : List Req) : ((Edit.reqs rs).apply s).mod = s.mod := rfl
@[simp] theorem edit_reqs_towers (s : State) (rs : List Req) : ((Edit.reqs rs).apply s).towers = s.towers := rfl
@[simp] theorem edit_reqs_stacks (s : State) (rs : List Req) : ((Edit.reqs rs).apply s).hbm = s.hbm := rfl
@[simp] theorem edit_reqs_parts (s : State) (rs : List Req) : ((Edit.reqs rs).apply s).parts = s.parts := rfl
@[simp] theorem edit_reqs_arrs (s : State) (rs : List Req) : ((Edit.reqs rs).apply s).arrs = s.arrs := rfl
@[simp] theorem edit_reqs_ctxs (s : State) (rs : List Req) : ((Edit.reqs rs).apply s).ctxs = s.ctxs := rfl
@[simp] theorem edit_reqs_cells (s : State) (rs : List Req) : ((Edit.reqs rs).apply s).cells = s.cells := rfl
@[simp] theorem edit_reqs_banks (s : State) (rs : List Req) : ((Edit.reqs rs).apply s).banks = s.banks := rfl
@[simp] theorem edit_reqs_acc (s : State) (rs : List Req) : ((Edit.reqs rs).apply s).acc = s.acc := rfl
@[simp] theorem edit_reqs_reqs (s : State) (rs : List Req) : ((Edit.reqs rs).apply s).reqs = rs := rfl
@[simp] theorem edit_reqs_inputs (s : State) (rs : List Req) : ((Edit.reqs rs).apply s).inputs = s.inputs := rfl
@[simp] theorem edit_reqs_marks (s : State) (rs : List Req) : ((Edit.reqs rs).apply s).marks = s.marks := rfl
@[simp] theorem edit_reqs_mem (s : State) (rs : List Req) : ((Edit.reqs rs).apply s).mem = s.mem := rfl
@[simp] theorem edit_inputs_now (s : State) (is : List Input) : ((Edit.inputs is).apply s).now = s.now := rfl
@[simp] theorem edit_inputs_due (s : State) (is : List Input) : ((Edit.inputs is).apply s).due = s.due := rfl
@[simp] theorem edit_inputs_site (s : State) (is : List Input) : ((Edit.inputs is).apply s).site = s.site := rfl
@[simp] theorem edit_inputs_uid (s : State) (is : List Input) : ((Edit.inputs is).apply s).uid = s.uid := rfl
@[simp] theorem edit_inputs_free (s : State) (is : List Input) : ((Edit.inputs is).apply s).free = s.free := rfl
@[simp] theorem edit_inputs_mod (s : State) (is : List Input) : ((Edit.inputs is).apply s).mod = s.mod := rfl
@[simp] theorem edit_inputs_towers (s : State) (is : List Input) : ((Edit.inputs is).apply s).towers = s.towers := rfl
@[simp] theorem edit_inputs_stacks (s : State) (is : List Input) : ((Edit.inputs is).apply s).hbm = s.hbm := rfl
@[simp] theorem edit_inputs_parts (s : State) (is : List Input) : ((Edit.inputs is).apply s).parts = s.parts := rfl
@[simp] theorem edit_inputs_arrs (s : State) (is : List Input) : ((Edit.inputs is).apply s).arrs = s.arrs := rfl
@[simp] theorem edit_inputs_ctxs (s : State) (is : List Input) : ((Edit.inputs is).apply s).ctxs = s.ctxs := rfl
@[simp] theorem edit_inputs_cells (s : State) (is : List Input) : ((Edit.inputs is).apply s).cells = s.cells := rfl
@[simp] theorem edit_inputs_banks (s : State) (is : List Input) : ((Edit.inputs is).apply s).banks = s.banks := rfl
@[simp] theorem edit_inputs_acc (s : State) (is : List Input) : ((Edit.inputs is).apply s).acc = s.acc := rfl
@[simp] theorem edit_inputs_reqs (s : State) (is : List Input) : ((Edit.inputs is).apply s).reqs = s.reqs := rfl
@[simp] theorem edit_inputs_inputs (s : State) (is : List Input) : ((Edit.inputs is).apply s).inputs = is := rfl
@[simp] theorem edit_inputs_marks (s : State) (is : List Input) : ((Edit.inputs is).apply s).marks = s.marks := rfl
@[simp] theorem edit_inputs_mem (s : State) (is : List Input) : ((Edit.inputs is).apply s).mem = s.mem := rfl
@[simp] theorem edit_marks_now (s : State) (ms : List (Nat × Nat)) : ((Edit.marks ms).apply s).now = s.now := rfl
@[simp] theorem edit_marks_due (s : State) (ms : List (Nat × Nat)) : ((Edit.marks ms).apply s).due = s.due := rfl
@[simp] theorem edit_marks_site (s : State) (ms : List (Nat × Nat)) : ((Edit.marks ms).apply s).site = s.site := rfl
@[simp] theorem edit_marks_uid (s : State) (ms : List (Nat × Nat)) : ((Edit.marks ms).apply s).uid = s.uid := rfl
@[simp] theorem edit_marks_free (s : State) (ms : List (Nat × Nat)) : ((Edit.marks ms).apply s).free = s.free := rfl
@[simp] theorem edit_marks_mod (s : State) (ms : List (Nat × Nat)) : ((Edit.marks ms).apply s).mod = s.mod := rfl
@[simp] theorem edit_marks_towers (s : State) (ms : List (Nat × Nat)) : ((Edit.marks ms).apply s).towers = s.towers := rfl
@[simp] theorem edit_marks_stacks (s : State) (ms : List (Nat × Nat)) : ((Edit.marks ms).apply s).hbm = s.hbm := rfl
@[simp] theorem edit_marks_parts (s : State) (ms : List (Nat × Nat)) : ((Edit.marks ms).apply s).parts = s.parts := rfl
@[simp] theorem edit_marks_arrs (s : State) (ms : List (Nat × Nat)) : ((Edit.marks ms).apply s).arrs = s.arrs := rfl
@[simp] theorem edit_marks_ctxs (s : State) (ms : List (Nat × Nat)) : ((Edit.marks ms).apply s).ctxs = s.ctxs := rfl
@[simp] theorem edit_marks_cells (s : State) (ms : List (Nat × Nat)) : ((Edit.marks ms).apply s).cells = s.cells := rfl
@[simp] theorem edit_marks_banks (s : State) (ms : List (Nat × Nat)) : ((Edit.marks ms).apply s).banks = s.banks := rfl
@[simp] theorem edit_marks_acc (s : State) (ms : List (Nat × Nat)) : ((Edit.marks ms).apply s).acc = s.acc := rfl
@[simp] theorem edit_marks_reqs (s : State) (ms : List (Nat × Nat)) : ((Edit.marks ms).apply s).reqs = s.reqs := rfl
@[simp] theorem edit_marks_inputs (s : State) (ms : List (Nat × Nat)) : ((Edit.marks ms).apply s).inputs = s.inputs := rfl
@[simp] theorem edit_marks_marks (s : State) (ms : List (Nat × Nat)) : ((Edit.marks ms).apply s).marks = ms := rfl
@[simp] theorem edit_marks_mem (s : State) (ms : List (Nat × Nat)) : ((Edit.marks ms).apply s).mem = s.mem := rfl
@[simp] theorem edit_byte_now (s : State) (sp : Space) (addr : Nat) (b : Byte) : ((Edit.byte sp addr b).apply s).now = s.now := rfl
@[simp] theorem edit_byte_due (s : State) (sp : Space) (addr : Nat) (b : Byte) : ((Edit.byte sp addr b).apply s).due = s.due := rfl
@[simp] theorem edit_byte_site (s : State) (sp : Space) (addr : Nat) (b : Byte) : ((Edit.byte sp addr b).apply s).site = s.site := rfl
@[simp] theorem edit_byte_uid (s : State) (sp : Space) (addr : Nat) (b : Byte) : ((Edit.byte sp addr b).apply s).uid = s.uid := rfl
@[simp] theorem edit_byte_free (s : State) (sp : Space) (addr : Nat) (b : Byte) : ((Edit.byte sp addr b).apply s).free = s.free := rfl
@[simp] theorem edit_byte_mod (s : State) (sp : Space) (addr : Nat) (b : Byte) : ((Edit.byte sp addr b).apply s).mod = s.mod := rfl
@[simp] theorem edit_byte_towers (s : State) (sp : Space) (addr : Nat) (b : Byte) : ((Edit.byte sp addr b).apply s).towers = s.towers := rfl
@[simp] theorem edit_byte_stacks (s : State) (sp : Space) (addr : Nat) (b : Byte) : ((Edit.byte sp addr b).apply s).hbm = s.hbm := rfl
@[simp] theorem edit_byte_parts (s : State) (sp : Space) (addr : Nat) (b : Byte) : ((Edit.byte sp addr b).apply s).parts = s.parts := rfl
@[simp] theorem edit_byte_arrs (s : State) (sp : Space) (addr : Nat) (b : Byte) : ((Edit.byte sp addr b).apply s).arrs = s.arrs := rfl
@[simp] theorem edit_byte_ctxs (s : State) (sp : Space) (addr : Nat) (b : Byte) : ((Edit.byte sp addr b).apply s).ctxs = s.ctxs := rfl
@[simp] theorem edit_byte_cells (s : State) (sp : Space) (addr : Nat) (b : Byte) : ((Edit.byte sp addr b).apply s).cells = s.cells := rfl
@[simp] theorem edit_byte_banks (s : State) (sp : Space) (addr : Nat) (b : Byte) : ((Edit.byte sp addr b).apply s).banks = s.banks := rfl
@[simp] theorem edit_byte_acc (s : State) (sp : Space) (addr : Nat) (b : Byte) : ((Edit.byte sp addr b).apply s).acc = s.acc := rfl
@[simp] theorem edit_byte_reqs (s : State) (sp : Space) (addr : Nat) (b : Byte) : ((Edit.byte sp addr b).apply s).reqs = s.reqs := rfl
@[simp] theorem edit_byte_inputs (s : State) (sp : Space) (addr : Nat) (b : Byte) : ((Edit.byte sp addr b).apply s).inputs = s.inputs := rfl
@[simp] theorem edit_byte_marks (s : State) (sp : Space) (addr : Nat) (b : Byte) : ((Edit.byte sp addr b).apply s).marks = s.marks := rfl
@[simp] theorem edit_byte_mem (s : State) (sp : Space) (addr : Nat) (b : Byte) : ((Edit.byte sp addr b).apply s).mem = memSet s.mem (memKey sp addr) b := rfl
@[simp] theorem edit_clear_now (s : State) (sp : Space) (lo : Nat) (hi : Nat) : ((Edit.clear sp lo hi).apply s).now = s.now := rfl
@[simp] theorem edit_clear_due (s : State) (sp : Space) (lo : Nat) (hi : Nat) : ((Edit.clear sp lo hi).apply s).due = s.due := rfl
@[simp] theorem edit_clear_site (s : State) (sp : Space) (lo : Nat) (hi : Nat) : ((Edit.clear sp lo hi).apply s).site = s.site := rfl
@[simp] theorem edit_clear_uid (s : State) (sp : Space) (lo : Nat) (hi : Nat) : ((Edit.clear sp lo hi).apply s).uid = s.uid := rfl
@[simp] theorem edit_clear_free (s : State) (sp : Space) (lo : Nat) (hi : Nat) : ((Edit.clear sp lo hi).apply s).free = s.free := rfl
@[simp] theorem edit_clear_mod (s : State) (sp : Space) (lo : Nat) (hi : Nat) : ((Edit.clear sp lo hi).apply s).mod = s.mod := rfl
@[simp] theorem edit_clear_towers (s : State) (sp : Space) (lo : Nat) (hi : Nat) : ((Edit.clear sp lo hi).apply s).towers = s.towers := rfl
@[simp] theorem edit_clear_stacks (s : State) (sp : Space) (lo : Nat) (hi : Nat) : ((Edit.clear sp lo hi).apply s).hbm = s.hbm := rfl
@[simp] theorem edit_clear_parts (s : State) (sp : Space) (lo : Nat) (hi : Nat) : ((Edit.clear sp lo hi).apply s).parts = s.parts := rfl
@[simp] theorem edit_clear_arrs (s : State) (sp : Space) (lo : Nat) (hi : Nat) : ((Edit.clear sp lo hi).apply s).arrs = s.arrs := rfl
@[simp] theorem edit_clear_ctxs (s : State) (sp : Space) (lo : Nat) (hi : Nat) : ((Edit.clear sp lo hi).apply s).ctxs = s.ctxs := rfl
@[simp] theorem edit_clear_cells (s : State) (sp : Space) (lo : Nat) (hi : Nat) : ((Edit.clear sp lo hi).apply s).cells = s.cells := rfl
@[simp] theorem edit_clear_banks (s : State) (sp : Space) (lo : Nat) (hi : Nat) : ((Edit.clear sp lo hi).apply s).banks = s.banks := rfl
@[simp] theorem edit_clear_acc (s : State) (sp : Space) (lo : Nat) (hi : Nat) : ((Edit.clear sp lo hi).apply s).acc = s.acc := rfl
@[simp] theorem edit_clear_reqs (s : State) (sp : Space) (lo : Nat) (hi : Nat) : ((Edit.clear sp lo hi).apply s).reqs = s.reqs := rfl
@[simp] theorem edit_clear_inputs (s : State) (sp : Space) (lo : Nat) (hi : Nat) : ((Edit.clear sp lo hi).apply s).inputs = s.inputs := rfl
@[simp] theorem edit_clear_marks (s : State) (sp : Space) (lo : Nat) (hi : Nat) : ((Edit.clear sp lo hi).apply s).marks = s.marks := rfl
@[simp] theorem edit_clear_mem (s : State) (sp : Space) (lo : Nat) (hi : Nat) : ((Edit.clear sp lo hi).apply s).mem = memClear s.mem (memKey sp lo) (memKey sp lo + (hi - lo)) := rfl

end Sys2Proof.Machine
end

