-- ==== Sys2Proof/Laws/Plan.lean ====
section
/-! SUPPORT. What a plan can do: its run part by part, and that no plan leaves the canonical form of memory. -/

namespace Sys2Proof.Machine

@[simp] theorem run_skip (s : State) : Plan.skip.run s = s := rfl
@[simp] theorem run_edit (e : Edit) (s : State) : (Plan.edit e).run s = e.apply s := rfl
@[simp] theorem run_both (p q : Plan) (s : State) : (Plan.both p q).run s = q.run (p.run s) := rfl
@[simp] theorem run_get (f : State → Plan) (s : State) : (Plan.get f).run s = (f s).run s := rfl
@[simp] theorem run_all_nil (s : State) : (Plan.all []).run s = s := rfl
@[simp] theorem run_all_cons (p : Plan) (ps : List Plan) (s : State) : (Plan.all (p :: ps)).run s = (Plan.all ps).run (p.run s) := rfl
@[simp] theorem run_each_nil {α : Type} (f : α → Plan) (s : State) : (Plan.each [] f).run s = s := rfl
@[simp] theorem run_each_cons {α : Type} (x : α) (xs : List α) (f : α → Plan) (s : State) :
    (Plan.each (x :: xs) f).run s = (Plan.each xs f).run ((f x).run s) := rfl
@[simp] theorem run_when_true (p : Plan) (s : State) : (Plan.when true p).run s = p.run s := rfl
@[simp] theorem run_when_false (p : Plan) (s : State) : (Plan.when false p).run s = s := rfl
theorem run_when (c : Bool) (p : Plan) (s : State) : (Plan.when c p).run s = if c then p.run s else s := by cases c <;> rfl

/-- A plan always goes on. -/
@[simp] theorem plan_step (p : Plan) (s : State) : p.step s = .next (p.run s) := rfl

/-- What all of a plan's edits keep, the plan keeps. -/
theorem run_keeps (P : State → Prop) (h : ∀ (e : Edit) (s : State), P s → P (e.apply s)) (p : Plan) (s : State) (hs : P s) : P (p.run s) := by
  induction p generalizing s with
  | skip => exact hs
  | edit e => exact h e s hs
  | both p q hp hq => exact hq _ (hp _ hs)
  | get f ih => exact ih s s hs

/-- Every edit keeps memory in its canonical form. -/
theorem apply_wf (e : Edit) (s : State) (h : Memory.wf s.mem = true) : Memory.wf (e.apply s).mem = true := by
  cases e with
  | byte sp addr b => exact memSet_wf _ _ _ h
  | clear sp lo hi => exact memClear_wf _ _ _ h
  | lose powered => exact filter_wf _ _ h
  | _ => exact h

/-- Every plan keeps memory in its canonical form. -/
theorem run_wf (p : Plan) (s : State) (h : Memory.wf s.mem = true) : Memory.wf (p.run s).mem = true :=
  run_keeps (fun s => Memory.wf s.mem = true) apply_wf p s h

end Sys2Proof.Machine
end

