-- ==== Sys2Proof/Laws/Sequencer.lean ====
section
/-! SUPPORT. What a Q or E slot can do: the guard, the stall, the check, the effect; and edits of the acting context. -/

namespace Sys2Proof.Machine
open Sys2Proof.Safety

theorem smSet_smSet {α : Type} (m : SMap α) (k : Nat) (v w : α) : smSet (smSet m k v) k w = smSet m k w := by
  induction m with
  | nil => simp [smSet]
  | cons e rest ih =>
    obtain ⟨a, u⟩ := e
    simp only [smSet]
    split
    · rename_i h; simp [smSet, h, ih]
    · split <;> simp [smSet]

theorem modMe_run (f : Ctx → Ctx) (s : State) : (modMe f).run s = withMe s (f s.me) := rfl
@[simp] theorem withMe_me (s : State) (c : Ctx) : (withMe s c).me = c := by simp [withMe, State.me, State.ctx]
@[simp] theorem withMe_site (s : State) (c : Ctx) : (withMe s c).site = s.site := rfl
@[simp] theorem withMe_mem (s : State) (c : Ctx) : (withMe s c).mem = s.mem := rfl
@[simp] theorem withMe_withMe (s : State) (c d : Ctx) : withMe (withMe s c) d = withMe s d := by
  simp only [withMe, State.mk.injEq, true_and, and_true]; exact smSet_smSet _ _ _ _

/-- A slot whose guard is false does nothing (R53). -/
theorem atIssue_false (g : Guard) (st : State → Option StallCause) (ck : State → Option Chk) (e : Plan) (s : State) (h : s.guardQ g = false) :
    (atIssue g st ck e).run s = s := by
  simp [atIssue, h]

/-- A slot that stalls leaves its context Stalled and does nothing else. -/
theorem atIssue_stall (g : Guard) (st : State → Option StallCause) (ck : State → Option Chk) (e : Plan) (s : State) (c : StallCause)
    (h : s.guardQ g = true) (hp : s.site.picked = false) (hs : st s = some c) :
    (atIssue g st ck e).run s = withMe s { s.me with state := .stalled } := by
  simp [atIssue, h, hp, hs]; rfl

/-- A slot whose check fails faults before issue. -/
theorem atIssue_check (g : Guard) (st : State → Option StallCause) (ck : State → Option Chk) (e : Plan) (s : State) (f : Chk)
    (h : s.guardQ g = true) (hs : s.site.picked = true ∨ st s = none) (hc : ck s = some f) :
    (atIssue g st ck e).run s = (ctxFault f.code f.sub f.addr true).run s := by
  rcases hs with hs | hs <;> simp [atIssue, h, hs, hc]

/-- Otherwise the slot has its effect. -/
theorem atIssue_effect (g : Guard) (st : State → Option StallCause) (ck : State → Option Chk) (e : Plan) (s : State)
    (h : s.guardQ g = true) (hs : s.site.picked = true ∨ st s = none) (hc : ck s = none) : (atIssue g st ck e).run s = e.run s := by
  rcases hs with hs | hs <;> simp [atIssue, h, hs, hc]

theorem atIssueAlways_effect (g : Guard) (e : Plan) (s : State) (h : s.guardQ g = true) : (atIssueAlways g e).run s = e.run s :=
  atIssue_effect g _ _ e s h (.inr rfl) rfl

end Sys2Proof.Machine
end

