-- ==== Sys2Proof/Laws/Cells.lean ====
section
/-! SUPPORT. What a row of cells can do: a slot that never faults writes in its executing columns what its sources were before the row, and nothing else. -/

namespace Sys2Proof.Machine
open Sys2Proof.Safety

/-- Two states that differ only in late writes of the cells: every operand reads the same in both. -/
def SameButLate (s t : State) : Prop :=
  t = { s with banks := t.banks } ∧ ∀ k, ({ smGet {} t.banks k with lwb := [] } : Bank) = { smGet {} s.banks k with lwb := [] }

theorem SameButLate.refl (s : State) : SameButLate s s := ⟨rfl, fun _ => rfl⟩

theorem SameButLate.trans {s t u : State} (h : SameButLate s t) (h' : SameButLate t u) : SameButLate s u :=
  ⟨by rw [h'.1, h.1], fun k => (h'.2 k).trans (h.2 k)⟩

theorem bank_split (b c : Bank) (h : ({ b with lwb := [] } : Bank) = { c with lwb := [] }) : b = { c with lwb := b.lwb } := by
  cases b; cases c; simp_all

/-- A late write changes nothing an operand reads. -/
theorem addLate_lwb (b : Bank) (e : LwbEntry) : ({ b.addLate e with lwb := [] } : Bank) = { b with lwb := [] } := rfl

theorem SameButLate.bank {s t : State} (h : SameButLate s t) (c k : Nat) : ∃ l, t.bank c k = { s.bank c k with lwb := l } :=
  ⟨_, bank_split _ _ (h.2 (bankKey c k))⟩

theorem SameButLate.site {s t : State} (h : SameButLate s t) : t.site = s.site := by rw [h.1]
theorem SameButLate.ctxs {s t : State} (h : SameButLate s t) : t.ctxs = s.ctxs := by rw [h.1]
theorem SameButLate.me {s t : State} (h : SameButLate s t) : t.me = s.me := by simp only [State.me, State.ctx, h.site, h.ctxs]

theorem SameButLate.src {s t : State} (h : SameButLate s t) (f : RdFmt) (c : Nat) (imm : BitVec 32) (o : Src) : t.src f c imm o = s.src f c imm o := by
  simp only [State.src, h.site, h.me]
  cases o <;> simp only
  · obtain ⟨l, e⟩ := h.bank (cellOf s.site.arr s.site.row c) s.site.ctx; rw [e]; rfl
  · obtain ⟨l, e⟩ := h.bank (cellOf s.site.arr s.site.row c) s.site.ctx; rw [e]; rfl
  · obtain ⟨l, e⟩ := h.bank (cellOf s.site.arr s.site.row c) s.site.ctx; rw [e]; rfl
  · obtain ⟨l, e⟩ := h.bank (cellOf s.site.arr s.site.row c) s.site.ctx; rw [e]
  · obtain ⟨l, e⟩ := h.bank (cellOf s.site.arr s.site.row c) s.site.ctx; rw [e]
  · obtain ⟨l, e⟩ := h.bank (cellOf s.site.arr (s.site.row - 1) c) s.site.ctx; rw [e]; rfl
  · obtain ⟨l, e⟩ := h.bank (cellOf s.site.arr s.site.row (c + 1)) s.site.ctx; rw [e]; rfl
  · obtain ⟨l, e⟩ := h.bank (cellOf s.site.arr (s.site.row + 1) c) s.site.ctx; rw [e]; rfl
  · obtain ⟨l, e⟩ := h.bank (cellOf s.site.arr s.site.row (c - 1)) s.site.ctx; rw [e]; rfl

theorem SameButLate.here {s t : State} (h : SameButLate s t) (c : Nat) : ∃ l, t.here c = { s.here c with lwb := l } := by
  simp only [State.here, h.site]; exact h.bank _ _

theorem SameButLate.dest {s t : State} (h : SameButLate s t) (c : Nat) (d : Dst) : (t.here c).dest d = (s.here c).dest d := by
  obtain ⟨l, e⟩ := h.here c; rw [e]; rfl

theorem SameButLate.sreg {s t : State} (h : SameButLate s t) (c : Nat) (i : BitVec 4) : (t.here c).sreg i = (s.here c).sreg i := by
  obtain ⟨l, e⟩ := h.here c; rw [e]; rfl

theorem SameButLate.preds {s t : State} (h : SameButLate s t) (c : Nat) : (t.here c).p = (s.here c).p := by
  obtain ⟨l, e⟩ := h.here c; rw [e]

theorem SameButLate.ssrc {s t : State} (h : SameButLate s t) (c : Nat) (imm : BitVec 32) (o : SSrc) : t.ssrc c imm o = s.ssrc c imm o := by
  cases o
  · exact h.sreg c _
  · rfl
  · rfl

/-- What `putCell` leaves. -/
theorem putCell_run (col slot lat : Nat) (d : RDest) (l : Latch) (v : VReg) (s : State) :
    (putCell col slot lat d l v).run s
      = { s with banks := smSet s.banks (hereKey s col) ((s.here col).addLate { due := s.site.n + lat, n := s.site.n, slot, dest := d, latch := l, val := v }) } := rfl

theorem putCell_same (col slot lat : Nat) (d : RDest) (l : Latch) (v : VReg) (s : State) : SameButLate s ((putCell col slot lat d l v).run s) := by
  refine ⟨rfl, fun k => ?_⟩
  rw [putCell_run]
  simp only [smGet_smSet]
  split
  · rename_i h; rw [addLate_lwb, h]; rfl
  · rfl

theorem hereKey_inj (s : State) (a b : Nat) (h : hereKey s a = hereKey s b) : a = b := by
  simp only [hereKey, bankKey, cellOf] at h; omega

/-- Late writes put in distinct columns one after the other: each column has its own, and nothing else is changed. -/
theorem each_putCell (cols : List Nat) (hn : cols.Nodup) (slot lat : Nat) (l : Latch) (f : Nat → Plan) (s : State) (d : Nat → RDest) (v : Nat → VReg)
    (hf : ∀ c ∈ cols, ∀ t, SameButLate s t → (f c).run t = (putCell c slot lat (d c) l (v c)).run t) :
    RowWrote s ((Plan.each cols f).run s) cols slot lat d l v ∧ SameButLate s ((Plan.each cols f).run s) := by
  have gen : ∀ (cols : List Nat), cols.Nodup → ∀ t : State, SameButLate s t → (∀ c ∈ cols, smGet {} t.banks (hereKey s c) = s.here c) →
      (∀ c ∈ cols, ∀ t, SameButLate s t → (f c).run t = (putCell c slot lat (d c) l (v c)).run t) →
      let r := (Plan.each cols f).run t
      SameButLate s r ∧
      (∀ c ∈ cols, smGet {} r.banks (hereKey s c) = (s.here c).addLate { due := s.site.n + lat, n := s.site.n, slot, dest := d c, latch := l, val := v c }) ∧
      ∀ k, (∀ c ∈ cols, k ≠ hereKey s c) → smGet {} r.banks k = smGet {} t.banks k := by
    intro cols
    induction cols with
    | nil => intro _ t ht _ _; exact ⟨ht, by simp, fun _ _ => rfl⟩
    | cons c rest ih =>
      intro hn t ht hh hf
      have hc : (f c).run t = (putCell c slot lat (d c) l (v c)).run t := hf c (List.mem_cons_self ..) t ht
      have hs : SameButLate s ((putCell c slot lat (d c) l (v c)).run t) := ht.trans (putCell_same ..)
      have hk : hereKey t c = hereKey s c := by simp only [hereKey, ht.site]
      have hb : t.here c = s.here c := by
        have h0 := hh c (List.mem_cons_self ..)
        rw [← hk] at h0; exact h0
      have hnot : ∀ c' ∈ rest, c' ≠ c := fun c' h' e => (List.nodup_cons.1 hn).1 (e ▸ h')
      have := ih (List.nodup_cons.1 hn).2 _ hs (fun c' h' => by
        rw [putCell_run]; simp only
        rw [smGet_smSet_other _ _ _ _ _ (by rw [hk]; exact fun e => hnot c' h' (hereKey_inj s _ _ e))]
        exact hh c' (List.mem_cons_of_mem _ h')) (fun c' h' => hf c' (List.mem_cons_of_mem _ h'))
      simp only [run_each_cons, hc]
      obtain ⟨h1, h2, h3⟩ := this
      refine ⟨h1, fun c' h' => ?_, fun k hk' => ?_⟩
      · rcases List.mem_cons.1 h' with rfl | h'
        · rw [h3 _ (fun c'' h'' e => hnot c'' h'' (hereKey_inj s _ _ e).symm)]
          rw [putCell_run]; simp only
          rw [hk, smGet_smSet_same, hb, ht.site]
        · exact h2 c' h'
      · rw [h3 k fun c' h' => hk' c' (List.mem_cons_of_mem _ h'), putCell_run]; simp only
        rw [smGet_smSet_other _ _ _ _ _ (by rw [hk]; exact hk' c (List.mem_cons_self ..))]
  obtain ⟨h1, h2, h3⟩ := gen cols hn s (.refl s) (fun _ _ => rfl) hf
  exact ⟨⟨h1.1, h2, h3⟩, h1⟩

theorem selCols_nodup (s : State) : s.selCols.Nodup := by
  simp only [State.selCols]; split
  · exact List.Nodup.sublist List.filter_sublist List.nodup_range
  · exact List.nodup_nil

theorem execCols_nodup (s : State) (g : Guard) : (s.execCols g).Nodup := List.Nodup.sublist List.filter_sublist (selCols_nodup s)

theorem firstFail_none (cols : List Nat) : firstFail (noRowCheck s) cols = none := by
  induction cols with
  | nil => rfl
  | cons c rest ih => exact ih

theorem inRowAlways_run (g : Guard) (f : Nat → Plan) (s : State) : (inRowAlways g f).run s = (Plan.each (s.execCols g) f).run s := by
  simp [inRowAlways, inRow, firstFail_none]

/-- An A-slot vector instruction whose value reads only operands: what it writes. -/
theorem inRow_putA (g : Guard) (lat : Nat) (d : Dst) (val : State → Nat → VReg) (s : State)
    (hv : ∀ t, SameButLate s t → ∀ c, val t c = val s c) :
    VecWrites ((inRowAlways g fun c => .get fun s => putA c lat d (val s c)).step s) s g lat d (val s) := by
  refine ⟨_, rfl, ?_⟩
  rw [inRowAlways_run]
  refine (each_putCell _ (execCols_nodup s g) 1 lat .la _ s _ _ fun c _ t ht => ?_).1
  simp only [run_get, putA, hv t ht, ht.dest]

/-- A scalar instruction of the A slot: what it writes. -/
theorem inRow_putS (g : Guard) (lat : Nat) (d : BitVec 4) (val : State → Nat → Lane) (s : State)
    (hv : ∀ t, SameButLate s t → ∀ c, val t c = val s c) :
    ScaWrites ((inRowAlways g fun c => .get fun s => putS c lat d (val s c)).step s) s g lat d (val s) := by
  refine ⟨_, rfl, ?_⟩
  rw [inRowAlways_run]
  refine (each_putCell _ (execCols_nodup s g) 1 lat .no _ s _ _ fun c _ t ht => ?_).1
  simp only [run_get, putS, hv t ht]

end Sys2Proof.Machine
end

