-- ==== Sys2Proof/Laws/Elements.lean ====
section
/-! SUPPORT. An element of a register made of elements is that element (R2, R101). -/

namespace Sys2Proof.Machine

theorem packNat_lt (w : Nat) (ds : List Nat) : packNat w ds < 2 ^ (w * ds.length) := by
  induction ds with
  | nil => simp [packNat]
  | cons d rest ih =>
    simp only [packNat, List.length_cons, Nat.mul_add, Nat.mul_one]
    have hd : d % 2 ^ w < 2 ^ w := Nat.mod_lt _ (Nat.two_pow_pos w)
    rw [Nat.add_comm (w * rest.length) w, Nat.pow_add]
    calc d % 2 ^ w + 2 ^ w * packNat w rest < 2 ^ w + 2 ^ w * packNat w rest := by omega
      _ = 2 ^ w * (packNat w rest + 1) := by rw [Nat.mul_add, Nat.mul_one, Nat.add_comm]
      _ ≤ 2 ^ w * 2 ^ (w * rest.length) := Nat.mul_le_mul_left _ ih

theorem packNat_digit (w : Nat) (ds : List Nat) (i : Nat) : packNat w ds / 2 ^ (w * i) % 2 ^ w = ds.getD i 0 % 2 ^ w := by
  induction ds generalizing i with
  | nil => simp [packNat]
  | cons d rest ih =>
    cases i with
    | zero => simp [packNat, Nat.add_mul_mod_self_left]
    | succ i =>
      simp only [packNat, Nat.mul_add, Nat.mul_one]
      rw [Nat.add_comm (w * i) w, Nat.pow_add, ← Nat.div_div_eq_div_mul, Nat.add_mul_div_left _ _ (Nat.two_pow_pos w),
        Nat.div_eq_of_lt (Nat.mod_lt _ (Nat.two_pow_pos w)), Nat.zero_add, ih i]
      simp

/-- Element `i` of a register made of elements. -/
theorem elem_mkElems (w : Nat) (f : Nat → Nat) (i : Nat) (hi : i < 256 / w) : elem w i (mkElems w f) = f i % 2 ^ w := by
  have hlen : ((List.range (256 / w)).map f).length = 256 / w := by simp
  have hlt : packNat w ((List.range (256 / w)).map f) < 2 ^ 256 := by
    refine Nat.lt_of_lt_of_le (packNat_lt w _) (Nat.pow_le_pow_right (by decide) ?_)
    rw [hlen]; exact Nat.mul_div_le 256 w
  simp only [elem, mkElems, packElems, BitVec.toNat_ofNat, Nat.mod_eq_of_lt hlt, packNat_digit]
  simp [List.getD, hi]

/-- An element is smaller than 2^w. -/
theorem elem_lt (w i : Nat) (r : VReg) : elem w i r < 2 ^ w := Nat.mod_lt _ (Nat.two_pow_pos w)

theorem wrapInt_lt (w : Nat) (x : Int) : wrapInt w x < 2 ^ w := by
  have h : (0 : Int) < ((2 ^ w : Nat) : Int) := by exact_mod_cast Nat.two_pow_pos w
  have h1 := Int.emod_nonneg x (by omega : ((2 ^ w : Nat) : Int) ≠ 0)
  have h2 := Int.emod_lt_of_pos x h
  simp only [wrapInt]; omega

/-- Element `i` of an element-wise integer result (R103). -/
theorem elem_binElems (t : BitVec 3) (f : Int → Int → Int) (a b : VReg) (i : Nat) (hi : i < 256 / ityWidth t) :
    elem (ityWidth t) i (binElems t f a b) = wrapInt (ityWidth t) (f (ityVal t (elem (ityWidth t) i a)) (ityVal t (elem (ityWidth t) i b))) := by
  simp only [binElems]; rw [elem_mkElems _ _ _ hi, Nat.mod_eq_of_lt (wrapInt_lt _ _)]

theorem elem_unElems (t : BitVec 3) (f : Int → Int) (a : VReg) (i : Nat) (hi : i < 256 / ityWidth t) :
    elem (ityWidth t) i (unElems t f a) = wrapInt (ityWidth t) (f (ityVal t (elem (ityWidth t) i a))) := by
  simp only [unElems]; rw [elem_mkElems _ _ _ hi, Nat.mod_eq_of_lt (wrapInt_lt _ _)]

end Sys2Proof.Machine
end

