-- ==== Sys2Proof/Laws/Engine.lean ====
section
/-! SUPPORT. What the E slot's building blocks do: record and object checks, acts put on the agenda, queue words and the walker's own state edited. -/

namespace Sys2Proof.Machine
open Sys2Proof.Safety

theorem modMod_run (f : Module → Module) (s : State) : (modMod f).run s = withMod s (f s.mod) := rfl
theorem modTower_run (k : Nat) (f : Tower → Tower) (s : State) : (modTower k f).run s = withTower s k (f (s.tower k)) := rfl
theorem modStack_run (k : Nat) (f : Stack → Stack) (s : State) : (modStack k f).run s = withStack s k (f (s.stack k)) := rfl
theorem modPart_run (k : Nat) (f : Part → Part) (s : State) : (modPart k f).run s = withPart s k (f (s.part k)) := rfl
theorem modArr_run (k : Nat) (f : Arr → Arr) (s : State) : (modArr k f).run s = withArr s k (f (s.arr k)) := rfl
@[simp] theorem withTower_tower (s : State) (k : Nat) (v : Tower) : (withTower s k v).tower k = v := by simp [withTower, State.tower]
@[simp] theorem withStack_stack (s : State) (k : Nat) (v : Stack) : (withStack s k v).stack k = v := by simp [withStack, State.stack]
@[simp] theorem withPart_part (s : State) (k : Nat) (v : Part) : (withPart s k v).part k = v := by simp [withPart, State.part]
@[simp] theorem withArr_arr (s : State) (k : Nat) (v : Arr) : (withArr s k v).arr k = v := by simp [withArr, State.arr]
/-- A command's answer. -/
theorem answer_run (status detail : Nat) (body : List Byte) (s : State) : (answer s.site.frame status detail body).run s = answered s status detail body := rfl
/-- An act put in is among those due. -/
theorem mem_insertDue (d e : Due) (ds : List Due) : d ∈ insertDue e ds ↔ d = e ∨ d ∈ ds := by
  induction ds with
  | nil => simp [insertDue]
  | cons x xs ih =>
    simp only [insertDue]
    split
    · simp only [List.mem_cons, ih]; constructor <;> (rintro (h | h | h) <;> simp [h])
    · simp
theorem atTick_run (tick rank : Nat) (dom : Option Nat) (x : Site) (act : Act) (s : State) :
    (atTick tick rank dom x act).run s = { s with due := insertDue { tick := max tick s.now, rank, dom, site := x, act } s.due } := rfl

theorem objCheck_ok (off : Nat) (s : State) (h : off % 32 = 0) (h1 : s.inMyWin off 32 = true) : objCheck off s = none := by
  simp only [objCheck]; rw [if_neg (by simpa using h), h1]; rfl
theorem objCheck_misaligned (off : Nat) (s : State) (h : off % 32 ≠ 0) : objCheck off s = some { code := 0x11, sub := 0, addr := off } := by
  simp only [objCheck]; rw [if_pos h]
theorem objCheck_outside (off : Nat) (s : State) (h : off % 32 = 0) (h1 : s.inMyWin off 32 = false) :
    objCheck off s = some { code := 0x14, sub := 0, addr := off } := by
  simp only [objCheck]; rw [if_neg (by simpa using h), h1]; rfl
theorem recCheck_ok (off : Nat) (s : State) (h : off % 64 = 0) (h1 : s.inMyWin off 64 = true) : recCheck off s = none := by
  simp only [recCheck]; rw [if_neg (by simpa using h), h1]; rfl
theorem recCheck_misaligned (off : Nat) (s : State) (h : off % 64 ≠ 0) : recCheck off s = some { code := 0x11, sub := 0, addr := off } := by
  simp only [recCheck]; rw [if_pos h]
theorem recCheck_outside (off : Nat) (s : State) (h : off % 64 = 0) (h1 : s.inMyWin off 64 = false) :
    recCheck off s = some { code := 0x14, sub := 0, addr := off } := by
  simp only [recCheck]; rw [if_neg (by simpa using h), h1]; rfl

theorem after_run (k rank : Nat) (act : Act) (s : State) : (after k rank act).run s = laterAct s k rank s.site act := by
  simp [after, atTick, laterAct, Edit.apply]
theorem afterAt_run (k rank : Nat) (x : Site) (act : Act) (s : State) : (afterAt k rank x act).run s = laterAct s k rank x act := by
  simp [afterAt, atTick, laterAct, Edit.apply]
theorem modMyQ_run (k : Nat) (f : QW → QW) (s : State) : (modMyQ k f).run s = withMe s (qwMoved s.me k f) := rfl
theorem putXE_run (lat : Nat) (xd : BitVec 5) (v : XWord) (s : State) : (putXE lat xd v).run s = seqWrite s 4 lat (.x xd) v := rfl

theorem modWalker_run (f : Walker → Walker) (s : State) : (modWalker f).run s = withWalker s (f s.walker) := rfl
@[simp] theorem withWalker_walker (s : State) (w : Walker) : (withWalker s w).walker = w := by
  simp [withWalker, State.walker, State.arr]
@[simp] theorem withWalker_site (s : State) (w : Walker) : (withWalker s w).site = s.site := rfl
@[simp] theorem withWalker_mem (s : State) (w : Walker) : (withWalker s w).mem = s.mem := rfl
@[simp] theorem withWalker_ctxs (s : State) (w : Walker) : (withWalker s w).ctxs = s.ctxs := rfl
@[simp] theorem withWalker_me (s : State) (w : Walker) : (withWalker s w).me = s.me := rfl
@[simp] theorem withWalker_withWalker (s : State) (w v : Walker) : withWalker (withWalker s w) v = withWalker s v := by
  simp only [withWalker, State.arr, smGet_smSet_same]
  simp only [State.mk.injEq, true_and, and_true]; exact smSet_smSet _ _ _ _

theorem walkAfter_run (k : Nat) (b : Bool) (s : State) : (walkAfter k b).run s = walkerActs s k b := by
  simp only [walkAfter, run_get, afterAt_run]; rfl

/-- A walker instruction that is not its program's last moves the PC on (R270). -/
theorem walkNext_run (s : State) (h : s.walker.pc + 1 < s.walker.plen) : walkNext.run s = walkerDone s s.walker := by
  simp only [walkNext, run_get]
  rw [if_pos h]
  simp only [run_both, modWalker_run, walkAfter_run]; rfl

/-- An edit of the walker that keeps its PC and program length, and then the next instruction. -/
theorem walkOne_run (f : Walker → Walker) (s : State) (h : (f s.walker).pc + 1 < (f s.walker).plen) :
    (walkOne (modWalker f)).run s = walkerDone s (f s.walker) := by
  simp only [walkOne, run_both, modWalker_run]
  rw [walkNext_run _ (by simpa using h)]
  simp [walkerDone]

/-- What every walker instruction that does not branch ends with, wherever it stands in its program. -/
theorem walkNext_goes (s : State) : walkNext.run s = walkerGoes s s.walker := by
  unfold walkerGoes
  split
  · exact walkNext_run s ‹_›
  · simp only [walkNext, run_get]
    rw [if_neg ‹_›]
    simp only [run_both, modWalker_run]
@[simp] theorem walkerGoes_withWalker (s : State) (w v : Walker) : walkerGoes (withWalker s w) v = walkerGoes s v := by
  unfold walkerGoes walkerDone; simp

theorem setReg_pc (w : Walker) (d : BitVec 4) (v : Lane) : (w.setReg d v).pc = w.pc := by unfold Walker.setReg; split <;> rfl
theorem setReg_plen (w : Walker) (d : BitVec 4) (v : Lane) : (w.setReg d v).plen = w.plen := by unfold Walker.setReg; split <;> rfl

theorem putG_next_run (d : BitVec 4) (v : Lane) (s : State) (h : s.walker.pc + 1 < s.walker.plen) :
    (walkOne (putG d v)).run s = walkerDone s (s.walker.setReg d v) :=
  walkOne_run _ s (by simpa [setReg_pc, setReg_plen] using h)

end Sys2Proof.Machine
end

