-- ==== Sys2Proof/Laws/Exec.lean ====
section
/-! SUPPORT. Every meaning is a plan: what a plan keeps, exec and the acts of a step keep. -/

namespace Sys2Proof.Machine

/-- Every instruction goes on, by a plan that does not depend on the state. -/
theorem exec_plan (i : Instr) : ∃ p : Plan, ∀ s, exec i s = .next (p.run s) := by
  cases i <;> exact ⟨_, fun _ => rfl⟩

/-- An act that goes on does so by a plan. -/
theorem runAct_plan (a : Act) (s t : State) (h : runAct a s = .next t) : ∃ p : Plan, t = p.run s := by
  have ex : ∀ i, exec i s = .next t → ∃ p : Plan, t = p.run s := fun i hi => by
    obtain ⟨p, hp⟩ := exec_plan i
    exact ⟨p, by simpa [hp] using hi.symm⟩
  cases a with
  | instr i => exact ex i h
  | slot sl w =>
    simp only [runAct] at h
    split at h
    · exact ex _ h
    · exact ⟨.skip, by simpa using h.symm⟩
  | walk arr =>
    simp only [runAct] at h
    split at h
    · split at h
      · exact ex _ h
      · cases h
    · exact ⟨.skip, by simpa using h.symm⟩
  | frame f => exact ⟨_, by simpa [runAct] using h.symm⟩
  | micro m => exact ⟨_, by simpa [runAct] using h.symm⟩

/-- A step that goes on takes its act off the agenda or its input off the inputs, or moves the clock on, and runs a plan there. -/
theorem step_plan (s t : State) (h : step s = .next t) :
    ∃ (u : State) (p : Plan), t = p.run u ∧ ((∃ d rest, u = s.take d rest) ∨ (∃ i is, u = s.takeInput i is) ∨ u = { s with now := s.now + 1 }) := by
  unfold step at h
  split at h
  · split at h
    · obtain ⟨p, hp⟩ := runAct_plan _ _ _ h
      exact ⟨_, p, hp, .inr (.inl ⟨_, _, rfl⟩)⟩
    · obtain ⟨p, hp⟩ := runAct_plan _ _ _ h
      exact ⟨_, p, hp, .inl ⟨_, _, rfl⟩⟩
  · obtain ⟨p, hp⟩ := runAct_plan _ _ _ h
    exact ⟨_, p, hp, .inr (.inl ⟨_, _, rfl⟩)⟩
  · obtain ⟨p, hp⟩ := runAct_plan _ _ _ h
    exact ⟨_, p, hp, .inl ⟨_, _, rfl⟩⟩
  · exact ⟨_, .skip, by simpa using h.symm, .inr (.inr rfl)⟩

end Sys2Proof.Machine
end

