-- ==== Sys2Proof/Laws/Faults.lean ====
section
/-! SUPPORT. What taking a fault can change: partitions, contexts, the agenda and the free values, and nothing else. -/

namespace Sys2Proof.Machine
open Sys2Proof.Safety

/-- Every edit a plan can make is one of a kind. -/
def Plan.edits (ok : Edit → Prop) : Plan → Prop
  | .skip => True
  | .edit e => ok e
  | .both p q => p.edits ok ∧ q.edits ok
  | .get f => ∀ s, (f s).edits ok

/-- What every edit of a kind keeps, a plan of such edits keeps. -/
theorem edits_keep (ok : Edit → Prop) (P : State → Prop) (h : ∀ e, ok e → ∀ s, P s → P (e.apply s)) (p : Plan) (hp : p.edits ok) (s : State)
    (hs : P s) : P (p.run s) := by
  induction p generalizing s with
  | skip => exact hs
  | edit e => exact h e hp s hs
  | both p q ih1 ih2 => exact ih2 hp.2 _ (ih1 hp.1 _ hs)
  | get f ih => exact ih s (hp s) s hs

theorem edits_all (ok : Edit → Prop) (ps : List Plan) (h : ∀ p ∈ ps, p.edits ok) : (Plan.all ps).edits ok := by
  induction ps with
  | nil => trivial
  | cons p ps ih => exact ⟨h p (.head _), ih fun q hq => h q (.tail _ hq)⟩
theorem edits_each {α : Type} (ok : Edit → Prop) (xs : List α) (f : α → Plan) (h : ∀ x, (f x).edits ok) : (Plan.each xs f).edits ok :=
  edits_all ok _ (by intro p hp; obtain ⟨x, -, rfl⟩ := List.mem_map.mp hp; exact h x)
theorem edits_when (ok : Edit → Prop) (c : Bool) (p : Plan) (h : p.edits ok) : (Plan.when c p).edits ok := by
  cases c with
  | false => trivial
  | true => exact h

/-- The edits that taking a fault makes. -/
def FaultEdit : Edit → Prop
  | .part _ _ | .ctx _ _ | .due _ | .free _ => True
  | _ => False

theorem recordFault_edits (p : Nat) (f : FaultRec) : (recordFault p f).edits FaultEdit := by
  intro s
  dsimp only
  split
  · exact fun _ => trivial
  split
  · split
    · exact ⟨fun _ => trivial, fun _ => trivial⟩
    · exact fun _ => trivial
  · refine ⟨fun _ => trivial, edits_when _ _ _ fun _ => fun _ => trivial, edits_when _ _ _ fun s => ⟨fun _ => trivial, edits_each _ _ _ fun x => ?_, trivial, trivial⟩, edits_when _ _ _ fun _ => trivial, trivial⟩
    exact fun _ => trivial

theorem raiseFaultIn_edits (p tag a k : Nat) (mark : Bool) (f : FaultRec) : (raiseFaultIn p tag a k mark f).edits FaultEdit :=
  fun _ => ⟨trivial, edits_when _ _ _ fun _ => trivial, recordFault_edits _ _, trivial⟩

/-- What a fault's edits leave as it is. -/
theorem faultEdits_frame (p : Plan) (h : p.edits FaultEdit) (s : State) :
    let t := p.run s
    t = { s with parts := t.parts, ctxs := t.ctxs, due := t.due, free := t.free } := by
  refine edits_keep FaultEdit (fun t => t = { s with parts := t.parts, ctxs := t.ctxs, due := t.due, free := t.free }) ?_ _ h s rfl
  intro e he t ht
  cases e <;> first | exact he.elim | (rw [ht]; rfl)

/-- Taking a fault leaves memory, registers of cells, arrays, towers, stacks, outstanding requests and the clock as they are (R356). -/
theorem raiseFaultIn_frame (p tag a k : Nat) (mark : Bool) (f : FaultRec) (s : State) :
    let t := (raiseFaultIn p tag a k mark f).run s
    t = { s with parts := t.parts, ctxs := t.ctxs, due := t.due, free := t.free } := faultEdits_frame _ (raiseFaultIn_edits ..) s

theorem ctxFault_frame (code sub addr : Nat) (before : Bool) (s : State) :
    let t := (ctxFault code sub addr before).run s
    t = { s with parts := t.parts, ctxs := t.ctxs, due := t.due, free := t.free } := raiseFaultIn_frame ..

theorem taskFault_edits (a k tid : Nat) (f : FaultRec) : (taskFault a k tid f).edits FaultEdit :=
  fun _ => edits_each _ _ _ fun _ _ => raiseFaultIn_edits _ _ _ _ _ _

theorem engineFault_frame (kind unit tid code sub addr : Nat) (s : State) :
    let t := (engineFault kind unit tid code sub addr).run s
    t = { s with parts := t.parts, ctxs := t.ctxs, due := t.due, free := t.free } :=
  faultEdits_frame (engineFault kind unit tid code sub addr) (fun _ => taskFault_edits _ _ _ _) s

/-- The walker of an array after its fault: stopped where it stands (R263, R280). -/
theorem walkFault_walker (sub addr : Nat) (s : State) :
    ((walkFault sub addr).run s).walker = s.walker.halted := by
  have h := engineFault_frame 7 s.site.arr s.me.tid 0x60 sub addr s
  simp only [walkFault, run_get, run_both, haltWalker, modWalkerOf, modArr]
  rw [h]
  simp [State.walker, State.arr, Edit.apply]

end Sys2Proof.Machine
end

