-- ==== Sys2Proof/Laws/PerInstr.lean ====
section
/-! SUPPORT. The family `Encoding` (LAWS.json): for every instruction, the fields the encoder gives it name that instruction again in the
decoder of its slot (R64-R68, R267, R268). One lemma per constructor of `Instr`; first the lemmas about fields of a concatenation. -/

namespace Sys2Proof
namespace Laws
theorem guard_bits (g : Guard) : Guard.ofBits g.gn g.reg = g := by
  cases g with | mk n r => cases n <;> rfl
theorem ex_setWidth {n m : Nat} (x : BitVec n) (h : n ≤ m) : (x.setWidth m).extractLsb' 0 n = x := by
  apply BitVec.eq_of_toNat_eq; simp [BitVec.extractLsb'_toNat]; rw [Nat.mod_eq_of_lt (a := x.toNat) (Nat.lt_of_lt_of_le x.isLt (Nat.pow_le_pow_right (by decide) h))]; exact Nat.mod_eq_of_lt x.isLt
theorem ex_lo {n m : Nat} (a : BitVec m) (b : BitVec n) : (a ++ b).extractLsb' 0 n = b := by
  ext i hi; simp [BitVec.getLsbD_append, hi]
theorem ex_hi {n m : Nat} (a : BitVec m) (b : BitVec n) : (a ++ b).extractLsb' n m = a := by
  ext i hi; simp [BitVec.getLsbD_append, hi]
theorem src_back (s : Src) : Src.ofBits s.bits = some s := by
  cases s with
  | v i => revert i; decide
  | based k n => revert k n; decide
  | o i => revert i; decide
  | small i => revert i; decide
  | _ => rfl
theorem dst_back (d : Dst) : Dst.ofBits d.bits = some d := by
  cases d with
  | v i => revert i; decide
  | based k n => revert k n; decide
  | o i => revert i; decide
  | none => rfl
theorem ssrc_back (s : SSrc) : SSrc.ofBits s.bits = some s := by
  cases s with
  | s i => revert i; decide
  | small i => revert i; decide
  | long => rfl
theorem bit_back (b : Bool) : (bit b).getLsbD 0 = b := by cases b <;> rfl
theorem ex_all {n : Nat} (x : BitVec n) : x.extractLsb' 0 n = x := by
  ext i hi; simp
/-- A field inside the upper part of a concatenation. -/
theorem ex_up {n m : Nat} (a : BitVec m) (b : BitVec n) (s l : Nat) (h : n ≤ s) : (a ++ b).extractLsb' s l = a.extractLsb' (s - n) l := by
  ext i hi
  have h1 : ¬ s + i < n := by omega
  have h2 : s + i - n = s - n + i := by omega
  simp [BitVec.getLsbD_append, h1, h2]
theorem bit_up {n m : Nat} (a : BitVec m) (b : BitVec n) (s : Nat) (h : n ≤ s) : (a ++ b).getLsbD s = a.getLsbD (s - n) := by
  have h1 : ¬ s < n := by omega
  simp [BitVec.getLsbD_append, h1]
theorem bit_lo {n m : Nat} (a : BitVec m) (b : BitVec n) (s : Nat) (h : s < n) : (a ++ b).getLsbD s = b.getLsbD s := by
  simp [BitVec.getLsbD_append, h]
theorem ex_in {n m : Nat} (a : BitVec m) (b : BitVec n) (s l : Nat) (h : s + l ≤ n) : (a ++ b).extractLsb' s l = b.extractLsb' s l := by
  ext i hi
  have h1 : s + i < n := by omega
  simp [BitVec.getLsbD_append, h1]
theorem ex_join {w : Nat} (i : BitVec w) (s n m : Nat) : i.extractLsb' (s + n) m ++ i.extractLsb' s n = i.extractLsb' s (m + n) := by
  ext j hj
  by_cases h : j < n
  · simp [BitVec.getElem_append, h]
  · have h1 : s + n + (j - n) = s + j := by omega
    simp [BitVec.getElem_append, h, h1]
theorem cond_ne (c : BitVec 2) : ¬ (0#2 ++ c : BitVec 4) = 4#4 := by revert c; decide
theorem shift_back (o : QShift) (op : BitVec 8) : (qShift op o).op = op := by cases o with | mk g d a n => cases n <;> rfl
/-- The operand record the decoder reads from the fields of an atomic is the one the encoder laid out (R255). -/
theorem atom_back (m : BitVec 3) (o : EAtom) :
    (⟨Guard.ofBits (eAtom m o).gn (eAtom m o).gq, (eAtom m o).xa, (eAtom m o).xb, (eAtom m o).na, (eAtom m o).imm.getLsbD 0,
      (eAtom m o).imm.getLsbD 1, (eAtom m o).imm.getLsbD 2, (eAtom m o).imm.extractLsb' 5 27⟩ : EAtom) = o := by
  obtain ⟨g, xa, xb, k, dword, fetch, bo, boff⟩ := o
  have h0 : (boff ++ (0 : BitVec 2) ++ bit bo ++ bit fetch ++ bit dword).getLsbD 0 = dword := (bit_lo _ _ _ (by decide)).trans (bit_back _)
  have h1 : (boff ++ (0 : BitVec 2) ++ bit bo ++ bit fetch ++ bit dword).getLsbD 1 = fetch :=
    (bit_up _ _ _ (by decide)).trans ((bit_lo _ _ _ (by decide)).trans (bit_back _))
  have h2 : (boff ++ (0 : BitVec 2) ++ bit bo ++ bit fetch ++ bit dword).getLsbD 2 = bo :=
    (bit_up _ _ _ (by decide)).trans ((bit_up _ _ _ (by decide)).trans ((bit_lo _ _ _ (by decide)).trans (bit_back _)))
  have h3 : (boff ++ (0 : BitVec 2) ++ bit bo ++ bit fetch ++ bit dword).extractLsb' 5 27 = boff :=
    (ex_up _ _ _ _ (by decide)).trans ((ex_up _ _ _ _ (by decide)).trans ((ex_up _ _ _ _ (by decide)).trans
      ((ex_up _ _ _ _ (by decide)).trans (ex_all _))))
  exact congr (congr (congr (congr (congrArg (fun x => EAtom.mk x xa xb k) (guard_bits g)) h0) h1) h2) h3
/-- The same of a matrix pass (R173). -/
theorem pass_back (op : BitVec 6) (o : TPass) :
    (⟨Guard.ofBits (tPass op o).gn (tPass op o).gp, (tPass op o).arow, (tPass op o).acol, (tPass op o).cnt, (tPass op o).qw,
      (tPass op o).mod.getLsbD 0, (tPass op o).mod.getLsbD 1⟩ : TPass) = o := by
  obtain ⟨g, arow, acol, cnt, qw, walk, fwd⟩ := o
  have h0 : ((0 : BitVec 14) ++ bit fwd ++ bit walk).getLsbD 0 = walk := (bit_lo _ _ _ (by decide)).trans (bit_back _)
  have h1 : ((0 : BitVec 14) ++ bit fwd ++ bit walk).getLsbD 1 = fwd :=
    (bit_up _ _ _ (by decide)).trans ((bit_lo _ _ _ (by decide)).trans (bit_back _))
  exact congr (congr (congrArg (fun x => TPass.mk x arow acol cnt qw) (guard_bits g)) h0) h1
namespace Encoding
/-- The decoder reads the instruction back from the fields the encoder gives it, in whichever slot it has a form. -/
def Statement (i : Instr) : Prop := i.wf = true →
  (∀ f, encQ i = some f → candQ f = some i) ∧ (∀ f, encA i = some f → candA f = some i) ∧ (∀ f, encM i = some f → candM f = some i) ∧
  (∀ f, encT i = some f → candT f = some i) ∧ (∀ f, encE i = some f → candE f = some i) ∧ (∀ f, encW i = some f → candW f = some i)
theorem ofQ {i : Instr} {f : QF} (q : encQ i = some f) (a : encA i = none) (m : encM i = none) (t : encT i = none) (e : encE i = none)
    (w : encW i = none) (h : i.wf = true → candQ f = some i) : Statement i := by
  intro hw; simp [q, a, m, t, e, w, h hw]
theorem ofA {i : Instr} {f : AF} (q : encQ i = none) (a : encA i = some f) (m : encM i = none) (t : encT i = none) (e : encE i = none)
    (w : encW i = none) (h : i.wf = true → candA f = some i) : Statement i := by
  intro hw; simp [q, a, m, t, e, w, h hw]
theorem ofM {i : Instr} {f : MF} (q : encQ i = none) (a : encA i = none) (m : encM i = some f) (t : encT i = none) (e : encE i = none)
    (w : encW i = none) (h : i.wf = true → candM f = some i) : Statement i := by
  intro hw; simp [q, a, m, t, e, w, h hw]
theorem ofT {i : Instr} {f : TF} (q : encQ i = none) (a : encA i = none) (m : encM i = none) (t : encT i = some f) (e : encE i = none)
    (w : encW i = none) (h : i.wf = true → candT f = some i) : Statement i := by
  intro hw; simp [q, a, m, t, e, w, h hw]
theorem ofE {i : Instr} {f : EF} (q : encQ i = none) (a : encA i = none) (m : encM i = none) (t : encT i = none) (e : encE i = some f)
    (w : encW i = none) (h : i.wf = true → candE f = some i) : Statement i := by
  intro hw; simp [q, a, m, t, e, w, h hw]
theorem ofW {i : Instr} {f : WF} (q : encQ i = none) (a : encA i = none) (m : encM i = none) (t : encT i = none) (e : encE i = none)
    (w : encW i = some f) (h : i.wf = true → candW f = some i) : Statement i := by
  intro hw; simp [q, a, m, t, e, w, h hw]
theorem ofNone {i : Instr} (q : encQ i = none) (a : encA i = none) (m : encM i = none) (t : encT i = none) (e : encE i = none)
    (w : encW i = none) : Statement i := by
  intro _; simp [q, a, m, t, e, w]

set_option linter.unusedSimpArgs false

theorem br (g : Guard) (target : BitVec 16) : Statement (.br g target) := ofQ rfl rfl rfl rfl rfl rfl fun h => by
  show some (Instr.br _ _) = _
  simp [qG, qRRR, qRRI, qCmpImm, guard_bits, ex_setWidth]

theorem brX (g : Guard) (xa : BitVec 5) : Statement (.brX g xa) := ofQ rfl rfl rfl rfl rfl rfl fun h => by
  show some (Instr.brX _ _) = _
  simp [qG, qRRR, qRRI, qCmpImm, guard_bits, ex_setWidth]

theorem call (g : Guard) (target : BitVec 16) : Statement (.call g target) := ofQ rfl rfl rfl rfl rfl rfl fun h => by
  show some (Instr.call _ _) = _
  simp [qG, qRRR, qRRI, qCmpImm, guard_bits, ex_setWidth]

theorem callX (g : Guard) (xa : BitVec 5) : Statement (.callX g xa) := ofQ rfl rfl rfl rfl rfl rfl fun h => by
  show some (Instr.callX _ _) = _
  simp [qG, qRRR, qRRI, qCmpImm, guard_bits, ex_setWidth]

theorem ret (g : Guard) : Statement (.ret g) := ofQ rfl rfl rfl rfl rfl rfl fun h => by
  show some (Instr.ret _) = _
  simp [qG, qRRR, qRRI, qCmpImm, guard_bits, ex_setWidth]

theorem loop (g : Guard) (k : BitVec 3) (target : BitVec 16) : Statement (.loop g k target) := ofQ rfl rfl rfl rfl rfl rfl fun h => by
  show some (Instr.loop _ _ _) = _
  simp [qG, qRRR, qRRI, qCmpImm, guard_bits, ex_setWidth]
  all_goals repeat' apply And.intro
  all_goals repeat first | refine (ex_up _ _ _ _ (by decide)).trans ?_ | refine (bit_up _ _ _ (by decide)).trans ?_
  all_goals first | exact ex_lo _ _ | exact ex_all _ | exact bit_back _ | exact (bit_lo _ _ _ (by decide)).trans (bit_back _)

theorem lbrk (g : Guard) (k : BitVec 3) (target : BitVec 16) : Statement (.lbrk g k target) := ofQ rfl rfl rfl rfl rfl rfl fun h => by
  show some (Instr.lbrk _ _ _) = _
  simp [qG, qRRR, qRRI, qCmpImm, guard_bits, ex_setWidth]
  all_goals repeat' apply And.intro
  all_goals repeat first | refine (ex_up _ _ _ _ (by decide)).trans ?_ | refine (bit_up _ _ _ (by decide)).trans ?_
  all_goals first | exact ex_lo _ _ | exact ex_all _ | exact bit_back _ | exact (bit_lo _ _ _ (by decide)).trans (bit_back _)

theorem lidx (g : Guard) (xd : BitVec 5) (k : BitVec 3) (f : BitVec 2) : Statement (.lidx g xd k f) := ofQ rfl rfl rfl rfl rfl rfl fun h => by
  simp only [candQ]
  simp [qG, qRRR, qRRI, qCmpImm, guard_bits, ex_setWidth]
  all_goals repeat' apply And.intro
  all_goals repeat first | refine (ex_up _ _ _ _ (by decide)).trans ?_ | refine (bit_up _ _ _ (by decide)).trans ?_
  all_goals first | exact ex_lo _ _ | exact ex_all _ | exact bit_back _ | exact (bit_lo _ _ _ (by decide)).trans (bit_back _)

theorem lidxSet (g : Guard) (k : BitVec 3) (xa : BitVec 5) (xb : BitVec 5) : Statement (.lidxSet g k xa xb) := ofQ rfl rfl rfl rfl rfl rfl fun h => by
  simp only [candQ]
  simp [qG, qRRR, qRRI, qCmpImm, guard_bits, ex_setWidth]
  all_goals repeat' apply And.intro
  all_goals repeat first | refine (ex_up _ _ _ _ (by decide)).trans ?_ | refine (bit_up _ _ _ (by decide)).trans ?_
  all_goals first | exact ex_lo _ _ | exact ex_all _ | exact bit_back _ | exact (bit_lo _ _ _ (by decide)).trans (bit_back _)

theorem yield (g : Guard) : Statement (.yield g) := ofQ rfl rfl rfl rfl rfl rfl fun h => by
  show some (Instr.yield _) = _
  simp [qG, qRRR, qRRI, qCmpImm, guard_bits, ex_setWidth]

theorem taskEnd (g : Guard) : Statement (.taskEnd g) := ofQ rfl rfl rfl rfl rfl rfl fun h => by
  show some (Instr.taskEnd _) = _
  simp [qG, qRRR, qRRI, qCmpImm, guard_bits, ex_setWidth]

theorem trap (g : Guard) (n : BitVec 8) : Statement (.trap g n) := ofQ rfl rfl rfl rfl rfl rfl fun h => by
  show some (Instr.trap _ _) = _
  simp [qG, qRRR, qRRI, qCmpImm, guard_bits, ex_setWidth]

theorem brk (g : Guard) : Statement (.brk g) := ofQ rfl rfl rfl rfl rfl rfl fun h => by
  show some (Instr.brk _) = _
  simp [qG, qRRR, qRRI, qCmpImm, guard_bits, ex_setWidth]

theorem mark (g : Guard) (n : BitVec 8) : Statement (.mark g n) := ofQ rfl rfl rfl rfl rfl rfl fun h => by
  show some (Instr.mark _ _) = _
  simp [qG, qRRR, qRRI, qCmpImm, guard_bits, ex_setWidth]

theorem qAdd (o : QRRR) : Statement (.qAdd o) := ofQ rfl rfl rfl rfl rfl rfl fun h => by
  show some (Instr.qAdd _) = _
  simp [qG, qRRR, qRRI, qCmpImm, guard_bits, ex_setWidth]

theorem qAddi (o : QRRI) : Statement (.qAddi o) := ofQ rfl rfl rfl rfl rfl rfl fun h => by
  show some (Instr.qAddi _) = _
  simp [qG, qRRR, qRRI, qCmpImm, guard_bits, ex_setWidth]

theorem qSub (o : QRRR) : Statement (.qSub o) := ofQ rfl rfl rfl rfl rfl rfl fun h => by
  show some (Instr.qSub _) = _
  simp [qG, qRRR, qRRI, qCmpImm, guard_bits, ex_setWidth]

theorem qMul (o : QRRR) : Statement (.qMul o) := ofQ rfl rfl rfl rfl rfl rfl fun h => by
  show some (Instr.qMul _) = _
  simp [qG, qRRR, qRRI, qCmpImm, guard_bits, ex_setWidth]

theorem qMulh (o : QRRR) : Statement (.qMulh o) := ofQ rfl rfl rfl rfl rfl rfl fun h => by
  show some (Instr.qMulh _) = _
  simp [qG, qRRR, qRRI, qCmpImm, guard_bits, ex_setWidth]

theorem qMulhu (o : QRRR) : Statement (.qMulhu o) := ofQ rfl rfl rfl rfl rfl rfl fun h => by
  show some (Instr.qMulhu _) = _
  simp [qG, qRRR, qRRI, qCmpImm, guard_bits, ex_setWidth]

theorem qAnd (o : QRRR) : Statement (.qAnd o) := ofQ rfl rfl rfl rfl rfl rfl fun h => by
  show some (Instr.qAnd _) = _
  simp [qG, qRRR, qRRI, qCmpImm, guard_bits, ex_setWidth]

theorem qAndi (o : QRRI) : Statement (.qAndi o) := ofQ rfl rfl rfl rfl rfl rfl fun h => by
  show some (Instr.qAndi _) = _
  simp [qG, qRRR, qRRI, qCmpImm, guard_bits, ex_setWidth]

theorem qOr (o : QRRR) : Statement (.qOr o) := ofQ rfl rfl rfl rfl rfl rfl fun h => by
  show some (Instr.qOr _) = _
  simp [qG, qRRR, qRRI, qCmpImm, guard_bits, ex_setWidth]

theorem qOri (o : QRRI) : Statement (.qOri o) := ofQ rfl rfl rfl rfl rfl rfl fun h => by
  show some (Instr.qOri _) = _
  simp [qG, qRRR, qRRI, qCmpImm, guard_bits, ex_setWidth]

theorem qXor (o : QRRR) : Statement (.qXor o) := ofQ rfl rfl rfl rfl rfl rfl fun h => by
  show some (Instr.qXor _) = _
  simp [qG, qRRR, qRRI, qCmpImm, guard_bits, ex_setWidth]

theorem qXori (o : QRRI) : Statement (.qXori o) := ofQ rfl rfl rfl rfl rfl rfl fun h => by
  show some (Instr.qXori _) = _
  simp [qG, qRRR, qRRI, qCmpImm, guard_bits, ex_setWidth]

theorem qShl (o : QShift) : Statement (.qShl o) := ofQ rfl rfl rfl rfl rfl rfl fun _ => by
  obtain ⟨g, xd, xa, n⟩ := o
  cases n with
  | reg xb =>
    show some (Instr.qShl ⟨_, _, _, .reg _⟩) = _
    simp [qShift, guard_bits]
  | imm n =>
    show some (Instr.qShl ⟨_, _, _, .imm _⟩) = _
    simp [qShift, guard_bits, ex_setWidth]

theorem qShr (o : QShift) : Statement (.qShr o) := ofQ rfl rfl rfl rfl rfl rfl fun _ => by
  obtain ⟨g, xd, xa, n⟩ := o
  cases n with
  | reg xb =>
    show some (Instr.qShr ⟨_, _, _, .reg _⟩) = _
    simp [qShift, guard_bits]
  | imm n =>
    show some (Instr.qShr ⟨_, _, _, .imm _⟩) = _
    simp [qShift, guard_bits, ex_setWidth]

theorem qSra (o : QShift) : Statement (.qSra o) := ofQ rfl rfl rfl rfl rfl rfl fun _ => by
  obtain ⟨g, xd, xa, n⟩ := o
  cases n with
  | reg xb =>
    show some (Instr.qSra ⟨_, _, _, .reg _⟩) = _
    simp [qShift, guard_bits]
  | imm n =>
    show some (Instr.qSra ⟨_, _, _, .imm _⟩) = _
    simp [qShift, guard_bits, ex_setWidth]

theorem qMin (o : QRRR) : Statement (.qMin o) := ofQ rfl rfl rfl rfl rfl rfl fun h => by
  show some (Instr.qMin _) = _
  simp [qG, qRRR, qRRI, qCmpImm, guard_bits, ex_setWidth]

theorem qMax (o : QRRR) : Statement (.qMax o) := ofQ rfl rfl rfl rfl rfl rfl fun h => by
  show some (Instr.qMax _) = _
  simp [qG, qRRR, qRRI, qCmpImm, guard_bits, ex_setWidth]

theorem qMinu (o : QRRR) : Statement (.qMinu o) := ofQ rfl rfl rfl rfl rfl rfl fun h => by
  show some (Instr.qMinu _) = _
  simp [qG, qRRR, qRRI, qCmpImm, guard_bits, ex_setWidth]

theorem qMaxu (o : QRRR) : Statement (.qMaxu o) := ofQ rfl rfl rfl rfl rfl rfl fun h => by
  show some (Instr.qMaxu _) = _
  simp [qG, qRRR, qRRI, qCmpImm, guard_bits, ex_setWidth]

theorem qMov (g : Guard) (xd : BitVec 5) (xa : BitVec 5) : Statement (.qMov g xd xa) := ofQ rfl rfl rfl rfl rfl rfl fun h => by
  show some (Instr.qMov _ _ _) = _
  simp [qG, qRRR, qRRI, qCmpImm, guard_bits, ex_setWidth]

theorem qLi (g : Guard) (xd : BitVec 5) (imm : BitVec 32) : Statement (.qLi g xd imm) := ofQ rfl rfl rfl rfl rfl rfl fun h => by
  show some (Instr.qLi _ _ _) = _
  simp [qG, qRRR, qRRI, qCmpImm, guard_bits, ex_setWidth]

theorem qLih (g : Guard) (xd : BitVec 5) (imm : BitVec 32) : Statement (.qLih g xd imm) := ofQ rfl rfl rfl rfl rfl rfl fun h => by
  show some (Instr.qLih _ _ _) = _
  simp [qG, qRRR, qRRI, qCmpImm, guard_bits, ex_setWidth]

theorem qSel (o : QRRR) (neg : Bool) (k : BitVec 3) : Statement (.qSel o neg k) := ofQ rfl rfl rfl rfl rfl rfl fun h => by
  obtain ⟨g, xd, xa, xb⟩ := o
  show some (Instr.qSel _ _ _) = _
  simp [qG, qRRR, qRRI, qCmpImm, guard_bits, ex_setWidth]
  all_goals repeat' apply And.intro
  all_goals repeat first | refine (ex_up _ _ _ _ (by decide)).trans ?_ | refine (bit_up _ _ _ (by decide)).trans ?_
  all_goals first | exact ex_lo _ _ | exact ex_all _ | exact bit_back _ | exact (bit_lo _ _ _ (by decide)).trans (bit_back _)

theorem qCmp (c : QCmpF) (xa : BitVec 5) (xb : BitVec 5) : Statement (.qCmp c xa xb) := ofQ rfl rfl rfl rfl rfl rfl fun h => by
  obtain ⟨qn, qg, cond, ctype, p2, p1⟩ := c
  show some (Instr.qCmp _ _ _) = _
  simp [qG, qRRR, qRRI, qCmpImm, guard_bits, ex_setWidth]
  all_goals repeat' apply And.intro
  all_goals repeat first | refine (ex_up _ _ _ _ (by decide)).trans ?_ | refine (bit_up _ _ _ (by decide)).trans ?_
  all_goals first | exact ex_lo _ _ | exact ex_all _ | exact bit_back _ | exact (bit_lo _ _ _ (by decide)).trans (bit_back _)

theorem qCmpi (c : QCmpF) (xa : BitVec 5) (simm : BitVec 15) : Statement (.qCmpi c xa simm) := ofQ rfl rfl rfl rfl rfl rfl fun h => by
  obtain ⟨qn, qg, cond, ctype, p2, p1⟩ := c
  show some (Instr.qCmpi _ _ _) = _
  simp [qG, qRRR, qRRI, qCmpImm, guard_bits, ex_setWidth]
  all_goals repeat' apply And.intro
  all_goals repeat first | refine (ex_up _ _ _ _ (by decide)).trans ?_ | refine (bit_up _ _ _ (by decide)).trans ?_
  all_goals first | exact ex_lo _ _ | exact ex_all _ | exact bit_back _ | exact (bit_lo _ _ _ (by decide)).trans (bit_back _)

theorem ldparam (g : Guard) (xd : BitVec 5) (k : BitVec 4) : Statement (.ldparam g xd k) := ofQ rfl rfl rfl rfl rfl rfl fun h => by
  show some (Instr.ldparam _ _ _) = _
  simp [qG, qRRR, qRRI, qCmpImm, guard_bits, ex_setWidth]

theorem ldtask (g : Guard) (xd : BitVec 5) (f : BitVec 4) : Statement (.ldtask g xd f) := ofQ rfl rfl rfl rfl rfl rfl fun h => by
  show some (Instr.ldtask _ _ _) = _
  simp [qG, qRRR, qRRI, qCmpImm, guard_bits, ex_setWidth]

theorem flagRd (g : Guard) (xd : BitVec 5) (mode : BitVec 2) (k : BitVec 3) (d : BitVec 6) : Statement (.flagRd g xd mode k d) := ofQ rfl rfl rfl rfl rfl rfl fun h => by
  show some (Instr.flagRd _ _ _ _ _) = _
  simp [qG, qRRR, qRRI, qCmpImm, guard_bits, ex_setWidth]
  all_goals repeat' apply And.intro
  all_goals repeat first | refine (ex_up _ _ _ _ (by decide)).trans ?_ | refine (bit_up _ _ _ (by decide)).trans ?_
  all_goals first | exact ex_lo _ _ | exact ex_all _ | exact bit_back _ | exact (bit_lo _ _ _ (by decide)).trans (bit_back _)

theorem wset (g : Guard) (wk : BitVec 4) (imm : BitVec 32) : Statement (.wset g wk imm) := ofQ rfl rfl rfl rfl rfl rfl fun h => by
  show some (Instr.wset _ _ _) = _
  simp [qG, qRRR, qRRI, qCmpImm, guard_bits, ex_setWidth]
  all_goals repeat' apply And.intro
  all_goals repeat first | refine (ex_up _ _ _ _ (by decide)).trans ?_ | refine (bit_up _ _ _ (by decide)).trans ?_
  all_goals first | exact ex_lo _ _ | exact ex_all _ | exact bit_back _ | exact (bit_lo _ _ _ (by decide)).trans (bit_back _)

theorem wmov (g : Guard) (wk : BitVec 4) (xa : BitVec 5) : Statement (.wmov g wk xa) := ofQ rfl rfl rfl rfl rfl rfl fun h => by
  show some (Instr.wmov _ _ _) = _
  simp [qG, qRRR, qRRI, qCmpImm, guard_bits, ex_setWidth]
  all_goals repeat' apply And.intro
  all_goals repeat first | refine (ex_up _ _ _ _ (by decide)).trans ?_ | refine (bit_up _ _ _ (by decide)).trans ?_
  all_goals first | exact ex_lo _ _ | exact ex_all _ | exact bit_back _ | exact (bit_lo _ _ _ (by decide)).trans (bit_back _)

theorem wrd (g : Guard) (xd : BitVec 5) (wk : BitVec 4) : Statement (.wrd g xd wk) := ofQ rfl rfl rfl rfl rfl rfl fun h => by
  show some (Instr.wrd _ _ _) = _
  simp [qG, qRRR, qRRI, qCmpImm, guard_bits, ex_setWidth]
  all_goals repeat' apply And.intro
  all_goals repeat first | refine (ex_up _ _ _ _ (by decide)).trans ?_ | refine (bit_up _ _ _ (by decide)).trans ?_
  all_goals first | exact ex_lo _ _ | exact ex_all _ | exact bit_back _ | exact (bit_lo _ _ _ (by decide)).trans (bit_back _)

theorem tickRd (g : Guard) (xd : BitVec 5) : Statement (.tickRd g xd) := ofQ rfl rfl rfl rfl rfl rfl fun h => by
  show some (Instr.tickRd _ _) = _
  simp [qG, qRRR, qRRI, qCmpImm, guard_bits, ex_setWidth]

theorem gtickRd (g : Guard) (xd : BitVec 5) : Statement (.gtickRd g xd) := ofQ rfl rfl rfl rfl rfl rfl fun h => by
  show some (Instr.gtickRd _ _) = _
  simp [qG, qRRR, qRRI, qCmpImm, guard_bits, ex_setWidth]

theorem ctimeRd (g : Guard) (xd : BitVec 5) : Statement (.ctimeRd g xd) := ofQ rfl rfl rfl rfl rfl rfl fun h => by
  show some (Instr.ctimeRd _ _) = _
  simp [qG, qRRR, qRRI, qCmpImm, guard_bits, ex_setWidth]

theorem pwrAcq (g : Guard) (level : BitVec 7) (lease : BitVec 12) : Statement (.pwrAcq g level lease) := ofQ rfl rfl rfl rfl rfl rfl fun h => by
  show some (Instr.pwrAcq _ _ _) = _
  simp [qG, qRRR, qRRI, qCmpImm, guard_bits, ex_setWidth]
  all_goals repeat' apply And.intro
  all_goals repeat first | refine (ex_up _ _ _ _ (by decide)).trans ?_ | refine (bit_up _ _ _ (by decide)).trans ?_
  all_goals first | exact ex_lo _ _ | exact ex_all _ | exact bit_back _ | exact (bit_lo _ _ _ (by decide)).trans (bit_back _)

theorem pwrRel (g : Guard) : Statement (.pwrRel g) := ofQ rfl rfl rfl rfl rfl rfl fun h => by
  simp only [candQ]
  simp [qG, qRRR, qRRI, qCmpImm, guard_bits, ex_setWidth]

theorem pwrRelRd (g : Guard) (xd : BitVec 5) : Statement (.pwrRelRd g xd) := ofQ rfl rfl rfl rfl rfl rfl fun h => by
  simp only [candQ]
  simp [qG, qRRR, qRRI, qCmpImm, guard_bits, ex_setWidth]

theorem fenceDom (g : Guard) : Statement (.fenceDom g) := ofQ rfl rfl rfl rfl rfl rfl fun h => by
  show some (Instr.fenceDom _) = _
  simp [qG, qRRR, qRRI, qCmpImm, guard_bits, ex_setWidth]

theorem fencePkg (g : Guard) : Statement (.fencePkg g) := ofQ rfl rfl rfl rfl rfl rfl fun h => by
  show some (Instr.fencePkg _) = _
  simp [qG, qRRR, qRRI, qCmpImm, guard_bits, ex_setWidth]

theorem fenceSys (g : Guard) : Statement (.fenceSys g) := ofQ rfl rfl rfl rfl rfl rfl fun h => by
  show some (Instr.fenceSys _) = _
  simp [qG, qRRR, qRRI, qCmpImm, guard_bits, ex_setWidth]

theorem waitB (g : Guard) (xa : BitVec 5) : Statement (.waitB g xa) := ofQ rfl rfl rfl rfl rfl rfl fun h => by
  show some (Instr.waitB _ _) = _
  simp [qG, qRRR, qRRI, qCmpImm, guard_bits, ex_setWidth]

theorem sysRd (g : Guard) (xd : BitVec 5) (num : BitVec 12) : Statement (.sysRd g xd num) := ofQ rfl rfl rfl rfl rfl rfl fun h => by
  show some (Instr.sysRd _ _ _) = _
  simp [qG, qRRR, qRRI, qCmpImm, guard_bits, ex_setWidth]

theorem sysWr (g : Guard) (num : BitVec 12) (xa : BitVec 5) : Statement (.sysWr g num xa) := ofQ rfl rfl rfl rfl rfl rfl fun h => by
  show some (Instr.sysWr _ _ _) = _
  simp [qG, qRRR, qRRI, qCmpImm, guard_bits, ex_setWidth]

theorem aAdd (t : BitVec 3) (o : ABin) : Statement (.aAdd t o) := ofA rfl rfl rfl rfl rfl rfl fun h => by
  show Option.map _ _ = _
  simp [aG, aUn, aBin, aTern, aTy, sBin, aCmpD, aCmpC, aCmpM, cvtM, aNarrow, aQuant, src_back, dst_back, ssrc_back, guard_bits, ex_setWidth]
  all_goals repeat' apply And.intro
  all_goals repeat first | refine (ex_up _ _ _ _ (by decide)).trans ?_ | refine (bit_up _ _ _ (by decide)).trans ?_
  all_goals first | exact ex_lo _ _ | exact ex_all _ | exact bit_back _ | exact (bit_lo _ _ _ (by decide)).trans (bit_back _)

theorem aSub (t : BitVec 3) (o : ABin) : Statement (.aSub t o) := ofA rfl rfl rfl rfl rfl rfl fun h => by
  show Option.map _ _ = _
  simp [aG, aUn, aBin, aTern, aTy, sBin, aCmpD, aCmpC, aCmpM, cvtM, aNarrow, aQuant, src_back, dst_back, ssrc_back, guard_bits, ex_setWidth]
  all_goals repeat' apply And.intro
  all_goals repeat first | refine (ex_up _ _ _ _ (by decide)).trans ?_ | refine (bit_up _ _ _ (by decide)).trans ?_
  all_goals first | exact ex_lo _ _ | exact ex_all _ | exact bit_back _ | exact (bit_lo _ _ _ (by decide)).trans (bit_back _)

theorem adds (t : BitVec 3) (o : ABin) : Statement (.adds t o) := ofA rfl rfl rfl rfl rfl rfl fun h => by
  show Option.map _ _ = _
  simp [aG, aUn, aBin, aTern, aTy, sBin, aCmpD, aCmpC, aCmpM, cvtM, aNarrow, aQuant, src_back, dst_back, ssrc_back, guard_bits, ex_setWidth]
  all_goals repeat' apply And.intro
  all_goals repeat first | refine (ex_up _ _ _ _ (by decide)).trans ?_ | refine (bit_up _ _ _ (by decide)).trans ?_
  all_goals first | exact ex_lo _ _ | exact ex_all _ | exact bit_back _ | exact (bit_lo _ _ _ (by decide)).trans (bit_back _)

theorem subs (t : BitVec 3) (o : ABin) : Statement (.subs t o) := ofA rfl rfl rfl rfl rfl rfl fun h => by
  show Option.map _ _ = _
  simp [aG, aUn, aBin, aTern, aTy, sBin, aCmpD, aCmpC, aCmpM, cvtM, aNarrow, aQuant, src_back, dst_back, ssrc_back, guard_bits, ex_setWidth]
  all_goals repeat' apply And.intro
  all_goals repeat first | refine (ex_up _ _ _ _ (by decide)).trans ?_ | refine (bit_up _ _ _ (by decide)).trans ?_
  all_goals first | exact ex_lo _ _ | exact ex_all _ | exact bit_back _ | exact (bit_lo _ _ _ (by decide)).trans (bit_back _)

theorem aMul (t : BitVec 3) (o : ABin) : Statement (.aMul t o) := ofA rfl rfl rfl rfl rfl rfl fun h => by
  show Option.map _ _ = _
  simp [aG, aUn, aBin, aTern, aTy, sBin, aCmpD, aCmpC, aCmpM, cvtM, aNarrow, aQuant, src_back, dst_back, ssrc_back, guard_bits, ex_setWidth]
  all_goals repeat' apply And.intro
  all_goals repeat first | refine (ex_up _ _ _ _ (by decide)).trans ?_ | refine (bit_up _ _ _ (by decide)).trans ?_
  all_goals first | exact ex_lo _ _ | exact ex_all _ | exact bit_back _ | exact (bit_lo _ _ _ (by decide)).trans (bit_back _)

theorem aMulh (t : BitVec 3) (o : ABin) : Statement (.aMulh t o) := ofA rfl rfl rfl rfl rfl rfl fun h => by
  show Option.map _ _ = _
  simp [aG, aUn, aBin, aTern, aTy, sBin, aCmpD, aCmpC, aCmpM, cvtM, aNarrow, aQuant, src_back, dst_back, ssrc_back, guard_bits, ex_setWidth]
  all_goals repeat' apply And.intro
  all_goals repeat first | refine (ex_up _ _ _ _ (by decide)).trans ?_ | refine (bit_up _ _ _ (by decide)).trans ?_
  all_goals first | exact ex_lo _ _ | exact ex_all _ | exact bit_back _ | exact (bit_lo _ _ _ (by decide)).trans (bit_back _)

theorem mad (t : BitVec 3) (o : ATern) : Statement (.mad t o) := ofA rfl rfl rfl rfl rfl rfl fun h => by
  show Option.map _ _ = _
  simp [aG, aUn, aBin, aTern, aTy, sBin, aCmpD, aCmpC, aCmpM, cvtM, aNarrow, aQuant, src_back, dst_back, ssrc_back, guard_bits, ex_setWidth]
  all_goals repeat' apply And.intro
  all_goals repeat first | refine (ex_up _ _ _ _ (by decide)).trans ?_ | refine (bit_up _ _ _ (by decide)).trans ?_
  all_goals first | exact ex_lo _ _ | exact ex_all _ | exact bit_back _ | exact (bit_lo _ _ _ (by decide)).trans (bit_back _)

theorem abs (t : BitVec 3) (o : AUn) : Statement (.abs t o) := ofA rfl rfl rfl rfl rfl rfl fun h => by
  show Option.map _ _ = _
  simp [aG, aUn, aBin, aTern, aTy, sBin, aCmpD, aCmpC, aCmpM, cvtM, aNarrow, aQuant, src_back, dst_back, ssrc_back, guard_bits, ex_setWidth]
  all_goals repeat' apply And.intro
  all_goals repeat first | refine (ex_up _ _ _ _ (by decide)).trans ?_ | refine (bit_up _ _ _ (by decide)).trans ?_
  all_goals first | exact ex_lo _ _ | exact ex_all _ | exact bit_back _ | exact (bit_lo _ _ _ (by decide)).trans (bit_back _)

theorem neg (t : BitVec 3) (o : AUn) : Statement (.neg t o) := ofA rfl rfl rfl rfl rfl rfl fun h => by
  show Option.map _ _ = _
  simp [aG, aUn, aBin, aTern, aTy, sBin, aCmpD, aCmpC, aCmpM, cvtM, aNarrow, aQuant, src_back, dst_back, ssrc_back, guard_bits, ex_setWidth]
  all_goals repeat' apply And.intro
  all_goals repeat first | refine (ex_up _ _ _ _ (by decide)).trans ?_ | refine (bit_up _ _ _ (by decide)).trans ?_
  all_goals first | exact ex_lo _ _ | exact ex_all _ | exact bit_back _ | exact (bit_lo _ _ _ (by decide)).trans (bit_back _)

theorem aMin (t : BitVec 3) (o : ABin) : Statement (.aMin t o) := ofA rfl rfl rfl rfl rfl rfl fun h => by
  show Option.map _ _ = _
  simp [aG, aUn, aBin, aTern, aTy, sBin, aCmpD, aCmpC, aCmpM, cvtM, aNarrow, aQuant, src_back, dst_back, ssrc_back, guard_bits, ex_setWidth]
  all_goals repeat' apply And.intro
  all_goals repeat first | refine (ex_up _ _ _ _ (by decide)).trans ?_ | refine (bit_up _ _ _ (by decide)).trans ?_
  all_goals first | exact ex_lo _ _ | exact ex_all _ | exact bit_back _ | exact (bit_lo _ _ _ (by decide)).trans (bit_back _)

theorem aMax (t : BitVec 3) (o : ABin) : Statement (.aMax t o) := ofA rfl rfl rfl rfl rfl rfl fun h => by
  show Option.map _ _ = _
  simp [aG, aUn, aBin, aTern, aTy, sBin, aCmpD, aCmpC, aCmpM, cvtM, aNarrow, aQuant, src_back, dst_back, ssrc_back, guard_bits, ex_setWidth]
  all_goals repeat' apply And.intro
  all_goals repeat first | refine (ex_up _ _ _ _ (by decide)).trans ?_ | refine (bit_up _ _ _ (by decide)).trans ?_
  all_goals first | exact ex_lo _ _ | exact ex_all _ | exact bit_back _ | exact (bit_lo _ _ _ (by decide)).trans (bit_back _)

theorem aAnd (o : ABin) : Statement (.aAnd o) := ofA rfl rfl rfl rfl rfl rfl fun h => by
  show Option.map _ _ = _
  simp [aG, aUn, aBin, aTern, aTy, sBin, aCmpD, aCmpC, aCmpM, cvtM, aNarrow, aQuant, src_back, dst_back, ssrc_back, guard_bits, ex_setWidth]

theorem aOr (o : ABin) : Statement (.aOr o) := ofA rfl rfl rfl rfl rfl rfl fun h => by
  show Option.map _ _ = _
  simp [aG, aUn, aBin, aTern, aTy, sBin, aCmpD, aCmpC, aCmpM, cvtM, aNarrow, aQuant, src_back, dst_back, ssrc_back, guard_bits, ex_setWidth]

theorem aXor (o : ABin) : Statement (.aXor o) := ofA rfl rfl rfl rfl rfl rfl fun h => by
  show Option.map _ _ = _
  simp [aG, aUn, aBin, aTern, aTy, sBin, aCmpD, aCmpC, aCmpM, cvtM, aNarrow, aQuant, src_back, dst_back, ssrc_back, guard_bits, ex_setWidth]

theorem andn (o : ABin) : Statement (.andn o) := ofA rfl rfl rfl rfl rfl rfl fun h => by
  show Option.map _ _ = _
  simp [aG, aUn, aBin, aTern, aTy, sBin, aCmpD, aCmpC, aCmpM, cvtM, aNarrow, aQuant, src_back, dst_back, ssrc_back, guard_bits, ex_setWidth]

theorem not (o : AUn) : Statement (.not o) := ofA rfl rfl rfl rfl rfl rfl fun h => by
  show Option.map _ _ = _
  simp [aG, aUn, aBin, aTern, aTy, sBin, aCmpD, aCmpC, aCmpM, cvtM, aNarrow, aQuant, src_back, dst_back, ssrc_back, guard_bits, ex_setWidth]

theorem aShl (t : BitVec 3) (o : ABin) : Statement (.aShl t o) := ofA rfl rfl rfl rfl rfl rfl fun h => by
  show Option.map _ _ = _
  simp [aG, aUn, aBin, aTern, aTy, sBin, aCmpD, aCmpC, aCmpM, cvtM, aNarrow, aQuant, src_back, dst_back, ssrc_back, guard_bits, ex_setWidth]
  all_goals repeat' apply And.intro
  all_goals repeat first | refine (ex_up _ _ _ _ (by decide)).trans ?_ | refine (bit_up _ _ _ (by decide)).trans ?_
  all_goals first | exact ex_lo _ _ | exact ex_all _ | exact bit_back _ | exact (bit_lo _ _ _ (by decide)).trans (bit_back _)

theorem aShr (t : BitVec 3) (o : ABin) : Statement (.aShr t o) := ofA rfl rfl rfl rfl rfl rfl fun h => by
  show Option.map _ _ = _
  simp [aG, aUn, aBin, aTern, aTy, sBin, aCmpD, aCmpC, aCmpM, cvtM, aNarrow, aQuant, src_back, dst_back, ssrc_back, guard_bits, ex_setWidth]
  all_goals repeat' apply And.intro
  all_goals repeat first | refine (ex_up _ _ _ _ (by decide)).trans ?_ | refine (bit_up _ _ _ (by decide)).trans ?_
  all_goals first | exact ex_lo _ _ | exact ex_all _ | exact bit_back _ | exact (bit_lo _ _ _ (by decide)).trans (bit_back _)

theorem aSra (t : BitVec 3) (o : ABin) : Statement (.aSra t o) := ofA rfl rfl rfl rfl rfl rfl fun h => by
  show Option.map _ _ = _
  simp [aG, aUn, aBin, aTern, aTy, sBin, aCmpD, aCmpC, aCmpM, cvtM, aNarrow, aQuant, src_back, dst_back, ssrc_back, guard_bits, ex_setWidth]
  all_goals repeat' apply And.intro
  all_goals repeat first | refine (ex_up _ _ _ _ (by decide)).trans ?_ | refine (bit_up _ _ _ (by decide)).trans ?_
  all_goals first | exact ex_lo _ _ | exact ex_all _ | exact bit_back _ | exact (bit_lo _ _ _ (by decide)).trans (bit_back _)

theorem aCmp (t : BitVec 3) (c : ACmpF) (a : Src) (b : Src) (imm : BitVec 32) : Statement (.aCmp t c a b imm) := ofA rfl rfl rfl rfl rfl rfl fun h => by
  obtain ⟨qn, qg, cond, ctype, red, p2, p1⟩ := c
  show Option.bind _ _ = _
  simp [aG, aUn, aBin, aTern, aTy, sBin, aCmpD, aCmpC, aCmpM, cvtM, aNarrow, aQuant, src_back, dst_back, ssrc_back, guard_bits, ex_setWidth]
  all_goals repeat' apply And.intro
  all_goals repeat first | refine (ex_up _ _ _ _ (by decide)).trans ?_ | refine (bit_up _ _ _ (by decide)).trans ?_
  all_goals first | exact ex_lo _ _ | exact ex_all _ | exact bit_back _ | exact (bit_lo _ _ _ (by decide)).trans (bit_back _)

theorem aSel (t : BitVec 3) (o : ATern) : Statement (.aSel t o) := ofA rfl rfl rfl rfl rfl rfl fun h => by
  show Option.map _ _ = _
  simp [aG, aUn, aBin, aTern, aTy, sBin, aCmpD, aCmpC, aCmpM, cvtM, aNarrow, aQuant, src_back, dst_back, ssrc_back, guard_bits, ex_setWidth]
  all_goals repeat' apply And.intro
  all_goals repeat first | refine (ex_up _ _ _ _ (by decide)).trans ?_ | refine (bit_up _ _ _ (by decide)).trans ?_
  all_goals first | exact ex_lo _ _ | exact ex_all _ | exact bit_back _ | exact (bit_lo _ _ _ (by decide)).trans (bit_back _)

theorem aMov (o : AUn) : Statement (.aMov o) := ofA rfl rfl rfl rfl rfl rfl fun h => by
  show Option.map _ _ = _
  simp [aG, aUn, aBin, aTern, aTy, sBin, aCmpD, aCmpC, aCmpM, cvtM, aNarrow, aQuant, src_back, dst_back, ssrc_back, guard_bits, ex_setWidth]

theorem sadd (o : SBin) : Statement (.sadd o) := ofA rfl rfl rfl rfl rfl rfl fun h => by
  obtain ⟨g, d, a, b, imm⟩ := o
  show Option.map _ _ = _
  simp [aG, aUn, aBin, aTern, aTy, sBin, aCmpD, aCmpC, aCmpM, cvtM, aNarrow, aQuant, src_back, dst_back, ssrc_back, guard_bits, ex_setWidth]
  all_goals repeat' apply And.intro
  all_goals repeat first | refine (ex_up _ _ _ _ (by decide)).trans ?_ | refine (bit_up _ _ _ (by decide)).trans ?_
  all_goals first | exact ex_lo _ _ | exact ex_all _ | exact bit_back _ | exact (bit_lo _ _ _ (by decide)).trans (bit_back _)

theorem ssub (o : SBin) : Statement (.ssub o) := ofA rfl rfl rfl rfl rfl rfl fun h => by
  obtain ⟨g, d, a, b, imm⟩ := o
  show Option.map _ _ = _
  simp [aG, aUn, aBin, aTern, aTy, sBin, aCmpD, aCmpC, aCmpM, cvtM, aNarrow, aQuant, src_back, dst_back, ssrc_back, guard_bits, ex_setWidth]
  all_goals repeat' apply And.intro
  all_goals repeat first | refine (ex_up _ _ _ _ (by decide)).trans ?_ | refine (bit_up _ _ _ (by decide)).trans ?_
  all_goals first | exact ex_lo _ _ | exact ex_all _ | exact bit_back _ | exact (bit_lo _ _ _ (by decide)).trans (bit_back _)

theorem smul (o : SBin) : Statement (.smul o) := ofA rfl rfl rfl rfl rfl rfl fun h => by
  obtain ⟨g, d, a, b, imm⟩ := o
  show Option.map _ _ = _
  simp [aG, aUn, aBin, aTern, aTy, sBin, aCmpD, aCmpC, aCmpM, cvtM, aNarrow, aQuant, src_back, dst_back, ssrc_back, guard_bits, ex_setWidth]
  all_goals repeat' apply And.intro
  all_goals repeat first | refine (ex_up _ _ _ _ (by decide)).trans ?_ | refine (bit_up _ _ _ (by decide)).trans ?_
  all_goals first | exact ex_lo _ _ | exact ex_all _ | exact bit_back _ | exact (bit_lo _ _ _ (by decide)).trans (bit_back _)

theorem sand (o : SBin) : Statement (.sand o) := ofA rfl rfl rfl rfl rfl rfl fun h => by
  obtain ⟨g, d, a, b, imm⟩ := o
  show Option.map _ _ = _
  simp [aG, aUn, aBin, aTern, aTy, sBin, aCmpD, aCmpC, aCmpM, cvtM, aNarrow, aQuant, src_back, dst_back, ssrc_back, guard_bits, ex_setWidth]
  all_goals repeat' apply And.intro
  all_goals repeat first | refine (ex_up _ _ _ _ (by decide)).trans ?_ | refine (bit_up _ _ _ (by decide)).trans ?_
  all_goals first | exact ex_lo _ _ | exact ex_all _ | exact bit_back _ | exact (bit_lo _ _ _ (by decide)).trans (bit_back _)

theorem sor (o : SBin) : Statement (.sor o) := ofA rfl rfl rfl rfl rfl rfl fun h => by
  obtain ⟨g, d, a, b, imm⟩ := o
  show Option.map _ _ = _
  simp [aG, aUn, aBin, aTern, aTy, sBin, aCmpD, aCmpC, aCmpM, cvtM, aNarrow, aQuant, src_back, dst_back, ssrc_back, guard_bits, ex_setWidth]
  all_goals repeat' apply And.intro
  all_goals repeat first | refine (ex_up _ _ _ _ (by decide)).trans ?_ | refine (bit_up _ _ _ (by decide)).trans ?_
  all_goals first | exact ex_lo _ _ | exact ex_all _ | exact bit_back _ | exact (bit_lo _ _ _ (by decide)).trans (bit_back _)

theorem sxor (o : SBin) : Statement (.sxor o) := ofA rfl rfl rfl rfl rfl rfl fun h => by
  obtain ⟨g, d, a, b, imm⟩ := o
  show Option.map _ _ = _
  simp [aG, aUn, aBin, aTern, aTy, sBin, aCmpD, aCmpC, aCmpM, cvtM, aNarrow, aQuant, src_back, dst_back, ssrc_back, guard_bits, ex_setWidth]
  all_goals repeat' apply And.intro
  all_goals repeat first | refine (ex_up _ _ _ _ (by decide)).trans ?_ | refine (bit_up _ _ _ (by decide)).trans ?_
  all_goals first | exact ex_lo _ _ | exact ex_all _ | exact bit_back _ | exact (bit_lo _ _ _ (by decide)).trans (bit_back _)

theorem sshl (o : SBin) : Statement (.sshl o) := ofA rfl rfl rfl rfl rfl rfl fun h => by
  obtain ⟨g, d, a, b, imm⟩ := o
  show Option.map _ _ = _
  simp [aG, aUn, aBin, aTern, aTy, sBin, aCmpD, aCmpC, aCmpM, cvtM, aNarrow, aQuant, src_back, dst_back, ssrc_back, guard_bits, ex_setWidth]
  all_goals repeat' apply And.intro
  all_goals repeat first | refine (ex_up _ _ _ _ (by decide)).trans ?_ | refine (bit_up _ _ _ (by decide)).trans ?_
  all_goals first | exact ex_lo _ _ | exact ex_all _ | exact bit_back _ | exact (bit_lo _ _ _ (by decide)).trans (bit_back _)

theorem sshr (arith : Bool) (o : SBin) : Statement (.sshr arith o) := ofA rfl rfl rfl rfl rfl rfl fun h => by
  obtain ⟨g, d, a, b, imm⟩ := o
  show Option.map _ _ = _
  simp [aG, aUn, aBin, aTern, aTy, sBin, aCmpD, aCmpC, aCmpM, cvtM, aNarrow, aQuant, src_back, dst_back, ssrc_back, guard_bits, ex_setWidth]
  all_goals repeat' apply And.intro
  all_goals repeat first | refine (ex_up _ _ _ _ (by decide)).trans ?_ | refine (bit_up _ _ _ (by decide)).trans ?_
  all_goals first | exact ex_lo _ _ | exact ex_all _ | exact bit_back _ | exact (bit_lo _ _ _ (by decide)).trans (bit_back _)

theorem sli (g : Guard) (d : BitVec 4) (v : SSrc) (imm : BitVec 32) : Statement (.sli g d v imm) := ofA rfl rfl rfl rfl rfl rfl fun h => by
  show Option.bind _ _ = _
  simp [aG, aUn, aBin, aTern, aTy, sBin, aCmpD, aCmpC, aCmpM, cvtM, aNarrow, aQuant, src_back, dst_back, ssrc_back, guard_bits, ex_setWidth]
  all_goals repeat' apply And.intro
  all_goals repeat first | refine (ex_up _ _ _ _ (by decide)).trans ?_ | refine (bit_up _ _ _ (by decide)).trans ?_
  all_goals first | exact ex_lo _ _ | exact ex_all _ | exact bit_back _ | exact (bit_lo _ _ _ (by decide)).trans (bit_back _)

theorem sget (g : Guard) (d : BitVec 4) (lane : BitVec 3) (a : Src) (imm : BitVec 32) : Statement (.sget g d lane a imm) := ofA rfl rfl rfl rfl rfl rfl fun h => by
  show Option.bind _ _ = _
  simp [aG, aUn, aBin, aTern, aTy, sBin, aCmpD, aCmpC, aCmpM, cvtM, aNarrow, aQuant, src_back, dst_back, ssrc_back, guard_bits, ex_setWidth]
  all_goals repeat' apply And.intro
  all_goals repeat first | refine (ex_up _ _ _ _ (by decide)).trans ?_ | refine (bit_up _ _ _ (by decide)).trans ?_
  all_goals first | exact ex_lo _ _ | exact ex_all _ | exact bit_back _ | exact (bit_lo _ _ _ (by decide)).trans (bit_back _)

theorem scmp (c : ACmpF) (a : BitVec 4) (b : SSrc) (imm : BitVec 32) : Statement (.scmp c a b imm) := ofA rfl rfl rfl rfl rfl rfl fun h => by
  obtain ⟨qn, qg, cond, ctype, red, p2, p1⟩ := c
  show Option.bind _ _ = _
  simp [aG, aUn, aBin, aTern, aTy, sBin, aCmpD, aCmpC, aCmpM, cvtM, aNarrow, aQuant, src_back, dst_back, ssrc_back, guard_bits, ex_setWidth]
  all_goals repeat' apply And.intro
  all_goals repeat first | refine (ex_up _ _ _ _ (by decide)).trans ?_ | refine (bit_up _ _ _ (by decide)).trans ?_
  all_goals first | exact ex_lo _ _ | exact ex_all _ | exact bit_back _ | exact (bit_lo _ _ _ (by decide)).trans (bit_back _)

theorem perm (g : Guard) (d : Dst) (a : Src) (sel : BitVec 24) : Statement (.perm g d a sel) := ofA rfl rfl rfl rfl rfl rfl fun h => by
  show Option.bind _ _ = _
  simp [aG, aUn, aBin, aTern, aTy, sBin, aCmpD, aCmpC, aCmpM, cvtM, aNarrow, aQuant, src_back, dst_back, ssrc_back, guard_bits, ex_setWidth]

theorem permv (o : ABin) : Statement (.permv o) := ofA rfl rfl rfl rfl rfl rfl fun h => by
  show Option.map _ _ = _
  simp [aG, aUn, aBin, aTern, aTy, sBin, aCmpD, aCmpC, aCmpM, cvtM, aNarrow, aQuant, src_back, dst_back, ssrc_back, guard_bits, ex_setWidth]

theorem bcast (t : BitVec 3) (k : BitVec 5) (o : AUn) : Statement (.bcast t k o) := ofA rfl rfl rfl rfl rfl rfl fun h => by
  show Option.map _ _ = _
  simp [aG, aUn, aBin, aTern, aTy, sBin, aCmpD, aCmpC, aCmpM, cvtM, aNarrow, aQuant, src_back, dst_back, ssrc_back, guard_bits, ex_setWidth]
  all_goals repeat' apply And.intro
  all_goals repeat first | refine (ex_up _ _ _ _ (by decide)).trans ?_ | refine (bit_up _ _ _ (by decide)).trans ?_
  all_goals first | exact ex_lo _ _ | exact ex_all _ | exact bit_back _ | exact (bit_lo _ _ _ (by decide)).trans (bit_back _)

theorem bcasts (t : BitVec 3) (g : Guard) (d : Dst) (b : SSrc) (imm : BitVec 32) : Statement (.bcasts t g d b imm) := ofA rfl rfl rfl rfl rfl rfl fun h => by
  show Option.bind _ _ = _
  simp [aG, aUn, aBin, aTern, aTy, sBin, aCmpD, aCmpC, aCmpM, cvtM, aNarrow, aQuant, src_back, dst_back, ssrc_back, guard_bits, ex_setWidth]
  all_goals repeat' apply And.intro
  all_goals repeat first | refine (ex_up _ _ _ _ (by decide)).trans ?_ | refine (bit_up _ _ _ (by decide)).trans ?_
  all_goals first | exact ex_lo _ _ | exact ex_all _ | exact bit_back _ | exact (bit_lo _ _ _ (by decide)).trans (bit_back _)

theorem red (op : BitVec 3) (t : BitVec 3) (o : AUn) : Statement (.red op t o) := ofA rfl rfl rfl rfl rfl rfl fun h => by
  show Option.map _ _ = _
  simp [aG, aUn, aBin, aTern, aTy, sBin, aCmpD, aCmpC, aCmpM, cvtM, aNarrow, aQuant, src_back, dst_back, ssrc_back, guard_bits, ex_setWidth]
  all_goals repeat' apply And.intro
  all_goals repeat first | refine (ex_up _ _ _ _ (by decide)).trans ?_ | refine (bit_up _ _ _ (by decide)).trans ?_
  all_goals first | exact ex_lo _ _ | exact ex_all _ | exact bit_back _ | exact (bit_lo _ _ _ (by decide)).trans (bit_back _)

theorem scan (op : BitVec 3) (ex : Bool) (t : BitVec 3) (o : AUn) : Statement (.scan op ex t o) := ofA rfl rfl rfl rfl rfl rfl fun h => by
  show Option.map _ _ = _
  simp [aG, aUn, aBin, aTern, aTy, sBin, aCmpD, aCmpC, aCmpM, cvtM, aNarrow, aQuant, src_back, dst_back, ssrc_back, guard_bits, ex_setWidth]
  all_goals repeat' apply And.intro
  all_goals repeat first | refine (ex_up _ _ _ _ (by decide)).trans ?_ | refine (bit_up _ _ _ (by decide)).trans ?_
  all_goals first | exact ex_lo _ _ | exact ex_all _ | exact bit_back _ | exact (bit_lo _ _ _ (by decide)).trans (bit_back _)

theorem popc (t : BitVec 3) (o : AUn) : Statement (.popc t o) := ofA rfl rfl rfl rfl rfl rfl fun h => by
  show Option.map _ _ = _
  simp [aG, aUn, aBin, aTern, aTy, sBin, aCmpD, aCmpC, aCmpM, cvtM, aNarrow, aQuant, src_back, dst_back, ssrc_back, guard_bits, ex_setWidth]
  all_goals repeat' apply And.intro
  all_goals repeat first | refine (ex_up _ _ _ _ (by decide)).trans ?_ | refine (bit_up _ _ _ (by decide)).trans ?_
  all_goals first | exact ex_lo _ _ | exact ex_all _ | exact bit_back _ | exact (bit_lo _ _ _ (by decide)).trans (bit_back _)

theorem clz (t : BitVec 3) (o : AUn) : Statement (.clz t o) := ofA rfl rfl rfl rfl rfl rfl fun h => by
  show Option.map _ _ = _
  simp [aG, aUn, aBin, aTern, aTy, sBin, aCmpD, aCmpC, aCmpM, cvtM, aNarrow, aQuant, src_back, dst_back, ssrc_back, guard_bits, ex_setWidth]
  all_goals repeat' apply And.intro
  all_goals repeat first | refine (ex_up _ _ _ _ (by decide)).trans ?_ | refine (bit_up _ _ _ (by decide)).trans ?_
  all_goals first | exact ex_lo _ _ | exact ex_all _ | exact bit_back _ | exact (bit_lo _ _ _ (by decide)).trans (bit_back _)

theorem bset (g : Guard) (k : BitVec 2) (b : SSrc) (imm : BitVec 32) : Statement (.bset g k b imm) := ofA rfl rfl rfl rfl rfl rfl fun h => by
  show Option.bind _ _ = _
  simp [aG, aUn, aBin, aTern, aTy, sBin, aCmpD, aCmpC, aCmpM, cvtM, aNarrow, aQuant, src_back, dst_back, ssrc_back, guard_bits, ex_setWidth]
  all_goals repeat' apply And.intro
  all_goals repeat first | refine (ex_up _ _ _ _ (by decide)).trans ?_ | refine (bit_up _ _ _ (by decide)).trans ?_
  all_goals first | exact ex_lo _ _ | exact ex_all _ | exact bit_back _ | exact (bit_lo _ _ _ (by decide)).trans (bit_back _)

theorem fadd (rm : BitVec 2) (o : ABin) : Statement (.fadd rm o) := ofA rfl rfl rfl rfl rfl rfl fun h => by
  show Option.map _ _ = _
  simp [aG, aUn, aBin, aTern, aTy, sBin, aCmpD, aCmpC, aCmpM, cvtM, aNarrow, aQuant, src_back, dst_back, ssrc_back, guard_bits, ex_setWidth]

theorem fsub (rm : BitVec 2) (o : ABin) : Statement (.fsub rm o) := ofA rfl rfl rfl rfl rfl rfl fun h => by
  show Option.map _ _ = _
  simp [aG, aUn, aBin, aTern, aTy, sBin, aCmpD, aCmpC, aCmpM, cvtM, aNarrow, aQuant, src_back, dst_back, ssrc_back, guard_bits, ex_setWidth]

theorem fmul (rm : BitVec 2) (o : ABin) : Statement (.fmul rm o) := ofA rfl rfl rfl rfl rfl rfl fun h => by
  show Option.map _ _ = _
  simp [aG, aUn, aBin, aTern, aTy, sBin, aCmpD, aCmpC, aCmpM, cvtM, aNarrow, aQuant, src_back, dst_back, ssrc_back, guard_bits, ex_setWidth]

theorem fma (rm : BitVec 2) (o : ATern) : Statement (.fma rm o) := ofA rfl rfl rfl rfl rfl rfl fun h => by
  show Option.map _ _ = _
  simp [aG, aUn, aBin, aTern, aTy, sBin, aCmpD, aCmpC, aCmpM, cvtM, aNarrow, aQuant, src_back, dst_back, ssrc_back, guard_bits, ex_setWidth]

theorem fms (rm : BitVec 2) (o : ATern) : Statement (.fms rm o) := ofA rfl rfl rfl rfl rfl rfl fun h => by
  show Option.map _ _ = _
  simp [aG, aUn, aBin, aTern, aTy, sBin, aCmpD, aCmpC, aCmpM, cvtM, aNarrow, aQuant, src_back, dst_back, ssrc_back, guard_bits, ex_setWidth]

theorem fnma (rm : BitVec 2) (o : ATern) : Statement (.fnma rm o) := ofA rfl rfl rfl rfl rfl rfl fun h => by
  show Option.map _ _ = _
  simp [aG, aUn, aBin, aTern, aTy, sBin, aCmpD, aCmpC, aCmpM, cvtM, aNarrow, aQuant, src_back, dst_back, ssrc_back, guard_bits, ex_setWidth]

theorem fnms (rm : BitVec 2) (o : ATern) : Statement (.fnms rm o) := ofA rfl rfl rfl rfl rfl rfl fun h => by
  show Option.map _ _ = _
  simp [aG, aUn, aBin, aTern, aTy, sBin, aCmpD, aCmpC, aCmpM, cvtM, aNarrow, aQuant, src_back, dst_back, ssrc_back, guard_bits, ex_setWidth]

theorem fmin (o : ABin) : Statement (.fmin o) := ofA rfl rfl rfl rfl rfl rfl fun h => by
  show Option.map _ _ = _
  simp [aG, aUn, aBin, aTern, aTy, sBin, aCmpD, aCmpC, aCmpM, cvtM, aNarrow, aQuant, src_back, dst_back, ssrc_back, guard_bits, ex_setWidth]

theorem fmax (o : ABin) : Statement (.fmax o) := ofA rfl rfl rfl rfl rfl rfl fun h => by
  show Option.map _ _ = _
  simp [aG, aUn, aBin, aTern, aTy, sBin, aCmpD, aCmpC, aCmpM, cvtM, aNarrow, aQuant, src_back, dst_back, ssrc_back, guard_bits, ex_setWidth]

theorem fabs (o : AUn) : Statement (.fabs o) := ofA rfl rfl rfl rfl rfl rfl fun h => by
  show Option.map _ _ = _
  simp [aG, aUn, aBin, aTern, aTy, sBin, aCmpD, aCmpC, aCmpM, cvtM, aNarrow, aQuant, src_back, dst_back, ssrc_back, guard_bits, ex_setWidth]

theorem fneg (o : AUn) : Statement (.fneg o) := ofA rfl rfl rfl rfl rfl rfl fun h => by
  show Option.map _ _ = _
  simp [aG, aUn, aBin, aTern, aTy, sBin, aCmpD, aCmpC, aCmpM, cvtM, aNarrow, aQuant, src_back, dst_back, ssrc_back, guard_bits, ex_setWidth]

theorem fcmp (c : ACmpF) (a : Src) (b : Src) (imm : BitVec 32) : Statement (.fcmp c a b imm) := ofA rfl rfl rfl rfl rfl rfl fun h => by
  obtain ⟨qn, qg, cond, ctype, red, p2, p1⟩ := c
  show Option.bind _ _ = _
  simp [aG, aUn, aBin, aTern, aTy, sBin, aCmpD, aCmpC, aCmpM, cvtM, aNarrow, aQuant, src_back, dst_back, ssrc_back, guard_bits, ex_setWidth]
  all_goals repeat' apply And.intro
  all_goals repeat first | refine (ex_up _ _ _ _ (by decide)).trans ?_ | refine (bit_up _ _ _ (by decide)).trans ?_
  all_goals first | exact ex_lo _ _ | exact ex_all _ | exact bit_back _ | exact (bit_lo _ _ _ (by decide)).trans (bit_back _)

theorem fclass (o : AUn) : Statement (.fclass o) := ofA rfl rfl rfl rfl rfl rfl fun h => by
  show Option.map _ _ = _
  simp [aG, aUn, aBin, aTern, aTy, sBin, aCmpD, aCmpC, aCmpM, cvtM, aNarrow, aQuant, src_back, dst_back, ssrc_back, guard_bits, ex_setWidth]

theorem frnd (rm : BitVec 2) (o : AUn) : Statement (.frnd rm o) := ofA rfl rfl rfl rfl rfl rfl fun h => by
  show Option.map _ _ = _
  simp [aG, aUn, aBin, aTern, aTy, sBin, aCmpD, aCmpC, aCmpM, cvtM, aNarrow, aQuant, src_back, dst_back, ssrc_back, guard_bits, ex_setWidth]

theorem fexp2f (o : AUn) : Statement (.fexp2f o) := ofA rfl rfl rfl rfl rfl rfl fun h => by
  show Option.map _ _ = _
  simp [aG, aUn, aBin, aTern, aTy, sBin, aCmpD, aCmpC, aCmpM, cvtM, aNarrow, aQuant, src_back, dst_back, ssrc_back, guard_bits, ex_setWidth]

theorem fexpins (rm : BitVec 2) (o : ABin) : Statement (.fexpins rm o) := ofA rfl rfl rfl rfl rfl rfl fun h => by
  show Option.map _ _ = _
  simp [aG, aUn, aBin, aTern, aTy, sBin, aCmpD, aCmpC, aCmpM, cvtM, aNarrow, aQuant, src_back, dst_back, ssrc_back, guard_bits, ex_setWidth]

theorem fgetexp (o : AUn) : Statement (.fgetexp o) := ofA rfl rfl rfl rfl rfl rfl fun h => by
  show Option.map _ _ = _
  simp [aG, aUn, aBin, aTern, aTy, sBin, aCmpD, aCmpC, aCmpM, cvtM, aNarrow, aQuant, src_back, dst_back, ssrc_back, guard_bits, ex_setWidth]

theorem frcp (rm : BitVec 2) (o : AUn) : Statement (.frcp rm o) := ofA rfl rfl rfl rfl rfl rfl fun h => by
  show Option.map _ _ = _
  simp [aG, aUn, aBin, aTern, aTy, sBin, aCmpD, aCmpC, aCmpM, cvtM, aNarrow, aQuant, src_back, dst_back, ssrc_back, guard_bits, ex_setWidth]

theorem frsq (rm : BitVec 2) (o : AUn) : Statement (.frsq rm o) := ofA rfl rfl rfl rfl rfl rfl fun h => by
  show Option.map _ _ = _
  simp [aG, aUn, aBin, aTern, aTy, sBin, aCmpD, aCmpC, aCmpM, cvtM, aNarrow, aQuant, src_back, dst_back, ssrc_back, guard_bits, ex_setWidth]

theorem cvtF32Bf16 (p : BitVec 2) (o : AUn) : Statement (.cvtF32Bf16 p o) := ofA rfl rfl rfl rfl rfl rfl fun h => by
  show Option.map _ _ = _
  simp [aG, aUn, aBin, aTern, aTy, sBin, aCmpD, aCmpC, aCmpM, cvtM, aNarrow, aQuant, src_back, dst_back, ssrc_back, guard_bits, ex_setWidth]
  all_goals repeat' apply And.intro
  all_goals repeat first | refine (ex_up _ _ _ _ (by decide)).trans ?_ | refine (bit_up _ _ _ (by decide)).trans ?_
  all_goals first | exact ex_lo _ _ | exact ex_all _ | exact bit_back _ | exact (bit_lo _ _ _ (by decide)).trans (bit_back _)

theorem cvtBf16F32 (rm : BitVec 2) (o : ANarrow) : Statement (.cvtBf16F32 rm o) := ofA rfl rfl rfl rfl rfl rfl fun h => by
  obtain ⟨g, part, qw, d, a, base, imm⟩ := o
  show Option.map _ _ = _
  simp [aG, aUn, aBin, aTern, aTy, sBin, aCmpD, aCmpC, aCmpM, cvtM, aNarrow, aQuant, src_back, dst_back, ssrc_back, guard_bits, ex_setWidth]
  all_goals repeat' apply And.intro
  all_goals repeat first | refine (ex_up _ _ _ _ (by decide)).trans ?_ | refine (bit_up _ _ _ (by decide)).trans ?_
  all_goals first | exact ex_lo _ _ | exact ex_all _ | exact bit_back _ | exact (bit_lo _ _ _ (by decide)).trans (bit_back _)

theorem cvtF32I (rm : BitVec 2) (t : BitVec 3) (p : BitVec 2) (o : AUn) : Statement (.cvtF32I rm t p o) := ofA rfl rfl rfl rfl rfl rfl fun h => by
  show Option.map _ _ = _
  simp [aG, aUn, aBin, aTern, aTy, sBin, aCmpD, aCmpC, aCmpM, cvtM, aNarrow, aQuant, src_back, dst_back, ssrc_back, guard_bits, ex_setWidth]
  all_goals repeat' apply And.intro
  all_goals repeat first | refine (ex_up _ _ _ _ (by decide)).trans ?_ | refine (bit_up _ _ _ (by decide)).trans ?_
  all_goals first | exact ex_lo _ _ | exact ex_all _ | exact bit_back _ | exact (bit_lo _ _ _ (by decide)).trans (bit_back _)

theorem cvtI32F32 (rm : BitVec 2) (o : AUn) : Statement (.cvtI32F32 rm o) := ofA rfl rfl rfl rfl rfl rfl fun h => by
  show Option.map _ _ = _
  simp [aG, aUn, aBin, aTern, aTy, sBin, aCmpD, aCmpC, aCmpM, cvtM, aNarrow, aQuant, src_back, dst_back, ssrc_back, guard_bits, ex_setWidth]

theorem cvtI8F32 (rm : BitVec 2) (o : ANarrow) : Statement (.cvtI8F32 rm o) := ofA rfl rfl rfl rfl rfl rfl fun h => by
  obtain ⟨g, part, qw, d, a, base, imm⟩ := o
  show Option.map _ _ = _
  simp [aG, aUn, aBin, aTern, aTy, sBin, aCmpD, aCmpC, aCmpM, cvtM, aNarrow, aQuant, src_back, dst_back, ssrc_back, guard_bits, ex_setWidth]
  all_goals repeat' apply And.intro
  all_goals repeat first | refine (ex_up _ _ _ _ (by decide)).trans ?_ | refine (bit_up _ _ _ (by decide)).trans ?_
  all_goals first | exact ex_lo _ _ | exact ex_all _ | exact bit_back _ | exact (bit_lo _ _ _ (by decide)).trans (bit_back _)

theorem cvtI16F32 (rm : BitVec 2) (o : ANarrow) : Statement (.cvtI16F32 rm o) := ofA rfl rfl rfl rfl rfl rfl fun h => by
  obtain ⟨g, part, qw, d, a, base, imm⟩ := o
  show Option.map _ _ = _
  simp [aG, aUn, aBin, aTern, aTy, sBin, aCmpD, aCmpC, aCmpM, cvtM, aNarrow, aQuant, src_back, dst_back, ssrc_back, guard_bits, ex_setWidth]
  all_goals repeat' apply And.intro
  all_goals repeat first | refine (ex_up _ _ _ _ (by decide)).trans ?_ | refine (bit_up _ _ _ (by decide)).trans ?_
  all_goals first | exact ex_lo _ _ | exact ex_all _ | exact bit_back _ | exact (bit_lo _ _ _ (by decide)).trans (bit_back _)

theorem cvtPs8F32 (o : ANarrow) : Statement (.cvtPs8F32 o) := ofA rfl rfl rfl rfl rfl rfl fun h => by
  obtain ⟨g, part, qw, d, a, base, imm⟩ := o
  show Option.map _ _ = _
  simp [aG, aUn, aBin, aTern, aTy, sBin, aCmpD, aCmpC, aCmpM, cvtM, aNarrow, aQuant, src_back, dst_back, ssrc_back, guard_bits, ex_setWidth]
  all_goals repeat' apply And.intro
  all_goals repeat first | refine (ex_up _ _ _ _ (by decide)).trans ?_ | refine (bit_up _ _ _ (by decide)).trans ?_
  all_goals first | exact ex_lo _ _ | exact ex_all _ | exact bit_back _ | exact (bit_lo _ _ _ (by decide)).trans (bit_back _)

theorem cvtF32Ps8 (p : BitVec 2) (o : AUn) : Statement (.cvtF32Ps8 p o) := ofA rfl rfl rfl rfl rfl rfl fun h => by
  show Option.map _ _ = _
  simp [aG, aUn, aBin, aTern, aTy, sBin, aCmpD, aCmpC, aCmpM, cvtM, aNarrow, aQuant, src_back, dst_back, ssrc_back, guard_bits, ex_setWidth]
  all_goals repeat' apply And.intro
  all_goals repeat first | refine (ex_up _ _ _ _ (by decide)).trans ?_ | refine (bit_up _ _ _ (by decide)).trans ?_
  all_goals first | exact ex_lo _ _ | exact ex_all _ | exact bit_back _ | exact (bit_lo _ _ _ (by decide)).trans (bit_back _)

theorem cvtI8I32 (o : ANarrow) : Statement (.cvtI8I32 o) := ofA rfl rfl rfl rfl rfl rfl fun h => by
  obtain ⟨g, part, qw, d, a, base, imm⟩ := o
  show Option.map _ _ = _
  simp [aG, aUn, aBin, aTern, aTy, sBin, aCmpD, aCmpC, aCmpM, cvtM, aNarrow, aQuant, src_back, dst_back, ssrc_back, guard_bits, ex_setWidth]
  all_goals repeat' apply And.intro
  all_goals repeat first | refine (ex_up _ _ _ _ (by decide)).trans ?_ | refine (bit_up _ _ _ (by decide)).trans ?_
  all_goals first | exact ex_lo _ _ | exact ex_all _ | exact bit_back _ | exact (bit_lo _ _ _ (by decide)).trans (bit_back _)

theorem cvtI16I32 (o : ANarrow) : Statement (.cvtI16I32 o) := ofA rfl rfl rfl rfl rfl rfl fun h => by
  obtain ⟨g, part, qw, d, a, base, imm⟩ := o
  show Option.map _ _ = _
  simp [aG, aUn, aBin, aTern, aTy, sBin, aCmpD, aCmpC, aCmpM, cvtM, aNarrow, aQuant, src_back, dst_back, ssrc_back, guard_bits, ex_setWidth]
  all_goals repeat' apply And.intro
  all_goals repeat first | refine (ex_up _ _ _ _ (by decide)).trans ?_ | refine (bit_up _ _ _ (by decide)).trans ?_
  all_goals first | exact ex_lo _ _ | exact ex_all _ | exact bit_back _ | exact (bit_lo _ _ _ (by decide)).trans (bit_back _)

theorem cvtI32I (t : BitVec 3) (p : BitVec 2) (o : AUn) : Statement (.cvtI32I t p o) := ofA rfl rfl rfl rfl rfl rfl fun h => by
  show Option.map _ _ = _
  simp [aG, aUn, aBin, aTern, aTy, sBin, aCmpD, aCmpC, aCmpM, cvtM, aNarrow, aQuant, src_back, dst_back, ssrc_back, guard_bits, ex_setWidth]
  all_goals repeat' apply And.intro
  all_goals repeat first | refine (ex_up _ _ _ _ (by decide)).trans ?_ | refine (bit_up _ _ _ (by decide)).trans ?_
  all_goals first | exact ex_lo _ _ | exact ex_all _ | exact bit_back _ | exact (bit_lo _ _ _ (by decide)).trans (bit_back _)

theorem quantI8 (rm : BitVec 2) (o : AQuant) : Statement (.quantI8 rm o) := ofA rfl rfl rfl rfl rfl rfl fun h => by
  obtain ⟨g, part, qw, d, a, s, base, imm⟩ := o
  show Option.map _ _ = _
  simp [aG, aUn, aBin, aTern, aTy, sBin, aCmpD, aCmpC, aCmpM, cvtM, aNarrow, aQuant, src_back, dst_back, ssrc_back, guard_bits, ex_setWidth]
  all_goals repeat' apply And.intro
  all_goals repeat first | refine (ex_up _ _ _ _ (by decide)).trans ?_ | refine (bit_up _ _ _ (by decide)).trans ?_
  all_goals first | exact ex_lo _ _ | exact ex_all _ | exact bit_back _ | exact (bit_lo _ _ _ (by decide)).trans (bit_back _)

theorem quantPs8 (o : AQuant) : Statement (.quantPs8 o) := ofA rfl rfl rfl rfl rfl rfl fun h => by
  obtain ⟨g, part, qw, d, a, s, base, imm⟩ := o
  show Option.map _ _ = _
  simp [aG, aUn, aBin, aTern, aTy, sBin, aCmpD, aCmpC, aCmpM, cvtM, aNarrow, aQuant, src_back, dst_back, ssrc_back, guard_bits, ex_setWidth]
  all_goals repeat' apply And.intro
  all_goals repeat first | refine (ex_up _ _ _ _ (by decide)).trans ?_ | refine (bit_up _ _ _ (by decide)).trans ?_
  all_goals first | exact ex_lo _ _ | exact ex_all _ | exact bit_back _ | exact (bit_lo _ _ _ (by decide)).trans (bit_back _)

theorem ld (o : MLoad) : Statement (.ld o) := ofM rfl rfl rfl rfl rfl rfl fun h => by
  simp only [candM]
  simp [mG, mLoad, mStore, src_back, dst_back, guard_bits, ex_setWidth]

theorem ldW (o : MLoad) : Statement (.ldW o) := ofM rfl rfl rfl rfl rfl rfl fun h => by
  simp only [candM]
  simp [mG, mLoad, mStore, src_back, dst_back, guard_bits, ex_setWidth]

theorem st (o : MStore) : Statement (.st o) := ofM rfl rfl rfl rfl rfl rfl fun h => by
  simp only [candM]
  simp [mG, mLoad, mStore, src_back, dst_back, guard_bits, ex_setWidth]

theorem stW (o : MStore) : Statement (.stW o) := ofM rfl rfl rfl rfl rfl rfl fun h => by
  simp only [candM]
  simp [mG, mLoad, mStore, src_back, dst_back, guard_bits, ex_setWidth]

theorem ldB (o : MLoad) : Statement (.ldB o) := ofM rfl rfl rfl rfl rfl rfl fun h => by
  show Option.map _ _ = _
  simp [mG, mLoad, mStore, src_back, dst_back, guard_bits, ex_setWidth]

theorem ldq (g : Guard) (d : Dst) (k : BitVec 4) : Statement (.ldq g d k) := ofM rfl rfl rfl rfl rfl rfl fun h => by
  show Option.map _ _ = _
  simp [mG, mLoad, mStore, src_back, dst_back, guard_bits, ex_setWidth]

theorem stq (g : Guard) (k : BitVec 4) (v : Src) : Statement (.stq g k v) := ofM rfl rfl rfl rfl rfl rfl fun h => by
  show Option.map _ _ = _
  simp [mG, mLoad, mStore, src_back, dst_back, guard_bits, ex_setWidth]

theorem qpeek (g : Guard) (d : Dst) (k : BitVec 4) (j : BitVec 12) : Statement (.qpeek g d k j) := ofM rfl rfl rfl rfl rfl rfl fun h => by
  simp only [candM]
  simp [mG, mLoad, mStore, src_back, dst_back, guard_bits, ex_setWidth]
  all_goals repeat' apply And.intro
  all_goals repeat first | refine (ex_up _ _ _ _ (by decide)).trans ?_ | refine (bit_up _ _ _ (by decide)).trans ?_
  all_goals first | exact ex_lo _ _ | exact ex_all _ | exact bit_back _ | exact (bit_lo _ _ _ (by decide)).trans (bit_back _)

theorem qpeekN (g : Guard) (d : Dst) (k : BitVec 4) : Statement (.qpeekN g d k) := ofM rfl rfl rfl rfl rfl rfl fun h => by
  simp only [candM]
  simp [mG, mLoad, mStore, src_back, dst_back, guard_bits, ex_setWidth]

theorem cw (g : Guard) (v : Src) : Statement (.cw g v) := ofM rfl rfl rfl rfl rfl rfl fun h => by
  show Option.map _ _ = _
  simp [mG, mLoad, mStore, src_back, dst_back, guard_bits, ex_setWidth]

theorem vpush (g : Guard) (v : Src) : Statement (.vpush g v) := ofM rfl rfl rfl rfl rfl rfl fun h => by
  show Option.map _ _ = _
  simp [mG, mLoad, mStore, src_back, dst_back, guard_bits, ex_setWidth]

theorem vpop (g : Guard) (d : Dst) : Statement (.vpop g d) := ofM rfl rfl rfl rfl rfl rfl fun h => by
  show Option.map _ _ = _
  simp [mG, mLoad, mStore, src_back, dst_back, guard_bits, ex_setWidth]

theorem vfree (g : Guard) (d : Dst) : Statement (.vfree g d) := ofM rfl rfl rfl rfl rfl rfl fun h => by
  simp only [candM]
  simp [mG, mLoad, mStore, src_back, dst_back, guard_bits, ex_setWidth]

theorem vfreeIn (g : Guard) (d : Dst) : Statement (.vfreeIn g d) := ofM rfl rfl rfl rfl rfl rfl fun h => by
  simp only [candM]
  simp [mG, mLoad, mStore, src_back, dst_back, guard_bits, ex_setWidth]

theorem ldw (g : Guard) (form : BitVec 2) (v : Src) (off : BitVec 16) : Statement (.ldw g form v off) := ofT rfl rfl rfl rfl rfl rfl fun h => by
  show Option.map _ _ = _
  simp [tG, tPass, src_back, dst_back, guard_bits, ex_setWidth]
  all_goals repeat' apply And.intro
  all_goals repeat first | refine (ex_up _ _ _ _ (by decide)).trans ?_ | refine (bit_up _ _ _ (by decide)).trans ?_
  all_goals first | exact ex_lo _ _ | exact ex_all _ | exact bit_back _ | exact (bit_lo _ _ _ (by decide)).trans (bit_back _)

theorem flip (g : Guard) : Statement (.flip g) := ofT rfl rfl rfl rfl rfl rfl fun h => by
  show some (Instr.flip _) = _
  simp [tG, tPass, src_back, dst_back, guard_bits, ex_setWidth]

theorem mmPs8 (o : TPass) : Statement (.mmPs8 o) := ofT rfl rfl rfl rfl rfl rfl fun _ => congrArg (fun x => some (Instr.mmPs8 x)) (pass_back 8 o)

theorem mmI8 (o : TPass) : Statement (.mmI8 o) := ofT rfl rfl rfl rfl rfl rfl fun _ => congrArg (fun x => some (Instr.mmI8 x)) (pass_back 9 o)

theorem mmBf16 (o : TPass) : Statement (.mmBf16 o) := ofT rfl rfl rfl rfl rfl rfl fun _ => congrArg (fun x => some (Instr.mmBf16 x)) (pass_back 10 o)

theorem mmChain (g : Guard) (mode : BitVec 2) (arow : BitVec 8) (acol : BitVec 9) (cnt : BitVec 8) : Statement (.mmChain g mode arow acol cnt) := ofT rfl rfl rfl rfl rfl rfl fun h => by
  show some (Instr.mmChain _ _ _ _ _) = _
  simp [tG, tPass, src_back, dst_back, guard_bits, ex_setWidth]
  all_goals repeat' apply And.intro
  all_goals repeat first | refine (ex_up _ _ _ _ (by decide)).trans ?_ | refine (bit_up _ _ _ (by decide)).trans ?_
  all_goals first | exact ex_lo _ _ | exact ex_all _ | exact bit_back _ | exact (bit_lo _ _ _ (by decide)).trans (bit_back _)

theorem mmd (arow : BitVec 8) (cnt : BitVec 8) (qw : BitVec 4) (name : BitVec 16) : Statement (.mmd arow cnt qw name) := ofT rfl rfl rfl rfl rfl rfl fun h => by
  show some (Instr.mmd _ _ _ _) = _
  simp [tG, tPass, src_back, dst_back, guard_bits, ex_setWidth]

theorem accZero (g : Guard) (arow : BitVec 8) (x : BitVec 10) : Statement (.accZero g arow x) := ofT rfl rfl rfl rfl rfl rfl fun h => by
  show some (Instr.accZero _ _ _) = _
  simp [tG, tPass, src_back, dst_back, guard_bits, ex_setWidth]
  all_goals repeat' apply And.intro
  all_goals repeat first | refine (ex_up _ _ _ _ (by decide)).trans ?_ | refine (bit_up _ _ _ (by decide)).trans ?_
  all_goals first | exact ex_lo _ _ | exact ex_all _ | exact bit_back _ | exact (bit_lo _ _ _ (by decide)).trans (bit_back _)

theorem accRd (g : Guard) (d : Dst) (arow : BitVec 8) (acol : BitVec 9) : Statement (.accRd g d arow acol) := ofT rfl rfl rfl rfl rfl rfl fun h => by
  simp only [candT]
  simp [tG, tPass, src_back, dst_back, guard_bits, ex_setWidth]

theorem accRdSt (g : Guard) (d : Dst) (arow : BitVec 8) : Statement (.accRdSt g d arow) := ofT rfl rfl rfl rfl rfl rfl fun h => by
  simp only [candT]
  simp [tG, tPass, src_back, dst_back, guard_bits, ex_setWidth]

theorem accWr (g : Guard) (v : Src) (arow : BitVec 8) (acol : BitVec 9) (x : BitVec 10) : Statement (.accWr g v arow acol x) := ofT rfl rfl rfl rfl rfl rfl fun h => by
  show Option.map _ _ = _
  simp [tG, tPass, src_back, dst_back, guard_bits, ex_setWidth]
  all_goals repeat' apply And.intro
  all_goals repeat first | refine (ex_up _ _ _ _ (by decide)).trans ?_ | refine (bit_up _ _ _ (by decide)).trans ?_
  all_goals first | exact ex_lo _ _ | exact ex_all _ | exact bit_back _ | exact (bit_lo _ _ _ (by decide)).trans (bit_back _)

theorem accCp (g : Guard) (drow : BitVec 8) (arow : BitVec 8) : Statement (.accCp g drow arow) := ofT rfl rfl rfl rfl rfl rfl fun h => by
  show some (Instr.accCp _ _ _) = _
  simp [tG, tPass, src_back, dst_back, guard_bits, ex_setWidth]
  all_goals repeat' apply And.intro
  all_goals repeat first | refine (ex_up _ _ _ _ (by decide)).trans ?_ | refine (bit_up _ _ _ (by decide)).trans ?_
  all_goals first | exact ex_lo _ _ | exact ex_all _ | exact bit_back _ | exact (bit_lo _ _ _ (by decide)).trans (bit_back _)

theorem accCvt (g : Guard) (rm : BitVec 2) (toI32 : Bool) (v : Src) (arow : BitVec 8) (acol : BitVec 9) : Statement (.accCvt g rm toI32 v arow acol) := ofT rfl rfl rfl rfl rfl rfl fun h => by
  show Option.map _ _ = _
  simp [tG, tPass, src_back, dst_back, guard_bits, ex_setWidth]
  all_goals repeat' apply And.intro
  all_goals repeat first | refine (ex_up _ _ _ _ (by decide)).trans ?_ | refine (bit_up _ _ _ (by decide)).trans ?_
  all_goals first | exact ex_lo _ _ | exact ex_all _ | exact bit_back _ | exact (bit_lo _ _ _ (by decide)).trans (bit_back _)

theorem accScl (g : Guard) (drow : BitVec 8) (arow : BitVec 8) (acol : BitVec 9) (v : Src) : Statement (.accScl g drow arow acol v) := ofT rfl rfl rfl rfl rfl rfl fun h => by
  show Option.map _ _ = _
  simp [tG, tPass, src_back, dst_back, guard_bits, ex_setWidth]
  all_goals repeat' apply And.intro
  all_goals repeat first | refine (ex_up _ _ _ _ (by decide)).trans ?_ | refine (bit_up _ _ _ (by decide)).trans ?_
  all_goals first | exact ex_lo _ _ | exact ex_all _ | exact bit_back _ | exact (bit_lo _ _ _ (by decide)).trans (bit_back _)

theorem lrow (g : Guard) (k : BitVec 4) (xa : BitVec 5) (xb : BitVec 5) : Statement (.lrow g k xa xb) := ofE rfl rfl rfl rfl rfl rfl fun h => by
  show some (Instr.lrow _ _ _ _) = _
  simp [eG, eAtom, strm, guard_bits, ex_setWidth]

theorem srow (g : Guard) (k : BitVec 4) (xa : BitVec 5) (xb : BitVec 5) : Statement (.srow g k xa xb) := ofE rfl rfl rfl rfl rfl rfl fun h => by
  show some (Instr.srow _ _ _ _) = _
  simp [eG, eAtom, strm, guard_bits, ex_setWidth]

theorem copy (g : Guard) (k : BitVec 4) (n1 : BitVec 4) : Statement (.copy g k n1) := ofE rfl rfl rfl rfl rfl rfl fun h => by
  show some (Instr.copy _ _ _) = _
  simp [eG, eAtom, strm, guard_bits, ex_setWidth]

theorem tierPf (g : Guard) (k : BitVec 4) (n1 : BitVec 4) : Statement (.tierPf g k n1) := ofE rfl rfl rfl rfl rfl rfl fun h => by
  show some (Instr.tierPf _ _ _) = _
  simp [eG, eAtom, strm, guard_bits, ex_setWidth]

theorem mpRun (g : Guard) (xa : BitVec 5) (rq : BitVec 4) (nrd : BitVec 13) (wq : BitVec 4) (nwr : BitVec 13) : Statement (.mpRun g xa rq nrd wq nwr) := ofE rfl rfl rfl rfl rfl rfl fun h => by
  show some (Instr.mpRun _ _ _ _ _ _) = _
  simp [eG, eAtom, strm, guard_bits, ex_setWidth]
  all_goals repeat' apply And.intro
  all_goals repeat first | refine (ex_up _ _ _ _ (by decide)).trans ?_ | refine (bit_up _ _ _ (by decide)).trans ?_
  all_goals first | exact ex_lo _ _ | exact ex_all _ | exact bit_back _ | exact (bit_lo _ _ _ (by decide)).trans (bit_back _)

theorem gather (g : Guard) (j : BitVec 3) (n1 : BitVec 12) : Statement (.gather g j n1) := ofE rfl rfl rfl rfl rfl rfl fun h => by
  show some (Instr.gather _ _ _) = _
  simp [eG, eAtom, strm, guard_bits, ex_setWidth]
  all_goals repeat' apply And.intro
  all_goals repeat first | refine (ex_up _ _ _ _ (by decide)).trans ?_ | refine (bit_up _ _ _ (by decide)).trans ?_
  all_goals first | exact ex_lo _ _ | exact ex_all _ | exact bit_back _ | exact (bit_lo _ _ _ (by decide)).trans (bit_back _)

theorem scatter (g : Guard) (j : BitVec 3) (n1 : BitVec 12) : Statement (.scatter g j n1) := ofE rfl rfl rfl rfl rfl rfl fun h => by
  show some (Instr.scatter _ _ _) = _
  simp [eG, eAtom, strm, guard_bits, ex_setWidth]
  all_goals repeat' apply And.intro
  all_goals repeat first | refine (ex_up _ _ _ _ (by decide)).trans ?_ | refine (bit_up _ _ _ (by decide)).trans ?_
  all_goals first | exact ex_lo _ _ | exact ex_all _ | exact bit_back _ | exact (bit_lo _ _ _ (by decide)).trans (bit_back _)

theorem strmSet (g : Guard) (j : BitVec 3) (xa : BitVec 5) : Statement (.strmSet g j xa) := ofE rfl rfl rfl rfl rfl rfl fun h => by
  show some (Instr.strmSet _ _ _) = _
  simp [eG, eAtom, strm, guard_bits, ex_setWidth]
  all_goals repeat' apply And.intro
  all_goals repeat first | refine (ex_up _ _ _ _ (by decide)).trans ?_ | refine (bit_up _ _ _ (by decide)).trans ?_
  all_goals first | exact ex_lo _ _ | exact ex_all _ | exact bit_back _ | exact (bit_lo _ _ _ (by decide)).trans (bit_back _)

theorem probe (g : Guard) (j : BitVec 3) (xa : BitVec 5) (xb : BitVec 5) (n1 : BitVec 12) : Statement (.probe g j xa xb n1) := ofE rfl rfl rfl rfl rfl rfl fun h => by
  show some (Instr.probe _ _ _ _ _) = _
  simp [eG, eAtom, strm, guard_bits, ex_setWidth]
  all_goals repeat' apply And.intro
  all_goals repeat first | refine (ex_up _ _ _ _ (by decide)).trans ?_ | refine (bit_up _ _ _ (by decide)).trans ?_
  all_goals first | exact ex_lo _ _ | exact ex_all _ | exact bit_back _ | exact (bit_lo _ _ _ (by decide)).trans (bit_back _)

theorem atomAdd (o : EAtom) : Statement (.atomAdd o) := ofE rfl rfl rfl rfl rfl rfl fun _ => congrArg (fun x => some (Instr.atomAdd x)) (atom_back 0 o)

theorem atomMin (o : EAtom) : Statement (.atomMin o) := ofE rfl rfl rfl rfl rfl rfl fun _ => congrArg (fun x => some (Instr.atomMin x)) (atom_back 1 o)

theorem atomMax (o : EAtom) : Statement (.atomMax o) := ofE rfl rfl rfl rfl rfl rfl fun _ => congrArg (fun x => some (Instr.atomMax x)) (atom_back 2 o)

theorem atomAnd (o : EAtom) : Statement (.atomAnd o) := ofE rfl rfl rfl rfl rfl rfl fun _ => congrArg (fun x => some (Instr.atomAnd x)) (atom_back 3 o)

theorem atomOr (o : EAtom) : Statement (.atomOr o) := ofE rfl rfl rfl rfl rfl rfl fun _ => congrArg (fun x => some (Instr.atomOr x)) (atom_back 4 o)

theorem atomXor (o : EAtom) : Statement (.atomXor o) := ofE rfl rfl rfl rfl rfl rfl fun _ => congrArg (fun x => some (Instr.atomXor x)) (atom_back 5 o)

theorem atomSwap (o : EAtom) : Statement (.atomSwap o) := ofE rfl rfl rfl rfl rfl rfl fun _ => congrArg (fun x => some (Instr.atomSwap x)) (atom_back 6 o)

theorem atomCas (o : EAtom) : Statement (.atomCas o) := ofE rfl rfl rfl rfl rfl rfl fun _ => congrArg (fun x => some (Instr.atomCas x)) (atom_back 7 o)

theorem qwSet (g : Guard) (k : BitVec 4) (xa : BitVec 5) (xb : BitVec 5) : Statement (.qwSet g k xa xb) := ofE rfl rfl rfl rfl rfl rfl fun h => by
  show some (Instr.qwSet _ _ _ _) = _
  simp [eG, eAtom, strm, guard_bits, ex_setWidth]

theorem qwRd (g : Guard) (k : BitVec 4) (xa : BitVec 5) (xb : BitVec 5) : Statement (.qwRd g k xa xb) := ofE rfl rfl rfl rfl rfl rfl fun h => by
  show some (Instr.qwRd _ _ _ _) = _
  simp [eG, eAtom, strm, guard_bits, ex_setWidth]

theorem boInit (g : Guard) (unit : Bool) (xa : BitVec 5) (xb : BitVec 5) : Statement (.boInit g unit xa xb) := ofE rfl rfl rfl rfl rfl rfl fun h => by
  show some (Instr.boInit _ _ _ _) = _
  simp [eG, eAtom, strm, guard_bits, ex_setWidth]
  all_goals repeat' apply And.intro
  all_goals repeat first | refine (ex_up _ _ _ _ (by decide)).trans ?_ | refine (bit_up _ _ _ (by decide)).trans ?_
  all_goals first | exact ex_lo _ _ | exact ex_all _ | exact bit_back _ | exact (bit_lo _ _ _ (by decide)).trans (bit_back _)

theorem boRd (g : Guard) (xa : BitVec 5) (xb : BitVec 5) : Statement (.boRd g xa xb) := ofE rfl rfl rfl rfl rfl rfl fun h => by
  show some (Instr.boRd _ _ _) = _
  simp [eG, eAtom, strm, guard_bits, ex_setWidth]

theorem taskPost (g : Guard) (xa : BitVec 5) : Statement (.taskPost g xa) := ofE rfl rfl rfl rfl rfl rfl fun h => by
  show some (Instr.taskPost _ _) = _
  simp [eG, eAtom, strm, guard_bits, ex_setWidth]

theorem msgSend (g : Guard) (k : BitVec 4) (n1 : BitVec 4) : Statement (.msgSend g k n1) := ofE rfl rfl rfl rfl rfl rfl fun h => by
  show some (Instr.msgSend _ _ _) = _
  simp [eG, eAtom, strm, guard_bits, ex_setWidth]

theorem msgQuiet (g : Guard) (b : BitVec 2) : Statement (.msgQuiet g b) := ofE rfl rfl rfl rfl rfl rfl fun h => by
  show some (Instr.msgQuiet _ _) = _
  simp [eG, eAtom, strm, guard_bits, ex_setWidth]
  all_goals repeat' apply And.intro
  all_goals repeat first | refine (ex_up _ _ _ _ (by decide)).trans ?_ | refine (bit_up _ _ _ (by decide)).trans ?_
  all_goals first | exact ex_lo _ _ | exact ex_all _ | exact bit_back _ | exact (bit_lo _ _ _ (by decide)).trans (bit_back _)

theorem xchGo (g : Guard) (k : BitVec 4) (xa : BitVec 5) (n : BitVec 9) : Statement (.xchGo g k xa n) := ofE rfl rfl rfl rfl rfl rfl fun h => by
  show some (Instr.xchGo _ _ _ _) = _
  simp [eG, eAtom, strm, guard_bits, ex_setWidth]

theorem knBind (g : Guard) (xa : BitVec 5) (name : BitVec 16) : Statement (.knBind g xa name) := ofE rfl rfl rfl rfl rfl rfl fun h => by
  show some (Instr.knBind _ _ _) = _
  simp [eG, eAtom, strm, guard_bits, ex_setWidth]

theorem knInv (g : Guard) (name : BitVec 16) : Statement (.knInv g name) := ofE rfl rfl rfl rfl rfl rfl fun h => by
  simp only [candE]
  simp [eG, eAtom, strm, guard_bits, ex_setWidth]

theorem knInvAll (g : Guard) : Statement (.knInvAll g) := ofE rfl rfl rfl rfl rfl rfl fun h => by
  simp only [candE]
  simp [eG, eAtom, strm, guard_bits, ex_setWidth]

theorem knStat (g : Guard) (xa : BitVec 5) (name : BitVec 16) : Statement (.knStat g xa name) := ofE rfl rfl rfl rfl rfl rfl fun h => by
  show some (Instr.knStat _ _ _) = _
  simp [eG, eAtom, strm, guard_bits, ex_setWidth]

theorem dictLoad (g : Guard) (xa : BitVec 5) (n : BitVec 15) : Statement (.dictLoad g xa n) := ofE rfl rfl rfl rfl rfl rfl fun h => by
  show some (Instr.dictLoad _ _ _) = _
  simp [eG, eAtom, strm, guard_bits, ex_setWidth]

theorem walkStart (g : Guard) (xa : BitVec 5) : Statement (.walkStart g xa) := ofE rfl rfl rfl rfl rfl rfl fun h => by
  show some (Instr.walkStart _ _) = _
  simp [eG, eAtom, strm, guard_bits, ex_setWidth]

theorem walkStop (g : Guard) (xa : BitVec 5) : Statement (.walkStop g xa) := ofE rfl rfl rfl rfl rfl rfl fun h => by
  simp only [candE]
  simp [eG, eAtom, strm, guard_bits, ex_setWidth]

theorem walkStopW (g : Guard) (xa : BitVec 5) : Statement (.walkStopW g xa) := ofE rfl rfl rfl rfl rfl rfl fun h => by
  simp only [candE]
  simp [eG, eAtom, strm, guard_bits, ex_setWidth]

theorem ctrRd (g : Guard) (xa : BitVec 5) (sel : BitVec 8) (up : Bool) : Statement (.ctrRd g xa sel up) := ofE rfl rfl rfl rfl rfl rfl fun h => by
  show some (Instr.ctrRd _ _ _ _) = _
  simp [eG, eAtom, strm, guard_bits, ex_setWidth]
  all_goals repeat' apply And.intro
  all_goals repeat first | refine (ex_up _ _ _ _ (by decide)).trans ?_ | refine (bit_up _ _ _ (by decide)).trans ?_
  all_goals first | exact ex_lo _ _ | exact ex_all _ | exact bit_back _ | exact (bit_lo _ _ _ (by decide)).trans (bit_back _)

theorem wNop : Statement (.wNop) := ofW rfl rfl rfl rfl rfl rfl fun h => by
  show some (Instr.wNop) = _
  simp [guard_bits, ex_setWidth]

theorem wLi (d : BitVec 4) (i : BitVec 18) : Statement (.wLi d i) := ofW rfl rfl rfl rfl rfl rfl fun _ => by
  show some (Instr.wLi d (i.extractLsb' 14 4 ++ i.extractLsb' 12 2 ++ i.extractLsb' 0 12)) = _
  rw [show i.extractLsb' 14 4 ++ i.extractLsb' 12 2 = i.extractLsb' 12 6 from ex_join i 12 2 4]
  exact congrArg (fun x => some (Instr.wLi d x)) ((ex_join i 0 12 6).trans (ex_all i))

theorem wLih (d : BitVec 4) (i : BitVec 14) : Statement (.wLih d i) := ofW rfl rfl rfl rfl rfl rfl fun _ =>
  congrArg (fun x => some (Instr.wLih d x)) ((ex_join i 0 12 2).trans (ex_all i))

theorem wAdd (d : BitVec 4) (a : BitVec 4) (b : BitVec 4) : Statement (.wAdd d a b) := ofW rfl rfl rfl rfl rfl rfl fun h => by
  show some (Instr.wAdd _ _ _) = _
  simp [guard_bits, ex_setWidth]

theorem wAddi (d : BitVec 4) (a : BitVec 4) (i : BitVec 12) : Statement (.wAddi d a i) := ofW rfl rfl rfl rfl rfl rfl fun h => by
  show some (Instr.wAddi _ _ _) = _
  simp [guard_bits, ex_setWidth]

theorem wSub (d : BitVec 4) (a : BitVec 4) (b : BitVec 4) : Statement (.wSub d a b) := ofW rfl rfl rfl rfl rfl rfl fun h => by
  show some (Instr.wSub _ _ _) = _
  simp [guard_bits, ex_setWidth]

theorem wAnd (d : BitVec 4) (a : BitVec 4) (b : BitVec 4) : Statement (.wAnd d a b) := ofW rfl rfl rfl rfl rfl rfl fun h => by
  show some (Instr.wAnd _ _ _) = _
  simp [guard_bits, ex_setWidth]

theorem wShl (d : BitVec 4) (a : BitVec 4) (n : BitVec 5) : Statement (.wShl d a n) := ofW rfl rfl rfl rfl rfl rfl fun h => by
  simp only [candW]
  simp [guard_bits, ex_setWidth]

theorem wShr (d : BitVec 4) (a : BitVec 4) (n : BitVec 5) : Statement (.wShr d a n) := ofW rfl rfl rfl rfl rfl rfl fun h => by
  simp only [candW]
  simp [guard_bits, ex_setWidth]

theorem wBCond (c : BitVec 2) (a : BitVec 4) (b : BitVec 4) (t : BitVec 8) : Statement (.wBCond c a b t) := ofW rfl rfl rfl rfl rfl rfl fun _ => by
  refine (if_neg (cond_ne c)).trans ?_
  show some (Instr.wBCond (BitVec.extractLsb' 0 2 (0#2 ++ c)) a b ((t.setWidth 12).extractLsb' 0 8)) = _
  rw [ex_setWidth t (by decide)]
  exact congrArg (fun x => some (Instr.wBCond x a b t)) (ex_lo _ _)

theorem wB (t : BitVec 8) : Statement (.wB t) := ofW rfl rfl rfl rfl rfl rfl fun h => by
  simp only [candW]
  simp [guard_bits, ex_setWidth]

theorem wDloop (a : BitVec 4) (t : BitVec 8) : Statement (.wDloop a t) := ofW rfl rfl rfl rfl rfl rfl fun h => by
  show some (Instr.wDloop _ _) = _
  simp [guard_bits, ex_setWidth]

theorem wLdW (d : BitVec 4) (a : BitVec 4) (i : BitVec 12) : Statement (.wLdW d a i) := ofW rfl rfl rfl rfl rfl rfl fun h => by
  show some (Instr.wLdW _ _ _) = _
  simp [guard_bits, ex_setWidth]

theorem wLdH (d : BitVec 4) (a : BitVec 4) (i : BitVec 12) : Statement (.wLdH d a i) := ofW rfl rfl rfl rfl rfl rfl fun h => by
  show some (Instr.wLdH _ _ _) = _
  simp [guard_bits, ex_setWidth]

theorem wQpop (d : BitVec 4) (k : BitVec 4) : Statement (.wQpop d k) := ofW rfl rfl rfl rfl rfl rfl fun h => by
  show some (Instr.wQpop _ _) = _
  simp [guard_bits, ex_setWidth]

theorem wPf (a : BitVec 4) (i : BitVec 12) : Statement (.wPf a i) := ofW rfl rfl rfl rfl rfl rfl fun h => by
  show some (Instr.wPf _ _) = _
  simp [guard_bits, ex_setWidth]

theorem wCwinA (a : BitVec 4) (b : BitVec 4) (l : BitVec 1) (i : BitVec 12) : Statement (.wCwinA a b l i) := ofW rfl rfl rfl rfl rfl rfl fun h => by
  show some (Instr.wCwinA _ _ _ _) = _
  simp [guard_bits, ex_setWidth]
  all_goals repeat' apply And.intro
  all_goals repeat first | refine (ex_up _ _ _ _ (by decide)).trans ?_ | refine (bit_up _ _ _ (by decide)).trans ?_
  all_goals first | exact ex_lo _ _ | exact ex_all _ | exact bit_back _ | exact (bit_lo _ _ _ (by decide)).trans (bit_back _)

theorem wCwinB (a : BitVec 4) (b : BitVec 4) (l : BitVec 1) (i : BitVec 12) : Statement (.wCwinB a b l i) := ofW rfl rfl rfl rfl rfl rfl fun h => by
  show some (Instr.wCwinB _ _ _ _) = _
  simp [guard_bits, ex_setWidth]
  all_goals repeat' apply And.intro
  all_goals repeat first | refine (ex_up _ _ _ _ (by decide)).trans ?_ | refine (bit_up _ _ _ (by decide)).trans ?_
  all_goals first | exact ex_lo _ _ | exact ex_all _ | exact bit_back _ | exact (bit_lo _ _ _ (by decide)).trans (bit_back _)

theorem wIsect (d : BitVec 4) : Statement (.wIsect d) := ofW rfl rfl rfl rfl rfl rfl fun h => by
  show some (Instr.wIsect _) = _
  simp [guard_bits, ex_setWidth]

theorem wUnion (d : BitVec 4) : Statement (.wUnion d) := ofW rfl rfl rfl rfl rfl rfl fun h => by
  show some (Instr.wUnion _) = _
  simp [guard_bits, ex_setWidth]

theorem wMerge (d : BitVec 4) : Statement (.wMerge d) := ofW rfl rfl rfl rfl rfl rfl fun h => by
  show some (Instr.wMerge _) = _
  simp [guard_bits, ex_setWidth]

theorem wNzc (d : BitVec 4) (a : BitVec 4) (f : BitVec 4) (i : BitVec 12) : Statement (.wNzc d a f i) := ofW rfl rfl rfl rfl rfl rfl fun h => by
  show some (Instr.wNzc _ _ _ _) = _
  simp [guard_bits, ex_setWidth]

theorem wBexp (sl : BitVec 4) (a : BitVec 4) (b : BitVec 4) (z : BitVec 2) (i : BitVec 12) : Statement (.wBexp sl a b z i) := ofW rfl rfl rfl rfl rfl rfl fun h => by
  show some (Instr.wBexp _ _ _ _ _) = _
  simp [guard_bits, ex_setWidth]

theorem wTopk (d : BitVec 4) (a : BitVec 4) (b : BitVec 4) (m : BitVec 1) (i : BitVec 12) : Statement (.wTopk d a b m i) := ofW rfl rfl rfl rfl rfl rfl fun h => by
  show some (Instr.wTopk _ _ _ _ _) = _
  simp [guard_bits, ex_setWidth]
  all_goals repeat' apply And.intro
  all_goals repeat first | refine (ex_up _ _ _ _ (by decide)).trans ?_ | refine (bit_up _ _ _ (by decide)).trans ?_
  all_goals first | exact ex_lo _ _ | exact ex_all _ | exact bit_back _ | exact (bit_lo _ _ _ (by decide)).trans (bit_back _)

theorem wEmit (a : BitVec 4) (b : BitVec 4) (i : BitVec 12) : Statement (.wEmit a b i) := ofW rfl rfl rfl rfl rfl rfl fun h => by
  show some (Instr.wEmit _ _ _) = _
  simp [guard_bits, ex_setWidth]

theorem wEmitS (b : BitVec 4) (c : BitVec 1) : Statement (.wEmitS b c) := ofW rfl rfl rfl rfl rfl rfl fun h => by
  show some (Instr.wEmitS _ _) = _
  simp [guard_bits, ex_setWidth]
  all_goals repeat' apply And.intro
  all_goals repeat first | refine (ex_up _ _ _ _ (by decide)).trans ?_ | refine (bit_up _ _ _ (by decide)).trans ?_
  all_goals first | exact ex_lo _ _ | exact ex_all _ | exact bit_back _ | exact (bit_lo _ _ _ (by decide)).trans (bit_back _)

theorem wEmitz (a : BitVec 4) : Statement (.wEmitz a) := ofW rfl rfl rfl rfl rfl rfl fun h => by
  show some (Instr.wEmitz _) = _
  simp [guard_bits, ex_setWidth]

theorem wRds (d : BitVec 4) (sel : BitVec 3) : Statement (.wRds d sel) := ofW rfl rfl rfl rfl rfl rfl fun h => by
  show some (Instr.wRds _ _) = _
  simp [guard_bits, ex_setWidth]

theorem wQpush (k : BitVec 4) : Statement (.wQpush k) := ofW rfl rfl rfl rfl rfl rfl fun h => by
  show some (Instr.wQpush _) = _
  simp [guard_bits, ex_setWidth]

theorem wWend : Statement (.wWend) := ofW rfl rfl rfl rfl rfl rfl fun h => by
  show some (Instr.wWend) = _
  simp [guard_bits, ex_setWidth]

theorem issueSelect : Statement (.issueSelect) := ofNone rfl rfl rfl rfl rfl rfl

theorem rowExecute : Statement (.rowExecute) := ofNone rfl rfl rfl rfl rfl rfl

theorem leashReach : Statement (.leashReach) := ofNone rfl rfl rfl rfl rfl rfl

theorem reinject : Statement (.reinject) := ofNone rfl rfl rfl rfl rfl rfl

theorem engineRestart : Statement (.engineRestart) := ofNone rfl rfl rfl rfl rfl rfl

theorem kennelEntryAction : Statement (.kennelEntryAction) := ofNone rfl rfl rfl rfl rfl rfl

theorem emitzRecordPush : Statement (.emitzRecordPush) := ofNone rfl rfl rfl rfl rfl rfl

theorem mRowEnter : Statement (.mRowEnter) := ofNone rfl rfl rfl rfl rfl rfl

theorem passLanding : Statement (.passLanding) := ofNone rfl rfl rfl rfl rfl rfl

theorem sliceRailSettle : Statement (.sliceRailSettle) := ofNone rfl rfl rfl rfl rfl rfl

theorem mmdDecision : Statement (.mmdDecision) := ofNone rfl rfl rfl rfl rfl rfl

theorem kennelWriteback : Statement (.kennelWriteback) := ofNone rfl rfl rfl rfl rfl rfl

theorem dataPortPerform : Statement (.dataPortPerform) := ofNone rfl rfl rfl rfl rfl rfl

theorem lrowRowWrite : Statement (.lrowRowWrite) := ofNone rfl rfl rfl rfl rfl rfl

theorem cellStoreWindowRelease : Statement (.cellStoreWindowRelease) := ofNone rfl rfl rfl rfl rfl rfl

theorem boArrival : Statement (.boArrival) := ofNone rfl rfl rfl rfl rfl rfl

theorem copyDescriptorTake : Statement (.copyDescriptorTake) := ofNone rfl rfl rfl rfl rfl rfl

theorem copyLineLand : Statement (.copyLineLand) := ofNone rfl rfl rfl rfl rfl rfl

theorem shadowLoadFollowon : Statement (.shadowLoadFollowon) := ofNone rfl rfl rfl rfl rfl rfl

theorem taskPostFollowon : Statement (.taskPostFollowon) := ofNone rfl rfl rfl rfl rfl rfl

theorem gatherElementLand : Statement (.gatherElementLand) := ofNone rfl rfl rfl rfl rfl rfl

theorem scatterWriteConfirm : Statement (.scatterWriteConfirm) := ofNone rfl rfl rfl rfl rfl rfl

theorem probeComplete : Statement (.probeComplete) := ofNone rfl rfl rfl rfl rfl rfl

theorem atomPerform : Statement (.atomPerform) := ofNone rfl rfl rfl rfl rfl rfl

theorem tableWalkComplete : Statement (.tableWalkComplete) := ofNone rfl rfl rfl rfl rfl rfl

theorem frameBoundary : Statement (.frameBoundary) := ofNone rfl rfl rfl rfl rfl rfl

theorem hbmSlot : Statement (.hbmSlot) := ofNone rfl rfl rfl rfl rfl rfl

theorem mpCompletion : Statement (.mpCompletion) := ofNone rfl rfl rfl rfl rfl rfl

theorem refreshWatchdog : Statement (.refreshWatchdog) := ofNone rfl rfl rfl rfl rfl rfl

theorem deepTierAccess : Statement (.deepTierAccess) := ofNone rfl rfl rfl rfl rfl rfl

theorem placement : Statement (.placement) := ofNone rfl rfl rfl rfl rfl rfl

theorem taskStart : Statement (.taskStart) := ofNone rfl rfl rfl rfl rfl rfl

theorem preemptRequest : Statement (.preemptRequest) := ofNone rfl rfl rfl rfl rfl rfl

theorem checkpointSave : Statement (.checkpointSave) := ofNone rfl rfl rfl rfl rfl rfl

theorem saveComplete : Statement (.saveComplete) := ofNone rfl rfl rfl rfl rfl rfl

theorem taskResume : Statement (.taskResume) := ofNone rfl rfl rfl rfl rfl rfl

theorem killedContextFree : Statement (.killedContextFree) := ofNone rfl rfl rfl rfl rfl rfl

theorem tokenVisit : Statement (.tokenVisit) := ofNone rfl rfl rfl rfl rfl rfl

theorem leaseExpiry : Statement (.leaseExpiry) := ofNone rfl rfl rfl rfl rfl rfl

theorem leaseReleaseEffect : Statement (.leaseReleaseEffect) := ofNone rfl rfl rfl rfl rfl rfl

theorem powerSample : Statement (.powerSample) := ofNone rfl rfl rfl rfl rfl rfl

theorem thermalTrip1 : Statement (.thermalTrip1) := ofNone rfl rfl rfl rfl rfl rfl

theorem thermalTrip2 : Statement (.thermalTrip2) := ofNone rfl rfl rfl rfl rfl rfl

theorem thermalTrip3 : Statement (.thermalTrip3) := ofNone rfl rfl rfl rfl rfl rfl

theorem thermalTrip4 : Statement (.thermalTrip4) := ofNone rfl rfl rfl rfl rfl rfl

theorem thermalTripClear : Statement (.thermalTripClear) := ofNone rfl rfl rfl rfl rfl rfl

theorem clockStretch : Statement (.clockStretch) := ofNone rfl rfl rfl rfl rfl rfl

theorem gateRailsOff : Statement (.gateRailsOff) := ofNone rfl rfl rfl rfl rfl rfl

theorem arrayUngate : Statement (.arrayUngate) := ofNone rfl rfl rfl rfl rfl rfl

theorem ungateComplete : Statement (.ungateComplete) := ofNone rfl rfl rfl rfl rfl rfl

theorem flitReceive : Statement (.flitReceive) := ofNone rfl rfl rfl rfl rfl rfl

theorem portFailed : Statement (.portFailed) := ofNone rfl rfl rfl rfl rfl rfl

theorem trunkChangeApply : Statement (.trunkChangeApply) := ofNone rfl rfl rfl rfl rfl rfl

theorem superstepStart : Statement (.superstepStart) := ofNone rfl rfl rfl rfl rfl rfl

theorem superstepEnd : Statement (.superstepEnd) := ofNone rfl rfl rfl rfl rfl rfl

theorem messageArrive : Statement (.messageArrive) := ofNone rfl rfl rfl rfl rfl rfl

theorem messageRefusal : Statement (.messageRefusal) := ofNone rfl rfl rfl rfl rfl rfl

theorem bucketLeak : Statement (.bucketLeak) := ofNone rfl rfl rfl rfl rfl rfl

theorem rowSpare : Statement (.rowSpare) := ofNone rfl rfl rfl rfl rfl rfl

theorem bankMirrorComplete : Statement (.bankMirrorComplete) := ofNone rfl rfl rfl rfl rfl rfl

theorem pseudoChannelRetire : Statement (.pseudoChannelRetire) := ofNone rfl rfl rfl rfl rfl rfl

theorem portSpareAdd : Statement (.portSpareAdd) := ofNone rfl rfl rfl rfl rfl rfl

theorem scrub : Statement (.scrub) := ofNone rfl rfl rfl rfl rfl rfl

theorem moduleInsert : Statement (.moduleInsert) := ofNone rfl rfl rfl rfl rfl rfl

theorem moduleRemove : Statement (.moduleRemove) := ofNone rfl rfl rfl rfl rfl rfl

theorem transceiverChange : Statement (.transceiverChange) := ofNone rfl rfl rfl rfl rfl rfl

theorem coldStart : Statement (.coldStart) := ofNone rfl rfl rfl rfl rfl rfl

theorem warmingDone : Statement (.warmingDone) := ofNone rfl rfl rfl rfl rfl rfl

theorem stackTrainingDone : Statement (.stackTrainingDone) := ofNone rfl rfl rfl rfl rfl rfl

theorem contFrame : Statement (.contFrame) := ofNone rfl rfl rfl rfl rfl rfl

theorem ident : Statement (.ident) := ofNone rfl rfl rfl rfl rfl rfl

theorem attest : Statement (.attest) := ofNone rfl rfl rfl rfl rfl rfl

theorem partMake : Statement (.partMake) := ofNone rfl rfl rfl rfl rfl rfl

theorem partFree : Statement (.partFree) := ofNone rfl rfl rfl rfl rfl rfl

theorem slotSetTables : Statement (.slotSetTables) := ofNone rfl rfl rfl rfl rfl rfl

theorem slotSetDonate : Statement (.slotSetDonate) := ofNone rfl rfl rfl rfl rfl rfl

theorem slotSetHashMasks : Statement (.slotSetHashMasks) := ofNone rfl rfl rfl rfl rfl rfl

theorem mapRangeEntry : Statement (.mapRangeEntry) := ofNone rfl rfl rfl rfl rfl rfl

theorem mapControlWord : Statement (.mapControlWord) := ofNone rfl rfl rfl rfl rfl rfl

theorem mapInvalidate : Statement (.mapInvalidate) := ofNone rfl rfl rfl rfl rfl rfl

theorem trunkSet : Statement (.trunkSet) := ofNone rfl rfl rfl rfl rfl rfl

theorem load : Statement (.load) := ofNone rfl rfl rfl rfl rfl rfl

theorem read : Statement (.read) := ofNone rfl rfl rfl rfl rfl rfl

theorem dict : Statement (.dict) := ofNone rfl rfl rfl rfl rfl rfl

theorem launch : Statement (.launch) := ofNone rfl rfl rfl rfl rfl rfl

theorem preemptPolicy : Statement (.preemptPolicy) := ofNone rfl rfl rfl rfl rfl rfl

theorem preemptCheckpoint : Statement (.preemptCheckpoint) := ofNone rfl rfl rfl rfl rfl rfl

theorem preemptKill : Statement (.preemptKill) := ofNone rfl rfl rfl rfl rfl rfl

theorem halt : Statement (.halt) := ofNone rfl rfl rfl rfl rfl rfl

theorem resume : Statement (.resume) := ofNone rfl rfl rfl rfl rfl rfl

theorem status : Statement (.status) := ofNone rfl rfl rfl rfl rfl rfl

theorem counters : Statement (.counters) := ofNone rfl rfl rfl rfl rfl rfl

theorem repairRead : Statement (.repairRead) := ofNone rfl rfl rfl rfl rfl rfl

theorem repairForceLasting : Statement (.repairForceLasting) := ofNone rfl rfl rfl rfl rfl rfl

theorem repairClearLevel : Statement (.repairClearLevel) := ofNone rfl rfl rfl rfl rfl rfl

theorem powerRingTotal : Statement (.powerRingTotal) := ofNone rfl rfl rfl rfl rfl rfl

theorem powerGate : Statement (.powerGate) := ofNone rfl rfl rfl rfl rfl rfl

theorem powerUngate : Statement (.powerUngate) := ofNone rfl rfl rfl rfl rfl rfl

theorem therm : Statement (.therm) := ofNone rfl rfl rfl rfl rfl rfl

theorem reset : Statement (.reset) := ofNone rfl rfl rfl rfl rfl rfl

theorem thermalRingReduction : Statement (.thermalRingReduction) := ofNone rfl rfl rfl rfl rfl rfl

theorem stewardRestart : Statement (.stewardRestart) := ofNone rfl rfl rfl rfl rfl rfl

end Encoding
end Laws
end Sys2Proof
end

