-- ==== Sys2Proof/Tests/Slice0.lean ====
section
/-! SUPPORT. Tests: words written out from the spec's encodings, an ill-formed term for each check, single steps with the results the spec gives, and for every
statement with hypotheses a state and operands that meet them. -/

namespace Sys2Proof.Tests
open Sys2Proof.Machine Sys2Proof.Safety

def g0 : Guard := { neg := false, reg := 0 }

/-! ## Words (sources: the worked encodings of spec/, or its field tables read bit by bit) -/

/-- 03_sequencer_code_store.md, the loop example. -/
theorem test_word_q_cmpi : decodeSlot .q 0x2900040000100611
    = some (.qCmpi { qn := false, qg := 0, cond := 3, ctype := 0, p2 := 2, p1 := 1 } 1 8) := by decide
theorem test_word_q_lbrk : decodeSlot .q 0x0710000000000005 = some (.lbrk { neg := false, reg := 1 } 0 5) := by decide
/-- R52, R82: OP 0x10, GN 0, GQ 0, XD 3, XA 1, XB 2. -/
theorem test_word_q_add : decodeSlot .q ((0x10#8 ++ 0#1 ++ 0#3 ++ 3#5 ++ 1#5 ++ 2#5 ++ 0#5 ++ 0#32).toNat)
    = some (.qAdd { g := g0, xd := 3, xa := 1, xb := 2 }) := by decide
/-- R82: a shift by IMM[5:0] has MOD 1. -/
theorem test_word_q_shl : decodeSlot .q ((0x1C#8 ++ 1#1 ++ 2#3 ++ 3#5 ++ 1#5 ++ 0#5 ++ 1#5 ++ 63#32).toNat)
    = some (.qShl { g := { neg := true, reg := 2 }, xd := 3, xa := 1, n := .imm 63 }) := by decide
/-- R380: `pwr.acq 24, 200` has LEVEL in IMM[6:0] and LEASE in IMM[27:16]. -/
theorem test_word_q_pwr : decodeSlot .q ((0x40#8 ++ 0#24 ++ 0x00C80018#32).toNat) = some (.pwrAcq g0 24 200) := by decide
/-- 04_cell_registers_integer.md, the worked encoding. -/
theorem test_word_a_cmp : decodeSlot .a 0x200088130003089200000000
    = some (.aCmp 2 { qn := false, qg := 3, cond := 2, ctype := 1, red := 2, p2 := 2, p1 := 1 } (.v 4) (.small 0) 0) := by decide
/-- 06_float_conversion.md, the worked example. -/
theorem test_word_a_quant : decodeSlot .a 0x83004808060400C800000000
    = some (.quantI8 0 { g := g0, part := 1, qw := 6, d := .v 9, a := .v 2, s := .v 3, base := .s 4, imm := 0 }) := by decide
/-- R55: the based form, level 00 with the flag, base 2 and offset 15; R57: the destination `_`. -/
theorem test_word_a_based : decodeSlot .a ((0x10#8 ++ 0#4 ++ 0x100#9 ++ 0b001101111#9 ++ 0b100000110#9 ++ 0#9 ++ 0#16 ++ 0#32).toNat)
    = some (.aAnd { g := g0, d := .none, a := .based 2 15, b := .zero, imm := 0 }) := by decide
/-- 07_cell_store_queues_strait.md, the worked example. -/
theorem test_word_m_stq : decodeSlot .m 0x0A00503000000000 = some (.stq g0 3 (.v 5)) := by decide
/-- R66, R147: OP 0x01 with MOD[0] set, V7, S2, OFF -4. -/
theorem test_word_m_ldw : decodeSlot .m ((0x01#7 ++ 0#1 ++ 0#3 ++ 7#9 ++ 2#4 ++ 0#4 ++ 1#4 ++ 0xFFFC#16 ++ 0#16).toNat)
    = some (.ldW { g := g0, d := .v 7, sadr := 2, off := 0xFFFC }) := by decide
/-- 08_matrix_accumulator.md and 10_kennels.md, the worked examples. -/
theorem test_word_t_pass : decodeSlot .t 0x2000010000250000
    = some (.mmPs8 { g := g0, arow := 8, acol := 0, cnt := 2, qw := 5, walk := false, fwd := false }) := by decide
theorem test_word_t_accRd : decodeSlot .t 0x4400810000000000 = some (.accRd g0 (.v 4) 8 0) := by decide
theorem test_word_t_mmd : decodeSlot .t 0x2C00010000150C21 = some (.mmd 8 1 5 0x0C21) := by decide
/-- 10, 11 and 12: the worked encodings of the E slot. -/
theorem test_word_e_lrow : decodeSlot .e 0x0204298000000000 = some (.lrow g0 3 4 5) := by decide
theorem test_word_e_bind : decodeSlot .e 0x6006000000000C21 = some (.knBind g0 6 0x0C21) := by decide
theorem test_word_e_walk : decodeSlot .e 0x7002000000000000 = some (.walkStart g0 2) := by decide
theorem test_word_e_stopw : decodeSlot .e 0x7203000100000000 = some (.walkStopW g0 3) := by decide
/-- 12_walker_irregular.md and 22_programs_kennel_sparse.md: walker words. -/
theorem test_word_w_cwin : decodeTableWord 32 0x5008D000 = some (.wCwinA 2 3 1 0) := by decide
theorem test_word_w_isect : decodeTableWord 32 0x61400000 = some (.wIsect 5) := by decide
theorem test_word_w_qpop : decodeTableWord 32 0x49410000 = some (.wQpop 5 4) := by decide
/-- 02_bundles_opcode_map.md, the worked bundle: header 0x01FE_1000 and one A slot. -/
theorem test_word_bundle : bundleInstrs (0x01FE1000#32 ++ 0#64 ++ 0x6000280E0A00000000000000#96 ++ 0#192)
    = some [(.a, .fadd 0 { g := g0, d := .v 5, a := .v 3, b := .nbW, imm := 0 })] := by decide
/-- R51: the idle bundle is legal and holds no instruction. -/
theorem test_word_idle : bundleInstrs idleBundle = some [] := by decide
/-- R400: commands by CMD. -/
theorem test_frame_ident : decodeFrame { cmd := 0x01 } = some .ident := by decide
theorem test_frame_halt : decodeFrame { cmd := 0x25 } = some .halt := by decide
theorem test_frame_bad_body : decodeFrame { cmd := 0x25, body := [0] } = none := by decide
theorem test_frame_preempt : decodeFrame { cmd := 0x24, body := List.replicate 13 0 ++ [2, 0, 0] } = some .preemptKill := by decide

/-! ## Words that are refused, and rejections by the checks of R59-R61 -/

/-- R61 (2): a bit beside a NOP. -/
theorem test_refused_nop : decodeSlot .q 1 = none := by decide
/-- R61 (1): an unassigned opcode. -/
theorem test_refused_opcode : decodeSlot .q 0xFF00000000000000 = none := by decide
/-- R61 (4): a nonzero unused field: `ret` with IMM 1. -/
theorem test_refused_unused : decodeSlot .q 0x0500000000000001 = none := by decide
/-- R56: a reserved source level. -/
theorem test_refused_source : decodeSlot .a ((0x22#8 ++ 0#4 ++ 0#9 ++ 0b011000000#9 ++ 0#66).toNat) = none := by decide
/-- R269: `rds` of selector 7. -/
theorem test_refused_walker : decodeTableWord 32 0x8C000007 = none := by decide
/-- R50: ROWSRC 18. -/
theorem test_refused_rowsrc : bundleLegal (0xFFFF9000#32 ++ 0#192 ++ 0#160) = false := by decide
/-- R59: two writes of one X register at one latency, from the Q and the E slot. -/
theorem test_refused_clash : clashes [.qLi g0 1 0, .qwRd g0 0 1 2] = true := by decide
theorem test_no_clash : clashes [.qLi g0 1 0, .boRd g0 1 2] = false := by decide

/-! ## An ill-formed term for each check (R61 (3), R269) -/

def cq (cond : BitVec 4) (ctype p2 p1 : BitVec 3) : QCmpF := { qn := false, qg := 0, cond, ctype, p2, p1 }
def ca (cond : BitVec 4) (ctype : BitVec 3) (red : BitVec 2) (p2 p1 : BitVec 3) : ACmpF := { qn := false, qg := 0, cond, ctype, red, p2, p1 }
def un (a : Src) (imm : BitVec 32) : AUn := { g := g0, d := .v 0, a, imm }
def bin (a : Src) (imm : BitVec 32) : ABin := { g := g0, d := .v 0, a, b := .zero, imm }
def nar (part : BitVec 2) (imm : BitVec 32) : ANarrow := { g := g0, part, qw := 0, d := .v 0, a := .v 1, base := .s 0, imm }
def pass (acol : BitVec 9) (qw : BitVec 4) (walk : Bool) : TPass := { g := g0, arow := 0, acol, cnt := 0, qw, walk, fwd := false }
def atom (xb : BitVec 5) (k : BitVec 4) (fetch bo : Bool) (boff : BitVec 27) : EAtom := { g := g0, xa := 0, xb, k, dword := false, fetch, bo, boff }

theorem test_wf_level : (Instr.loop g0 6 0).wf = false ∧ (Instr.loop g0 5 0).wf = true := by decide
theorem test_wf_cond : (Instr.qCmp (cq 12 0 2 1) 0 0).wf = false ∧ (Instr.qCmp (cq 11 0 2 1) 0 0).wf = true := by decide
theorem test_wf_preds : (Instr.qCmp (cq 0 3 1 1) 0 0).wf = false ∧ (Instr.qCmp (cq 0 4 1 1) 0 0).wf = true := by decide
theorem test_wf_ldtask : (Instr.ldtask g0 0 11).wf = false ∧ (Instr.ldtask g0 0 10).wf = true := by decide
theorem test_wf_flag_mode : (Instr.flagRd g0 0 3 0 18).wf = false ∧ (Instr.flagRd g0 0 2 0 18).wf = true := by decide
theorem test_wf_flag_distance : (Instr.flagRd g0 0 0 0 17).wf = false := by decide
theorem test_wf_level_zero : (Instr.pwrAcq g0 0 1).wf = false := by decide
theorem test_wf_sys : (Instr.sysRd g0 0 7).wf = false ∧ (Instr.sysWr g0 0 0).wf = false ∧ (Instr.sysRd g0 0 0x010).wf = true := by decide
theorem test_wf_type : (Instr.aAdd 6 (bin (.v 0) 0)).wf = false ∧ (Instr.aAdd 5 (bin (.v 0) 0)).wf = true := by decide
theorem test_wf_abs : (Instr.abs 3 (un (.v 0) 0)).wf = false := by decide
theorem test_wf_imm : (Instr.aMov (un (.v 0) 1)).wf = false ∧ (Instr.aMov (un .long 1)).wf = true := by decide
theorem test_wf_red : (Instr.aCmp 0 (ca 0 0 3 2 1) .zero .zero 0).wf = false := by decide
theorem test_wf_scmp_red : (Instr.scmp (ca 0 0 1 2 1) 0 (.s 0) 0).wf = false := by decide
theorem test_wf_fcond : (Instr.fcmp (ca 8 0 0 2 1) .zero .zero 0).wf = false := by decide
theorem test_wf_sli : (Instr.sli g0 0 (.s 1) 0).wf = false := by decide
theorem test_wf_perm : (Instr.perm g0 (.v 0) .long 0).wf = false := by decide
theorem test_wf_bcast : (Instr.bcast 0 8 (un (.v 0) 0)).wf = false ∧ (Instr.bcast 0 7 (un (.v 0) 0)).wf = true := by decide
theorem test_wf_redop : (Instr.red 6 0 (un (.v 0) 0)).wf = false := by decide
theorem test_wf_part : (Instr.cvtBf16F32 0 (nar 2 0)).wf = false ∧ (Instr.cvtF32I 0 0 1 (un (.v 0) 0)).wf = false := by decide
theorem test_wf_cvt32 : (Instr.cvtI32I 0 0 (un (.v 0) 0)).wf = false := by decide
theorem test_wf_ps8 : (Instr.cvtF32Ps8 0 (un (.small 3) 0)).wf = false ∧ (Instr.cvtF32Ps8 0 (un (.small 2) 0)).wf = true := by decide
theorem test_wf_store : (Instr.st { g := g0, v := .long, sadr := 0, off := 0 }).wf = false := by decide
theorem test_wf_ldw : (Instr.ldw g0 3 (.v 0) 0).wf = false := by decide
theorem test_wf_pass_col : (Instr.mmPs8 (pass 16 0 false)).wf = false ∧ (Instr.mmI8 (pass 16 0 false)).wf = true := by decide
theorem test_wf_pass_walk : (Instr.mmPs8 (pass 0 1 true)).wf = false := by decide
theorem test_wf_chain : (Instr.mmChain g0 3 0 0 0).wf = false := by decide
theorem test_wf_acc_col : (Instr.accRd g0 (.v 0) 0 2).wf = false ∧ (Instr.accScl g0 0 0 4 (.v 0)).wf = false := by decide
theorem test_wf_mp : (Instr.mpRun g0 0 0 4097 1 0).wf = false ∧ (Instr.mpRun g0 0 2 1 2 1).wf = false ∧ (Instr.mpRun g0 0 2 0 0 1).wf = false := by decide
theorem test_wf_atom : (Instr.atomAdd (atom 0 1 false false 0)).wf = false ∧ (Instr.atomAdd (atom 0 0 false false 1)).wf = false
    ∧ (Instr.atomSwap (atom 0 0 false false 0)).wf = false ∧ (Instr.atomCas (atom 31 0 true false 0)).wf = false := by decide
theorem test_wf_qwrd : (Instr.qwRd g0 0 3 3).wf = false := by decide
theorem test_wf_quiet : (Instr.msgQuiet g0 3).wf = false := by decide
theorem test_wf_xch : (Instr.xchGo g0 0 0 257).wf = false ∧ (Instr.xchGo g0 1 0 0).wf = false := by decide
theorem test_wf_dict : (Instr.dictLoad g0 0 0).wf = false ∧ (Instr.dictLoad g0 0 16385).wf = false := by decide
theorem test_wf_ctr : (Instr.ctrRd g0 0 7 false).wf = false := by decide
theorem test_wf_dloop : (Instr.wDloop 0 0).wf = false := by decide
theorem test_wf_nzc : (Instr.wNzc 0 0 6 0).wf = false := by decide
theorem test_wf_bexp : (Instr.wBexp 0 0 0 3 0).wf = false := by decide
theorem test_wf_rds : (Instr.wRds 0 7).wf = false := by decide

/-! ## Results the spec states (the rule is named at each) -/

/-- R106: `abs.i8` of -128 is -128, `mul.u8` of 200 and 3 is 88, `adds.u8` of 200 and 100 is 255. -/
theorem test_abs : elem 8 0 (vAbs 2 0x80) = 0x80 := by decide
theorem test_mul : elem 8 0 (vMul 5 200 3) = 88 := by decide
theorem test_adds : elem 8 0 (vAdds 5 200 100) = 255 := by decide
-- R109: `red.add.i8` tooHigh 32 elements of -100. -/
set_option maxRecDepth 8000 in
theorem test_red : elem 32 0 (vRed 0 2 (mkElems 8 fun _ => 156)) = 0xFFFFF380 := by decide
/-- R139, the table: 1.5 scaled by 2^-149 and by 2^128, to nearest and toward zero. -/
theorem test_fexpins : f32ExpIns .rne 0x3FC00000 (-149) = 2 ∧ f32ExpIns .rtz 0x3FC00000 (-149) = 1 ∧ f32ExpIns .rne 0x3FC00000 128 = 0x7F800000
    ∧ f32ExpIns .rtz 0x3FC00000 128 = 0x7F7FFFFF := by decide
/-- R140: the exponents of 0x0000_0300, 0xC280_8000 and 0x0000_0001. -/
theorem test_fgetexp : f32GetExp 0x300 = 0xC30C0000 ∧ f32GetExp 0xC2808000 = 0x40C00000 ∧ f32GetExp 1 = 0xC3150000 := by decide
/-- R138: the fixed points of `fexp2f`. -/
theorem test_fexp2 : f32Exp2 0 = 0x3F800000 ∧ f32Exp2 0xBF800000 = 0x3F000000 ∧ f32Exp2 0x3F800000 = 0x40000000 := by decide
/-- R115: a produced NaN is the default one. -/
theorem test_nan : f32Sub .rne 0x7F800000 0x7F800000 = 0x7FC00000 := by decide

/-! ## For every statement with hypotheses, states and operands that meet them -/

/-- A part that commands reach: partition 0 is live with array 0 and a window of 2 MiB in tower 0, and context 0 runs there. -/
def c0 : Ctx := { state := .ready, csSize := 32768, arSize := 256 }
def p0 : Part := { live := true, wsize := [(0, 0x200000)] }
def a0 : Arr := { owner := some 0 }
def live (c : Ctx) (x : Site) : State :=
  { State.reset with site := x, mod := { boot := 6 }, parts := [(0, p0)], arrs := [(0, a0)], ctxs := [(0, c)] }
/-- A queue control word (R155): VALID, KIND, ESZ, LDEPTH, BASE, PP and CP. -/
def word (kind esz ldepth base pp cp : Nat) : BitVec 128 :=
  BitVec.ofNat 128 (1 + kind * 2 ^ 29 + esz * 2 ^ 31 + ldepth * 2 ^ 34 + base * 2 ^ 64 + cp * 2 ^ 96 + pp * 2 ^ 109)
def qw (kind esz ldepth base pp cp : Nat) : QW := { word := word kind esz ldepth base pp cp, pr := pp, cr := cp }
/-- Queue word 0 with its issue site. -/
def withQ (q : QW) (x : Site) : State := live { c0 with qw := [(0, q)] } x
def issue : Site := { issue := true }
def duo (a : Act) : Due := { tick := 0, rank := 0, dom := none, site := {}, act := a }
/-- The site of a row with columns 0 and 15 selected. -/
def rowSite : Site := { cols := 0x8001 }

theorem witness_StepRunsDecodedInstruction :
    (∃ i, decodeSlot .q 0x0500000000000000 = some i) ∧
    (let u := (State.reset.withFetchWord 32 0).take { tick := 0, rank := 0, dom := none, site := issue, act := .walk 0 } State.reset.due
     walkDue u 0 = true ∧ decodeW (smGet 0 (u.arr 0).walker.pstore (u.arr 0).walker.pc) = some .wNop) ∧
    (let u := (State.reset.withFetchWord 32 0xFFFFFFFF).take { tick := 0, rank := 0, dom := none, site := issue, act := .walk 0 } State.reset.due
     walkDue u 0 = true ∧ decodeW (walkWord u 0) = none) ∧
    walkDue State.reset 0 = false ∧
    inputFirst { tick := 0, site := {}, act := .instr .moduleInsert } { tick := 1, rank := 0, dom := none, site := {}, act := .instr .scrub } = true ∧
    inputFirst { tick := 1, site := {}, act := .instr .moduleInsert } { tick := 0, rank := 0, dom := none, site := {}, act := .instr .scrub } = false := by
  refine ⟨⟨.ret g0, by decide⟩, ?_⟩
  decide

theorem witness_DecodeOfEncode : (Instr.lidx g0 31 5 3).wf = true ∧ encode (.lidx g0 31 5 3) = some (some .q, 0x080F801D00000000) := by decide

theorem witness_steps_go_on : Inv State.reset ∧ MapsRise State.reset ∧ ∃ t, step State.reset = .next t := by
  refine ⟨rfl, by unfold MapsRise Rising; decide, _, rfl⟩

theorem witness_FalseGuard : seqGuard (.ret { neg := true, reg := 0 }) = some { neg := true, reg := 0 }
    ∧ State.reset.guardQ { neg := true, reg := 0 } = false := by decide

theorem witness_WritesLandWhenDue :
    (let e : PendEntry := { due := 2, n := 1, slot := 0, dest := .x 0, val := 7, place := 0 }
     let f : PendEntry := { due := 2, n := 1, slot := 0, dest := .q 1, val := 1, place := 1 }
     1 < e.due ∧ e.due ≤ 2 ∧ (f.due < e.due ∨ f.due = e.due ∧ (f.n < e.n ∨ f.n = e.n ∧ f.slot ≤ e.slot))) ∧
    (let e : LwbEntry := { due := 4, n := 0, slot := 1, dest := .p 0x80, latch := .la, val := 0x80 }
     3 < e.due ∧ e.due ≤ 4 ∧ ((0x80 : BitVec 8).getLsbD 7 = true)) := by decide

theorem witness_FaultIsTaken : (State.reset.part State.reset.me.part).leash = false ∧ (State.reset.part State.reset.me.part).faults = []
    ∧ enginesOf (live c0 {}) 0 ≠ [] ∧ ¬((0x60 : Nat) = 0x60 ∧ ((4 : Nat) = 5 ∨ (4 : Nat) = 6)) ∧ (State.reset.part State.reset.me.part).byHalt = false
    ∧ ({ live c0 {} with parts := [(0, { p0 with leash := true, byHalt := true })] }.part 0).byHalt = true := by decide

theorem witness_BucketWord : (let s := { live c0 {} with site := { frame := { body := [1, 0, 0xFF, 0x03] } } }
    booted s = true ∧ s.site.frame.princ = 0 ∧ fieldAt s.site.frame.body 2 2 < resourceCount (fieldAt s.site.frame.body 0 1)
      ∧ (s.bucket 1 1023).total < 2 ^ 32 ∧ (s.bucket 1 1023).state < 4 ∧ (s.bucket 1 1023).level < 2 ^ 16)
    ∧ ({ total := 0, state := 1, level := 0 } : Bucket).state ≠ 0 := by decide

theorem witness_guard : State.reset.guardQ g0 = true := by decide

theorem witness_SequencerResults :
    (let s := live { c0 with h := 32 } issue
     s.guardQ g0 = true ∧ s.me.h = 32 ∧ (33#6).toNat < 34 ∧ (34 ≤ (34#6).toNat ∧ s.site.n < (34#6).toNat)) ∧
    (let s := live c0 { n := 18, issue := true }
     s.guardQ g0 = true ∧ s.me.h ≠ 32 ∧ (18#6).toNat ≤ s.site.n ∧ s.site.n < (19#6).toNat) := by decide

theorem witness_SequencerWrites : condHolds 0 (State.reset.x 0) (State.reset.x 1) = true
    ∧ (cq 0 0 2 1).ctype.toNat % 4 = 0 ∧ (cq 0 5 2 1).ctype.toNat % 4 = 1 ∧ (cq 0 2 2 1).ctype.toNat % 4 = 2 ∧ (cq 0 7 2 1).ctype.toNat % 4 = 3 := by decide

theorem witness_QControlResult :
    (let s := live { c0 with x := [(1, 0xFFFF)], depth := 15, loops := [(1, { index := 3, count := 2, start := 0, stop := 5 })] } issue
     s.guardQ g0 = true ∧ (s.x 1).toNat < 2 ^ 16 ∧ s.me.depth < 16 ∧ s.me.depth ≠ 0 ∧ s.me.preq = [] ∧ (s.me.loop 1).stop ≠ (s.me.loop 1).start
       ∧ (s.me.loop 1).count ≠ 1 ∧ s.me.nlev ≤ (1#3).toNat ∧ (0#3).toNat < s.me.nlev) ∧
    (let s := live { c0 with x := [(1, 0x10000)], depth := 16, loops := [(1, { index := 3, count := 1, start := 0, stop := 5 })] } issue
     2 ^ 16 ≤ (s.x 1).toNat ∧ 16 ≤ s.me.depth ∧ (s.me.loop 1).count = 1 ∧ (s.me.loop 1).stop ≠ (s.me.loop 1).start) ∧
    (let s := live { c0 with x := [(1, 1)] } issue
     s.me.depth = 0 ∧ (s.me.loop 0).stop = (s.me.loop 0).start ∧ ((s.x 0).setWidth 32).toNat < ((s.x 1).setWidth 32).toNat
       ∧ ((s.x 0).setWidth 32).toNat ≤ ((s.x 0).setWidth 32).toNat) ∧
    (let s := live { c0 with preq := [{ lq := 1, mode := 1, newcomer := none }], nlev := 2, loops := [(1, { index := 3, count := 2, start := 0, stop := 5 })] } issue
     s.me.role ≠ 2 ∧ s.me.role ≠ 3 ∧ s.me.state ≠ .saving ∧ (∃ r ∈ s.me.preq, r.mode = 1 ∧ (1#3).toNat ≤ r.lq) ∧ (1#3).toNat < s.me.nlev ∧ (s.me.loop 1).stop ≠ (s.me.loop 1).start
       ∧ (s.me.loop 1).count ≠ 1) ∧
    (live { c0 with depth := 15, x := [(1, 0x10000)] } issue).me.depth < 16 := by decide

theorem witness_SequencerWaitsAndEnds :
    (let s := { live { c0 with x := [(1, 1), (2, 0x200000)], granted := 1 } issue with now := 1, mem := [(memKey .scratch 0, 3)] }
     s.guardQ g0 = true ∧ s.site.picked = false ∧ (s.x 1).toNat % 32 ≠ 0 ∧ (s.x 2).toNat % 32 = 0 ∧ s.inMyWin (s.x 2).toNat 32 = false ∧ s.inMyWin (s.x 0).toNat 32 = true ∧ waitLineBad (s.x 0).toNat s = false
       ∧ s.objComplete (s.myWin (s.x 0).toNat) = true
       ∧ (spanned s.site.arr s.me.h).all (fun b => decide (allowance s b + (96#7).toNat ≤ 96)) = true ∧ s.me.granted = s.site.n + 1 ∧ s.me.grantTick < s.now
       ∧ (spanned s.site.arr s.me.h).any (fun b => decide (96 < allowance s b + (97#7).toNat)) = true) ∧
    (let s := live c0 issue
     s.objComplete (s.myWin 0) = false ∧ s.me.dbg.getLsbD 0 = true ∧ s.me.lease = none ∧ s.me.saved = none ∧ s.me.granted ≠ s.me.ctime + 1 ∧ s.me.granted ≠ s.site.n + 1
       ∧ (spanned s.site.arr s.me.h).any (fun b => decide (96 < allowance s b + (96#7).toNat)) = false) ∧
    (live { c0 with dbg := 0 } issue).me.dbg.getLsbD 0 = false ∧ (live { c0 with lease := some { level := 1, expiry := 9 } } issue).me.lease = some { level := 1, expiry := 9 } ∧
    waitLineBad 0 { live c0 issue with marks := [(2, 0)] } = true ∧ (live { c0 with released := some 4 } issue).me.released ≠ none ∧ (live c0 issue).me.released = none := by
  decide

/-- A list for strays of depth 1, with nothing in it, and one that is full. -/
theorem witness_NarrowingResult :
    NarrowOf (.cvtI8I32 (nar 0 0)) (narrowOf (nar 0 0) 8 0 (.int 32) (narrowI32 8)) ∧
    (let n := narrowOf (nar 0 0) 8 0 (.int 32) (narrowI32 8)
     let s := withQ (qw 0 1 0 0 0 0) rowSite
     let t := { withQ (qw 0 1 3 0 0 0) rowSite with banks := [(0, { v := [(1, 128)] })] }
     let u := { withQ (qw 0 1 0 0 1 0) rowSite with banks := [(0, { v := [(1, 128)], pairs := [(0, { pp := 1, pr := 1 })] })] }
     s.execCols n.g = [0, 15] ∧ (∀ c ∈ s.execCols n.g, n.strays s c = 0) ∧ strayFit s n.q = true ∧ strayFit (live c0 rowSite) n.q = false
       ∧ (live c0 rowSite).execCols n.g = 0 :: [15] ∧
     strayFit t n.q = true ∧ n.strays t 0 = 1 ∧ (∀ c ∈ t.execCols n.g, n.strays t c ≤ (t.pair c n.q).room (qwDepth (t.me.qword n.q t.site.n))) ∧
     (n.conv t 0).getD 0 none = none ∧ hereKey t 0 ≠ hereKey t 1 ∧ (∀ c ∈ t.execCols n.g, (1 : Nat) + 64 * 500000 ≠ hereKey t c) ∧
     strayFit u n.q = true ∧ u.execCols n.g = 0 :: [15] ∧ (u.pair 0 n.q).room (qwDepth (u.me.qword n.q u.site.n)) < n.strays u 0) := by
  refine ⟨.inr (.inr (.inr (.inr (.inl ⟨_, rfl, rfl⟩)))), ?_⟩
  decide

theorem witness_CellAccess :
    (let s := live c0 rowSite
     let off := fun c => ((s.here c).sreg 0 + (32736#16).signExtend 32).toNat
     s.site.issue = false ∧ s.execCols g0 = 0 :: [15] ∧ (∀ c ∈ s.execCols g0, off c % 32 = 0 ∧ off c + 32 ≤ s.me.csSize) ∧ (∀ c ∈ s.execCols g0, off c % 4 = 0)) ∧
    (let s := live c0 rowSite
     ((s.here 0).sreg 0 + (1#16).signExtend 32).toNat % 4 ≠ 0 ∧
     ((s.here 0).sreg 0 + (0xFFE0#16).signExtend 32).toNat % 32 = 0 ∧ s.me.csSize < ((s.here 0).sreg 0 + (0xFFE0#16).signExtend 32).toNat + 32) := by decide

theorem witness_CellAccessEffects :
    (let s := { live c0 {} with due := [duo (.micro (.write .cell 32 [1, 2]))] }
     Memory.wf s.mem = true ∧ s.inputs = [] ∧ s.due = duo (.micro (.write .cell 32 [1, 2])) :: [] ∧ 32 + [(1 : Byte), 2].length ≤ 2 ^ 80) ∧
    (∃ e, let s := { live c0 {} with due := [duo (.micro (.cellRead 0 0 0 4 false e))] }
     let u := s.take (duo (.micro (.cellRead 0 0 0 4 false e))) []
     s.inputs = [] ∧ s.due = duo (.micro (.cellRead 0 0 0 4 false e)) :: [] ∧ s.marks = [] ∧ u.ttick 0 ≤ (u.ctx 0 0).freeFrom ∧
     ∀ v : State, v = { u with now := 1 } → (v.ctx 0 0).freeFrom < v.ttick 0) := by
  refine ⟨by decide, ⟨{ due := 4, n := 0, slot := 2, dest := .v 0, latch := .lm, val := 0 }, by decide, by decide, by decide, by decide, ?_⟩⟩
  rintro v rfl
  decide

theorem witness_QueueAccess :
    (let s := withQ (qw 1 2 2 0 1 0) issue
     let q := s.me.qwState 0
     s.site.picked = false ∧ q.stamp ≤ s.site.n ∧ s.fit 0 = true ∧ qwKind q.word = 1 ∧ 1 ≤ q.fill) ∧
    (let s := withQ (qw 1 2 2 0 0 0) issue
     s.fit 0 = true ∧ qwKind (s.me.qwState 0).word = 1 ∧ (s.me.qwState 0).fill < 1) ∧
    (let s := withQ (qw 2 2 2 0 3 0) issue
     s.fit 0 = true ∧ qwKind (s.me.qwState 0).word = 2 ∧ 1 ≤ (s.me.qwState 0).room) ∧
    (let s := withQ (qw 2 2 2 0 4 0) issue
     s.fit 0 = true ∧ (s.me.qwState 0).room < 1) ∧
    (let s := { withQ (qw 0 2 2 0 1 0) rowSite with
        banks := [(0, { pairs := [(0, { pp := 1, pr := 1 })] }), (bankKey 15 0, { pairs := [(0, { pp := 1, pr := 1 })] })] }
     s.fit 0 = true ∧ qwKind (s.me.qword 0 s.site.n) = 0 ∧ (∀ c ∈ s.execCols g0, 1 ≤ (s.pair c 0).fill) ∧ (∀ c ∈ s.execCols g0, (0#12).toNat < peekFill s c 0)
       ∧ (∀ c ∈ s.execCols g0, 1 ≤ (s.pair c 0).room (qwDepth (s.me.qword 0 s.site.n)))) ∧
    (let s := live c0 rowSite
     s.site.issue = false ∧ s.execCols g0 = 0 :: [15] ∧ s.fit 0 = false) ∧
    (let s := withQ (qw 0 2 2 0 1 0) issue
     s.fit 0 = true ∧ (s.me.qwState 0).stamp ≤ s.site.n ∧ qwKind (s.me.qwState 0).word ≠ 1 ∧ qwKind (s.me.qwState 0).word ≠ 2) ∧
    (let s := withQ (qw 2 2 2 0 1 0) rowSite
     s.fit 0 = true ∧ qwKind (s.me.qword 0 s.site.n) = 2) ∧
    (let s := withQ (qw 1 2 2 0 1 0) rowSite
     s.fit 0 = true ∧ qwKind (s.me.qword 0 s.site.n) = 1 ∧ ∀ c ∈ s.execCols g0, (0#12).toNat < peekFill s c 0) := by decide

theorem witness_CommunicationAndStrait :
    (let s := live c0 rowSite
     s.site.issue = false ∧ launchOver s = false ∧ (∀ c ∈ s.execCols g0, straitOther s (cellOf 0 0 c) = false ∧ 1 ≤ straitFree s (cellOf 0 0 c))) ∧
    launchOver { live { c0 with launch := 2 } rowSite with parts := [(0, { p0 with launches := [{ uid := 2, record := [], state := .killed }] })] } = true ∧
    (let s := { live c0 rowSite with
        now := 3, arrs := (List.range 64).map (fun a => (a, a0)), cells := [(bonded 0, { strait := [{ ctx := 0, launch := 0, lands := 2, val := 5 }] }),
          (bonded 15, { strait := [{ ctx := 0, launch := 0, lands := 2, val := 5 }] })] }
     (∀ c ∈ s.execCols g0, (s.arr (bonded (cellOf 0 0 c) / 256)).owner = (s.arr (cellOf 0 0 c / 256)).owner) ∧
     ∀ c ∈ s.execCols g0, ((s.cellx (bonded (cellOf 0 0 c))).strait.map fun e => (e.ctx, decide (e.lands < s.tick))) = [(0, true)]) ∧
    (let s := { live c0 rowSite with arrs := (List.range 64).map (fun a => (a, a0)) }
     let owner := fun n => (s.arr (n / 256)).owner
     let held := fun (k : Nat) (n : Nat) => { s with cells := [(0, { strait := List.replicate n { ctx := k, launch := 0, lands := 0, val := 0 } })] }
     s.execCols g0 = 0 :: [15] ∧ owner (bonded 0) = owner 0 ∧ (s.cellx (bonded 0)).strait = [] ∧
     straitOther (held 1 1) (cellOf 0 0 0) = true ∧ straitOther (held 0 32) (cellOf 0 0 0) = false ∧ straitFree (held 0 32) (cellOf 0 0 0) = 0 ∧
     ({ s with arrs := [(0, a0)] }.arr (bonded 0 / 256)).owner ≠ ({ s with arrs := [(0, a0)] }.arr 0).owner) := by decide

theorem witness_PlaneInstructions : issue.issue = true ∧
    (let s := live c0 rowSite
     let at0 := fun c => (elem 32 0 (s.src (.int 32) c 0 .zero) + (31744#16).toNat) % 2 ^ 32
     s.site.issue = false ∧ (∀ c ∈ s.execCols g0, at0 c % (32 * 32) = 0 ∧ at0 c + 32 * 32 ≤ s.me.csSize) ∧ s.execCols g0 = 0 :: [15] ∧
     (elem 32 0 (s.src (.int 32) 0 0 .zero) + (32#16).toNat) % 2 ^ 32 % (32 * 32) ≠ 0 ∧ (elem 32 0 (s.src (.int 32) 0 0 .zero) + (32768#16).toNat) % 2 ^ 32 % (32 * 32) = 0 ∧
     s.me.csSize < (32768#16).toNat + 32 * 32) := by decide

/-- A pass of one row from a queue of eight elements of 512 bytes. -/
def onePass : TPass := { g := g0, arow := 255, acol := 0, cnt := 1, qw := 0, walk := false, fwd := false }
def downstream : State :=
  { live c0 { issue := true, arr := 1 } with
    ctxs := [(4, { c0 with role := 3 })]
    arrs := [(0, { owner := some 0, passes := [{ uid := 9, ctx := 0, n := 0, tid := 0, part := 0, h := 16, mode := .ps8, opcode := 8, arow := 0, acol := 0, mrows := 1,
                                                 fired := 0, colsel := 0xFFFF, fwd := true }] }), (1, a0)] }
def bound (e : Kennel) : State := { withQ (qw 3 4 3 0 1 0) issue with towers := [(0, { kennels := [(0, e)] })] }
theorem witness_PassesFire :
    (let s := withQ (qw 3 4 3 0 1 0) issue
     s.site.picked = false ∧ railsOk s 0 16 0 0 = true ∧ passWordOk s 0 = true ∧ onePass.arow.toNat + 1 ≤ s.me.arSize ∧ 1 ≤ (s.me.qwState 0).fill) ∧
    (let s := withQ (qw 3 4 3 0 0 0) issue
     passWordOk s 0 = true ∧ (s.me.qwState 0).fill < 1) ∧
    passWordOk (live c0 issue) 0 = false ∧
    (let s := withQ (qw 3 4 3 0 2 0) issue
     2 ≤ (s.me.qwState 0).fill ∧ s.me.arSize < onePass.arow.toNat + 2) ∧
    (let w : Walker := { owner := some 0, feed := [[]] }
     w.owner = some 0 ∧ 1 ≤ w.feed.length - w.feedRes) ∧
    (let w : Walker := { owner := some 0 }
     w.ended = false ∧ w.feed.length - w.feedRes < 1) ∧
    (let w : Walker := { owner := some 0, ended := true }
     w.ended = true ∧ w.feed.length - w.feedRes < 1) ∧
    a0.walker.owner ≠ some 0 ∧
    (downstream.site.issue = true ∧ railsOk downstream 1 16 0 0 = true ∧ (255#8).toNat + 1 ≤ downstream.me.arSize ∧ (forwardingPass downstream).isSome = true ∧
     downstream.me.arSize < (255#8).toNat + 2) ∧
    (let s := { live { c0 with role := 3 } { issue := true, arr := 1 } with ctxs := [(4, { c0 with role := 3, fid := 0 })] }
     forwardingPass s = none ∧ chainFeeds s = false) ∧
    (let s := { downstream with arrs := downstream.arrs.map fun e => (e.1, { e.2 with ls1 := { level := 1 } }) }
     chainFeeds s = true ∧ railsOk s 1 16 0 0 = false ∧ s.site.picked = false) ∧
    (let s := bound { valid := true, arr := 0, gang := false, mrows := 1 }
     railsOk s 0 16 (mmdRail s).1 (mmdRail s).2 = true ∧ passWordOk s 0 = true ∧ 1 ≤ (s.me.qwState 0).fill ∧ (mmdEntry s 0).valid = true ∧ (mmdEntry s 0).arr = s.site.arr
       ∧ (mmdEntry s 0).gang = (s.me.h == 32) ∧ (1#8).toNat = (mmdEntry s 0).mrows ∧ (0#8).toNat ≠ (mmdEntry s 0).mrows) ∧
    (mmdEntry (bound {}) 0).valid = false ∧ (mmdEntry (bound { valid := true, arr := 1 }) 0).arr ≠ 0 := by decide

theorem witness_CellsTakePart : (live c0 rowSite).site.issue = false := by decide

theorem witness_BandInstructions :
    (let s := live c0 issue
     (240#8).toNat + s.me.h ≤ s.me.arSize ∧ s.me.arSize < (241#8).toNat + s.me.h) ∧
    (let s := live c0 rowSite
     s.site.issue = false ∧ ∀ c ∈ s.execCols g0, elem 32 0 (s.src (.int 32) c 0 .zero) % 32 = 0 ∧ elem 32 0 (s.src (.int 32) c 0 .zero) + 32 ≤ s.me.csSize) := by decide

theorem witness_BandAccessEffects :
    (([(0, 5), (511, -1)] : List (Nat × Int)).map Prod.fst).Nodup ∧ 508 + 3 < 512 ∧
    (∃ e, let s := { live c0 {} with due := [duo (.micro (.accRead 0 508 true 0 0 e))] }
      s.inputs = [] ∧ s.due = duo (.micro (.accRead 0 508 true 0 0 e)) :: []) :=
  ⟨by decide, by decide, { due := 4, n := 0, slot := 3, dest := .v 0, latch := .no, val := 0 }, rfl, rfl⟩

theorem witness_LoaderFires :
    (let s := withQ (qw 1 2 2 0 0 0) issue
     s.guardQ g0 = true ∧ s.site.picked = false ∧ loaderWordOk s 0 1 = true ∧ (s.x 0).toNat % 512 = 0 ∧
       (∀ r, r < 16 → s.inMyWin ((s.x 0).toNat + r * (s.x 0).toNat) 512 = true) ∧ 1 ≤ (s.me.qwState 0).room) ∧
    (let s := withQ (qw 2 2 2 0 1 0) issue
     loaderWordOk s 0 2 = true ∧ 1 ≤ (s.me.qwState 0).fill) ∧
    (let s := withQ (qw 1 2 2 0 4 0) issue
     loaderWordOk s 0 1 = true ∧ (s.me.qwState 0).room < 1) ∧
    loaderWordOk (live c0 issue) 0 1 = false ∧
    (let s := live { c0 with x := [(1, 1), (2, 0x1FFE00)] } issue
     (s.x 1).toNat % 512 ≠ 0 ∧ (s.x 2).toNat % 512 = 0 ∧ s.inMyWin ((s.x 2).toNat + 0 * (s.x 2).toNat) 512 = true ∧
     s.inMyWin ((s.x 2).toNat + 1 * (s.x 2).toNat) 512 = false) := by decide

theorem witness_WordsObjectsCounters :
    (let s := live { c0 with x := [(1, 1), (2, 0x1FFFE0), (3, 0x200000)] } issue
     s.guardQ g0 = true ∧ s.site.picked = false ∧ wordBusy 0 s = false ∧ (s.x 2).toNat % 32 = 0 ∧ s.inMyWin (s.x 2).toNat 32 = true ∧ (s.x 1).toNat % 32 ≠ 0
       ∧ (s.x 3).toNat % 32 = 0 ∧ s.inMyWin (s.x 3).toNat 32 = false ∧ s.me.h ≠ 32) ∧
    wordBusy 0 (withQ { ops := 1 } issue) = true ∧ (live { c0 with h := 32 } issue).me.h = 32 ∧
    (let s := { live c0 {} with due := [duo (.micro (.boRead 0 1))] }
     s.inputs = [] ∧ s.due = duo (.micro (.boRead 0 1)) :: [] ∧ s.marks = []) := by decide

theorem witness_DescriptorsAndPrograms :
    (let s := withQ (qw 3 3 2 0 1 0) issue
     s.guardQ g0 = true ∧ s.site.picked = false ∧ copyWordOk s 0 = true ∧ (0#4).toNat + 1 ≤ (s.me.qwState 0).fill ∧ slotsFor s s.site.arr 1 = true
       ∧ (s.me.qwState 0).fill < (1#4).toNat + 1) ∧
    copyWordOk (live c0 issue) 0 = false ∧
    (let s := live { c0 with qw := [(0, qw 3 3 2 0 0 0), (1, qw 3 3 2 1024 1 0)] } issue
     (s.x 0).toNat % 64 = 0 ∧ s.inMyWin (s.x 0).toNat 64 = true ∧ mpQueueOk s 0 = true ∧ (1#13).toNat ≤ (s.me.qwState 0).room ∧ mpQueueOk s 1 = true
       ∧ (1#13).toNat ≤ (s.me.qwState 1).fill ∧ fencesOpen s s.site.arr s.site.ctx s.me.tid s.site.n = true) := by decide

/-- A strided stream of 4-byte elements with data queue 0: VALID, STRIDED, ESZ 0, DQ 0. -/
def strided (v : Nat) : State := live { c0 with qw := [(0, qw 3 0 2 0 v 0)], st := [(0, { word := BitVec.ofNat 256 (1 + 2 ^ 24) })] } issue
theorem witness_Streams :
    (let s := live { c0 with x := [(1, 1), (2, 0x200000)] } issue
     s.guardQ g0 = true ∧ s.site.picked = false ∧ (s.x 0).toNat % 32 = 0 ∧ s.inMyWin (s.x 0).toNat 32 = true ∧ (s.x 1).toNat % 32 ≠ 0 ∧ s.inMyWin (s.x 2).toNat 32 = false) ∧
    (let s := strided 0
     probeCheck 0 0 0 s = none ∧ (s.strm 0).setPending = false ∧ (s.strm 0).probing = false ∧ stStrided (s.strm 0).word = true ∧ stValid (s.strm 0).word = true
       ∧ streamWordsOk s (s.strm 0).word = true ∧ stReqp (s.strm 0).word = false ∧ (0#12).toNat + 1 ≤ (s.me.qwState 0).room ∧ slotsFor s 0 1 = true) ∧
    1 ≤ ((strided 1).me.qwState 0).fill ∧
    stValid ((live c0 issue).strm 0).word = false ∧
    (let s := live { c0 with qw := [(0, qw 3 0 2 0 0 0)], st := [(0, { word := BitVec.ofNat 256 (1 + 2 ^ 24 + 2 ^ 35) })] } issue
     stValid (s.strm 0).word = true ∧ streamWordsOk s (s.strm 0).word = true ∧ stReqp (s.strm 0).word = true ∧ stProbed (s.strm 0).word < stSpec (s.strm 0).word + 1 ∧ (s.strm 0).setPending = false ∧ (s.strm 0).probing = false) := by decide

theorem witness_Atoms :
    (let s := withQ (qw 3 1 2 0 0 0) issue
     s.guardQ g0 = true ∧ s.site.picked = false ∧ (s.x 0).toNat % 8 = 0 ∧ s.fit 0 = true ∧ qwKind (s.me.qword 0 0) = 3 ∧ qwEsz (s.me.qword 0 0) = 1
       ∧ 1 ≤ (s.me.qwState 0).room ∧ s.inMyWin ((65535#27).toNat * 32) 32 = true ∧ s.inMyWin ((65536#27).toNat * 32) 32 = false ∧ slotsFor s 0 1 = true) ∧
    (live { c0 with x := [(0, 4)] } issue).x 0 = 4 ∧ (live c0 issue).fit 0 = false ∧ (0xFFFFFFFF : Nat) < 2 ^ (8 * 4) := by decide

theorem witness_PostsKennelsQuiet :
    (let s := live { c0 with x := [(1, 1), (2, 0x200000)], dsz := 1, xch := some { n := 0, word := 1, k := 0, stamp := 0, pos := 0, cnt := 0, start := some 0 } } issue
     s.guardQ g0 = true ∧ s.site.picked = false ∧ (s.x 0).toNat % 64 = 0 ∧ s.inMyWin (s.x 0).toNat 64 = true ∧ (s.x 1).toNat % 64 ≠ 0 ∧ (s.x 2).toNat % 64 = 0
       ∧ s.inMyWin (s.x 2).toNat 64 = false ∧ ¬64 ≤ (s.part s.me.part).queue.length + (s.part s.me.part).reserved
       ∧ s.inMyWin (s.x 0).toNat (48 * (1#15).toNat) = true ∧ (1#15).toNat ≤ s.me.dsz ∧ s.me.dsz < (2#15).toNat
       ∧ (quietHere s s.me.part true && (s.part s.me.part).peers.all fun e => (smGet 0 (s.part s.me.part).peerQuiet e.1).testBit 1) = true
       ∧ (s.part s.me.part).xmask.getLsbD s.site.arr = false) ∧
    (let s := { live c0 issue with parts := [(0, { p0 with reserved := 64, peers := [(0, 0, 0)] })] }
     64 ≤ (s.part s.me.part).queue.length + (s.part s.me.part).reserved
       ∧ (quietHere s s.me.part true && (s.part s.me.part).peers.all fun e => (smGet 0 (s.part s.me.part).peerQuiet e.1).testBit 1) = false) ∧
    (let s := { live { c0 with x := [(1, 1)], xch := some { n := 0, word := 1, k := 0, stamp := 0, pos := 0, cnt := 0, start := some 0 } } issue with
        parts := [(0, { p0 with xmask := 1 })] }
     xchCheck 0 1 0 s = none ∧ (s.me.xch.map fun x => (x.n, x.start)) = some (s.site.n, some 0) ∧ 0 ≤ s.now) := by decide

theorem witness_WalkerStartAndStop :
    (let s := live c0 issue
     s.guardQ g0 = true ∧ s.site.picked = false ∧ (s.x 0).toNat % 64 = 0 ∧ s.inMyWin (s.x 0).toNat 64 = true ∧ s.walker.owner = none ∧ s.walker.owner ≠ some s.site.ctx) ∧
    (let s := live { c0 with x := [(1, 32), (2, 0x200000)] } issue
     (s.x 1).toNat % 64 ≠ 0 ∧ (s.x 2).toNat % 64 = 0 ∧ s.inMyWin (s.x 2).toNat 64 = false) ∧
    (let s := { live c0 issue with arrs := [(0, { a0 with walker := { owner := some 0 } })] }
     s.walker.owner = some s.site.ctx ∧ s.walker.ended = false ∧ s.walker.res = none) ∧
    (let s := { live c0 issue with arrs := [(0, { a0 with walker := { owner := some 1, ended := true } })] }
     s.walker.owner = some 1 ∧ 1 ≠ s.site.ctx ∧ s.walker.ended = true) := by decide

/-- Array 0's walker. -/
def walk (w : Walker) (x : Site) : State := { live c0 x with arrs := [(0, { a0 with walker := w })] }
theorem witness_WalkerScalarResult : (walk { plen := 2 } issue).walker.pc + 1 < (walk { plen := 2 } issue).walker.plen ∧ (15#4) ≠ 0 ∧ (15#4) ≠ 1 := by decide

theorem witness_WalkerControlResult :
    (let w : Walker := { plen := 2, g := [(1, 1), (2, 2)] }
     w.reg 1 = w.reg 1 ∧ w.reg 1 ≠ w.reg 2 ∧ (w.reg 1).toNat < (w.reg 2).toNat ∧ (w.reg 1).toNat ≤ (w.reg 1).toNat ∧ w.reg 2 - 1 ≠ 0 ∧ w.reg 1 - 1 = 0 ∧ w.pc + 1 < w.plen) ∧
    ({ plen := 1 } : Walker).plen ≤ ({ plen := 1 } : Walker).pc + 1 := by decide

theorem witness_WalkerReadsBegin :
    (let s := walk { plen := 2, g := [(1, 2)] } issue
     s.site.issue = true ∧ s.inMyWin 0 4 = true ∧ s.walker.feed.length < 16 ∧ s.inMyWin 4294966784 512 = false) ∧
    (let s := walk { plen := 2, lbuf := [(0, List.replicate 64 0)] } issue
     ((linesOf 0 4).filter fun l => !(s.walker.lbuf.any fun h => h.1 == l)) = [] ∧ s.inMyWin 0 1 = true ∧ s.walker.lbuf.any (fun l => l.1 == 0) = true ∧
     s.walker.lbuf.any (fun l => l.1 == 64) = false ∧ s.walker.flight.contains 64 = false ∧ s.inMyWin 64 1 = true ∧ s.inMyWin 4294967295 1 = false ∧
     s.walker.pc + 1 < s.walker.plen ∧ (walk { plen := 1 } issue).walker.plen ≤ (walk { plen := 1 } issue).walker.pc + 1) := by decide

theorem witness_WalkerReadForms :
    walkerRead { plen := 2, g := [(1, 2)] } (.wLdW 3 0 0) = some (true, 0, 4, 4, 0) ∧ walkerRead { plen := 2, g := [(1, 2)] } (.wLdW 3 1 0) = some (true, 2, 4, 4, 0) ∧
    walkerRead { plen := 2, g := [(1, 2)] } (.wEmit 0 0 0xE00) = some (false, 4294966784, 512, 512, 0) := ⟨rfl, rfl, rfl⟩

theorem witness_WalkerReadResults : (walk { plen := 2 } {}).site.issue = false ∧ (walk { plen := 2 } {}).walker.pc + 1 < (walk { plen := 2 } {}).walker.plen := by decide

theorem witness_WalkerRecordsPushed :
    (let w : Walker := { plen := 2, running := true, g := [(1, 1), (2, 2)], feed := List.replicate 15 [] }
     w.pc + 1 < w.plen ∧ w.feed.length < 16 ∧ (w.reg 1).toNat = w.ecnt + 1 ∧ (w.reg 0).toNat ≤ w.ecnt ∧ w.ecnt + 1 < (w.reg 2).toNat ∧ w.running = true ∧ w.epoch = ({} : Site).c) ∧
    16 ≤ ({ feed := List.replicate 16 [] } : Walker).feed.length ∧ ({} : Walker).running = false := by decide

theorem witness_WalkerQueueAccess :
    (let s := withQ (qw 3 1 2 0 1 0) issue
     let t : State := { s with site := { s.site with n := s.me.ctime } }
     s.site.issue = true ∧ walkWordOk t 0 [0, 1] = true ∧ walkWordOk t 0 [4] = false ∧ (14#4) ≠ 15 ∧ (s.me.qwState 0).fill ≠ 0) ∧
    (let s := withQ (qw 3 0 2 0 0 0) issue
     let t : State := { s with site := { s.site with n := s.me.ctime } }
     walkWordOk t 0 [0, 1] = true ∧ qwEsz (s.me.qwState 0).word ≠ 1 ∧ (s.me.qwState 0).fill = 0) ∧
    (let s := withQ (qw 3 4 2 0 3 0) issue
     let t : State := { s with site := { s.site with n := s.me.ctime } }
     walkWordOk t 0 [4] = true ∧ walkWordOk t 0 [0, 1] = false ∧ (s.me.qwState 0).room ≠ 0) ∧
    (withQ (qw 3 4 2 0 4 0) issue).me.qwState 0 = qw 3 4 2 0 4 0 ∧ (qw 3 4 2 0 4 0).room = 0 ∧
    (let w : Walker := { plen := 2, res := some (0, 0, false) }
     w.pc + 1 < w.plen ∧ w.res = some ((0#4).toNat, (qw 3 1 2 0 1 0).stamp, false) ∧ ({ w with plen := 1 } : Walker).plen ≤ w.pc + 1) ∧
    ({ plen := 2, res := some (0, 0, true) } : Walker).res = some ((0#4).toNat, (qw 3 4 2 0 0 0).stamp, true) := by decide

/-- Part `c0` with a site, a module and an array 0 of its own. -/
def at' (x : Site) : State := live c0 x
def withArr0 (v : Arr) (x : Site) : State := { live c0 x with arrs := [(0, v)] }
def withPart0 (v : Part) (x : Site) : State := { live c0 x with parts := [(0, v)] }
def withTower0 (v : Tower) (x : Site) : State := { live c0 x with towers := [(0, v)] }
def withStack0 (v : Stack) (x : Site) : State := { live c0 x with hbm := [(0, v)] }
def withPort0 (v : Port) (x : Site) : State := { live c0 x with mod := { boot := 6, ports := [(0, v)] } }

theorem witness_BucketsAndSparing :
    sparedRows (at' { a := 16 }) 1 = [] ∧ ((at' {}).arr 0).gate = .up ∧ ((at' {}).arr (1023 / 16)).owner = none ∧ (1023 : Nat) < 1024 ∧
    ((at' {}).tower 0).spares.length < 8 ∧ ((at' {}).stack 0).retired = none ∧
    (smGet {} (withPort0 { trunk := some 2 } {}).mod.ports 0).trunk = some 2 ∧ (smGet {} (at' {}).mod.ports 79).failed = false ∧
    ((1 : Nat) = 0 ∨ (1 : Nat).testBit 0 = true) ∧ ((at' {}).stack 0).dog.any (fun e => e.1 == 0) = false ∧
    (withStack0 { retired := some 3 } { b := 1 }).site.b = 1 ∧ ((withStack0 { retired := some 3 } { b := 1 }).stack 0).retired ≠ none ∧
    ((at' { a := 1 }).bucket 1 1).state = 0 ∧ ((at' { a := 1 }).bucket 1 1).level < bucketThreshold 1 ∧
    (let s := { at' {} with mod := { boot := 6, latent := [(2, 7)] } }
     s.mod.latent = [(2, 7)] ∧ (s.site.a ≠ 1 ∧ s.site.a ≠ 2) ∧ (at' {}).mod.latent = []) ∧
    (let s := { at' { a := 3 } with mod := { boot := 6, buckets := [(bucketKey 1 5, { total := 1, state := 2, level := 0 })] } }
     sparedRows s 0 ≠ [] ∧ (s.arr 0).owner = some 0) ∧
    (let s := withTower0 { spares := List.replicate 8 { bank := 1 } } { a := 2047, b := 1 }
     8 ≤ (s.tower 0).spares.length ∧ tenantsOf s 0 ≠ []) ∧
    ((withStack0 { retired := some 3 } { a := 36 * 4 }).stack 0).retired = some 3 ∧ (3 : Nat) ≠ 36 * 4 / 36 % 64 ∧
    (let s := { at' { a := 3, b := 8 } with mod := { boot := 6, trunkNew := [(7, some 2)] } }
     (s.mod.trunkNew.any fun c => c.1 + 1 == s.site.b) = true ∧ (at' { b := 8 }).mod.trunkNew = [] ∧ (smGet {} (at' {}).mod.ports 0).trunk = none) := by decide +kernel

theorem witness_BringUpAndLoss : ({} : Site).frame.princ = 0 ∧ ({ frame := { princ := 1 } } : Site).frame.princ ≠ 0 ∧
    (let s := { live c0 { a := 7 } with mod := { boot := 4 }, hbm := (List.range 7).map (fun k => (k, { up := true })) }
     s.site.b = 0 ∧ (∀ st, st < 8 → st ≠ s.site.a → (s.stack st).up = true) ∧ s.mod.boot = 4) ∧
    (let s := { at' {} with mod := { boot := 3, stackTemp := [(7, -1)] } }
     s.mod.boot = 3 ∧ (∃ st, st < 8 ∧ smGet 0 s.mod.stackTemp st < 0) ∧ ∀ st, st < 7 → 0 ≤ smGet 0 s.mod.stackTemp st) ∧ (at' {}).mod.boot ≠ 3 ∧
    (let s := at' {}
     (1 : Nat) ≠ s.site.a ∧ (s.stack 1).up = false) := by decide

theorem witness_HeatAndClocks :
    (let s := at' { b := 126 }
     (s.part 0).live = true ∧ (s.part 0).leash = false ∧ (s.part 0).faults = [] ∧ (s.tower 0).lagFrac + min s.site.b 126 < 1000) ∧
    (let s := withTower0 { lagFrac := 874 } { b := 127 }
     1000 ≤ (s.tower s.site.a).lagFrac + min s.site.b 126 ∧ s.site.c ≠ 1 ∧ (s.tower 0).trip < 2) ∧
    (let s := withTower0 { trip := 2 } { b := 3, c := 1 }
     2 ≤ (s.tower 0).trip ∧ s.site.b = 3) ∧
    (let s := withArr0 { ls1 := { level := 3, target := 5, moving := some 9 }, ls2 := { level := 3, target := 5, moving := some 9 } } { c := 9 }
     (s.arr 0).ls1.moving = some s.site.c ∧ (s.arr 0).ls2.moving = some s.site.c) := by decide

theorem witness_PowerEvents :
    dieRequests (at' {}) 15 = [] ∧
    (let s := live { c0 with lease := some { level := 1, expiry := 9 } } { c := 9 }
     (∃ l, (s.ctx 0 0).lease = some l ∧ l.expiry = s.site.c) ∧ productsDone s 0 0 0 (s.ttick 0) = true) ∧
    (let s := at' { c := 9 }
     ∀ l, (s.ctx 0 0).lease = some l → l.expiry ≠ s.site.c) ∧
    productsDone { downstream with site := { n := 1 } } 0 0 1 (downstream.ttick 0) = false ∧
    (let s := live { c0 with acq := some { level := 24, ticks := 1250, filed := 0 } } { a := 15 }
     let s := { s with now := 9, mod := { boot := 6, ringTotal := 2000, carried := 40 } }
     (∃ e r, dieRequests s 0 = [e] ∧ (s.ctx e.arr e.ctx).acq = some r ∧ (s.ctx e.arr e.ctx).h ≠ 32 ∧ r.level ≤ s.mod.carried ∧ committed s e.at' + r.level ≤ 96) ∧
     markElsewhere s 0 = false ∧ (s.tower 0).removed = false ∧ (s.tower 0).trip < 2 ∧ s.mod.owed = 0) ∧
    (let s := live { c0 with released := some 3 } { n := 3 }
     (s.ctx 0 0).released = some s.site.n ∧ productsDone s 0 0 s.site.n (s.ttick 0) = true) ∧
    ((at' { n := 3 }).ctx 0 0).released ≠ some 3 ∧ ({ at' {} with now := 1249 } : State).now % 1250 ≠ 0 ∧ ((at' {}).arr 0).owner = some 0 ∧ (2500 : Nat) % 1250 = 0 ∧
    (let s := { withArr0 { a0 with tooHigh := some 0 } { b := 100000, c := 1 } with now := 1250, ctxs := [(0, { c0 with lease := some { level := 1, expiry := 9 } })] }
     (decide (11 * 250 * declared s 0 < 10 * s.site.b) && decide (1250 ≤ s.now) && (s.arr 0).tooHigh == some (s.now - 1250)) = true ∧ overdrawCtx s 0 = some (0, 0, 0) ∧
     (s.arr 0).owner = some 0 ∧ (s.part 0).leash = false ∧ (s.part 0).byHalt = false ∧ (s.part 0).faults = []) ∧
    (let s := { withArr0 a0 { b := 100000, c := 1 } with now := 1250 }
     (decide (11 * 250 * declared s 0 < 10 * s.site.b) && decide (1250 ≤ s.now) && (s.arr 0).tooHigh == some (s.now - 1250)) = false) ∧
    (let s := { withArr0 { gate := .gating } {} with ctxs := [] }
     (s.arr 0).gate = .gating ∧ (arrayIdle s 0 && straitLanded s 0) = true) ∧
    (let s := withArr0 { gate := .gating } {}
     (s.arr 0).gate = .gating ∧ (arrayIdle s 0 && straitLanded s 0) = false) ∧
    ((at' {}).arr 0).gate ≠ .gating ∧ ((withArr0 { gate := .gated } {}).arr 0).gate = .gated ∧ ((withArr0 { gate := .ungating } {}).arr 0).gate = .ungating := by
  refine ⟨by decide, ⟨⟨_, rfl, rfl⟩, by decide⟩, ?_, by decide, ⟨⟨_, _, rfl, rfl, by decide⟩, by decide⟩, by decide⟩
  intro s l h
  revert l
  decide

/-- A gather of four bytes. -/
def rq (t : Target) : Req := { uid := 5, kind := .gather, part := 0, arr := 0, ctx := 0, n := 0, tid := 0, target := t, size := 4, write := false, bo := some 64, fetch := true }
def withReq (r : Req) (x : Site) : State := { live c0 x with reqs := [r] }
/-- A range entry that maps the first 4 KiB to the host's first (VALID, R, BASE 0, LIMIT 4095). -/
def hostRange : BitVec 256 := BitVec.ofNat 256 (1 + 2 + 4095 * 2 ^ 104) ||| ((BitVec.ofNat 256 1).rotateLeft 215)
theorem witness_MemoryRequestEvents :
    (let s := withReq (rq (.phys (2 ^ 40))) { a := 5 }
     (∃ r, s.req? s.site.a = some r ∧ r.target = .phys (2 ^ 40) ∧ r.kind = .gather) ∧ isHost (2 ^ 40) = false ∧ reqUncorrectable s (rq (.phys (2 ^ 40))) = none ∧ (rq (.phys (2 ^ 40))).write = false) ∧
    (let s := { withReq (rq (.virt 0)) { a := 5 } with parts := [(0, { p0 with ext := [(2 ^ 51, 2 ^ 51 + 4096)], ranges := [(0, hostRange)] })] }
     s.req? 5 = some (rq (.virt 0)) ∧ (rq (.virt 0)).dropped = false ∧ (∀ q ∈ tableReads s 0 0, lostLineAt s 0 q = none) ∧ ∃ x, permitted .read (translate s 0 0 4) = .ok x) ∧
    (let s := withReq (rq (.virt 0)) { a := 5 }
     s.req? 5 = some (rq (.virt 0)) ∧ (rq (.virt 0)).va = none ∧ (∀ q ∈ tableReads s 0 0, lostLineAt s 0 q = none) ∧ ∃ e, permitted .read (translate s 0 0 4) = .error e) ∧
    (let s := withReq { rq (.virt 0) with dropped := true } { a := 5 }
     ∃ r, s.req? 5 = some r ∧ r.dropped = true) ∧
    (let s := withReq (rq (.phys 0)) { a := 5 }
     let r := rq (.phys 0)
     let c := s.ctxOf r.arr r.ctx r.tid
     (c.tid == r.tid && (c.stream r.j).gen == r.gen && !r.dropped && !engineHeld s r.part 4 r.arr) = true) ∧
    (let s := { withReq { rq (.phys 0) with tid := 1 } { a := 5 } with ctxs := [] }
     let r := { rq (.phys 0) with tid := 1 }
     let c := s.ctxOf r.arr r.ctx r.tid
     (c.tid == r.tid && (c.stream r.j).gen == r.gen && !r.dropped && !engineHeld s r.part 4 r.arr) = false) ∧
    (let r := { rq (.phys (2 ^ 40)) with kind := .scatter, write := true }
     (withReq r { a := 5 }).req? 5 = some r ∧ r.kind = .scatter ∧ r.write = true ∧ isHost (2 ^ 40) = false) ∧
    (let r := { rq (.phys (2 ^ 40)) with kind := .atom, fetch := false }
     (withReq r { a := 5 }).req? 5 = some r ∧ r.target = .phys (2 ^ 40) ∧ r.bo = some 64 ∧ r.fetch = false ∧ r.toHost = false) := by
  refine ⟨⟨⟨_, rfl, rfl, rfl⟩, by decide, by decide, by decide⟩, ⟨rfl, rfl, by decide, ?_⟩, ⟨rfl, by decide, by decide, ⟨_, rfl⟩⟩, ⟨_, rfl, rfl⟩, by decide, by decide, by decide, by decide⟩
  exact ⟨_, rfl⟩

/-- A memory program of array 0. -/
def prog : MemProg := { uid := 7, part := 0, arr := 0, ctx := 0, n := 0, tid := 0, off := 0, issued := 0, record := [], rq := 0, rstamp := 0, nrd := 0, rpos := 0,
                        wq := 0, wstamp := 0, nwr := 0, wpos := 0 }
theorem witness_StackEvents :
    (let s := { withStack0 { up := true, slotsNew := [(0, [(48, 1)]), (1, [])], masksNew := [(0, 0, [1, 2, 3, 4], [1, 2, 3, 4, 5, 6])] } { b := 1 } with now := 1 }
     (s.stack 0).up = true ∧ ((s.stack 0).slotsNew.filter fun e => decide (e.1 < s.now)) = [(0, [(48, 1)])] ∧ (s.stack 0).masksNew.map (fun e => e.1) = [0] ∧ 0 < s.now ∧
     s.site.b % 512 ≠ 0 ∧ s.site.b % 512 ≠ 48 ∧ s.site.b % 512 ≠ 256) ∧
    ((withStack0 { up := true, slotsNew := [(0, [(48, 1)])] } {}).stack 0).slotsNew.filter (fun e => decide (e.1 < 0)) = [] ∧
    ((at' {}).stack 0).up = false ∧
    refreshed ((withStack0 { up := true } { b := 512 }).stack 0) 1 ≠ [] ∧ missedRefresh ((withStack0 { up := true } { b := 48 }).stack 0) 0 ≠ [] ∧ (48 : Nat) % 512 = 48 ∧
    (let s := withStack0 { progs := [prog] } { b := 7 }
     ((s.stack s.site.a).prog? s.site.b) = some prog ∧ s.inWin (towerOf prog.arr) prog.part (mpBo prog) 32 = true) ∧
    ((at' {}).stack 0).prog? 7 = none ∧
    (let s := at' {}
     let x := s.site
     let c := s.ctxOf x.arr x.ctx x.row
     s.partOf x.arr x.ctx x.row = some 0 ∧ (((s.part 0).task x.row).any fun t => t.state == .checkpointed) = false ∧
     c.tid = x.row ∧ c.state ≠ .free ∧ (c.stream x.a).sets = x.qpos ∧ engineHeld s 0 4 x.arr = false) ∧
    (let s := withPart0 { p0 with tasks := [{ uid := 6, launch := 2, number := 0, state := .running }] } { row := 6, qpos := 1 }
     s.partOf 0 0 6 = some 0 ∧ ((s.part 0).task 6).any (fun k => k.state == .running) = true ∧ ((s.ctxOf 0 0 6).stream 0).sets ≠ s.site.qpos) ∧
    (let s := withPart0 { p0 with tasks := [{ uid := 6, launch := 2, number := 0, state := .checkpointed }] } { row := 6 }
     s.partOf 0 0 6 = some 0 ∧ ((s.part 0).task 6).any (fun k => k.state == .checkpointed) = true) ∧
    (at' { row := 9 }).partOf 0 0 9 = none := by decide +kernel

/-- A copy of one line from offset 0 to offset 64 of tower 0's window. -/
def copyBytes : List Byte := natBytes 8 0 ++ natBytes 8 64 ++ natBytes 4 64 ++ List.replicate 44 0
def desc (bs : List Byte) : Desc := { uid := 3, tier := false, part := 0, arr := 0, ctx := 0, n := 0, tid := 0, launch := 0, off := 0, bytes := bs, fired := 0 }
theorem witness_CopyAndMessageEvents :
    (let s := withTower0 { descs := [desc copyBytes] } {}
     let v := s.tower 0
     v.descs.any (Desc.busy s 0) = false ∧ v.cend ≤ s.ttick 0 ∧ (v.descs.find? fun d => !d.taken && !d.stopped && !engineStopped s d.part 5 0) = some (desc copyBytes) ∧
     descOk s (desc copyBytes) = true ∧ descOutside s (desc copyBytes) = none) ∧
    descOk (at' {}) (desc (List.replicate 64 0)) = false ∧
    (let s := withTower0 { descs := [{ desc copyBytes with taken := true }] } {}
     (s.tower 0).descs.any (Desc.busy s 0) = true) ∧
    (let s := { withTower0 { descs := [desc copyBytes] } { a := 5 } with reqs := [{ rq .unknown with j := 3 }] }
     s.req? s.site.a = some { rq .unknown with j := 3 } ∧ (s.tower 0).desc? 3 = some (desc copyBytes)) ∧
    queueFull (withPart0 { p0 with reserved := 64 } {}) 0 = true ∧
    (let s := withPart0 { p0 with reserved := 63, launches := [{ uid := 2, record := List.replicate 256 0 }] } { c := 2 }
     queueFull s 0 = false ∧ s.marks = [] ∧ s.inWin (towerOf s.site.arr) s.site.b 0 64 = true ∧ postRecordOk s 0 (s.record 0 2) (natBytes 4 0 ++ natBytes 4 64 ++ List.replicate 56 0) = true) ∧
    (let s := withReq (rq .unknown) { a := 5 }
     s.req? s.site.a = some (rq .unknown) ∧ s.site.bytes = [] ∧ (s.part 0).leash = false ∧ (s.part 0).faults = []) := by decide

/-- A flit of zeros of one kind and number, its CRC not yet there. -/
def flit0 (kind seq : Nat) : Flit := { crc := 0, cls := 0, ph := 0, kind, seq, pay := List.replicate 64 0 }
theorem witness_FabricEvents :
    (let s := withPort0 { trunk := some 2 } { pos := 6, b := 0x1878 }
     let v := smGet {} s.mod.ports 0
     v.trunk = some 2 ∧ v.failed = false ∧ s.site.b = flitCrc (flit0 6 0) ∧ s.site.c = v.rxSeq ∧ (6 : Nat) ≤ s.site.pos ∧ s.now < v.good + 128) ∧
    (let s := withPort0 { trunk := some 2, rxSeq := 1023 } { pos := 5, c := 1023, b := 0x48C5 }
     s.site.c = (smGet {} s.mod.ports 0).rxSeq ∧ s.site.pos < 6 ∧ s.site.b = flitCrc (flit0 5 1023)) ∧
    ({} : Site).b ≠ flitCrc (flit0 0 0) ∧
    (withPort0 { trunk := some 2 } { c := 1 }).site.c ≠ (smGet {} (withPort0 { trunk := some 2 } { c := 1 }).mod.ports 0).rxSeq ∧
    (smGet {} (at' {}).mod.ports 0).trunk = none ∧
    (let s := { withPort0 { trunk := some 2 } {} with now := 128 }
     (smGet ({} : Port) s.mod.ports 0).good + 128 ≤ s.now) ∧
    (let s := { live c0 {} with mod := { boot := 6, trunkNew := [(0, some 3)] } }
     s.mod.trunkNew = [(0, some 3)] ∧ changesNow s = [(0, some 3)]) ∧ changesNow (at' {}) = [] ∧
    xchReadyCtxs (at' {}) 0 (some 0) = [] ∧
    (let s := live { c0 with xch := some { n := 0, word := 1, k := 0, stamp := 0, pos := 0, cnt := 0, start := some 0 } } {}
     let ready := xchReadyCtxs s 0 (some s.now)
     ready ≠ [] ∧ ((xchTrunks s 0 ready).any fun k => (trunkPorts s.mod k).isEmpty) = false) ∧
    (let s := withReq { rq .unknown with kind := .exchRead, gen := 4 } { b := 4 }
     ∃ r ∈ s.reqs, r.part = s.site.a ∧ (r.kind = .exchRead ∨ r.kind = .exchWrite ∧ doneAtScope 2 r = false) ∧ r.gen = s.site.b) ∧
    (let s := at' {}
     (s.reqs.filter fun r => r.part == s.site.a && (r.kind == .exchRead || (r.kind == .exchWrite && !doneAtScope 2 r)) && r.gen == s.site.b) = [] ∧ unreadXch s 0 0 = [] ∧
     ((s.part 0).runs.filter fun r => r.step == 0) = []) ∧
    (let s := withPart0 { p0 with runs := [{ step := 3, start := 0, stop := some 100, announced := 2, inbound := 1 }] } { b := 3 }
     (((s.part 0).runs.filter fun r => r.step == s.site.b).any fun r => decide (r.inbound < r.announced)) = true ∧ (s.part 0).leash = false ∧ (s.part 0).byHalt = false ∧ (s.part 0).faults = []) ∧
    (let s := { live c0 { b := 3 } with due := [{ tick := 16, rank := 0, dom := none, site := { pos := 3 }, act := .micro (.xchRead 0 { n := 0, word := 1, k := 0, stamp := 0, pos := 0, cnt := 1 }) }] }
     unreadXch s 0 3 ≠ []) ∧
    (let s := { live { c0 with xch := some { n := 0, word := 1, k := 0, stamp := 0, pos := 0, cnt := 1, start := some 0 } } {} with
        parts := [(0, { p0 with runs := [{ step := 0, start := 0 }] })] }
     xchReadyCtxs s 0 (some 0) ≠ [] ∧ xchTrunks s 0 (xchReadyCtxs s 0 (some 0)) = []) := by
  decide +kernel

/-- A matrix pass of one row, and its row. -/
def pass1 : Pass := { uid := 9, ctx := 0, n := 0, tid := 0, part := 0, h := 16, mode := .ps8, opcode := 8, arow := 0, acol := 0, mrows := 1, fired := 0, colsel := 0xFFFF }
def mrow1 : MRow := { uid := 11, pass := 9, i := 0, enter := 0, row := none, bytes := [] }
theorem witness_PassEvents :
    (let s := withArr0 { a0 with passes := [pass1], mrows := [mrow1] } { a := 9 }
     (s.arr 0).pass? s.site.a = some pass1 ∧ (s.arr 0).mrow? s.site.a s.site.b = some mrow1 ∧ (s.arr 0).stopped (s.ttick 0) = false ∧ mrow1.entered = false ∧
     mrow1.enter = s.ttick 0 ∧ s.site.b < pass1.mrows) ∧
    (let p := { pass1 with known := true, start := 16, kennel := some (kennelKey 0 0) }
     let q := { p with peeks := [(0, true, 1, 0, 2)] }
     let s := { withArr0 { a0 with passes := [p] } { a := 9 } with towers := [(0, { kennels := [(0, { valid := true, inv := 1, period := 4 })] })] }
     (s.arr 0).pass? s.site.a = some p ∧ p.decided = false ∧ p.known = true ∧ p.start ≤ s.ttick 0 + 16 ∧ p.dead = false ∧ (p.peeks.find? fun e => e.1 + 16 == p.start) = none ∧
     (q.peeks.find? fun e => e.1 + 16 == q.start) = some (0, true, 1, 0, 2) ∧ (s.kennel 0 0).inv ≠ 0 ∧ (s.kennel 0 0).inv < (s.kennel 0 0).period) ∧
    (let p := { pass1 with known := true, start := 17 }
     ((withArr0 { a0 with passes := [p] } { a := 9 }).arr 0).pass? 9 = some p ∧ (at' {}).ttick 0 + 16 < p.start) ∧
    (let s := withArr0 { a0 with passes := [pass1], mrows := [{ mrow1 with enter := 1 }] } { a := 9, b := 0 }
     (s.arr 0).mrow? s.site.a s.site.b = some { mrow1 with enter := 1 } ∧ (1 : Nat) ≠ s.ttick 0) ∧
    (let s := withArr0 { a0 with passes := [{ pass1 with decided := true }], mrows := [mrow1] } { a := 9, b := 11, c := 15 }
     (s.arr 0).pass? s.site.a = some { pass1 with decided := true } ∧ (s.arr 0).mrows.find? (fun m => m.uid == s.site.b) = some mrow1 ∧ s.site.c = 15 ∧ pass1.mrows ≤ s.site.b) ∧
    (let s := withArr0 { a0 with passes := [{ pass1 with h := 32 }] } { a := 9 }
     (∃ p, (s.arr 0).pass? s.site.a = some p ∧ p.h = 32 ∧ s.site.b < p.mrows ∧
      s.winAddr 0 p.part ((s.kennel 0 0).yprev + 4096 * s.site.b) + 4096 ≤ 2 ^ 80 ∧ s.winAddr 0 p.part ((s.kennel 0 0).xprev + 2048 * s.site.b) + 2048 ≤ 2 ^ 80) ∧
     (4095 : Nat) < 2 ^ 80 ∧ 4095 < s.winAddr 0 0 0 + 4096) := by
  decide

def load1 : LoadOp :=
  { uid := 4, ctx := 0, n := 0, tid := 0, tag := 0, part := 0, order := 0, store := false, h := 16, k := 0, q := 0, stamp := 0, cellOff := 32736, base := 0, stride := 0, fired := 0 }
theorem witness_PortAndObjectEvents :
    (let s := withArr0 { a0 with loads := [load1] } { a := 4, b := 15 }
     (∃ o, (s.arr s.site.arr).load? s.site.a = some o ∧ o.cellOff + 32 ≤ 32768) ∧ Memory.wf s.mem = true ∧ s.site.arr < 64 ∧ s.site.b < 32 ∧ (31 : Nat) < 32 ∧
     (∀ c, c < 16 → 0 < cellOf 0 15 c * 32768 + 32736)) ∧
    (let l : LineReq := { arr := 0, rank := 1, order := 0, addr := 0, presented := 0, part := 0, tag := 0, use := .hostRead 0 64 0 }
     let s := withTower0 { lines := [l] } {}
     let ready := (s.tower 0).lines.filter (lineReady s 0 (s.ttick 0))
     ready.filter (lineWins ready) = [l] ∧ l.use.isRead = true ∧ ((s.tower 0).lines.filter fun l => !(ready.filter (lineWins ready)).contains l) = []) ∧
    (let s := at' {}
     mmdFlying s 0 (kennelKey 0 0) 0 = false ∧ (bindRec s.site.bytes).wset = false ∧ (bindRec (List.replicate 16 0 ++ [2])).wset = true ∧ (1 : Nat) ≠ s.site.a ∧
     s.marked 2 0 = false ∧ s.marked 2 1 = false ∧ (s.tower 0).lines.filter (lineReady s 0 0) = []) ∧
    (let s := withArr0 { a0 with passes := [{ pass1 with kennel := some (kennelKey 0 0) }] } { qpos := 10 }
     mmdFlying s 0 (kennelKey 0 0) s.site.qpos = true) ∧
    (let s := { live c0 { c := 32, n := 32 } with mem := [(memKey .scratch 32, 1), (memKey .scratch 56, 32)] }
     s.inWin 0 0 32 32 = true ∧ (s.byte .scratch (s.winAddr 0 0 32)).getLsbD 0 = true ∧ (s.byte .scratch (s.winAddr 0 0 32)).getLsbD 2 = false ∧ Memory.wf s.mem = true ∧
     s.winAddr 0 0 32 + 32 ≤ 2 ^ 80) ∧
    (let s := { live c0 { c := 0 } with mem := [(memKey .scratch 0, 5)] }
     (s.byte .scratch (s.winAddr 0 0 0)).getLsbD 0 = true ∧ (s.byte .scratch (s.winAddr 0 0 0)).getLsbD 2 = true ∧ s.site.pos = 0) ∧
    (let s := { at' { row := 6 } with marks := [(2, 0)], parts := [(0, { p0 with tasks := [{ uid := 6, launch := 2, number := 0, state := .running }] })] }
     s.inWin 0 0 0 32 = true ∧ s.marked 2 (s.winAddr 0 0 0 / 64) = true ∧ s.site.row ≠ 0 ∧ s.partOf 0 0 6 = some 0 ∧ (s.part 0).leash = false ∧ (s.part 0).byHalt = false ∧
     (s.part 0).faults = []) ∧
    (at' {}).inWin 0 0 0x200000 32 = false ∧ ((at' {}).byte .scratch 0).getLsbD 0 = false := by
  refine ⟨⟨⟨_, rfl, by decide⟩, by decide⟩, ?_⟩
  decide

/-- A program record of one loop level of one trip, on array 0, at most one context (R41). -/
def record (kill : Nat) : List Byte :=
  natBytes 8 (1 + kill * 2 ^ 28 + 1 * 2 ^ 48 + 1 * 2 ^ 52) ++ natBytes 8 77 ++ natBytes 8 0 ++ natBytes 8 1 ++ natBytes 8 (1 + 2 ^ 24) ++ List.replicate 216 0
def task (st : TaskState) : Task := { uid := 6, launch := 2, number := 0, state := st }
def launched (kill : Nat) (st : TaskState) (c : CtxState) (x : Site) : State :=
  { live { c0 with state := c, tid := 6, slot := 0 } x with
    parts := [(0, { p0 with launches := [{ uid := 2, record := record kill, state := .placed, live := 1 }], tasks := [task st] })] }
theorem witness_TaskEvents :
    (at' {}).part 0 = p0 ∧ p0.queue = [] ∧
    (let s := withPart0 { p0 with queue := [2], launches := [{ uid := 2, record := record 0 }] } {}
     queueFront s 0 = some 2 ∧ ((s.part 0).launch 2).isSome = true ∧ (eligibleUnits s 0 (record 0)) = [0] ∧
     ((launchParts (record 0) (eligibleUnits s 0 (record 0))).all fun (u, _) => decide ((pendingOn s 0 u (unitKind (record 0))).length < 16)) = true) ∧
    (p0.task 6 = none) ∧
    (let s := launched 0 .running .ready { b := 6, pos := 1 }
     (s.part 0).task s.site.b = some (task .running) ∧ taskCtxs s 0 (task .running) = [(0, 0)] ∧ s.site.pos ≠ 0 ∧ s.site.pos ≠ 2 ∧ (task .running).state ≠ .checkpointed) ∧
    (let s := launched 0 .pending .free { b := 6 }
     (s.part 0).task s.site.b = some (task .pending) ∧ taskCtxs s 0 (task .pending) = []) ∧
    (let s := launched 1 .running .ready { b := 6 }
     taskCtxs s 0 (task .running) = [(0, 0)] ∧ preemptPolicyOf (s.part 0) (s.ctx 0 0) (s.taskRecord 0 (task .running)) none = 1 ∧
     preemptPolicyOf (s.part 0) (s.ctx 0 0) (s.taskRecord 0 (task .running)) (some (s.part 0).killt) = 2) ∧
    (let s := launched 0 .running .saving { b := 6 }
     (s.part 0).leash = false ∧ (withPart0 { p0 with leash := true } {}).part 0 ≠ s.part 0 ∧ (unitMembers { s with site := { arr := 0, ctx := 0 } }).length ≠ 2) ∧
    (let s := { live { c0 with state := .saving, role := 3, tid := 6 } { arr := 1 } with
        arrs := [(0, a0), (1, a0)], ctxs := [(0, { c0 with role := 2, tid := 6 }), (4, { c0 with state := .saving, role := 3, tid := 6 })]
        parts := [(0, { p0 with launches := [{ uid := 2, record := record 0, state := .placed, live := 1 }], tasks := [task .running] })] }
     (s.ctx 1 0).role = 3 ∧ (unitMembers { s with site := { arr := 1, ctx := 0 } }).length = 2) ∧
    (let s := launched 0 .running .saving { b := 6 }
     let c := s.ctx 0 0
     c.state = .saving ∧ c.killed = false ∧ c.role ≠ 3 ∧ (s.part c.part).task c.tid = some (task .running) ∧
     taskMembers s (s.taskRecord 0 (task .running)) (task .running) = [(0, 0, 0)] ∧ drained s 0 0 = true ∧ (s.part 0).leash = false) ∧
    (let s := { launched 0 .running .saving {} with arrs := [(0, { a0 with passes := [{ pass1 with tid := 6 }] })] }
     drained s 0 0 = false) ∧
    (launched 0 .running .ready {}).me.state ≠ .saving ∧
    ((launched 0 .checkpointed .free { b := 6 }).part 0).task 6 = some (task .checkpointed) ∧
    (let s := { launched 0 .checkpointed .free { b := 6 } with ctxs := [] }
     (s.part 0).task 6 = some (task .checkpointed) ∧ resumeReady s 0 (task .checkpointed) = true) ∧
    resumeReady (launched 0 .checkpointed .ready { b := 6 }) 0 (task .checkpointed) = false ∧
    (let s := live { c0 with tid := 6, killed := true } { a := 6 }
     let s1 := (abandonTask 0 0 6).run s
     (s1.ctx 0 0).tid = 6 ∧ (s1.ctx 0 0).state ≠ .free ∧ killSettled s1 0 0 6 = true) ∧
    (let s := { live { c0 with tid := 6, killed := true, issued := true, lastIssue := 0 } { a := 6 } with now := 15 }
     let s1 := (abandonTask 0 0 6).run s
     (s1.ctx 0 0).tid = 6 ∧ (s1.ctx 0 0).state ≠ .free ∧ killSettled s1 0 0 6 = false) ∧
    (let s := withArr0 { a0 with held := [{ rows := false, ctx := 0, tid := 6, base := 0, size := 32768 }], lastWrite := [(6, 9)] } { a := 6 }
     (((s.arr 0).held.filter fun h => h.tid == 6).filter fun h => !windowDone s 0 h) ≠ []) := by decide +kernel

/-- A wave of an idle bundle. -/
def wave1 (m : BitVec 32) : Wave := { uid := 8, ctx := 0, n := 0, bundle := idleBundle, mask := m, pos := 0, h := 16 }
theorem witness_StartAndIssueEvents :
    ({} : Arr).owner = none ∧ a0.owner = some 0 ∧ a0.gate ≠ .gated ∧
    (let s := { launched 0 .pending .free {} with ctxs := [] }
     (s.part 0).leash = false ∧ nextStart s 0 0 0 = some (0, task .pending) ∧ (task .pending).state = .pending ∧ outranked s 0 0 (task .pending) = false ∧
     (startSpot s 0 (task .pending)).isSome = true) ∧
    (let s := { launched 0 .checkpointed .free {} with ctxs := [] }
     nextStart s 0 0 0 = some (0, task .checkpointed) ∧ outranked s 0 0 (task .checkpointed) = false) ∧
    (let s := { launched 0 .pending .free {} with ctxs := (List.range 4).map fun k => (k, { c0 with tid := 9 }) }
     nextStart s 0 0 0 = none ∧ (List.range 3).any (fun kind => !(waitingOn s 0 0 kind).isEmpty) = true) ∧
    (withPart0 { p0 with leash := true } {}).part 0 = { p0 with leash := true } ∧
    (∀ key, (smGet ({} : Ctx) [] key).preq = []) ∧
    ((withArr0 { a0 with gate := .gated } {}).arr 0).gate = .gated ∧
    (let s := withArr0 { a0 with waves := [wave1 0] } { wave := 8, cols := 0xFFFF }
     (s.arr 0).waves.find? (fun w => w.uid == s.site.wave) = some (wave1 0) ∧ (s.arr 0).ta = none ∧ (wave1 0).done.getLsbD s.site.row = false ∧ (s.arr 0).blocked.contains (0, 0) = false ∧
     (let x' : Site := { s.site with rowOn := (wave1 0).mask.getLsbD s.site.row, qpos := 0 }
      let s1 := (Plan.both (.edit (.site x')) landRow).run s
      (s1.selCols.flatMap fun c => cellChecks s1 (wave1 0).bundle c) = [])) ∧
    (let s := { withArr0 { a0 with waves := [wave1 0], ta := some 0 } { wave := 8 } with now := 6 }
     ∃ u ∈ (s.arr 0).ta, u + 6 ≤ s.tick) ∧
    ((at' { wave := 8 }).arr 0).waves.find? (fun w => w.uid == 8) = none := by
  refine ⟨by decide, by decide, by decide, by decide +kernel, by decide +kernel, by decide +kernel, rfl, fun _ => rfl, by decide, by decide +kernel, ⟨0, rfl, by decide⟩, by decide⟩

theorem witness_LeashEvents :
    (let s := withPart0 { p0 with leash := true } { b := 2 }
     (s.part 0).leash = true ∧ (s.ctx 0 0).part = 0 ∧ (s.ctx 0 0).state = .ready) ∧ p0.leash = false ∧
    (let s := live { c0 with state := .halted } { b := 2 }
     s.site.row ≠ 1 ∧ (s.ctx 0 0).state = .halted ∧ (s.ctx 0 0).part = 0) ∧
    (let w : Walker := { owner := some 0 }
     w.owner ≠ none ∧ w.ended = false ∧ w.loading = false ∧ w.offend = false) ∧
    (let s := withArr0 { a0 with walker := { owner := some 0, offend := true } } { b := 7 }
     let c := s.ctx 0 0
     (s.arr 0).walker.offend = true ∧ savePending s c.part c.tid = false ∧ (s.part c.part).leash = false ∧ (s.part c.part).byHalt = false ∧ (s.part c.part).faults = []) ∧
    (let s := { live { c0 with tid := 6 } { b := 7 } with due := [{ tick := 9, rank := 0, dom := none, site := { b := 6 }, act := .instr .saveComplete }] }
     savePending s (s.ctx 0 0).part (s.ctx 0 0).tid = true) ∧
    (let s := withArr0 { a0 with loads := [load1] } { b := 3 }
     load1 ∈ (s.arr 0).loads) ∧
    (let s := { withPart0 { p0 with leash := true } { b := 6 } with hbm := [(0, { progs := [prog] })] }
     (s.part 0).leash = true ∧ prog ∈ (s.stack 0).progs ∧ prog.part = 0) ∧ prog.stop = none ∧
    (let s := withArr0 { a0 with again := [8], waves := [wave1 0] } {}
     (s.arr 0).ta = none ∧ (s.arr 0).again = 8 :: [] ∧ (s.arr 0).waves.find? (fun w => w.uid == 8) = some (wave1 0)) ∧ a0.again = [] := by decide +kernel

theorem witness_CommandsReport :
    (let s := at' { frame := { body := [6, 0, 0, 0] } }
     booted s = true ∧ mayAct s 0 0 = true ∧ (s.part 0).live = true ∧ fieldAt s.site.frame.body 1 1 ≠ 1 ∧ fieldAt s.site.frame.body 2 2 < resourceCount (fieldAt s.site.frame.body 0 1)) ∧
    (let s := at' { frame := { body := [4, 0, 79, 0] } }
     fieldAt s.site.frame.body 2 2 < resourceCount (fieldAt s.site.frame.body 0 1) ∧ fieldAt s.site.frame.body 0 1 ≠ 6 ∧ (s.bucket 4 79).state = 0) ∧
    (let s := at' { frame := { princ := 2, body := [0, 1] } }
     mayAct s 2 0 = false ∧ s.site.frame.princ ≠ 0 ∧ fieldAt s.site.frame.body 1 1 = 1) ∧ booted State.reset = false ∧
    (let s := { at' { frame := { body := [1, 1, 0, 0] } } with mod := { boot := 6, buckets := [(2 ^ 20, { total := 0, state := 3, level := 0 })] } }
     fieldAt s.site.frame.body 0 1 = 1 ∧ (s.bucket 1 0).state = 3 ∧ (s.arr 0).owner = some 0 ∧ (s.arr 1).owner = none) := by decide +kernel

theorem witness_CommandsOnTasks :
    (let s := { live c0 {} with mem := [], parts := [(0, { p0 with images := [{ kind := 0, slot := 0, arr := 0, base := 0, size := 0 }, { kind := 1, slot := 0, arr := 0, base := 0, size := 0 }] })] }
     booted s = true ∧ launchStatus s {} (List.replicate 256 0) ≠ 0 ∧ mayAct s 0 0 = true) ∧
    (let s := launched 1 .running .ready { frame := { body := natBytes 8 77 ++ natBytes 4 0 ++ [0] } }
     let f := s.site.frame
     booted s = true ∧ namedTask s 0 (fieldAt f.body 0 8) (fieldAt f.body 8 4) = some (task .running) ∧ (task .running).state = .running ∧
     (∀ e ∈ taskCtxs s 0 (task .running), (s.ctx e.1 e.2).state ≠ .saving ∧ (s.ctx e.1 e.2).state ≠ .halted) ∧ recKill (s.taskRecord 0 (task .running)) = true) ∧
    recKill ((launched 0 .running .ready {}).taskRecord 0 (task .running)) = false ∧
    (let s := launched 1 .pending .free { frame := { body := natBytes 8 77 ++ natBytes 4 0 ++ [0] } }
     namedTask s 0 77 0 = some (task .pending) ∧ (∀ e ∈ taskCtxs s 0 (task .pending), (s.ctx e.1 e.2).state ≠ .saving)) ∧
    (let s := launched 1 .checkpointed .free { frame := { body := natBytes 8 77 ++ natBytes 4 0 ++ [0] } }
     namedTask s 0 77 0 = some (task .checkpointed) ∧ (∀ e ∈ taskCtxs s 0 (task .checkpointed), (s.ctx e.1 e.2).state ≠ .saving) ∧
     recKill (s.taskRecord 0 (task .checkpointed)) = true) ∧
    namedTask (at' {}) 0 1 0 = none ∧ (resumeBusy (at' {}) 0 || ((at' {}).part 0).resumeAt.isSome) = true ∧
    (let s := { live c0 {} with arrs := [], parts := [(0, { p0 with stops := (List.range 8).map fun u => { kind := 6, unit := u, ta := 0, ts := 0 } })] }
     mayAct s 0 0 = true ∧ (s.part 0).live = true ∧ (resumeBusy s 0 || (s.part 0).resumeAt.isSome) = false) ∧
    (let s := { live c0 {} with parts := [(0, { p0 with
        ext := [(0, 2 ^ 39)], ranges := [(0, BitVec.ofNat 256 (7 + (2 ^ 39 - 1) * 2 ^ 104))], images := [{ kind := 0, slot := 0, arr := 0, base := 0, size := 0 }, { kind := 1, slot := 0, arr := 0, base := 0, size := 0 }] })] }
     launchStatus s {} (record 0) = 0) ∧
    joinOk {} none = true ∧ joinOk { cmd := 1 } (some [0, 0, 0, 0]) = false := by decide +kernel

/-- The body of PART.MAKE for partition 1 with array 1 at 8 units and no window. -/
def makeBody : List Byte := [1, 16, 1, 0] ++ List.replicate 4 0 ++ natBytes 8 2 ++ List.replicate 57 0 ++ [8] ++ List.replicate 702 0
/-- The body of LOAD or READ: SPACE, length, target, task, offset; of address 0 of the host. -/
def xferBody (space len target task off : Nat) : List Byte := [BitVec.ofNat 8 space, 0, 0, 0] ++ natBytes 4 len ++ natBytes 8 target ++ natBytes 4 task ++ natBytes 4 off ++ natBytes 8 4096
/-- The body of DICT for array 0: kind, slot, entries. -/
def dictBody (kind slot size : Nat) : List Byte := [BitVec.ofNat 8 kind, BitVec.ofNat 8 slot, 0, 0] ++ natBytes 4 size ++ natBytes 8 1 ++ natBytes 8 4096
/-- Partition 0 with a range entry over all of its extent. -/
def mapped (st : TaskState) (c : CtxState) (more : Part → Part) : State :=
  { launched 0 st c {} with
    parts := [(0, more { (launched 0 st c {}).part 0 with ext := [(0, 2 ^ 39)], ranges := [(0, BitVec.ofNat 256 (7 + (2 ^ 39 - 1) * 2 ^ 104))] })] }
/-- SPACE 1 and 2 of LOAD and READ, the words put on the link, and DICT. -/
theorem witness_transfers :
    (let s := mapped .checkpointed .free id
     (parseXfer (xferBody 1 64 4032 0 0)).isSome = true ∧ firstBad s 0 4032 64 .write = none ∧ firstBad s 0 4032 64 .read = none ∧ firstBad s 0 (2 ^ 39) 64 .read = some 0 ∧
     (parseXfer (xferBody 2 64 77 0 8)).isSome = true ∧ namedTask s 0 77 0 = some (task .checkpointed) ∧ namedTask s 0 78 0 = none ∧ heldState s 0 (task .checkpointed) = .slot [] ∧
     loadRefused s (recShape (s.taskRecord 0 (task .checkpointed))) false (fun _ => 0) 8 (List.replicate 4 0) = none) ∧
    heldState (mapped .pending .free id) 0 (task .pending) = .nowhere ∧ heldState (mapped .running .ready id) 0 (task .running) = .busy ∧
    heldState (mapped .running .halted id) 0 (task .running) = .live [(0, 0)] ∧ heldState (mapped .running .halted fun v => { v with imaged := true }) 0 (task .running) = .slot [(0, 0)] ∧
    (let y : Xfer := { frame := { body := xferBody 0 96 32 0 0 }, load := true, len := 96 }
     let s := withPart0 { p0 with xfer := some y } {}
     (s.part 0).xfer = some y ∧ linePieces 32 96 = [(32, 32), (64, 64)]) ∧
    (let r := { rq (.phys 0) with kind := .host, write := true }
     (withReq r {}).req? 5 = some r ∧ r.kind = .host ∧ r.toHost = false) ∧
    (let s := at' { frame := { body := dictBody 1 3 2 } }
     ((maskArrays (fieldAt s.site.frame.body 8 8)).any fun a => (s.arr a).owner != some 0) = false ∧ slotReferenced (s.part 0) 1 3 = false ∧ fieldAt s.site.frame.body 4 4 ≠ 0 ∧
     storeBase s 0 1 3 0 2 = some 0 ∧ storeBase s 0 1 3 0 65537 = none ∧ Inv s) ∧
    dictEntryOk 1 (List.replicate 48 0xFF) = false ∧ fieldAt (dictBody 0 3 0) 4 4 = 0 := by
  refine ⟨by decide +kernel, by decide +kernel, by decide +kernel, by decide +kernel, by decide +kernel, by decide +kernel, by decide +kernel, ?_, by decide +kernel⟩
  refine ⟨by decide +kernel, by decide +kernel, by decide +kernel, by decide +kernel, by decide +kernel, rfl⟩

theorem witness_CommandsOnPartitions :
    (let s := at' { frame := { body := makeBody } }
     booted s = true ∧ ((parsePartBody s.site.frame.body).map fun b => (makeStatus s b, makeStatus { s with parts := [(1, p0)] } b)) = some (0, 2)) ∧
    parsePartBody [] = none ∧
    freeReady (at' { b := 1 }) 0 = true ∧ freeReady (launched 0 .running .ready { b := 1 }) 0 = false ∧
    (let b := [0, 0, 0, 0] ++ natBytes 4 64 ++ natBytes 8 0 ++ natBytes 8 0 ++ natBytes 8 4096
     ((parseXfer b).map fun x => (x.space, (at' {}).inWin x.tower 0 x.target x.len)) = some (0, true)) ∧
    (let b := [0, 0, 0, 0] ++ natBytes 4 64 ++ natBytes 8 0x200000 ++ natBytes 8 0 ++ natBytes 8 4096
     ((parseXfer b).map fun x => (x.space, (at' {}).inWin x.tower 0 x.target x.len)) = some (0, false)) ∧
    ((maskArrays 1).any fun a => ((at' {}).arr a).owner != some 0) = false ∧ slotReferenced p0 0 0 = false ∧
    slotReferenced ((launched 0 .running .ready {}).part 0) 0 0 = true := by decide +kernel

/-- The body of TRUNK.SET that leaves every port without a trunk and every group empty. -/
def trunkBody : List Byte := (List.range 80).flatMap (fun _ => [0xFF, 0, 0, 0]) ++ List.replicate 2304 0

theorem witness_CommandsOnTables :
    (let s := at' {}
     booted s = true ∧ progsOn s 0 0 = false ∧ slotKind 0 ≤ 4 ∧ (0 : Nat).testBit 4 = false ∧ translatedReqs s 0 = [] ∧ walkedPins s 0 = 0 ∧ pinsMet s 0 [(0, 2 ^ 56 - 1)] = 0 ∧
     ((List.range 8).all (fun _ => maskOk 14 0)) = true ∧ (s.arr 0).gate = .up ∧ rangeFieldsOk 0 = true ∧ reValid 0 = false ∧ (0 : Nat) < 2 ^ 52 ∧
     allotted s (fun v => (v.sa.map fun e => e.2).foldl (· + ·) 0) + 5400 ≤ 5400 ∧ 5400 < allotted s (fun v => (v.sa.map fun e => e.2).foldl (· + ·) 0) + 5401) ∧
    (parseTrunkBody trunkBody).isSome = true ∧
    (let e := BitVec.ofNat 256 (7 + (2 ^ 39 - 1) * 2 ^ 104)
     let old := smGet 0 ((mapped .running .ready id).part 0).ranges 0
     rangeFieldsOk e = true ∧ reValid e = true ∧ reValid old = true ∧ inExtent ((mapped .running .ready id).part 0) (rePbase e) (reLimit e + 1 - reBase e) = true ∧
     inExtent p0 (rePbase e) (reLimit e + 1 - reBase e) = false ∧ rangeFieldsOk (e ||| 16) = false ∧ (reBase e ≤ reLimit old ∧ reBase old ≤ reLimit e)) ∧
    (let s := { withTower0 { pins := [{ part := 0, page := 4096, size := 4096, pa := 0, perms := 7, holders := [(6, 0)] }] } {} with reqs := [{ rq (.phys 0) with stage := .accepted }] }
     pinsMet s 0 [(0, 2 ^ 56 - 1)] ≠ 0 ∧ translatedReqs s 0 ≠ []) ∧
    ((withArr0 { gate := .ungating } {}).arr 0).gate = .ungating := by
  refine ⟨by decide, by decide +kernel, by decide +kernel, by decide +kernel, by decide⟩

end Sys2Proof.Tests
end

-- The family 02_bundles_opcode_map.md: O3, O4 and O7.
section

/-! The decoder reads back what the encoder writes: the fields of a word, the candidate of the fields, the slot of the word. -/

namespace Sys2Proof.Laws.Encoding

/-- The laws of the single instructions put together, in the order of the constructors of `Instr`. -/
theorem statement_all : ∀ i : Instr, Statement i :=
  @Instr.rec Statement
    br brX call callX ret loop lbrk lidx lidxSet yield taskEnd trap brk mark qAdd qAddi qSub qMul qMulh qMulhu qAnd qAndi qOr qOri qXor qXori qShl
    qShr qSra qMin qMax qMinu qMaxu qMov qLi qLih qSel qCmp qCmpi ldparam ldtask flagRd wset wmov wrd tickRd gtickRd ctimeRd pwrAcq pwrRel pwrRelRd
    fenceDom fencePkg fenceSys waitB sysRd sysWr aAdd aSub adds subs aMul aMulh mad abs neg aMin aMax aAnd aOr aXor andn not aShl aShr aSra aCmp aSel
    aMov sadd ssub smul sand sor sxor sshl sshr sli sget scmp perm permv bcast bcasts red scan popc clz bset fadd fsub fmul fma fms fnma fnms fmin
    fmax fabs fneg fcmp fclass frnd fexp2f fexpins fgetexp frcp frsq cvtF32Bf16 cvtBf16F32 cvtF32I cvtI32F32 cvtI8F32 cvtI16F32 cvtPs8F32 cvtF32Ps8
    cvtI8I32 cvtI16I32 cvtI32I quantI8 quantPs8 ld ldW st stW ldB ldq stq qpeek qpeekN cw vpush vpop vfree vfreeIn ldw flip mmPs8 mmI8 mmBf16 mmChain
    mmd accZero accRd accRdSt accWr accCp accCvt accScl lrow srow copy tierPf mpRun gather scatter strmSet probe atomAdd atomMin atomMax atomAnd
    atomOr atomXor atomSwap atomCas qwSet qwRd boInit boRd taskPost msgSend msgQuiet xchGo knBind knInv knInvAll knStat dictLoad walkStart walkStop
    walkStopW ctrRd wNop wLi wLih wAdd wAddi wSub wAnd wShl wShr wBCond wB wDloop wLdW wLdH wQpop wPf wCwinA wCwinB wIsect wUnion wMerge wNzc wBexp
    wTopk wEmit wEmitS wEmitz wRds wQpush wWend issueSelect rowExecute leashReach reinject engineRestart kennelEntryAction emitzRecordPush mRowEnter
    passLanding sliceRailSettle mmdDecision kennelWriteback dataPortPerform lrowRowWrite cellStoreWindowRelease boArrival copyDescriptorTake
    copyLineLand shadowLoadFollowon taskPostFollowon gatherElementLand scatterWriteConfirm probeComplete atomPerform tableWalkComplete frameBoundary
    hbmSlot mpCompletion refreshWatchdog deepTierAccess placement taskStart preemptRequest checkpointSave saveComplete taskResume killedContextFree
    tokenVisit leaseExpiry leaseReleaseEffect powerSample thermalTrip1 thermalTrip2 thermalTrip3 thermalTrip4 thermalTripClear clockStretch
    gateRailsOff arrayUngate ungateComplete flitReceive portFailed trunkChangeApply superstepStart superstepEnd messageArrive messageRefusal
    bucketLeak rowSpare bankMirrorComplete pseudoChannelRetire portSpareAdd scrub moduleInsert moduleRemove transceiverChange coldStart warmingDone
    stackTrainingDone contFrame ident attest partMake partFree slotSetTables slotSetDonate slotSetHashMasks mapRangeEntry mapControlWord
    mapInvalidate trunkSet load read dict launch preemptPolicy preemptCheckpoint preemptKill halt resume status counters repairRead
    repairForceLasting repairClearLevel powerRingTotal powerGate powerUngate therm reset thermalRingReduction stewardRestart

end Sys2Proof.Laws.Encoding

namespace Sys2Proof.Laws
open Sys2Proof.Machine Sys2Proof.Safety

/-! ## The fields of a word (R52, R267) -/

@[simp] theorem qFields_word (f : QF) : qFields f.word = f := by
  simp (disch := decide) only [qFields, QF.word, ex_up, ex_lo, ex_all, Nat.reduceSub]

@[simp] theorem aFields_word (f : AF) : aFields f.word = f := by
  simp (disch := decide) only [aFields, AF.word, ex_up, ex_lo, ex_all, Nat.reduceSub]

@[simp] theorem mFields_word (f : MF) : mFields f.word = f := by
  simp (disch := decide) only [mFields, MF.word, ex_up, ex_lo, ex_all, Nat.reduceSub]

@[simp] theorem tFields_word (f : TF) : tFields f.word = f := by
  simp (disch := decide) only [tFields, TF.word, ex_up, ex_lo, ex_all, Nat.reduceSub]

@[simp] theorem eFields_word (f : EF) : eFields f.word = f := by
  simp (disch := decide) only [eFields, EF.word, ex_up, ex_lo, ex_all, Nat.reduceSub]

@[simp] theorem wFields_word (f : WF) : wFields f.word = f := by
  simp (disch := decide) only [wFields, WF.word, ex_up, ex_lo, ex_all, Nat.reduceSub]

/-! ## The decoder of each slot on a word of the encoder -/

/-- The check of unused fields passes on the fields the encoder gave (R61). -/
theorem accept_of_encoded {α : Type} [DecidableEq α] {cand : Option Instr} {enc : Instr → Option α} {f : α} {i : Instr}
    (hwf : i.wf = true) (hcand : cand = some i) (henc : enc i = some f) : accept cand enc f = some i := by
  simp [accept, hcand, hwf, henc]

theorem decodeQ_word {i : Instr} {f : QF} (hwf : i.wf = true) (h : encQ i = some f) : decodeQ f.word = some i := by
  obtain ⟨back, -⟩ := Encoding.statement_all i hwf
  rw [decodeQ, qFields_word]
  exact accept_of_encoded hwf (back f h) h

theorem decodeA_word {i : Instr} {f : AF} (hwf : i.wf = true) (h : encA i = some f) : decodeA f.word = some i := by
  obtain ⟨-, back, -⟩ := Encoding.statement_all i hwf
  rw [decodeA, aFields_word]
  exact accept_of_encoded hwf (back f h) h

theorem decodeM_word {i : Instr} {f : MF} (hwf : i.wf = true) (h : encM i = some f) : decodeM f.word = some i := by
  obtain ⟨-, -, back, -⟩ := Encoding.statement_all i hwf
  rw [decodeM, mFields_word]
  exact accept_of_encoded hwf (back f h) h

theorem decodeT_word {i : Instr} {f : TF} (hwf : i.wf = true) (h : encT i = some f) : decodeT f.word = some i := by
  obtain ⟨-, -, -, back, -⟩ := Encoding.statement_all i hwf
  rw [decodeT, tFields_word]
  exact accept_of_encoded hwf (back f h) h

theorem decodeE_word {i : Instr} {f : EF} (hwf : i.wf = true) (h : encE i = some f) : decodeE f.word = some i := by
  obtain ⟨-, -, -, -, back, -⟩ := Encoding.statement_all i hwf
  rw [decodeE, eFields_word]
  exact accept_of_encoded hwf (back f h) h

theorem decodeW_word {i : Instr} {f : WF} (hwf : i.wf = true) (h : encW i = some f) : decodeW f.word = some i := by
  obtain ⟨-, -, -, -, -, back⟩ := Encoding.statement_all i hwf
  rw [decodeW, wFields_word]
  exact accept_of_encoded hwf (back f h) h

/-- What the encoder can answer: the word of the fields of one of the five slots, or of the walker. -/
theorem encode_cases {i : Instr} {sl : Option Slot} {w : Nat} (h : encode i = some (sl, w)) :
    (∃ f, encQ i = some f ∧ sl = some .q ∧ w = f.word.toNat) ∨ (∃ f, encA i = some f ∧ sl = some .a ∧ w = f.word.toNat) ∨
    (∃ f, encM i = some f ∧ sl = some .m ∧ w = f.word.toNat) ∨ (∃ f, encT i = some f ∧ sl = some .t ∧ w = f.word.toNat) ∨
    (∃ f, encE i = some f ∧ sl = some .e ∧ w = f.word.toNat) ∨ (∃ f, encW i = some f ∧ sl = none ∧ w = f.word.toNat) := by
  unfold encode at h
  split at h
  case h_1 f hf => cases h; exact .inl ⟨f, hf, rfl, rfl⟩
  split at h
  case h_1 f hf => cases h; exact .inr (.inl ⟨f, hf, rfl, rfl⟩)
  split at h
  case h_1 f hf => cases h; exact .inr (.inr (.inl ⟨f, hf, rfl, rfl⟩))
  split at h
  case h_1 f hf => cases h; exact .inr (.inr (.inr (.inl ⟨f, hf, rfl, rfl⟩)))
  split at h
  case h_1 f hf => cases h; exact .inr (.inr (.inr (.inr (.inl ⟨f, hf, rfl, rfl⟩))))
  split at h
  case h_1 f hf => cases h; exact .inr (.inr (.inr (.inr (.inr ⟨f, hf, rfl, rfl⟩))))
  cases h

/-- Settles O4: the encoder answers the word of the fields of one slot, and the decoder of that slot reads the fields back and, from them, the instruction. -/
theorem decodeOfEncode : Obligations.DecodeOfEncode := by
  unfold Obligations.DecodeOfEncode
  intro i sl w hwf h
  obtain ⟨f, hf, rfl, rfl⟩ | ⟨f, hf, rfl, rfl⟩ | ⟨f, hf, rfl, rfl⟩ | ⟨f, hf, rfl, rfl⟩ | ⟨f, hf, rfl, rfl⟩ | ⟨f, hf, rfl, rfl⟩ := encode_cases h
  · simp [decodeWord, decodeSlot, decodeQ_word hwf hf]
  · simp [decodeWord, decodeSlot, decodeA_word hwf hf]
  · simp [decodeWord, decodeSlot, decodeM_word hwf hf]
  · simp [decodeWord, decodeSlot, decodeT_word hwf hf]
  · simp [decodeWord, decodeSlot, decodeE_word hwf hf]
  · simp [decodeWord, decodeW_word hwf hf]

/-! ## Guards of the Q and E slots (R53) -/

/-- The meaning of a guarded Q or E instruction is one frame at issue, under its own guard, but for `pwr.acq` and `xch.go`, which also file what they wait for. -/
theorem exec_eq_atIssue_of_seqGuard {i : Instr} {g : Guard} (h : seqGuard i = some g) :
    (∃ stall check eff, ∀ s, exec i s = (atIssue g stall check eff).step s) ∨
    (∃ level lease, i = .pwrAcq g level lease) ∨ ∃ k xa n, i = .xchGo g k xa n := by
  cases i with
  | pwrAcq => cases h; exact .inr (.inl ⟨_, _, rfl⟩)
  | xchGo => cases h; exact .inr (.inr ⟨_, _, _, rfl⟩)
  | qAdd | qAddi | qSub | qMul | qMulh | qMulhu | qAnd | qAndi | qOr | qOri | qXor | qXori | qShl | qShr | qSra | qMin | qMax | qMinu | qMaxu =>
    cases h; exact .inl ⟨noStall, noCheck, _, fun _ => rfl⟩
  | _ => cases h <;> exact .inl ⟨_, _, _, fun _ => rfl⟩

/-- `pwr.acq` files an acquisition only where its guard is true. -/
theorem execPwrAcq_false {s : State} {g : Guard} (level : BitVec 7) (lease : BitVec 12) (h : s.guardQ g = false) :
    execPwrAcq g level lease s = .next s := by
  simp [execPwrAcq, h, atIssue_false]

/-- `xch.go` files an exchange only where its guard is true. -/
theorem execXchGo_false {s : State} {g : Guard} (k : BitVec 4) (xa : BitVec 5) (n : BitVec 9) (h : s.guardQ g = false) :
    execXchGo g k xa n s = .next s := by
  simp [execXchGo, h, atIssue_false]

/-- Settles O7: a guarded Q or E instruction stands in the frame at issue, which does nothing where the guard is false; the two that file something first ask the same guard. -/
theorem falseGuardDoesNothing : Obligations.FalseGuardDoesNothing := by
  unfold Obligations.FalseGuardDoesNothing
  intro s i g hg hfalse
  obtain ⟨stall, check, eff, hexec⟩ | ⟨level, lease, rfl⟩ | ⟨k, xa, n, rfl⟩ := exec_eq_atIssue_of_seqGuard hg
  · rw [hexec, plan_step, atIssue_false g stall check eff s hfalse]
  · exact execPwrAcq_false level lease hfalse
  · exact execXchGo_false k xa n hfalse

/-! ## Words of the spec -/

/-- Settles O3: each word is decoded as it stands. -/
theorem knownWordsDecode : Obligations.KnownWordsDecode := by
  unfold Obligations.KnownWordsDecode
  decide

end Sys2Proof.Laws
end

-- The family 04_cell_registers_integer.md: O10, O17, O19, O20 and O22.
section

/-! What the integer instructions of the A slot and the cell-store accesses of the M slot do: a rule for each shape of instruction, each cited once per instruction. -/

namespace Sys2Proof.Laws
open Sys2Proof.Machine Sys2Proof.Safety

/-! ## The shapes of the A slot (R93, R107) -/

/-- A one-source vector instruction reads only operands, which no late write of its row changes. -/
theorem aUnary_writes (o : AUn) (fmt : RdFmt) (lat : Nat) (f : VReg → VReg) (s : State) :
    VecWrites ((aUnary o fmt lat f).step s) s o.g lat o.d (fun c => f (s.src fmt c o.imm o.a)) :=
  inRow_putA o.g lat o.d (fun t c => f (t.src fmt c o.imm o.a)) s fun t ht c => by simp only [ht.src]

theorem aBinary_writes (o : ABin) (fmt : RdFmt) (lat : Nat) (f : VReg → VReg → VReg) (s : State) :
    VecWrites ((aBinary o fmt lat f).step s) s o.g lat o.d (fun c => f (s.src fmt c o.imm o.a) (s.src fmt c o.imm o.b)) :=
  inRow_putA o.g lat o.d (fun t c => f (t.src fmt c o.imm o.a) (t.src fmt c o.imm o.b)) s fun t ht c => by simp only [ht.src]

theorem aTernary_writes (o : ATern) (fmt : RdFmt) (lat : Nat) (f : VReg → VReg → VReg → VReg) (s : State) :
    VecWrites ((aTernary o fmt lat f).step s) s o.g lat o.d
      (fun c => f (s.src fmt c o.imm o.a) (s.src fmt c o.imm o.b) (s.src fmt c o.imm o.c)) :=
  inRow_putA o.g lat o.d (fun t c => f (t.src fmt c o.imm o.a) (t.src fmt c o.imm o.b) (t.src fmt c o.imm o.c)) s
    fun t ht c => by simp only [ht.src]

/-- A scalar instruction reads an S register and an S-form operand of its own cell (R107). -/
theorem sBinary_writes (o : SBin) (lat : Nat) (f : Lane → Lane → Lane) (s : State) :
    ScaWrites ((sBinary o lat f).step s) s o.g lat o.d (fun c => f ((s.here c).sreg o.a) (s.ssrc c o.imm o.b)) :=
  inRow_putS o.g lat o.d (fun t c => f ((t.here c).sreg o.a) (t.ssrc c o.imm o.b)) s fun t ht c => by simp only [ht.sreg, ht.ssrc]

/-- `bset` writes a base register of its own cell, two bundles on (R111). -/
theorem execBset_writes (g : Guard) (k : BitVec 2) (b : SSrc) (imm : BitVec 32) (s : State) :
    RowWrites (execBset g k b imm s) s (s.execCols g) 1 2 (fun _ => .b k) .no (fun c => (s.ssrc c imm b).setWidth 256) := by
  refine ⟨_, rfl, ?_⟩
  rw [inRowAlways_run]
  refine (each_putCell _ (execCols_nodup s g) 1 2 .no _ s _ _ fun c _ t ht => ?_).1
  simp only [run_get, ht.ssrc]

/-- Settles O17: every instruction has one of the shapes above, but `perm` and `bcasts`, which read an operand of their own forms. -/
theorem vectorIntegerResult : Obligations.VectorIntegerResult := by
  unfold Obligations.VectorIntegerResult
  intro s t op o u m k sel ex b imm
  exact
    ⟨aBinary_writes o _ 1 (vAdd t) s, aBinary_writes o _ 1 (vSub t) s, aBinary_writes o _ 1 (vAdds t) s, aBinary_writes o _ 1 (vSubs t) s,
      aBinary_writes o _ 2 (vMul t) s, aBinary_writes o _ 2 (vMulh t) s, aTernary_writes m _ 2 (vMad t) s, aUnary_writes u _ 1 (vAbs t) s,
      aUnary_writes u _ 1 (vNeg t) s, aBinary_writes o _ 1 (vMin t) s, aBinary_writes o _ 1 (vMax t) s,
      aBinary_writes o _ 1 (· &&& ·) s, aBinary_writes o _ 1 (· ||| ·) s, aBinary_writes o _ 1 (· ^^^ ·) s,
      aBinary_writes o _ 1 (fun x y => x &&& ~~~y) s, aUnary_writes u _ 1 (~~~ ·) s,
      aBinary_writes o _ 1 (vShl t) s, aBinary_writes o _ 1 (vShr t) s, aBinary_writes o _ 1 (vSra t) s, aTernary_writes m _ 1 (vSel t) s,
      aUnary_writes u _ 1 id s,
      inRow_putA u.g 1 u.d (fun s c => vPerm sel (s.src (.int 32) c 0 u.a)) s (fun _ ht c => by simp only [ht.src]),
      aBinary_writes o _ 1 vPermv s, aUnary_writes u _ 1 (vBcast t k.toNat) s,
      inRow_putA u.g 1 u.d (fun s c => vSplat t (s.ssrc c imm b)) s (fun _ ht c => by simp only [ht.ssrc]),
      aUnary_writes u _ 2 (vRed op t) s, aUnary_writes u _ 2 (vScan op ex t) s, aUnary_writes u _ 1 (vPopc t) s, aUnary_writes u _ 1 (vClz t) s⟩

/-- Settles O19: the two-operand scalars have one shape; `sli` and `sget` read an operand of another form, and `bset` has a rule of its own. -/
theorem scalarGroupResult : Obligations.ScalarGroupResult := by
  unfold Obligations.ScalarGroupResult
  intro s o arith lane a v imm k
  exact
    ⟨sBinary_writes o 1 (· + ·) s, sBinary_writes o 1 (· - ·) s, sBinary_writes o 2 (· * ·) s, sBinary_writes o 1 (· &&& ·) s,
      sBinary_writes o 1 (· ||| ·) s, sBinary_writes o 1 (· ^^^ ·) s, sBinary_writes o 1 (fun x y => if 32 ≤ y.toNat then 0 else x <<< y.toNat) s,
      sBinary_writes o 1 (fun x y => if 32 ≤ y.toNat then (if arith && x.msb then BitVec.allOnes 32 else 0) else laneShr arith x y) s,
      inRow_putS o.g 1 o.d (fun s c => s.ssrc c imm v) s (fun _ ht c => by simp only [ht.ssrc]),
      inRow_putS o.g 1 o.d (fun s c => BitVec.ofNat 32 (elem 32 lane.toNat (s.src (.int 32) c imm a))) s (fun _ ht c => by simp only [ht.src]),
      execBset_writes o.g k v imm s⟩

/-! ## Counts of bits (R110) -/

theorem popNat_eq_length (n v : Nat) : popNat n v = ((List.range n).filter fun b => v.testBit b).length := by
  induction n with
  | zero => rfl
  | succ n ih =>
    rw [popNat, List.range_succ, List.filter_append, List.length_append, ← ih, Nat.add_comm]
    cases h : v.testBit n <;> simp [h]

theorem popNat_le (n v : Nat) : popNat n v ≤ n := by
  rw [popNat_eq_length]
  exact Nat.le_trans (List.length_filter_le _ _) (Nat.le_of_eq List.length_range)

theorem ityWidth_pos (t : BitVec 3) : 0 < ityWidth t := by
  unfold ityWidth
  split
  · decide
  · split <;> decide

theorem elem_vPopc (t : BitVec 3) (a : VReg) {i : Nat} (hi : i < 256 / ityWidth t) :
    elem (ityWidth t) i (vPopc t a) = popNat (ityWidth t) (elem (ityWidth t) i a) := by
  rw [vPopc, elem_mkElems _ _ _ hi]
  exact Nat.mod_eq_of_lt (Nat.lt_of_le_of_lt (popNat_le _ _) Nat.lt_two_pow_self)

theorem elem_vClz (t : BitVec 3) (a : VReg) {i : Nat} (hi : i < 256 / ityWidth t) :
    elem (ityWidth t) i (vClz t a)
      = if elem (ityWidth t) i a = 0 then ityWidth t else ityWidth t - 1 - Nat.log2 (elem (ityWidth t) i a) := by
  rw [vClz, elem_mkElems _ _ _ hi]
  refine Nat.mod_eq_of_lt (Nat.lt_of_le_of_lt ?_ Nat.lt_two_pow_self)
  split <;> omega

/-- The leading zeros of a w-bit pattern that is not 0 are the places above its highest 1 bit. -/
theorem leading_zeros_bounds {w x : Nat} (hx : x ≠ 0) (hlt : x < 2 ^ w) :
    w - 1 - x.log2 < w ∧ 2 ^ (w - 1 - (w - 1 - x.log2)) ≤ x ∧ x < 2 ^ (w - (w - 1 - x.log2)) := by
  have hlog : x.log2 < w := (Nat.log2_lt hx).2 hlt
  have hlow : w - 1 - (w - 1 - x.log2) = x.log2 := by omega
  have hhigh : w - (w - 1 - x.log2) = x.log2 + 1 := by omega
  rw [hlow, hhigh]
  exact ⟨by omega, Nat.log2_self_le hx, Nat.lt_log2_self⟩

/-- Settles O10: the encodings as they stand, and the element of each result. -/
theorem countBits : Obligations.CountBits := by
  unfold Obligations.CountBits
  intro s t u w a
  have hty : (ityOk t && u.wf) = true → t.toNat ≤ 5 := fun h => of_decide_eq_true (Bool.and_eq_true_iff.1 h).1
  refine ⟨hty, hty, ?_, ?_, ⟨_, aUnary_writes u _ 1 (vPopc t) s, ?_⟩, ⟨_, aUnary_writes u _ 1 (vClz t) s, ?_⟩⟩
  · rintro f ⟨⟩; rfl
  · rintro f ⟨⟩; rfl
  · intro c i hi
    exact (elem_vPopc t _ hi).trans (popNat_eq_length _ _)
  · intro c i hi
    have hclz := elem_vClz t (s.src (.int w) c u.imm u.a) hi
    refine ⟨fun h0 => hclz.trans (if_pos h0), fun h0 => ?_⟩
    obtain ⟨hz, hlow, hhigh⟩ := leading_zeros_bounds h0 (elem_lt w i _)
    exact ⟨_, hz, hclz.trans (if_neg h0), hlow, hhigh⟩

/-! ## The compares of the A slot (R105) -/

/-- What a compare writes to its two predicates in a column where its reduced conditions are `ks`: none where its combining type does not write (R83). -/
def cmpResult (c : ACmpF) (s : State) (ks : List Bool) (col : Nat) : Option (Bool × Bool) :=
  combine c.ctype ((s.here col).p.getLsbD c.qg.toNat != c.qn) (reduceConds c.red ks) ((s.here col).p.getLsbD c.p1.toNat) ((s.here col).p.getLsbD c.p2.toNat)

/-- The two predicates a compare writes, as a mask. -/
def cmpMask (c : ACmpF) : BitVec 8 := (1#8 <<< c.p1.toNat) ||| (1#8 <<< c.p2.toNat)

/-- The values a compare writes, in the places of its predicates. -/
def cmpBits (c : ACmpF) : Option (Bool × Bool) → BitVec 8
  | some (v1, v2) => (if v1 then 1#8 <<< c.p1.toNat else 0) ||| (if v2 then 1#8 <<< c.p2.toNat else 0)
  | none => 0

/-- A compare in one column. -/
def cmpCell (c : ACmpF) (conds : State → Nat → List Bool) (col : Nat) : Plan :=
  .get fun s =>
    match cmpResult c s (conds s col) col with
    | some (v1, v2) => putCell col 1 1 (.p (cmpMask c)) .no ((cmpBits c (some (v1, v2))).setWidth 256)
    | none => .skip

theorem aCompare_run (c : ACmpF) (conds : State → Nat → List Bool) (s : State) :
    (aCompare c conds).run s = (Plan.each s.selCols (cmpCell c conds)).run s := rfl

theorem cmpCell_run_none {c : ACmpF} {conds : State → Nat → List Bool} {col : Nat} {s : State} (h : cmpResult c s (conds s col) col = none) :
    (cmpCell c conds col).run s = s := by
  simp only [cmpCell, run_get, h, run_skip]

theorem cmpCell_run_some {c : ACmpF} {conds : State → Nat → List Bool} {col : Nat} {s : State} (h : (cmpResult c s (conds s col) col).isSome) :
    (cmpCell c conds col).run s
      = (putCell col 1 1 (.p (cmpMask c)) .no ((cmpBits c (cmpResult c s (conds s col) col)).setWidth 256)).run s := by
  obtain ⟨v, hv⟩ := Option.isSome_iff_exists.1 h
  simp only [cmpCell, run_get, hv]

/-- Columns in which a plan does nothing may be left out of it. -/
theorem each_run_filter {f : Nat → Plan} {p : Nat → Bool} {s : State} (hskip : ∀ c, p c = false → ∀ t, SameButLate s t → (f c).run t = t)
    (hkeep : ∀ c, p c = true → ∀ t, SameButLate s t → SameButLate s ((f c).run t)) (cols : List Nat) (t : State) (ht : SameButLate s t) :
    (Plan.each cols f).run t = (Plan.each (cols.filter p) f).run t := by
  induction cols generalizing t with
  | nil => rfl
  | cons c rest ih =>
    cases hp : p c with
    | false => rw [run_each_cons, hskip c hp t ht, ih t ht, List.filter_cons_of_neg (by simp [hp])]
    | true => rw [run_each_cons, ih _ (hkeep c hp t ht), List.filter_cons_of_pos hp, run_each_cons]

/-- A compare writes its predicates in the selected columns where its combining type writes: late writes of other columns change none of its conditions. -/
theorem aCompare_writes (c : ACmpF) (conds : State → Nat → List Bool) (s : State) (hconds : ∀ t, SameButLate s t → ∀ col, conds t col = conds s col) :
    RowWrites ((aCompare c conds).step s) s (s.selCols.filter fun col => (cmpResult c s (conds s col) col).isSome) 1 1 (fun _ => .p (cmpMask c)) .no
      (fun col => (cmpBits c (cmpResult c s (conds s col) col)).setWidth 256) := by
  have hres : ∀ t, SameButLate s t → ∀ col, cmpResult c t (conds t col) col = cmpResult c s (conds s col) col := fun t ht col => by
    simp only [cmpResult, hconds t ht, ht.preds]
  have hput : ∀ col, (cmpResult c s (conds s col) col).isSome = true → ∀ t, SameButLate s t → (cmpCell c conds col).run t
      = (putCell col 1 1 (.p (cmpMask c)) .no ((cmpBits c (cmpResult c s (conds s col) col)).setWidth 256)).run t := fun col h t ht => by
    rw [cmpCell_run_some (by rwa [hres t ht]), hres t ht]
  refine ⟨_, rfl, ?_⟩
  rw [aCompare_run, each_run_filter (p := fun col => (cmpResult c s (conds s col) col).isSome) ?_ ?_ _ _ (.refl s)]
  · refine (each_putCell _ ((selCols_nodup s).filter _) 1 1 .no _ s _ _ fun col hcol t ht => ?_).1
    exact hput col (List.mem_filter.1 hcol).2 t ht
  · intro col hnone t ht
    exact cmpCell_run_none (by rw [hres t ht]; simpa using hnone)
  · intro col hsome t ht
    rw [hput col hsome t ht]
    exact ht.trans (putCell_same ..)

/-- Settles O20: the three compares differ in their conditions, which read operands of their own cell or its neighbours. -/
theorem cellCompareResult : Obligations.CellCompareResult := by
  unfold Obligations.CellCompareResult
  intro s t c a b x y imm
  refine ⟨?_, ?_, ?_⟩
  · exact aCompare_writes c (fun s col => vConds t c.cond (s.src (ityFmt t) col imm a) (s.src (ityFmt t) col imm b)) s
      fun t ht col => by simp only [ht.src]
  · exact aCompare_writes c (fun s col => [condHolds c.cond ((s.here col).sreg x) (s.ssrc col imm y)]) s
      fun t ht col => by simp only [ht.sreg, ht.ssrc]
  · exact aCompare_writes c (fun s col => (List.range 8).map fun l =>
        f32Cond c.cond.toNat (elem 32 l (s.src .f32 col imm a)) (elem 32 l (s.src .f32 col imm b))) s
      fun t ht col => by simp only [ht.src]

/-! ## A row of the M slot and the checks of its accesses (R148) -/

theorem firstFail_eq_none {check : Nat → Option Chk} {cols : List Nat} (h : ∀ c ∈ cols, check c = none) : firstFail check cols = none := by
  induction cols with
  | nil => rfl
  | cons c rest ih =>
    rw [firstFail, h c (List.mem_cons_self ..)]
    exact ih fun d hd => h d (List.mem_cons_of_mem _ hd)

theorem inRow_run_of_checks {g : Guard} {check : State → Nat → Option Chk} {s : State} (eff : Nat → Plan) (h : ∀ c ∈ s.execCols g, check s c = none) :
    (inRow g check eff).run s = (Plan.each (s.execCols g) eff).run s := by
  simp only [inRow, run_get, firstFail_eq_none h]

/-- Where the first executing column fails its check, the row is blocked with that fault. -/
theorem inRow_run_of_first_fails {g : Guard} {check : State → Nat → Option Chk} {s : State} (eff : Nat → Plan) {c : Nat} {rest : List Nat} {f : Chk}
    (hcols : s.execCols g = c :: rest) (hf : check s c = some f) :
    (inRow g check eff).run s = (rowFault f.code f.sub f.addr (cellOf s.site.arr s.site.row c)).run s := by
  simp only [inRow, run_get, hcols, firstFail, hf]

theorem mRow_run {g : Guard} {check : State → Nat → Option Chk} {eff : Nat → Plan} {s : State} (h : s.site.issue = false) :
    (mRow g check eff).run s = (inRow g check eff).run s := by
  simp only [mRow, twoPart, run_get, h]
  rfl

theorem cellCheck_ok {s : State} {a n : Nat} (halign : a % n = 0) (hin : a + n ≤ s.me.csSize) : cellCheck s a n = none := by
  rw [cellCheck, if_neg (not_not_intro halign), if_neg (Nat.not_lt.2 hin)]

theorem cellCheck_misaligned {s : State} {a n : Nat} (h : a % n ≠ 0) : cellCheck s a n = some { code := 0x11, sub := 0, addr := a } := if_pos h

theorem cellCheck_outside {s : State} {a n : Nat} (halign : a % n = 0) (hout : s.me.csSize < a + n) :
    cellCheck s a n = some { code := 0x10, sub := 0, addr := a } := by
  rw [cellCheck, if_neg (not_not_intro halign), if_pos hout]

/-! ## Acts put on the agenda for each column (R149) -/

/-- Acts put in for each of a list, where none depends on what is due, are those of `laterEach`. -/
theorem each_after {α : Type} {f : α → Plan} {k rank : Nat} {act : α → Act} {s : State} (xs : List α)
    (hf : ∀ x ds, (f x).run { s with due := ds } = (after k rank (act x)).run { s with due := ds }) :
    (Plan.each xs f).run s = laterEach s xs k rank act := by
  have gen : ∀ ds, (Plan.each xs f).run { s with due := ds } = laterEach { s with due := ds } xs k rank act := by
    induction xs with
    | nil => exact fun _ => rfl
    | cons x xs ih =>
      intro ds
      rw [run_each_cons, hf, after_run]
      exact ih _
  exact gen s.due

/-- Two states that differ only in what is due and in the last ticks of writes of the arrays: every operand reads the same in both. -/
def SameButNotes (s t : State) : Prop := t = { s with due := t.due, arrs := t.arrs } ∧ ∀ a, ∃ l, t.arr a = { s.arr a with lastWrite := l }

theorem SameButNotes.refl (s : State) : SameButNotes s s := ⟨rfl, fun _ => ⟨_, rfl⟩⟩

theorem SameButNotes.trans {s t u : State} (h : SameButNotes s t) (h' : SameButNotes t u) : SameButNotes s u := by
  refine ⟨by rw [h'.1, h.1], fun a => ?_⟩
  obtain ⟨l, hl⟩ := h.2 a
  obtain ⟨l', hl'⟩ := h'.2 a
  exact ⟨l', by rw [hl', hl]⟩

theorem SameButNotes.exists_eq {s t : State} (h : SameButNotes s t) : ∃ ds as, t = { s with due := ds, arrs := as } := ⟨_, _, h.1⟩

theorem noteWrite_sameButNotes (k : Nat) (s : State) : SameButNotes s ((noteWrite k).run s) := by
  refine ⟨rfl, fun a => ?_⟩
  simp only [noteWrite, run_get, modArr_run, withArr, State.arr, smGet_smSet]
  split
  · next h => subst h; exact ⟨_, rfl⟩
  · exact ⟨_, rfl⟩

/-- A write of cell-store bytes notes its tick and puts itself on the agenda. -/
theorem cellWrite_run (k addr : Nat) (bs : List Byte) (s : State) :
    (cellWrite k addr bs).run s = laterAct ((noteWrite k).run s) k rankCellWrite s.site (.micro (.write .cell addr bs)) := by
  rw [cellWrite, run_both, after_run]
  rfl

theorem cellWrite_sameButNotes (k addr : Nat) (bs : List Byte) (s : State) : SameButNotes s ((cellWrite k addr bs).run s) := by
  rw [cellWrite_run]
  exact ⟨rfl, (noteWrite_sameButNotes k s).2⟩

/-- Writes of cell-store bytes for each of a list, none of which depends on the ones before it. -/
theorem each_cellWrite {α : Type} {f : α → Plan} {k : Nat} {addr : α → Nat} {bs : α → List Byte} {s : State}
    (hf : ∀ x t, SameButNotes s t → (f x).run t = (cellWrite k (addr x) (bs x)).run t) (xs : List α) :
    SameButNotes s ((Plan.each xs f).run s) ∧
      ((Plan.each xs f).run s).due = (laterEach s xs k rankCellWrite fun x => .micro (.write .cell (addr x) (bs x))).due := by
  have gen : ∀ t, SameButNotes s t → SameButNotes s ((Plan.each xs f).run t) ∧
      ((Plan.each xs f).run t).due = (laterEach t xs k rankCellWrite fun x => .micro (.write .cell (addr x) (bs x))).due := by
    induction xs with
    | nil => exact fun t ht => ⟨ht, rfl⟩
    | cons x xs ih =>
      intro t ht
      rw [run_each_cons, hf x t ht]
      obtain ⟨hsame, hdue⟩ := ih _ (ht.trans (cellWrite_sameButNotes k (addr x) (bs x) t))
      exact ⟨hsame, hdue.trans (by rw [cellWrite_run]; rfl)⟩
  exact gen s (.refl s)

/-! ## Loads and stores of the cell store (R147-R149) -/

/-- An access of `n` bytes at an offset of S[sadr] is aligned and inside the window in every executing column. -/
def AccessFits (s : State) (g : Guard) (sadr : BitVec 4) (off : BitVec 16) (n : Nat) : Prop :=
  ∀ c ∈ s.execCols g, memOff s c sadr off % n = 0 ∧ memOff s c sadr off + n ≤ s.me.csSize

theorem loadPlan_run (o : MLoad) (n : Nat) (spread : Bool) (s : State) (hrow : s.site.issue = false) (hfit : AccessFits s o.g o.sadr o.off n) :
    (loadPlan o n spread).run s = laterEach s (s.execCols o.g) 1 rankRead fun c =>
      .micro (.cellRead (cellOf s.site.arr s.site.row c) s.site.ctx (s.cellAddr c (memOff s c o.sadr o.off)) n spread (mLate s c 4 o.d)) := by
  rw [loadPlan, mRow_run hrow, inRow_run_of_checks _ fun c hc => cellCheck_ok (hfit c hc).1 (hfit c hc).2]
  exact each_after _ fun _ _ => rfl

theorem storePlan_run (o : MStore) (n : Nat) (s : State) (hrow : s.site.issue = false) (hfit : AccessFits s o.g o.sadr o.off n) :
    SameButNotes s ((storePlan o n).run s) ∧ ((storePlan o n).run s).due = (laterEach s (s.execCols o.g) 2 rankCellWrite fun c =>
      .micro (.write .cell (s.cellAddr c (memOff s c o.sadr o.off)) (vBytes (s.src (.int 32) c 0 o.v) n))).due := by
  rw [storePlan, mRow_run hrow, inRow_run_of_checks _ fun c hc => cellCheck_ok (hfit c hc).1 (hfit c hc).2]
  refine each_cellWrite (fun c t ht => ?_) _
  obtain ⟨ds, as, rfl⟩ := ht.exists_eq
  rfl

/-- Settles O22: each access is one of the two plans where it fits, and its row is blocked by the first check that fails in its first executing column where it does not. -/
theorem cellAccess : Obligations.CellAccess := by
  unfold Obligations.CellAccess
  refine ⟨?loads, ?stores, ?faults⟩
  case loads =>
    intro s o i size spread hrow hi off hfit
    have hexec : exec i s = (loadPlan o size spread).step s := by
      obtain ⟨rfl, rfl, rfl⟩ | ⟨rfl, rfl, rfl⟩ | ⟨rfl, rfl, rfl⟩ := hi <;> rfl
    rw [hexec, plan_step, loadPlan_run o size spread s hrow hfit]
    rfl
  case stores =>
    intro s o i size hrow hi off hfit
    have hexec : exec i s = (storePlan o size).step s := by
      obtain ⟨rfl, rfl⟩ | ⟨rfl, rfl⟩ := hi <;> rfl
    obtain ⟨⟨hframe, harrs⟩, hdue⟩ := storePlan_run o size s hrow hfit
    exact ⟨_, hexec, hframe, hdue, harrs⟩
  case faults =>
    intro s l v i g sadr off16 size c rest hrow hi hcols off cell
    have hexec : ∃ eff, exec i s = (mRow g (fun s c => cellCheck s (memOff s c sadr off16) size) eff).step s := by
      obtain ⟨rfl, rfl, rfl, rfl, rfl⟩ | ⟨rfl, rfl, rfl, rfl, rfl⟩ | ⟨rfl, rfl, rfl, rfl, rfl⟩ | ⟨rfl, rfl, rfl, rfl, rfl⟩ | ⟨rfl, rfl, rfl, rfl, rfl⟩ := hi <;>
        exact ⟨_, rfl⟩
    obtain ⟨eff, hexec⟩ := hexec
    have hfault : ∀ f, cellCheck s off size = some f → exec i s = .next ((rowFault f.code f.sub f.addr cell).run s) := fun f hf => by
      rw [hexec, plan_step, mRow_run hrow, inRow_run_of_first_fails eff hcols hf]
    exact ⟨fun hbad => hfault _ (cellCheck_misaligned hbad), fun halign hout => hfault _ (cellCheck_outside halign hout)⟩

end Sys2Proof.Laws
end

-- The family 05_number_formats.md: O18.
section

/-! What the FP32 instructions and the widening conversions of the A slot do: the shapes of the integer family, with the functions of lanes put in. -/

namespace Sys2Proof.Laws
open Sys2Proof.Machine Sys2Proof.Safety

/-- An FP32 instruction of one source works lane by lane (R132). -/
theorem fUnary_writes (o : AUn) (lat : Nat) (f : Nat → Nat) (s : State) :
    VecWrites ((fUnary o lat f).step s) s o.g lat o.d (fun c => f32Un f (s.src .f32 c o.imm o.a)) :=
  aUnary_writes o .f32 lat (f32Un f) s

theorem fBinary_writes (o : ABin) (lat : Nat) (f : Nat → Nat → Nat) (s : State) :
    VecWrites ((fBinary o lat f).step s) s o.g lat o.d (fun c => f32Bin f (s.src .f32 c o.imm o.a) (s.src .f32 c o.imm o.b)) :=
  aBinary_writes o .f32 lat (f32Bin f) s

theorem fTernary_writes (o : ATern) (lat : Nat) (f : Nat → Nat → Nat → Nat) (s : State) :
    VecWrites ((fTernary o lat f).step s) s o.g lat o.d
      (fun c => f32Tern f (s.src .f32 c o.imm o.a) (s.src .f32 c o.imm o.b) (s.src .f32 c o.imm o.c)) :=
  aTernary_writes o .f32 lat (f32Tern f) s

/-- `fexpins` reads its first source as FP32 lanes and its second as I32 lanes (R139), so it has none of the shapes above. -/
theorem execFexpins_writes (rm : BitVec 2) (o : ABin) (s : State) :
    VecWrites (execFexpins rm o s) s o.g 3 o.d
      (fun c => f32Bin (fun a n => f32ExpIns (.ofBits rm) a (asSigned 32 n)) (s.src .f32 c o.imm o.a) (s.src (.int 32) c o.imm o.b)) :=
  inRow_putA o.g 3 o.d
    (fun t c => f32Bin (fun a n => f32ExpIns (.ofBits rm) a (asSigned 32 n)) (t.src .f32 c o.imm o.a) (t.src (.int 32) c o.imm o.b)) s
    fun t ht c => by simp only [ht.src]

/-- A widening conversion takes the eight elements of part `p`, read in the format of its source, to the lanes (R143). -/
theorem cvtWiden_writes (o : AUn) (fmt : RdFmt) (w p : Nat) (f : Nat → Nat) (s : State) :
    VecWrites ((aUnary o fmt 2 (cvtWiden w p f)).step s) s o.g 2 o.d
      (fun c => mkElems 32 fun l => f (elem w (8 * p + l) (s.src fmt c o.imm o.a))) :=
  aUnary_writes o fmt 2 (cvtWiden w p f) s

/-- Settles O18: every FP32 instruction is one of the three shapes at its latency but `fexpins`, and every conversion that widens is `cvtWiden`. -/
theorem vectorFloatResult : Obligations.VectorFloatResult := by
  unfold Obligations.VectorFloatResult
  intro s rm p t o u m md
  exact
    ⟨fBinary_writes o 3 (f32Add md) s, fBinary_writes o 3 (f32Sub md) s, fBinary_writes o 3 (f32Mul md) s,
      fTernary_writes m 4 (f32Fma md false false) s, fTernary_writes m 4 (f32Fma md false true) s,
      fTernary_writes m 4 (f32Fma md true false) s, fTernary_writes m 4 (f32Fma md true true) s,
      fBinary_writes o 1 (f32MinMax true) s, fBinary_writes o 1 (f32MinMax false) s,
      fUnary_writes u 1 (fun x => x % 2 ^ 31) s, fUnary_writes u 1 (fun x => (x + 2 ^ 31) % 2 ^ 32) s,
      fUnary_writes u 1 f32Class s, fUnary_writes u 2 (f32Round md) s, fUnary_writes u 6 f32Exp2 s, execFexpins_writes rm o s,
      fUnary_writes u 2 f32GetExp s, fUnary_writes u 6 (f32Rcp md) s, fUnary_writes u 6 (f32Rsq md) s,
      cvtWiden_writes u .bf16 16 p.toNat (· * 65536) s,
      cvtWiden_writes u (ityFmt t) (ityWidth t) p.toNat (fun e => rndBin 23 md (Frac.ofInt (ityVal t e) 1)) s,
      fUnary_writes u 2 (f32ToI32 md) s, cvtWiden_writes u .ps8 8 p.toNat f32OfPs8 s,
      cvtWiden_writes u (ityFmt t) (ityWidth t) p.toNat (fun e => wrapInt 32 (ityVal t e)) s⟩

end Sys2Proof.Laws
end

-- The family 06_float_conversion.md: O11 and O21.
section

/-! What the sign instructions do to a lane, and what a narrowing conversion does in its row: its check, the stray entries it appends, the result it leaves. -/

namespace Sys2Proof.Laws
open Sys2Proof.Machine Sys2Proof.Safety

/-! ## The sign bit (R134) -/

theorem elem_f32Un (f : Nat → Nat) (a : VReg) {l : Nat} (hl : l < 8) : elem 32 l (f32Un f a) = f (elem 32 l a) % 2 ^ 32 :=
  elem_mkElems 32 _ l hl

/-- Settles O11: each of the two works lane by lane, and what it makes of bit 31 stands below 2^32. -/
theorem signBitOnly : Obligations.SignBitOnly := by
  unfold Obligations.SignBitOnly
  intro s u a
  have hlane : ∀ {b}, b < 31 → b < 32 := fun h => Nat.lt_trans h (by decide)
  refine ⟨?_, ?_, ⟨_, fUnary_writes u 1 (fun x => x % 2 ^ 31) s, fun c l hl => ⟨?_, fun b hb => ?_⟩⟩,
    ⟨_, fUnary_writes u 1 (fun x => (x + 2 ^ 31) % 2 ^ 32) s, fun c l hl => ⟨?_, fun b hb => ?_⟩⟩⟩
  · rintro f ⟨⟩; rfl
  · rintro f ⟨⟩; rfl
  · simp only [elem_f32Un _ _ hl, Nat.testBit_mod_two_pow, Nat.lt_irrefl, decide_false, Bool.false_and, Bool.and_false]
  · simp only [elem_f32Un _ _ hl, Nat.testBit_mod_two_pow, hb, hlane hb, decide_true, Bool.true_and, a]
  · simp only [elem_f32Un _ _ hl, Nat.testBit_mod_two_pow, Nat.add_comm _ (2 ^ 31), Nat.testBit_two_pow_add_eq, Nat.reduceLT, decide_true,
      Bool.true_and, a]
  · simp only [elem_f32Un _ _ hl, Nat.testBit_mod_two_pow, Nat.add_comm _ (2 ^ 31), Nat.testBit_two_pow_add_gt hb, hlane hb, decide_true,
      Bool.true_and, a]

/-! ## Operands while strays are appended -/

/-- Two states that differ only in late writes and queue pairs of the cells, in what is due and in the last ticks of writes: every operand reads the same in both. -/
structure SameButStrays (s t : State) : Prop where
  frame : t = { s with banks := t.banks, due := t.due, arrs := t.arrs }
  arrs : ∀ a, ∃ l, t.arr a = { s.arr a with lastWrite := l }
  banks : ∀ k, ∃ ws ps, smGet {} t.banks k = { smGet {} s.banks k with lwb := ws, pairs := ps }

namespace SameButStrays
variable {s t u : State}

theorem refl (s : State) : SameButStrays s s := ⟨rfl, fun _ => ⟨_, rfl⟩, fun _ => ⟨_, _, rfl⟩⟩

theorem trans (h : SameButStrays s t) (h' : SameButStrays t u) : SameButStrays s u where
  frame := by rw [h'.frame, h.frame]
  arrs a := by
    obtain ⟨l, hl⟩ := h.arrs a
    obtain ⟨l', hl'⟩ := h'.arrs a
    exact ⟨l', by rw [hl', hl]⟩
  banks k := by
    obtain ⟨ws, ps, hk⟩ := h.banks k
    obtain ⟨ws', ps', hk'⟩ := h'.banks k
    exact ⟨ws', ps', by rw [hk', hk]⟩

theorem ofLate (h : SameButLate s t) : SameButStrays s t where
  frame := by rw [h.1]
  arrs a := ⟨_, by rw [h.1]; rfl⟩
  banks k := ⟨_, _, bank_split _ _ (h.2 k)⟩

theorem site (h : SameButStrays s t) : t.site = s.site := by rw [h.frame]
theorem now (h : SameButStrays s t) : t.now = s.now := by rw [h.frame]
theorem me (h : SameButStrays s t) : t.me = s.me := by rw [h.frame]; rfl

theorem bank (h : SameButStrays s t) (c k : Nat) : ∃ ws ps, t.bank c k = { s.bank c k with lwb := ws, pairs := ps } := h.banks (bankKey c k)

theorem src (h : SameButStrays s t) (f : RdFmt) (c : Nat) (imm : BitVec 32) (o : Src) : t.src f c imm o = s.src f c imm o := by
  have hread : ∀ cell k, (t.bank cell k).v = (s.bank cell k).v ∧ (t.bank cell k).o = (s.bank cell k).o ∧ (t.bank cell k).b = (s.bank cell k).b ∧
      (t.bank cell k).la = (s.bank cell k).la ∧ (t.bank cell k).lm = (s.bank cell k).lm ∧ (t.bank cell k).chist = (s.bank cell k).chist := fun cell k => by
    obtain ⟨ws, ps, e⟩ := h.bank cell k
    simp only [e, and_self]
  cases o <;> simp only [State.src, h.site, h.me, Bank.vreg, Bank.oreg, Bank.breg, Bank.cBefore, hread]

theorem ssrc (h : SameButStrays s t) (c : Nat) (imm : BitVec 32) (o : SSrc) : t.ssrc c imm o = s.ssrc c imm o := by
  cases o with
  | s i =>
    obtain ⟨ws, ps, e⟩ := h.bank (cellOf s.site.arr s.site.row c) s.site.ctx
    simp only [State.ssrc, h.site, e, Bank.sreg]
  | small i => rfl
  | long => rfl

theorem here (h : SameButStrays s t) (c : Nat) : ∃ ws ps, t.here c = { s.here c with lwb := ws, pairs := ps } := by
  simp only [State.here, h.site]
  exact h.bank _ _

theorem dest (h : SameButStrays s t) (c : Nat) (d : Dst) : (t.here c).dest d = (s.here c).dest d := by
  obtain ⟨ws, ps, e⟩ := h.here c
  rw [e]; rfl

theorem destVal (h : SameButStrays s t) (c : Nat) (d : Dst) : (t.here c).destVal d = (s.here c).destVal d := by
  obtain ⟨ws, ps, e⟩ := h.here c
  rw [e]; rfl

end SameButStrays

/-! ## The narrowing conversions (R142, R144) -/

/-- A narrowing conversion reads only operands, and converts each of the eight lanes. -/
structure ReadsLanes (n : Narrow) : Prop where
  lanes : ∀ {s t}, SameButStrays s t → ∀ c, n.lanes t c = n.lanes s c
  conv : ∀ {s t}, SameButStrays s t → ∀ c, n.conv t c = n.conv s c
  length : ∀ s c, (n.conv s c).length = 8

theorem srcLanes_same {s t : State} (h : SameButStrays s t) (fmt : RdFmt) (a : Src) (imm : BitVec 32) (c : Nat) :
    srcLanes fmt a imm t c = srcLanes fmt a imm s c := by
  rw [srcLanes, h.src, srcLanes]

theorem srcLanes_length (fmt : RdFmt) (a : Src) (imm : BitVec 32) (s : State) (c : Nat) : (srcLanes fmt a imm s c).length = 8 := by
  simp only [srcLanes, elems, Nat.reduceDiv, List.length_map, List.length_range]

theorem narrowOf_readsLanes (o : ANarrow) (w z : Nat) (fmt : RdFmt) (f : Nat → Option Nat) : ReadsLanes (narrowOf o w z fmt f) where
  lanes h c := srcLanes_same h ..
  conv h c := by simp only [narrowOf, srcLanes_same h]
  length s c := by simp only [narrowOf, List.length_map, srcLanes_length]

theorem quantOf_readsLanes (o : AQuant) (z : Nat) (f : Nat → Nat → Option Nat) : ReadsLanes (quantOf o z f) where
  lanes h c := srcLanes_same h ..
  conv h c := by simp only [quantOf, srcLanes_same h]
  length s c := by simp only [quantOf, List.length_zipWith, srcLanes_length, Nat.min_self]

/-- The forms that divide by a scale (R144). -/
def isQuant : Instr → Bool
  | .quantI8 _ _ | .quantPs8 _ => true
  | _ => false

theorem isQuant_of_form {i : Instr} (h : (∃ rm o, i = .quantI8 rm o) ∨ ∃ o, i = .quantPs8 o) : isQuant i = true := by
  obtain ⟨rm, o, rfl⟩ | ⟨o, rfl⟩ := h <;> rfl

/-- Every narrowing conversion runs the plan of its description, which has one of two shapes. -/
theorem narrowOf_cases {i : Instr} {n : Narrow} (h : NarrowOf i n) :
    (∀ s, exec i s = n.plan.step s) ∧
      ((isQuant i = false ∧ ∃ o w z fmt f, n = narrowOf o w z fmt f) ∨
        (((∃ rm o, i = .quantI8 rm o) ∨ ∃ o, i = .quantPs8 o) ∧ ∃ o z f, n = quantOf o z f)) := by
  obtain ⟨rm, o, rfl, rfl⟩ | ⟨rm, o, rfl, rfl⟩ | ⟨rm, o, rfl, rfl⟩ | ⟨o, rfl, rfl⟩ | ⟨o, rfl, rfl⟩ | ⟨o, rfl, rfl⟩ | ⟨rm, o, rfl, rfl⟩ | ⟨o, rfl, rfl⟩ := h
  iterate 6
    · exact ⟨fun _ => rfl, .inl ⟨rfl, _, _, _, _, _, rfl⟩⟩
  · exact ⟨fun _ => rfl, .inr ⟨.inl ⟨_, _, rfl⟩, _, _, _, rfl⟩⟩
  · exact ⟨fun _ => rfl, .inr ⟨.inr ⟨_, rfl⟩, _, _, _, rfl⟩⟩

theorem readsLanes_of_narrowOf {i : Instr} {n : Narrow} (h : NarrowOf i n) : ReadsLanes n := by
  obtain ⟨-, ⟨-, o, w, z, fmt, f, rfl⟩ | ⟨-, o, z, f, rfl⟩⟩ := narrowOf_cases h
  · exact narrowOf_readsLanes ..
  · exact quantOf_readsLanes ..

/-! ## The check of the stray list (R146) -/

section Check
variable {n : Narrow} {s : State} {c : Nat}

theorem narrow_check_unfit (h : strayFit s n.q = false) :
    n.check s c = some { code := 0x12, sub := min (n.strays s c) 255, addr := cellOf s.site.arr s.site.row c } := by
  simp only [Narrow.check, h, Bool.not_false, if_true]

theorem narrow_check_noRoom (h : strayFit s n.q = true) (hroom : (s.pair c n.q).room (qwDepth (s.me.qword n.q s.site.n)) < n.strays s c) :
    n.check s c = some { code := 0x13, sub := min (n.strays s c) 255, addr := cellOf s.site.arr s.site.row c } := by
  simp only [Narrow.check, h, Bool.not_true, Bool.false_eq_true, if_false, hroom, if_true]

theorem narrow_check_ok (h : strayFit s n.q = true) (hroom : n.strays s c ≤ (s.pair c n.q).room (qwDepth (s.me.qword n.q s.site.n))) :
    n.check s c = none := by
  simp only [Narrow.check, h, Bool.not_true, Bool.false_eq_true, if_false, Nat.not_lt.2 hroom]

end Check

/-! ## The entries of a cell's strays (R145) -/

theorem length_filterMap_range_isNone {α β : Type} (xs : List (Option α)) (f : Nat → β) {m : Nat} (hm : m ≤ xs.length) :
    ((List.range m).filterMap fun l => if (xs.getD l none).isNone then some (f l) else none).length = ((xs.take m).filter Option.isNone).length := by
  induction m with
  | zero => rfl
  | succ m ih =>
    have hlt : m < xs.length := hm
    rw [List.range_succ, List.filterMap_append, List.length_append, ih (Nat.le_of_lt hlt), List.take_succ_eq_append_getElem hlt, List.filter_append,
      List.length_append]
    have hget : xs.getD m none = xs[m] := by rw [List.getD_eq_getElem?_getD, List.getElem?_eq_getElem hlt, Option.getD_some]
    simp only [List.filterMap_cons, List.filterMap_nil, List.filter_cons, List.filter_nil, hget]
    cases xs[m] with
    | none => rfl
    | some v => rfl

/-- The entry of the stray at place `l` stands after those of the strays before it. -/
theorem getD_filterMap_range_isNone {α β : Type} (xs : List (Option α)) (f : Nat → β) (d : β) {l : Nat} (hl : l < xs.length) (h : xs.getD l none = none) :
    ((List.range xs.length).filterMap fun l => if (xs.getD l none).isNone then some (f l) else none).getD ((xs.take l).filter Option.isNone).length d = f l := by
  obtain ⟨k, hk⟩ : ∃ k, xs.length = l + (k + 1) := ⟨xs.length - (l + 1), by omega⟩
  have hbefore := length_filterMap_range_isNone xs f (Nat.le_of_lt hl)
  rw [hk, List.range_add, List.filterMap_append, List.getD_eq_getElem?_getD, List.getElem?_append_right (Nat.le_of_eq hbefore), hbefore, Nat.sub_self,
    List.range_succ_eq_map, List.map_cons, Nat.add_zero, List.filterMap_cons]
  simp only [h, Option.isNone_none, if_true, List.getElem?_cons_zero, Option.getD_some]

/-- The entry of one stray: its IDX and the bits its lane had. -/
def strayEntry (n : Narrow) (s : State) (c l : Nat) : List Byte :=
  natBytes 4 (((s.ssrc c n.imm n.base).toNat + 8 * n.p + l) % 2 ^ 32) ++ natBytes 4 ((n.lanes s c).getD l 0)

/-- The place of a stray among those of its cell. -/
def straysBefore (n : Narrow) (s : State) (c l : Nat) : Nat := (((n.conv s c).take l).filter Option.isNone).length

section Entries
variable {n : Narrow} (hn : ReadsLanes n)
include hn

theorem entries_length (s : State) (c : Nat) : (n.entries s c).length = n.strays s c := by
  have hlen := hn.length s c
  rw [Narrow.entries, length_filterMap_range_isNone _ _ (Nat.le_of_eq hlen.symm), List.take_of_length_le (Nat.le_of_eq hlen), Narrow.strays]

theorem entries_getD {s : State} {c l : Nat} (hl : l < 8) (h : (n.conv s c).getD l none = none) :
    (n.entries s c).getD (straysBefore n s c l) [] = strayEntry n s c l := by
  have hlen := hn.length s c
  have := getD_filterMap_range_isNone (n.conv s c) (strayEntry n s c) [] (hlen ▸ hl) h
  rwa [hlen] at this

theorem straysBefore_lt {s : State} {c l : Nat} (hl : l < 8) (h : (n.conv s c).getD l none = none) : straysBefore n s c l < n.strays s c := by
  have hlt : l < (n.conv s c).length := (hn.length s c).symm ▸ hl
  have hnone : (n.conv s c)[l] = none := by
    rwa [List.getD_eq_getElem?_getD, List.getElem?_eq_getElem hlt, Option.getD_some] at h
  have hsplit : n.conv s c = (n.conv s c).take l ++ none :: (n.conv s c).drop (l + 1) := by
    rw [← hnone, List.getElem_cons_drop, List.take_append_drop]
  have hcount := congrArg (fun xs => (xs.filter Option.isNone).length) hsplit
  simp only [List.filter_append, List.filter_cons, Option.isNone_none, if_true, List.length_append, List.length_cons] at hcount
  rw [straysBefore, Narrow.strays]
  omega

theorem entries_same {s t : State} (h : SameButStrays s t) (c : Nat) : n.entries t c = n.entries s c := by
  simp only [Narrow.entries, h.ssrc, hn.lanes h, hn.conv h]

end Entries

/-! ## Entries appended to a cell queue (R145, R149, R158) -/

theorem mem_laterEach {α : Type} (s : State) (xs : List α) (k rank : Nat) (act : α → Act) (d : Due) :
    d ∈ (laterEach s xs k rank act).due ↔
      d ∈ s.due ∨ ∃ x ∈ xs, d = { tick := s.now + k, rank, dom := some (towerOf s.site.arr), site := s.site, act := act x } := by
  have gen : ∀ ds : List Due, d ∈ xs.foldl (fun ds x => insertDue
        { tick := s.now + k, rank, dom := some (towerOf s.site.arr), site := s.site, act := act x } ds) ds ↔
      d ∈ ds ∨ ∃ x ∈ xs, d = { tick := s.now + k, rank, dom := some (towerOf s.site.arr), site := s.site, act := act x } := by
    induction xs with
    | nil => simp only [List.foldl_nil, List.not_mem_nil, false_and, exists_false, or_false, implies_true]
    | cons x xs ih =>
      intro ds
      simp only [List.foldl_cons, ih, mem_insertDue, List.mem_cons, exists_eq_or_imp, or_assoc, or_left_comm]
  exact gen s.due

/-- The bank of a column after `m` positions of a cell queue are reserved for writing. -/
def reserved (s : State) (c q m : Nat) : Bank := { s.here c with pairs := smSet (s.here c).pairs q { s.pair c q with pr := ((s.pair c q).pr + m) % 8192 } }

/-- The write of the `i`-th entry appended to a cell queue, `k` ticks on. -/
def entryWrite (s : State) (c q k : Nat) (es : List (List Byte)) (i : Nat) : Due :=
  { tick := s.now + k, rank := rankCellWrite, dom := some (towerOf s.site.arr), site := s.site,
    act := .micro (.write .cell (s.cellAddr c (qwElem (s.me.qword q s.site.n) ((s.pair c q).pr + i))) (es.getD i [])) }

theorem setPair_run (c q : Nat) (p : QPair) (s : State) :
    (setPair c q p).run s = { s with banks := smSet s.banks (hereKey s c) { s.here c with pairs := smSet (s.here c).pairs q p } } := rfl

/-- What is done in one column: its bank becomes `b`, arrays note the ticks of writes, the agenda gains the writes `ws` and loses nothing, and nothing else is changed. -/
structure DoneInColumn (s r : State) (c : Nat) (b : Bank) (ws : List Due) : Prop where
  frame : r = { s with banks := smSet s.banks (hereKey s c) b, due := r.due, arrs := r.arrs }
  arrs : ∀ a, ∃ l, r.arr a = { s.arr a with lastWrite := l }
  kept : ∀ d ∈ s.due, d ∈ r.due
  writes : ∀ d ∈ ws, d ∈ r.due

theorem putA_run (c lat : Nat) (d : Dst) (v : VReg) (s : State) :
    (putA c lat d v).run s = (putCell c 1 lat ((s.here c).dest d) .la v).run s := rfl

namespace DoneInColumn
variable {s r : State} {c : Nat} {b : Bank} {ws : List Due}

theorem bank_here (h : DoneInColumn s r c b ws) : r.here c = b := by
  rw [h.frame]
  exact smGet_smSet_same ..

theorem other_bank (h : DoneInColumn s r c b ws) {k : Nat} (hk : k ≠ hereKey s c) : smGet {} r.banks k = smGet {} s.banks k := by
  rw [h.frame]
  exact smGet_smSet_other _ _ _ _ _ hk

theorem sameButStrays (h : DoneInColumn s r c b ws) (hb : ∃ ws ps, b = { s.here c with lwb := ws, pairs := ps }) : SameButStrays s r where
  frame := by rw [h.frame]
  arrs := h.arrs
  banks k := by
    obtain ⟨ws, ps, rfl⟩ := hb
    rw [h.frame]
    simp only [smGet_smSet]
    split
    · next hk => subst hk; exact ⟨ws, ps, rfl⟩
    · exact ⟨_, _, rfl⟩

/-- A result written in the column besides. -/
theorem withResult (h : DoneInColumn s r c b ws) (lat : Nat) (d : Dst) (v : VReg) :
    DoneInColumn s ((putA c lat d v).run r) c
      (b.addLate { due := s.site.n + lat, n := s.site.n, slot := 1, dest := b.dest d, latch := .la, val := v }) ws := by
  have hhere := h.bank_here
  obtain ⟨hframe, harrs, hkept, hwrites⟩ := h
  refine ⟨?_, ?_, ?_, ?_⟩
  · rw [putA_run, putCell_run, hhere, hframe]
    simp only [hereKey, smSet_smSet]
  all_goals rw [putA_run, putCell_run]
  · exact harrs
  · exact hkept
  · exact hwrites

end DoneInColumn

/-- Appending entries reserves their positions and puts their writes on the agenda. -/
theorem appendCell_done (c q k : Nat) {es : List (List Byte)} (s : State) (hne : es ≠ []) :
    DoneInColumn s ((appendCell c q k es).run s) c (reserved s c q es.length) ((List.range es.length).map (entryWrite s c q k es)) := by
  have hsome : (!es.isEmpty) = true := by rw [List.isEmpty_eq_false_iff.2 hne]; rfl
  let u : State := { s with banks := smSet s.banks (hereKey s c) (reserved s c q es.length) }
  obtain ⟨hsame, hdue⟩ := each_cellWrite (s := u) (k := k) (addr := fun i => s.cellAddr c (qwElem (s.me.qword q s.site.n) ((s.pair c q).pr + i)))
    (bs := fun i => es.getD i []) (fun _ _ _ => rfl) (List.range es.length)
  obtain ⟨ds, as, hwritten⟩ := hsame.exists_eq
  rw [hwritten] at hdue hsame
  have hrun : (appendCell c q k es).run s = laterAct { u with due := ds, arrs := as } k rankPointer s.site
      (.micro (.pair (cellOf s.site.arr s.site.row c) s.site.ctx q (s.pair c q).stamp true es.length)) := by
    simp only [appendCell, run_get, hsome, run_when_true, run_all_cons, run_all_nil, setPair_run, after_run]
    exact congrArg (fun r => laterAct r k rankPointer r.site _) hwritten
  have hmem : ∀ d, (d ∈ s.due ∨ ∃ i ∈ List.range es.length, d = entryWrite s c q k es i) → d ∈ ((appendCell c q k es).run s).due := fun d hd => by
    rw [hrun]
    exact (mem_insertDue ..).2 (.inr (hdue ▸ (mem_laterEach ..).2 hd))
  refine ⟨by rw [hrun]; rfl, fun a => by rw [hrun]; exact hsame.2 a, fun d hd => hmem d (.inl hd), fun d hd => hmem d (.inr ?_)⟩
  obtain ⟨i, hi, rfl⟩ := List.mem_map.1 hd
  exact ⟨i, hi, rfl⟩

/-! ## A narrowing conversion in one column (R142, R145) -/

/-- What a narrowing conversion leaves in its destination and LA: the part replaced, zero in the places of strays. -/
def narrowResult (n : Narrow) (s : State) (c : Nat) : VReg :=
  setGroup n.w n.p ((s.here c).destVal n.d) ((n.conv s c).map fun e => e.getD n.zero)

/-- The bank of a column after a narrowing conversion: the places of its strays reserved, its result to come. -/
def narrowBank (n : Narrow) (s : State) (c : Nat) : Bank :=
  (if n.strays s c = 0 then s.here c else reserved s c n.q (n.strays s c)).addLate
    { due := s.site.n + n.lat, n := s.site.n, slot := 1, dest := (s.here c).dest n.d, latch := .la, val := narrowResult n s c }

/-- The writes of a column's strays. -/
def strayWrites (n : Narrow) (s : State) (c : Nat) : List Due := (List.range (n.strays s c)).map (entryWrite s c n.q n.k (n.entries s c))

theorem appendCell_nil_run (c q k : Nat) (s : State) : (appendCell c q k []).run s = s := rfl

theorem reserved_same {s t : State} (h : SameButStrays s t) {c : Nat} (hhere : t.here c = s.here c) (q m : Nat) : reserved t c q m = reserved s c q m := by
  simp only [reserved, State.pair, hhere, h.site, h.me]

theorem entryWrite_same {s t : State} (h : SameButStrays s t) {c : Nat} (hhere : t.here c = s.here c) (q k : Nat) (es : List (List Byte)) :
    entryWrite t c q k es = entryWrite s c q k es := by
  funext i
  simp only [entryWrite, State.pair, State.cellAddr, hhere, h.site, h.me, h.now]

theorem narrowBank_reads (n : Narrow) (s : State) (c : Nat) : ∃ ws ps, narrowBank n s c = { s.here c with lwb := ws, pairs := ps } := by
  rw [narrowBank]
  split <;> exact ⟨_, _, rfl⟩

section Column
variable {n : Narrow} (hn : ReadsLanes n)
include hn

theorem strays_same {s t : State} (h : SameButStrays s t) (c : Nat) : n.strays t c = n.strays s c := by
  simp only [Narrow.strays, hn.conv h]

theorem narrowResult_same {s t : State} (h : SameButStrays s t) (c : Nat) : narrowResult n t c = narrowResult n s c := by
  simp only [narrowResult, h.destVal, hn.conv h]

theorem narrowBank_same {s t : State} (h : SameButStrays s t) {c : Nat} (hhere : t.here c = s.here c) : narrowBank n t c = narrowBank n s c := by
  simp only [narrowBank, hhere, h.site, strays_same hn h, narrowResult_same hn h, reserved_same h hhere]

theorem strayWrites_same {s t : State} (h : SameButStrays s t) {c : Nat} (hhere : t.here c = s.here c) : strayWrites n t c = strayWrites n s c := by
  simp only [strayWrites, strays_same hn h, entries_same hn h, entryWrite_same h hhere]

/-- Where every element converts, the result is all a column is left with. -/
theorem narrow_effect_run_noStrays {s : State} {c : Nat} (hz : n.strays s c = 0) :
    (n.effect c).run s = (putCell c 1 n.lat ((s.here c).dest n.d) .la (narrowResult n s c)).run s := by
  have heffect : (n.effect c).run s = (putA c n.lat n.d (narrowResult n s c)).run ((appendCell c n.q n.k (n.entries s c)).run s) := rfl
  have hnil : n.entries s c = [] := List.eq_nil_of_length_eq_zero ((entries_length hn s c).trans hz)
  rw [heffect, hnil, appendCell_nil_run, putA_run]

/-- A column keeps its strays' places and writes, and its result. -/
theorem narrow_effect_done (s : State) (c : Nat) : DoneInColumn s ((n.effect c).run s) c (narrowBank n s c) (strayWrites n s c) := by
  rw [narrowBank, strayWrites]
  by_cases hz : n.strays s c = 0
  · rw [narrow_effect_run_noStrays hn hz, putCell_run, if_pos hz, hz]
    exact ⟨rfl, fun a => ⟨_, rfl⟩, fun d hd => hd, by simp only [List.range_zero, List.map_nil, List.not_mem_nil, false_implies, implies_true]⟩
  · have hlen := entries_length hn s c
    have hdone := appendCell_done c n.q n.k s (es := n.entries s c) fun hnil => hz (by rw [← hlen, hnil, List.length_nil])
    rw [hlen] at hdone
    rw [if_neg hz]
    exact hdone.withResult n.lat n.d (narrowResult n s c)

end Column

/-! ## A narrowing conversion in its row (R142, R145) -/

/-- What is done in columns of a row: each has its bank, the agenda has the writes of all, and no other bank is changed. -/
structure DoneInRow (s r : State) (cols : List Nat) (b : Nat → Bank) (ws : Nat → List Due) : Prop where
  same : SameButStrays s r
  kept : ∀ d ∈ s.due, d ∈ r.due
  here : ∀ c ∈ cols, r.here c = b c
  other : ∀ k, (∀ c ∈ cols, k ≠ hereKey s c) → smGet {} r.banks k = smGet {} s.banks k
  writes : ∀ c ∈ cols, ∀ d ∈ ws c, d ∈ r.due

/-- Columns do not disturb each other: each is left with what it would have been left with alone. -/
theorem each_narrow_done {n : Narrow} (hn : ReadsLanes n) {cols : List Nat} (hnodup : cols.Nodup) (s : State) :
    DoneInRow s ((Plan.each cols n.effect).run s) cols (narrowBank n s) (strayWrites n s) := by
  induction cols generalizing s with
  | nil => exact ⟨.refl s, fun _ hd => hd, fun _ h => absurd h List.not_mem_nil, fun _ _ => rfl, fun _ h => absurd h List.not_mem_nil⟩
  | cons c rest ih =>
    obtain ⟨hc, hrest⟩ := List.nodup_cons.1 hnodup
    rw [run_each_cons]
    have hdone := narrow_effect_done hn s c
    generalize (n.effect c).run s = u at hdone
    have hsame := hdone.sameButStrays (narrowBank_reads n s c)
    have hkey : ∀ c', hereKey u c' = hereKey s c' := fun c' => by simp only [hereKey, hsame.site]
    have hhere : ∀ c' ∈ rest, u.here c' = s.here c' := fun c' hc' => by
      have hk : hereKey s c' ≠ hereKey s c := fun h => hc (hereKey_inj s _ _ h ▸ hc')
      exact (congrArg (smGet {} u.banks) (hkey c')).trans (hdone.other_bank hk)
    have hrow := ih hrest u
    generalize (Plan.each rest n.effect).run u = r at hrow
    have hrkey : ∀ c', hereKey r c' = hereKey u c' := fun c' => by simp only [hereKey, hrow.same.site]
    refine ⟨hsame.trans hrow.same, fun d hd => hrow.kept d (hdone.kept d hd), fun c' hc' => ?_, fun k hk => ?_, fun c' hc' d hd => ?_⟩
    · obtain rfl | hc' := List.mem_cons.1 hc'
      · have hk : ∀ c'' ∈ rest, hereKey u c' ≠ hereKey u c'' := fun c'' hc'' h => hc (hereKey_inj u _ _ h ▸ hc'')
        exact (congrArg (smGet {} r.banks) (hrkey c')).trans ((hrow.other _ hk).trans hdone.bank_here)
      · exact (hrow.here c' hc').trans (narrowBank_same hn hsame (hhere c' hc'))
    · have hkrest : ∀ c' ∈ rest, k ≠ hereKey u c' := fun c' hc' => by rw [hkey]; exact hk c' (List.mem_cons_of_mem _ hc')
      exact (hrow.other k hkrest).trans (hdone.other_bank (hk c (List.mem_cons_self ..)))
    · obtain rfl | hc' := List.mem_cons.1 hc'
      · exact hrow.kept d (hdone.writes d hd)
      · exact hrow.writes c' hc' d (strayWrites_same hn hsame (hhere c' hc') ▸ hd)

/-- Settles O21: the row is blocked by the check of its first executing column; where every check passes, its columns are done each by itself, and those without strays
only put their results. -/
theorem narrowingResult : Obligations.NarrowingResult := by
  unfold Obligations.NarrowingResult
  intro s i n hi
  obtain ⟨hexec, hform⟩ := narrowOf_cases hi
  have hn := readsLanes_of_narrowOf hi
  refine ⟨?quantTimes, ?plainTimes, ?noStrays, ?unfit, ?noRoom, ?room⟩
  case quantTimes =>
    intro hquant
    obtain ⟨hplain, -⟩ | ⟨-, o, z, f, rfl⟩ := hform
    · exact absurd (isQuant_of_form hquant) (Bool.eq_false_iff.1 hplain)
    · exact ⟨rfl, rfl⟩
  case plainTimes =>
    intro h8 hps
    obtain ⟨-, o, w, z, fmt, f, rfl⟩ | ⟨⟨rm, o, h⟩ | ⟨o, h⟩, -⟩ := hform
    · exact ⟨rfl, rfl⟩
    · exact absurd h (h8 rm o)
    · exact absurd h (hps o)
  case noStrays =>
    intro hz hfit
    refine ⟨_, hexec s, ?_⟩
    rw [Narrow.plan, inRow_run_of_checks _ fun c hc => narrow_check_ok hfit (Nat.le_trans (Nat.le_of_eq (hz c hc)) (Nat.zero_le _))]
    refine (each_putCell _ (execCols_nodup s n.g) 1 n.lat .la _ s _ (narrowResult n s) fun c hc t ht => ?_).1
    have hsame := SameButStrays.ofLate ht
    rw [narrow_effect_run_noStrays hn ((strays_same hn hsame c).trans (hz c hc)), hsame.dest, narrowResult_same hn hsame]
  case unfit =>
    intro c rest hcols hfit
    rw [hexec, plan_step, Narrow.plan, inRow_run_of_first_fails _ hcols (narrow_check_unfit hfit)]
  case noRoom =>
    intro c rest hcols hfit hroom
    rw [hexec, plan_step, Narrow.plan, inRow_run_of_first_fails _ hcols (narrow_check_noRoom hfit hroom)]
  case room =>
    intro hroom hfit
    have hrow := each_narrow_done hn (execCols_nodup s n.g) s
    refine ⟨_, hexec s, ?_⟩
    rw [Narrow.plan, inRow_run_of_checks _ fun c hc => narrow_check_ok hfit (hroom c hc)]
    refine ⟨hrow.same.frame, hrow.same.arrs, hrow.other, fun c hc => ⟨fun l hl hnone => ?_, hrow.here c hc⟩⟩
    have hwrite := hrow.writes c hc _ (List.mem_map_of_mem (List.mem_range.2 (straysBefore_lt hn hl hnone)))
    refine ⟨_, hwrite, rfl, rfl, ?_⟩
    simp only [entryWrite, entries_getD hn hl hnone]
    rfl

end Sys2Proof.Laws
end

-- The family 07_cell_store_queues_strait.md: O25.
section

/-! What `cw` and the strait instructions of the M slot do in their row. The strait half of O25 holds; its `cw` half does not of a history crowded with points that are not
before the bundle, and does of every other. -/

namespace Sys2Proof.Laws
open Sys2Proof.Machine Sys2Proof.Safety

theorem execCols_lt {s : State} {g : Guard} {c : Nat} (h : c ∈ s.execCols g) : c < 16 := by
  have hsel := (List.mem_filter.1 h).1
  rw [State.selCols] at hsel
  split at hsel
  · exact List.mem_range.1 (List.mem_filter.1 hsel).1
  · exact absurd hsel List.not_mem_nil

theorem cellOf_col_inj {a row c c' : Nat} (h : cellOf a row c = cellOf a row c') : c = c' := Nat.add_left_cancel h

/-- A row whose effect changes nothing in any column changes nothing. -/
theorem each_run_unchanged {α : Type} {f : α → Plan} {s : State} {xs : List α} (h : ∀ x ∈ xs, (f x).run s = s) : (Plan.each xs f).run s = s := by
  induction xs with
  | nil => rfl
  | cons x xs ih => rw [run_each_cons, h x (List.mem_cons_self ..), ih fun y hy => h y (List.mem_cons_of_mem _ hy)]

/-! ## The communication register (R94, R154) -/

/-- `cw` in one column. -/
def cwCell (v : Src) (c : Nat) : Plan := .get fun s => modHere c fun b => b.writeC s.site.n (s.src (.int 32) c 0 v)

theorem cwCell_run (v : Src) (c : Nat) (s : State) :
    (cwCell v c).run s = { s with banks := smSet s.banks (hereKey s c) ((s.here c).writeC s.site.n (s.src (.int 32) c 0 v)) } := rfl

theorem exec_cw {s : State} (g : Guard) (v : Src) (hrow : s.site.issue = false) :
    exec (.cw g v) s = .next ((Plan.each (s.execCols g) (cwCell v)).run s) := by
  have hexec : exec (.cw g v) s = (mRow g noRowCheck (cwCell v)).step s := rfl
  rw [hexec, plan_step, mRow_run hrow, inRow_run_of_checks _ fun _ _ => rfl]

/-- What O25 says of `cw` in a row. -/
def CwSetsC (s : State) (g : Guard) (v : Src) : Prop :=
  ∃ t, exec (.cw g v) s = .next t ∧ t = { s with banks := t.banks } ∧
    (∀ c ∈ s.execCols g, (t.here c).cBefore s.site.n 0 = s.src (.int 32) c 0 v ∧
      t.here c = { s.here c with chist := (t.here c).chist, dirty := (t.here c).dirty }) ∧
    ∀ k, (∀ c ∈ s.execCols g, k ≠ hereKey s c) → smGet {} t.banks k = smGet {} s.banks k

/-- Columns 0 and 1 of a row in bundle 1; in column 0, C became 7 in bundle 0, and 80 points of bundle 1 stand before that one. -/
def crowdedHistory : State :=
  { State.reset with
    site := { n := 1, cols := 3 }
    banks := [(bankKey (cellOf 0 0 0) 0, { chist := List.replicate 80 (4, 0) ++ [(3, 7)] })] }

/-- The guard that is always true: P0. -/
def always : Guard := { neg := false, reg := 0 }

/-- Column 0 writes its C first, and that write drops the oldest point of its history, the one column 1 reads: it sets C to 0, where its operand was 7. -/
theorem not_cwSetsC_crowdedHistory : ¬ CwSetsC crowdedHistory always .nbW := by
  rintro ⟨t, hexec, -, hset, -⟩
  have hoperand : crowdedHistory.src (.int 32) 1 0 .nbW = 7 := by decide
  have hcols : 1 ∈ crowdedHistory.execCols always := by decide
  have hwritten : (((Plan.each (crowdedHistory.execCols always) (cwCell .nbW)).run crowdedHistory).here 1).cBefore 1 0 = 0 := by decide
  rw [exec_cw always .nbW rfl] at hexec
  cases hexec
  have h0 : (0 : VReg) = 7 := hwritten.symm.trans ((hset 1 hcols).1.trans hoperand)
  exact absurd h0 (by decide)

/-- No point of any history of C is of the bundle that executes or of a later one. -/
def HistoriesBefore (s : State) : Prop := ∀ k, ∀ e ∈ (smGet {} s.banks k).chist, e.1 ≤ s.site.n + 2

theorem writeC_cBefore_now (b : Bank) (n : Nat) (v : VReg) : (b.writeC n v).cBefore n 0 = v := if_pos (Nat.le_refl _)

theorem writeC_frame (b : Bank) (n : Nat) (v : VReg) :
    b.writeC n v = { b with chist := (b.writeC n v).chist, dirty := (b.writeC n v).dirty } := rfl

/-- A write of C leaves what a neighbour reads of the bundle before (R94). -/
theorem writeC_cBefore_one {b : Bank} {n : Nat} (v : VReg) (h : ∀ e ∈ b.chist, e.1 ≤ n + 2) : (b.writeC n v).cBefore n 1 = b.cBefore n 1 := by
  have hskip : (b.writeC n v).cBefore n 1 = cAsOf (b.chist.take 80) (n + 2) := if_neg (by omega)
  rw [hskip, Bank.cBefore]
  cases hhist : b.chist with
  | nil => rfl
  | cons e rest =>
    have he : e.1 ≤ n + 2 := h e (hhist ▸ List.mem_cons_self ..)
    exact (if_pos he).trans (if_pos he).symm

/-- The bank of a column once its `cw` has executed. -/
def cwBank (s : State) (v : Src) (c : Nat) : Bank := (s.here c).writeC s.site.n (s.src (.int 32) c 0 v)

/-- A row partway through its `cw`: each of its columns is as it was or has written its C, and every other bank is as it was. -/
structure CwPartway (s t : State) (v : Src) : Prop where
  frame : t = { s with banks := t.banks }
  other : ∀ k, (∀ c < 16, k ≠ hereKey s c) → smGet {} t.banks k = smGet {} s.banks k
  here : ∀ c, smGet {} t.banks (hereKey s c) = s.here c ∨ smGet {} t.banks (hereKey s c) = cwBank s v c

namespace CwPartway
variable {s t : State} {v : Src}

theorem refl (s : State) (v : Src) : CwPartway s s v := ⟨rfl, fun _ _ => rfl, fun _ => .inl rfl⟩

theorem site (h : CwPartway s t v) : t.site = s.site := by rw [h.frame]
theorem me (h : CwPartway s t v) : t.me = s.me := by rw [h.frame]; rfl
theorem here_eq (h : CwPartway s t v) (c : Nat) : t.here c = smGet {} t.banks (hereKey s c) := by
  rw [hereKey, ← h.site]
  rfl

/-- A cell of another row is none of this row's. -/
theorem bank_otherRow (h : CwPartway s t v) {row c : Nat} (hrow : row % 16 ≠ s.site.row % 16) (hc : c < 16) :
    t.bank (cellOf s.site.arr row c) s.site.ctx = s.bank (cellOf s.site.arr row c) s.site.ctx := by
  refine h.other _ fun c' hc' hkey => ?_
  simp only [bankKey, hereKey, cellOf] at hkey
  omega

/-- A column before its turn reads what it would have read before the row. -/
theorem sameSrc (h : CwPartway s t v) (hb : HistoriesBefore s) {c : Nat} (hc : c < 16) (hhere : t.here c = s.here c) :
    t.src (.int 32) c 0 v = s.src (.int 32) c 0 v := by
  have hown : t.bank (cellOf s.site.arr s.site.row c) s.site.ctx = s.bank (cellOf s.site.arr s.site.row c) s.site.ctx := by
    rwa [State.here, State.here, h.site] at hhere
  have hbeside : ∀ c', (t.bank (cellOf s.site.arr s.site.row c') s.site.ctx).cBefore s.site.n 1
      = (s.bank (cellOf s.site.arr s.site.row c') s.site.ctx).cBefore s.site.n 1 := fun c' => by
    obtain hsame | hwrote := h.here c'
    · exact congrArg (Bank.cBefore · s.site.n 1) hsame
    · exact (congrArg (Bank.cBefore · s.site.n 1) hwrote).trans (writeC_cBefore_one _ (hb _))
  cases v with
  | v i | based k n | o i | la | lm => simp only [State.src, h.site, hown]
  | nbN =>
    simp only [State.src, h.site]
    split
    · rfl
    · rw [h.bank_otherRow (by omega) hc]
  | nbS =>
    simp only [State.src, h.site, h.me]
    rw [h.bank_otherRow (by omega) hc]
  | nbE | nbW => simp only [State.src, h.site, hbeside]
  | zero | small i | long => rfl

/-- One column more. -/
theorem nextColumn (h : CwPartway s t v) (hb : HistoriesBefore s) {c : Nat} (hc : c < 16) (hhere : t.here c = s.here c) :
    (cwCell v c).run t = { t with banks := smSet t.banks (hereKey s c) (cwBank s v c) } ∧ CwPartway s ((cwCell v c).run t) v := by
  have hrun : (cwCell v c).run t = { t with banks := smSet t.banks (hereKey s c) (cwBank s v c) } := by
    have hkey : hereKey t c = hereKey s c := by rw [hereKey, h.site, hereKey]
    rw [cwCell_run, hkey, hhere, h.sameSrc hb hc hhere, h.site, cwBank]
  rw [hrun]
  refine ⟨rfl, by rw [h.frame], fun k hk => ?_, fun c' => ?_⟩
  · exact (smGet_smSet_other _ _ _ _ _ (hk c hc)).trans (h.other k hk)
  · by_cases hcc : c' = c
    · subst hcc
      exact .inr (smGet_smSet_same ..)
    · have hkeep := smGet_smSet_other {} (cwBank s v c) t.banks _ _ fun hkey => hcc (hereKey_inj s c' c hkey)
      exact (h.here c').imp hkeep.trans hkeep.trans

end CwPartway

/-- The columns of a row write their C one after the other. -/
theorem each_cwCell {s : State} {v : Src} (hb : HistoriesBefore s) {cols : List Nat} (hnodup : cols.Nodup) (hlt : ∀ c ∈ cols, c < 16) {t : State}
    (ht : CwPartway s t v) (hhere : ∀ c ∈ cols, t.here c = s.here c) :
    let r := (Plan.each cols (cwCell v)).run t
    CwPartway s r v ∧ (∀ c ∈ cols, smGet {} r.banks (hereKey s c) = cwBank s v c) ∧
      ∀ k, (∀ c ∈ cols, k ≠ hereKey s c) → smGet {} r.banks k = smGet {} t.banks k := by
  induction cols generalizing t with
  | nil => exact ⟨ht, fun _ h => absurd h List.not_mem_nil, fun _ _ => rfl⟩
  | cons c rest ih =>
    obtain ⟨hc, hrest⟩ := List.nodup_cons.1 hnodup
    obtain ⟨hrun, hu⟩ := ht.nextColumn hb (hlt c (List.mem_cons_self ..)) (hhere c (List.mem_cons_self ..))
    have hkeep : ∀ k, k ≠ hereKey s c → smGet {} ((cwCell v c).run t).banks k = smGet {} t.banks k := fun k hk => by
      rw [hrun]
      exact smGet_smSet_other _ _ _ _ _ hk
    have hne : ∀ c' ∈ rest, hereKey s c' ≠ hereKey s c := fun c' hc' hkey => hc (hereKey_inj s _ _ hkey ▸ hc')
    obtain ⟨hr, hwrote, hother⟩ := ih hrest (fun c' hc' => hlt c' (List.mem_cons_of_mem _ hc')) hu fun c' hc' => by
      rw [hu.here_eq, hkeep _ (hne c' hc'), ← ht.here_eq, hhere c' (List.mem_cons_of_mem _ hc')]
    rw [run_each_cons]
    refine ⟨hr, fun c' hc' => ?_, fun k hk => ?_⟩
    · obtain rfl | hc' := List.mem_cons.1 hc'
      · rw [hother _ fun c'' hc'' => (hne c'' hc'').symm, hrun]
        exact smGet_smSet_same ..
      · exact hwrote c' hc'
    · rw [hother k fun c' hc' => hk c' (List.mem_cons_of_mem _ hc'), hkeep k (hk c (List.mem_cons_self ..))]

/-- `cw` does what O25 says of it where the histories of C end before the bundle that executes. -/
theorem cwSetsC_of_historiesBefore {s : State} (g : Guard) (v : Src) (hrow : s.site.issue = false) (hb : HistoriesBefore s) : CwSetsC s g v := by
  obtain ⟨hr, hwrote, hother⟩ := each_cwCell hb (execCols_nodup s g) (fun _ => execCols_lt) (.refl s v) fun _ _ => rfl
  refine ⟨_, exec_cw g v hrow, hr.frame, fun c hc => ?_, hother⟩
  rw [hr.here_eq, hwrote c hc]
  exact ⟨writeC_cBefore_now .., writeC_frame ..⟩

/-- Histories that end before their bundle: column 0 wrote its C in bundle 0, and bundle 1 executes. -/
theorem historiesBefore_witness :
    CwSetsC { crowdedHistory with banks := [(bankKey (cellOf 0 0 0) 0, { chist := [(3, 7)] })] } always .nbW :=
  cwSetsC_of_historiesBefore _ _ rfl fun k e he => by
    simp only [smGet] at he
    split at he
    · obtain rfl := List.mem_singleton.1 he
      decide
    · exact absurd he List.not_mem_nil

/-! ## The checks of the strait (R163-R165) -/

section Check
variable {s : State} {c : Nat}

/-- The bonded array of a column belongs to the owner of the column's own. -/
abbrev SharesStrait (s : State) (c : Nat) : Prop :=
  (s.arr (bonded (cellOf s.site.arr s.site.row c) / 256)).owner = (s.arr (cellOf s.site.arr s.site.row c / 256)).owner

theorem straitCheck_shared (h : SharesStrait s c) : straitCheck s c = none := if_pos (beq_iff_eq.2 h)

theorem straitCheck_unshared (h : ¬ SharesStrait s c) : straitCheck s c = some { badWord with sub := 5 } := if_neg fun hbeq => h (beq_iff_eq.1 hbeq)

theorem vpushCheck_unshared (h : ¬ SharesStrait s c) : vpushCheck s c = some { badWord with sub := 5 } := by
  simp only [vpushCheck, straitCheck_unshared h]

theorem vpushCheck_shared (h : SharesStrait s c) :
    vpushCheck s c = if straitOther s (cellOf s.site.arr s.site.row c) then some { badWord with sub := 5 }
      else if straitFree s (cellOf s.site.arr s.site.row c) < 1 then some { badWord with sub := 4 } else none := by
  simp only [vpushCheck, straitCheck_shared h]

theorem vpopCheck_unshared (h : ¬ SharesStrait s c) : vpopCheck s c = some { badWord with sub := 5 } := by
  simp only [vpopCheck, straitCheck_unshared h]

theorem vpopCheck_noEntry (h : SharesStrait s c)
    (hnone : ∀ e r, (s.cellx (bonded (cellOf s.site.arr s.site.row c))).strait = e :: r → e.ctx ≠ s.site.ctx ∨ s.tick ≤ e.lands) :
    vpopCheck s c = some { badWord with sub := 3 } := by
  simp only [vpopCheck, straitCheck_shared h]
  split
  · next e r hq =>
    refine if_neg fun hhead => ?_
    obtain ⟨hctx, hlands⟩ := Bool.and_eq_true_iff.1 hhead
    obtain hother | hlate := hnone e r hq
    · exact hother (beq_iff_eq.1 hctx)
    · exact absurd (of_decide_eq_true hlands) (Nat.not_lt.2 hlate)
  · rfl

theorem vpopCheck_entry (h : SharesStrait s c)
    (hhead : ∃ e r, (s.cellx (bonded (cellOf s.site.arr s.site.row c))).strait = e :: r ∧ e.ctx = s.site.ctx ∧ e.lands < s.tick) :
    vpopCheck s c = none := by
  obtain ⟨e, r, hq, hctx, hlands⟩ := hhead
  simp only [vpopCheck, straitCheck_shared h, hq, hctx, hlands, beq_self_eq_true, decide_true, Bool.and_self, if_true]

end Check

/-! ## The strait instructions in their row (R165) -/

/-- `vpush` in one column. -/
def vpushCell (v : Src) (c : Nat) : Plan :=
  .get fun s => Plan.when (!launchOver s) <| modCell (cellOf s.site.arr s.site.row c) fun x =>
    { x with strait := x.strait ++ [{ ctx := s.site.ctx, launch := s.me.launch, lands := s.tick + 2, val := s.src (.int 32) c 0 v }] }

/-- `vpop` in one column. -/
def vpopCell (d : Dst) (c : Nat) : Plan :=
  .get fun s => after 1 rankRead (.micro (.straitPop (cellOf s.site.arr s.site.row c) s.site.ctx (mEntry s c d 3 0)))

/-- A count of 32 bits in every lane, from what a column reads, written one bundle on. -/
def countCell (d : Dst) (count : State → Nat → Nat) (c : Nat) : Plan := .get fun s => putM c 1 d (mkElems 32 fun _ => count s c)

/-- What `vfree` counts. -/
def freeCount (s : State) (c : Nat) : Nat :=
  if straitOther s (cellOf s.site.arr s.site.row c) then 0 else straitFree s (cellOf s.site.arr s.site.row c)

/-- What `vfree.in` counts. -/
def landedCount (s : State) (c : Nat) : Nat :=
  ((s.cellx (bonded (cellOf s.site.arr s.site.row c))).strait.filter fun e => e.ctx == s.site.ctx && decide (e.lands < s.tick)).length

theorem exec_vpush (g : Guard) (v : Src) (s : State) : exec (.vpush g v) s = (mRow g vpushCheck (vpushCell v)).step s := rfl
theorem exec_vpop (g : Guard) (d : Dst) (s : State) : exec (.vpop g d) s = (mRow g vpopCheck (vpopCell d)).step s := rfl
theorem exec_vfree (g : Guard) (d : Dst) (s : State) : exec (.vfree g d) s = (mRow g straitCheck (countCell d freeCount)).step s := rfl
theorem exec_vfreeIn (g : Guard) (d : Dst) (s : State) : exec (.vfreeIn g d) s = (mRow g straitCheck (countCell d landedCount)).step s := rfl

/-- A row of the M slot is blocked by the first check that fails. -/
theorem mRow_step_of_first_fails {g : Guard} {check : State → Nat → Option Chk} {s : State} (eff : Nat → Plan) {c : Nat} {rest : List Nat} {f : Chk}
    (hrow : s.site.issue = false) (hcols : s.execCols g = c :: rest) (hf : check s c = some f) :
    (mRow g check eff).step s = .next ((rowFault f.code f.sub f.addr (cellOf s.site.arr s.site.row c)).run s) := by
  rw [plan_step, mRow_run hrow, inRow_run_of_first_fails eff hcols hf]

theorem mRow_step_of_checks {g : Guard} {check : State → Nat → Option Chk} {s : State} (eff : Nat → Plan) (hrow : s.site.issue = false)
    (h : ∀ c ∈ s.execCols g, check s c = none) : (mRow g check eff).step s = .next ((Plan.each (s.execCols g) eff).run s) := by
  rw [plan_step, mRow_run hrow, inRow_run_of_checks eff h]

/-- What a column counts from the arrays' cells and the clock, late writes of the other columns do not change. -/
theorem countCell_writes {d : Dst} {count : State → Nat → Nat} {s : State} {cols : List Nat} (hnodup : cols.Nodup)
    (hcount : ∀ bs c, count { s with banks := bs } c = count s c) :
    RowWrote s ((Plan.each cols (countCell d count)).run s) cols 2 1 (fun c => (s.here c).dest d) .lm (fun c => mkElems 32 fun _ => count s c) := by
  refine (each_putCell cols hnodup 2 1 .lm _ s _ _ fun c _ t ht => ?_).1
  have hsame : count t c = count s c := by rw [ht.1, hcount]
  have hrun : (countCell d count c).run t = (putCell c 2 1 ((t.here c).dest d) .lm (mkElems 32 fun _ => count t c)).run t := rfl
  rw [hrun, ht.dest, hsame]

/-- Where the launch goes on, the cell of a column gains one entry. -/
def pushedOn (s : State) (v : Src) (c : Nat) (x : CellX) : CellX :=
  { x with strait := x.strait ++ [{ ctx := s.site.ctx, launch := s.me.launch, lands := s.tick + 2, val := s.src (.int 32) c 0 v }] }

theorem vpushCell_run_over {s : State} (v : Src) (c : Nat) (h : launchOver s = true) : (vpushCell v c).run s = s := by
  simp only [vpushCell, run_get, h, Bool.not_true, run_when_false]

theorem vpushCell_run {s : State} (v : Src) (c : Nat) (h : launchOver s = false) (cs : SMap CellX) :
    (vpushCell v c).run { s with cells := cs } =
      { s with cells := smSet cs (cellOf s.site.arr s.site.row c) (pushedOn s v c (smGet {} cs (cellOf s.site.arr s.site.row c))) } := by
  have hover : launchOver { s with cells := cs } = false := h
  simp only [vpushCell, run_get, hover, Bool.not_false, run_when_true]
  rfl

/-- Each column pushes in its own cell. -/
theorem each_vpushCell {s : State} (v : Src) (h : launchOver s = false) {cols : List Nat} (hnodup : cols.Nodup) (cs : SMap CellX) :
    ∃ cs', (Plan.each cols (vpushCell v)).run { s with cells := cs } = { s with cells := cs' } ∧
      (∀ c ∈ cols, smGet {} cs' (cellOf s.site.arr s.site.row c) = pushedOn s v c (smGet {} cs (cellOf s.site.arr s.site.row c))) ∧
      ∀ k, (∀ c ∈ cols, k ≠ cellOf s.site.arr s.site.row c) → smGet {} cs' k = smGet {} cs k := by
  induction cols generalizing cs with
  | nil => exact ⟨cs, rfl, fun _ h => absurd h List.not_mem_nil, fun _ _ => rfl⟩
  | cons c rest ih =>
    obtain ⟨hc, hrest⟩ := List.nodup_cons.1 hnodup
    have hne : ∀ c' ∈ rest, cellOf s.site.arr s.site.row c' ≠ cellOf s.site.arr s.site.row c := fun c' hc' hcell => hc (cellOf_col_inj hcell ▸ hc')
    rw [run_each_cons, vpushCell_run v c h]
    obtain ⟨cs', hrun, hpushed, hother⟩ := ih hrest _
    refine ⟨cs', hrun, fun c' hc' => ?_, fun k hk => ?_⟩
    · obtain rfl | hc' := List.mem_cons.1 hc'
      · rw [hother _ fun c'' hc'' => (hne c'' hc'').symm, smGet_smSet_same]
      · rw [hpushed c' hc', smGet_smSet_other _ _ _ _ _ (hne c' hc')]
    · rw [hother k fun c' hc' => hk c' (List.mem_cons_of_mem _ hc'), smGet_smSet_other _ _ _ _ _ (hk c (List.mem_cons_self ..))]

/-- The strait half of O25 holds, so that O25 says no more than its `cw` half. -/
theorem communicationAndStrait_iff : Obligations.CommunicationAndStrait ↔ ∀ (s : State) (g : Guard) (v : Src), s.site.issue = false → CwSetsC s g v := by
  unfold Obligations.CommunicationAndStrait
  refine and_iff_left fun s g d v hrow => ?_
  dsimp only
  refine ⟨fun c rest hcols => ⟨?unshared, ?otherContext, ?noRoom, ?noEntry⟩, fun hshared => ⟨?push, ?pop, ?free, ?landed⟩⟩
  case unshared =>
    intro hnot i hi
    have hnot : ¬ SharesStrait s c := of_decide_eq_false hnot
    obtain rfl | rfl | rfl | rfl := hi
    · exact mRow_step_of_first_fails _ hrow hcols (vpushCheck_unshared hnot)
    · exact mRow_step_of_first_fails _ hrow hcols (vpopCheck_unshared hnot)
    · exact mRow_step_of_first_fails _ hrow hcols (straitCheck_unshared hnot)
    · exact mRow_step_of_first_fails _ hrow hcols (straitCheck_unshared hnot)
  case otherContext =>
    intro hshared hother
    exact mRow_step_of_first_fails _ hrow hcols ((vpushCheck_shared (of_decide_eq_true hshared)).trans (if_pos hother))
  case noRoom =>
    intro hshared hother hfree
    refine mRow_step_of_first_fails (f := { badWord with sub := 4 }) _ hrow hcols ?_
    rw [vpushCheck_shared (of_decide_eq_true hshared), if_neg (Bool.eq_false_iff.1 hother), if_pos (Nat.lt_one_iff.2 hfree)]
  case noEntry =>
    intro hshared hnone
    exact mRow_step_of_first_fails _ hrow hcols (vpopCheck_noEntry (of_decide_eq_true hshared) hnone)
  case push =>
    intro hroom
    have hrun : exec (.vpush g v) s = .next ((Plan.each (s.execCols g) (vpushCell v)).run s) := mRow_step_of_checks _ hrow fun c hc => by
      rw [vpushCheck_shared (hshared c hc), if_neg (Bool.eq_false_iff.1 (hroom c hc).1), if_neg (Nat.not_lt.2 (hroom c hc).2)]
    refine ⟨fun hover => ?_, fun hgoes => ?_⟩
    · rw [hrun, each_run_unchanged fun c _ => vpushCell_run_over v c hover]
    · obtain ⟨cs, hcells, hpushed, -⟩ := each_vpushCell v hgoes (execCols_nodup s g) s.cells
      exact ⟨{ s with cells := cs }, hrun.trans (congrArg _ hcells), rfl, hpushed⟩
  case pop =>
    intro hentry
    rw [exec_vpop, mRow_step_of_checks _ hrow fun c hc => vpopCheck_entry (hshared c hc) (hentry c hc)]
    exact congrArg _ (each_after _ fun _ _ => rfl)
  case free =>
    exact ⟨_, mRow_step_of_checks _ hrow fun c hc => straitCheck_shared (hshared c hc), countCell_writes (execCols_nodup s g) fun _ _ => rfl⟩
  case landed =>
    exact ⟨_, mRow_step_of_checks _ hrow fun c hc => straitCheck_shared (hshared c hc), countCell_writes (execCols_nodup s g) fun _ _ => rfl⟩

/-- Refutes O25: a write of C keeps only 80 earlier points of its history, so where more than 80 points are not before the bundle, a neighbour later in the row, whose operand
is C as of the bundle before, no longer reads what it read before the row. Where the histories end before the bundle, `cw` does as O25 says. -/
theorem not_communicationAndStrait : ¬ Obligations.CommunicationAndStrait := fun h =>
  not_cwSetsC_crowdedHistory (communicationAndStrait_iff.1 h crowdedHistory always .nbW rfl)

end Sys2Proof.Laws
end

-- The family 09_fidelity_rails.md: O32 and O46.
section

/-! What the E slot's instructions over queue words, barrier objects and counters do, and what the thermal ladder, the stretched ticks and the slice rails do. -/

namespace Sys2Proof.Laws
open Sys2Proof.Machine Sys2Proof.Safety

/-! ## Queue control words (R233, R234) -/

theorem qwSetStall_free {k : BitVec 4} {s : State} (h : wordBusy k.toNat s = false) : qwSetStall k s = none := by
  rw [qwSetStall, h]
  rfl

theorem qwSetStall_busy {k : BitVec 4} {s : State} (h : wordBusy k.toNat s = true) : qwSetStall k s = some .queue := by
  rw [qwSetStall, h]
  rfl

/-- The state of a queue word once bundle `n` has set it to `w`: the bundles up to `n` still see the word it had (R233). -/
def wordSet (n : Nat) (w : BitVec 128) (q : QW) : QW :=
  { q with word := w, stamp := n + 1, old := ((q.stamp, q.word) :: q.old).take 64, pr := qwPP w, cr := qwCP w }

theorem exec_qwSet_free {s : State} {g : Guard} (k : BitVec 4) (xa xb : BitVec 5) (hg : s.guardQ g = true) (h : wordBusy k.toNat s = false) :
    exec (.qwSet g k xa xb) s = .next (withMe s (qwMoved s.me k.toNat (wordSet s.site.n (qwSetWord s (s.x xa) (s.x xb))))) :=
  congrArg Host.Outcome.next (atIssue_effect g (qwSetStall k) noCheck _ s hg (.inr (qwSetStall_free h)) rfl)

theorem exec_qwSet_busy {s : State} {g : Guard} (k : BitVec 4) (xa xb : BitVec 5) (hg : s.guardQ g = true) (hpicked : s.site.picked = false)
    (h : wordBusy k.toNat s = true) : exec (.qwSet g k xa xb) s = .next (withMe s { s.me with state := .stalled }) :=
  congrArg Host.Outcome.next (atIssue_stall g (qwSetStall k) noCheck _ s .queue hg hpicked (qwSetStall_busy h))

theorem exec_qwRd {s : State} {g : Guard} (k : BitVec 4) (xa xb : BitVec 5) (hg : s.guardQ g = true) :
    exec (.qwRd g k xa xb) s = .next (seqWrite (seqWrite s 4 1 (.x xa) ((s.me.qword k.toNat s.site.n).extractLsb' 0 64)) 4 1 (.x xb)
      ((s.me.qword k.toNat s.site.n).extractLsb' 64 64)) :=
  congrArg Host.Outcome.next (atIssueAlways_effect g _ s hg)

/-! ## Barrier objects (R227, R235, R237) -/

theorem exec_boInit {s : State} {g : Guard} (unit : Bool) (xa xb : BitVec 5) (hg : s.guardQ g = true) (hok : objCheck (s.x xa).toNat s = none) :
    exec (.boInit g unit xa xb) s = .next (laterAct s 2 (rankControl + 1) s.site
      (.micro (.write .scratch (s.myWin (s.x xa).toNat) (objImage unit s.me.tag (s.x xb))))) := by
  refine congrArg Host.Outcome.next ((atIssue_effect g noStall (boCheck xa) _ s hg (.inr rfl) hok).trans ?_)
  rw [run_get, after_run]

theorem exec_boInit_faults {s : State} {g : Guard} (unit : Bool) (xa xb : BitVec 5) (hg : s.guardQ g = true) {f : Chk}
    (hf : objCheck (s.x xa).toNat s = some f) : exec (.boInit g unit xa xb) s = faultsAtIssue s f.code f.sub f.addr :=
  congrArg Host.Outcome.next (atIssue_check g noStall (boCheck xa) _ s f hg (.inr rfl) hf)

/-- The read `bo.rd` puts on the agenda: at the end of its own tick, after the port's writes and before the counts. -/
def boReadDue (s : State) (addr : Nat) (xa : BitVec 5) : Due :=
  { tick := s.now, rank := rankControl, ord := 1, dom := none, site := s.site, act := .micro (.boRead addr xa) }

theorem exec_boRd {s : State} {g : Guard} (xa xb : BitVec 5) (hg : s.guardQ g = true) (hok : objCheck (s.x xb).toNat s = none) :
    exec (.boRd g xa xb) s = .next { s with due := insertDue (boReadDue s (s.myWin (s.x xb).toNat) xa) s.due } :=
  congrArg Host.Outcome.next (atIssue_effect g noStall (boCheck xb) _ s hg (.inr rfl) hok)

theorem exec_boRd_faults {s : State} {g : Guard} (xa xb : BitVec 5) (hg : s.guardQ g = true) {f : Chk} (hf : objCheck (s.x xb).toNat s = some f) :
    exec (.boRd g xa xb) s = faultsAtIssue s f.code f.sub f.addr :=
  congrArg Host.Outcome.next (atIssue_check g noStall (boCheck xb) _ s f hg (.inr rfl) hf)

/-- Where no line is marked uncorrectable, a read of the scratchpad has no effect but the value read (R228). -/
theorem scratchRead_run_unmarked {s : State} (addr n : Nat) (f : Plan) (h : s.marks = []) : (scratchRead addr n f).run s = s := by
  have hgood : ∀ line, s.marked 2 line = false := fun line => by rw [State.marked, h]; rfl
  have hnone : ((List.range (if n = 0 then 0 else (addr + n - 1) / 64 - addr / 64 + 1)).find? fun i => s.marked 2 (addr / 64 + i)) = none :=
    List.find?_eq_none.2 fun i _ => by simp [hgood]
  simp only [scratchRead, run_get, hnone, run_skip]

theorem boReadPlan_run {s : State} (addr : Nat) (xa : BitVec 5) (h : s.marks = []) :
    (boReadPlan addr xa).run s = seqWrite s 4 2 (.x xa) (BitVec.ofNat 64 (boCount s addr)) := by
  rw [boReadPlan, run_get, run_both, controlRead, scratchRead_run_unmarked _ _ _ h, putXE_run]

/-- With no input to come, a step whose first act no instruction names runs the plan of that act. -/
theorem step_micro {s : State} {d : Due} {rest : List Due} {m : Micro} (hin : s.inputs = []) (hdue : s.due = d :: rest) (hact : d.act = .micro m) :
    step s = .next ((microPlan m).run (s.take d rest)) := by
  simp only [step, hin, hdue, hact, runAct, plan_step]

/-! ## Counters (R202) -/

theorem exec_ctrRd {s : State} {g : Guard} (xa : BitVec 5) (sel : BitVec 8) (up : Bool) (hg : s.guardQ g = true) :
    exec (.ctrRd g xa sel up) s = .next (seqWrite s 4 2 (.x xa) (BitVec.ofNat 64 (ctrValue s sel up))) :=
  congrArg Host.Outcome.next (atIssueAlways_effect g _ s hg)

theorem ctrValue_upper_gang {s : State} (h : s.me.h = 32) : ctrValue s 2 true = (s.arr (s.site.arr + 4)).aerr1 :=
  if_neg (by simp [h])

theorem ctrValue_upper_single {s : State} (h : s.me.h ≠ 32) : ctrValue s 2 true = 0 :=
  if_pos (by simpa using h)

/-- Settles O32: each instruction has its effect where its stall and its check let it, and each operand that names no object of the window faults by its check. -/
theorem wordsObjectsCounters : Obligations.WordsObjectsCounters := by
  unfold Obligations.WordsObjectsCounters
  refine ⟨?words, ?objects, ?counts, ?counters⟩
  case words =>
    intro s g k xa xb hg
    exact ⟨exec_qwSet_free k xa xb hg, exec_qwSet_busy k xa xb hg, exec_qwRd k xa xb hg⟩
  case objects =>
    intro s g unit xa xb hg
    exact
      ⟨fun halign hin => exec_boInit unit xa xb hg (objCheck_ok _ s halign hin),
        fun halign hin => exec_boRd xa xb hg (objCheck_ok _ s halign hin),
        fun hbad => exec_boInit_faults unit xa xb hg (objCheck_misaligned _ s hbad),
        fun hbad => exec_boRd_faults xa xb hg (objCheck_misaligned _ s hbad),
        fun halign hout => exec_boInit_faults unit xa xb hg (objCheck_outside _ s halign hout),
        fun halign hout => exec_boRd_faults xa xb hg (objCheck_outside _ s halign hout)⟩
  case counts =>
    intro s d rest addr xa hin hdue hact hmarks
    have hrun : (microPlan (.boRead addr xa)).run (s.take d rest) = _ := boReadPlan_run (s := s.take d rest) addr xa hmarks
    exact (step_micro hin hdue hact).trans (congrArg Host.Outcome.next hrun)
  case counters =>
    intro s g xa hg
    refine
      ⟨exec_ctrRd xa 0 false hg, exec_ctrRd xa 1 false hg, exec_ctrRd xa 2 false hg, exec_ctrRd xa 3 false hg, exec_ctrRd xa 4 false hg,
        exec_ctrRd xa 5 false hg, exec_ctrRd xa 6 false hg, fun hgang => ?_, fun hsingle => ?_⟩
    · rw [exec_ctrRd xa 2 true hg, ctrValue_upper_gang hgang]
    · rw [exec_ctrRd xa 2 true hg, ctrValue_upper_single hsingle]

/-! ## What recording a fault leaves of each partition (R356, R359) -/

/-- The edits of FaultEdit that change no partition but `p`. -/
def FaultEditIn (p : Nat) : Edit → Prop
  | .part k _ => k = p
  | .ctx _ _ | .due _ | .free _ => True
  | _ => False

theorem recordFault_editsIn (p : Nat) (f : FaultRec) : (recordFault p f).edits (FaultEditIn p) := by
  intro s
  dsimp only
  split
  · exact fun _ => rfl
  split
  · split
    · exact ⟨fun _ => rfl, fun _ => rfl⟩
    · exact fun _ => rfl
  · refine ⟨fun _ => rfl, edits_when _ _ _ fun _ => fun _ => trivial, edits_when _ _ _ fun s => ⟨fun _ => rfl, edits_each _ _ _ fun _ => ?_, trivial, trivial⟩,
      edits_when _ _ _ fun _ => trivial, trivial⟩
    exact fun _ => trivial

theorem raiseFaultIn_editsIn (p tag a k : Nat) (mark : Bool) (f : FaultRec) : (raiseFaultIn p tag a k mark f).edits (FaultEditIn p) :=
  fun _ => ⟨trivial, edits_when _ _ _ fun _ => trivial, recordFault_editsIn _ _, trivial⟩

/-- A fault of one partition leaves the clock and every other partition as they are. -/
theorem raiseFaultIn_other {p q : Nat} (h : q ≠ p) (tag a k : Nat) (mark : Bool) (f : FaultRec) (s : State) :
    ((raiseFaultIn p tag a k mark f).run s).now = s.now ∧ ((raiseFaultIn p tag a k mark f).run s).part q = s.part q := by
  refine edits_keep (FaultEditIn p) (fun t => t.now = s.now ∧ t.part q = s.part q) ?_ _ (raiseFaultIn_editsIn ..) s ⟨rfl, rfl⟩
  rintro e he t ⟨hnow, hpart⟩
  cases e with
  | part k v => exact ⟨hnow, (smGet_smSet_other _ _ _ _ _ ((he : k = p) ▸ h)).trans hpart⟩
  | ctx | due | free => exact ⟨hnow, hpart⟩
  | _ => exact he.elim

/-- The edits of a plan that only puts acts on the agenda and draws free values. -/
def AgendaEdit : Edit → Prop
  | .due _ | .free _ => True
  | _ => False

theorem agendaEdits_part {pl : Plan} (h : pl.edits AgendaEdit) (s : State) (p : Nat) : (pl.run s).part p = s.part p := by
  refine edits_keep AgendaEdit (fun t => t.part p = s.part p) ?_ _ h s rfl
  intro e he t ht
  cases e with
  | due | free => exact ht
  | _ => exact he.elim

theorem raiseLeash_part (p : Nat) (s : State) : ((raiseLeash p).run s).part p = { s.part p with leash := true } := by
  rw [raiseLeash, run_get, run_all_cons, modPart_run, agendaEdits_part, withPart_part]
  exact ⟨edits_each _ _ _ fun _ _ => trivial, trivial, trivial⟩

/-- The first fault of a partition becomes its primary one and its leash is up (R356, R359); under the leash of a HALT only a fault 0x90 is recorded (R375, R400). -/
theorem recordFault_first {s : State} {p : Nat} {f : FaultRec} (hnone : (s.part p).faults = []) (hcounts : (s.part p).byHalt = false ∨ f.code = 0x90) :
    ((recordFault p f).run s).part p = { s.part p with faults := [{ f with primary := true }], leash := true } := by
  have hkept : ((s.part p).byHalt && f.code != 0x90) = false := by
    obtain h | h := hcounts <;> simp [h]
  have hfile : fileFault f [] = [{ f with primary := true }] := rfl
  have hpost : ∀ c, (Plan.when c (postFaultEvent p)).edits AgendaEdit := fun c => edits_when _ _ _ fun _ _ => trivial
  have hstop : ∀ c, (Plan.when c (atTick s.now rankEnd none {} (.micro (.enginesStop p 0 0)))).edits AgendaEdit := fun c =>
    edits_when _ _ _ fun _ => trivial
  simp only [recordFault, run_get, hkept, Bool.false_eq_true, if_false, hnone, List.find?_nil, run_all_cons, run_all_nil]
  rw [agendaEdits_part (hstop _)]
  cases hleash : (s.part p).leash with
  | false => rw [Bool.not_false, run_when_true, raiseLeash_part, agendaEdits_part (hpost _), modPart_run, withPart_part, hnone, hfile]
  | true => rw [Bool.not_true, run_when_false, agendaEdits_part (hpost _), modPart_run, withPart_part, hnone, hfile, ← hleash]

/-- What taking such a fault leaves of the partition. -/
theorem raiseFaultIn_first {s : State} {p : Nat} {f : FaultRec} (tag a k : Nat) (hnone : (s.part p).faults = [])
    (hcounts : (s.part p).byHalt = false ∨ f.code = 0x90) :
    let v := ((raiseFaultIn p tag a k false f).run s).part p
    v.leash = true ∧ ∃ g ∈ v.faults, g.code = f.code ∧ g.sub = f.sub ∧ g.primary = true ∧ g.fgt = s.now := by
  simp only [raiseFaultIn, run_get, run_all_cons, run_all_nil, run_edit, run_when_false]
  rw [recordFault_first (s := (Edit.free (s.free + 1)).apply s) hnone]
  · exact ⟨rfl, _, List.mem_singleton_self _, rfl, rfl, rfl, rfl⟩
  · exact hcounts

/-- A fault in each of a list of partitions. -/
def faultEach (ps : List Nat) (tag a k : Nat → Nat) (f : Nat → FaultRec) : Plan := Plan.each ps fun p => raiseFaultIn p (tag p) (a p) (k p) false (f p)

theorem faultEach_other {ps : List Nat} {p : Nat} (h : p ∉ ps) (tag a k : Nat → Nat) (f : Nat → FaultRec) (s : State) :
    ((faultEach ps tag a k f).run s).part p = s.part p := by
  induction ps generalizing s with
  | nil => rfl
  | cons q qs ih =>
    rw [faultEach, run_each_cons]
    exact (ih (List.not_mem_of_not_mem_cons h) _).trans (raiseFaultIn_other (List.ne_of_not_mem_cons h) ..).2

/-- Of faults in distinct partitions, each meets its own partition as it was before all of them. -/
theorem faultEach_part {ps : List Nat} {p : Nat} (hnodup : ps.Nodup) (hp : p ∈ ps) (tag a k : Nat → Nat) (f : Nat → FaultRec) (s : State) :
    ∃ u : State, u.now = s.now ∧ u.part p = s.part p ∧
      ((faultEach ps tag a k f).run s).part p = ((raiseFaultIn p (tag p) (a p) (k p) false (f p)).run u).part p := by
  induction ps generalizing s with
  | nil => exact absurd hp List.not_mem_nil
  | cons q qs ih =>
    obtain ⟨hq, hnodup⟩ := List.nodup_cons.1 hnodup
    rw [faultEach, run_each_cons]
    obtain rfl | hp := List.mem_cons.1 hp
    · exact ⟨s, rfl, rfl, faultEach_other hq tag a k f _⟩
    · obtain ⟨hnow, hpart⟩ := raiseFaultIn_other (ne_of_mem_of_not_mem hp hq) (tag q) (a q) (k q) false (f q) s
      obtain ⟨u, hnow', hpart', hrun⟩ := ih hnodup hp ((raiseFaultIn q (tag q) (a q) (k q) false (f q)).run s)
      exact ⟨u, hnow'.trans hnow, hpart'.trans hpart, hrun⟩

/-! ## The thermal ladder (R384) -/

/-- The state once the host has been told of a thermal event (R398). -/
def thermalTold (s : State) (info : Nat) : State :=
  withMod s { s.mod with outputs := s.mod.outputs ++ [.event 0xFF 3 (eventBody 0xFF 0 0 info s.now 0 0)] }

theorem moduleEvent_run (info : Nat) (s : State) : (moduleEvent 3 info).run s = thermalTold s info := rfl

/-- The tower once a trip acts: a higher trip that stands, stands on. -/
def tripped (trip : Nat) (v : Tower) : Tower := { v with trip := max v.trip trip }

theorem tripActs_run_low {trip : Nat} (h : trip < 2) (t : Nat) (s : State) : (tripActs trip t).run s = withTower s t (tripped trip (s.tower t)) := by
  rw [tripActs, run_both, run_get, decide_eq_false (Nat.not_le.2 h), Bool.false_and, run_when_false]
  rfl

/-- From trip 2 on the tower's ticks are stretched, where they are not already. -/
theorem tripActs_run_high {trip : Nat} (h : 2 ≤ trip) (t : Nat) (s : State) :
    let u := withTower s t (tripped trip (s.tower t))
    (tripActs trip t).run s = if stretching s t then u else laterAct u 1 rankInput { arr := t * 8, a := t, c := 1 } (.instr .clockStretch) := by
  have hsame : stretching (withTower s t (tripped trip (s.tower t))) t = stretching s t := rfl
  rw [tripActs, run_both, run_get, modTower_run, decide_eq_true h, Bool.true_and]
  change (Plan.when (!stretching (withTower s t (tripped trip (s.tower t))) t) _).run _ = _
  rw [hsame]
  cases stretching s t with
  | false => exact afterAt_run ..
  | true => rfl

theorem tripActs_frame (trip t : Nat) (s : State) :
    ∃ ds, (tripActs trip t).run s = { withTower s t (tripped trip (s.tower t)) with due := ds } := by
  obtain h | h := Nat.lt_or_ge trip 2
  · exact ⟨_, tripActs_run_low h t s⟩
  · rw [tripActs_run_high h]
    split <;> exact ⟨_, rfl⟩

theorem exec_thermalTrip1 (s : State) :
    exec .thermalTrip1 s = .next (thermalTold (withTower s s.site.a (tripped 1 (s.tower s.site.a))) (1 + 256 * s.site.a + 65536)) := by
  refine congrArg Host.Outcome.next ?_
  rw [run_get, run_both, tripActs_run_low (by decide), moduleEvent_run]
  rfl

theorem exec_thermalTrip2 (s : State) :
    let u := withTower s s.site.a (tripped 2 (s.tower s.site.a))
    exec .thermalTrip2 s = .next (thermalTold (if stretching s s.site.a then u else
      laterAct u 1 rankInput { arr := s.site.a * 8, a := s.site.a, c := 1 } (.instr .clockStretch)) (2 + 256 * s.site.a + 65536)) := by
  refine congrArg Host.Outcome.next ?_
  rw [run_get, run_both, tripActs_run_high (Nat.le_refl 2), moduleEvent_run]
  rfl

/-- Trip 3's fault in one partition (R375, R384). -/
def tripFault (s : State) (p : Nat) : FaultRec := { kind := 1, unit := firstArray s p, ctx := 0xFF, code := 0x90, sub := 3 }

/-- Trip 3's faults, one in every live partition. -/
def tripFaults (s : State) : Plan :=
  faultEach ((List.range 16).filter fun p => (s.part p).live) (fun _ => 0) (firstArray s) (fun _ => 0) (tripFault s)

theorem exec_thermalTrip3 (s : State) : exec .thermalTrip3 s = .next ((tripFaults s).run ((tripActs 3 s.site.a).run s)) := rfl

theorem tripFaults_frame (s t : State) :
    ∃ ps cs ds n, (tripFaults s).run t = { t with parts := ps, ctxs := cs, due := ds, free := n } :=
  ⟨_, _, _, _, faultEdits_frame (tripFaults s) (edits_each _ _ _ fun _ => raiseFaultIn_edits _ _ _ _ _ _) t⟩

theorem tripFaults_part {s t : State} {p : Nat} (hp : p < 16) (hlive : (s.part p).live = true) (hnone : (t.part p).faults = []) :
    let v := ((tripFaults s).run t).part p
    v.leash = true ∧ ∃ f ∈ v.faults, f.code = 0x90 ∧ f.sub = 3 ∧ f.primary = true ∧ f.fgt = t.now := by
  have hmem : p ∈ (List.range 16).filter fun p => (s.part p).live := List.mem_filter.2 ⟨List.mem_range.2 hp, hlive⟩
  obtain ⟨u, hnow, hpart, hrun⟩ := faultEach_part (List.nodup_range.filter _) hmem (fun _ => 0) (firstArray s) (fun _ => 0) (tripFault s) t
  dsimp only
  rw [tripFaults, hrun, ← hnow]
  exact raiseFaultIn_first _ _ _ (hpart ▸ hnone) (.inr rfl)

theorem exec_thermalTripClear_low {s : State} (h : s.site.b = 1 ∨ s.site.b = 2) :
    exec .thermalTripClear s = .next (thermalTold (withTower s s.site.a { s.tower s.site.a with trip := min (s.tower s.site.a).trip (s.site.b - 1) })
      (s.site.b + 256 * s.site.a)) := by
  have htells : (decide (1 ≤ s.site.b) && decide (s.site.b ≤ 2)) = true := by
    obtain h | h := h <;> rw [h] <;> rfl
  refine congrArg Host.Outcome.next ?_
  rw [run_get, run_both, htells]
  rfl

theorem exec_thermalTripClear_three {s : State} (h : s.site.b = 3) :
    exec .thermalTripClear s = .next (withTower s s.site.a { s.tower s.site.a with trip := min (s.tower s.site.a).trip 2 }) := by
  refine congrArg Host.Outcome.next ?_
  rw [run_get, run_both, h]
  rfl

/-! ## Stretched ticks (R385) -/

theorem insertDue_perm (d : Due) (ds : List Due) : (insertDue d ds).Perm (d :: ds) := by
  induction ds with
  | nil => exact .refl _
  | cons e rest ih =>
    rw [insertDue]
    split
    · exact (ih.cons e).trans (.swap d e rest)
    · exact .refl _

theorem foldl_insertDue_perm (ds acc : List Due) : (ds.foldl (fun l d => insertDue d l) acc).Perm (ds ++ acc) := by
  induction ds generalizing acc with
  | nil => exact .refl _
  | cons d rest ih =>
    rw [List.foldl_cons]
    exact (ih _).trans (((insertDue_perm d acc).append_left rest).trans List.perm_middle)

/-- An act as it is due once a tick more of tower `t` has been gathered. -/
def delayed (t : Nat) (d : Due) : Due := if d.dom = some t then { d with tick := d.tick + 1 } else d

/-- The agenda with a tower delayed holds just the acts it held, those of the tower a tick later. -/
theorem delayTower_perm (t : Nat) (ds : List Due) : (delayTower t ds).Perm (ds.map (delayed t)) := by
  have hmap : (ds.map fun d => if d.dom == some t then { d with tick := d.tick + 1 } else d) = ds.map (delayed t) :=
    List.map_congr_left fun d _ => by simp only [delayed, beq_iff_eq]
  rw [delayTower, hmap]
  exact (foldl_insertDue_perm _ []).trans (.of_eq (List.append_nil _))

/-- The thousandths of a global tick that the present tick of tower `t` is longer already. -/
def stretchUsed (s : State) (t : Nat) : Nat := if (s.tower t).stretched.1 = s.ttick t then (s.tower t).stretched.2 else 0

/-- The thousandths of a global tick by which `n` more lengthen the present tick of tower `t`: a tick gathers at most 126. -/
def stretchBy (s : State) (t n : Nat) : Nat := min n (126 - stretchUsed s t)

theorem stretchBy_le (s : State) (t n : Nat) : stretchBy s t n ≤ 126 := Nat.le_trans (Nat.min_le_right ..) (Nat.sub_le ..)

/-- The present tick of tower `t` with what has lengthened it, `n` more included. -/
def stretchNote (s : State) (t n : Nat) : Nat × Nat := (s.ttick t, stretchUsed s t + stretchBy s t n)

theorem stretchTick_run_part {s : State} {t n : Nat} (h : (s.tower t).lagFrac + stretchBy s t n < 1000) :
    (stretchTick t n).run s
      = withTower s t { s.tower t with lagFrac := (s.tower t).lagFrac + stretchBy s t n, stretched := stretchNote s t n } :=
  (congrArg (fun p : Plan => p.run s) (if_pos h)).trans rfl

/-- The tower once its tick has gathered a whole global tick. -/
def stretchedWhole (s : State) (t n : Nat) : Tower :=
  let v := s.tower t
  { v with lagFrac := v.lagFrac + stretchBy s t n - 1000, lag := v.lag + 1, stretched := stretchNote s t n }

/-- A whole tick gathered: every act of the tower to come moves by it. -/
theorem stretchTick_run_whole {s : State} {t n : Nat} (h : 1000 ≤ (s.tower t).lagFrac + stretchBy s t n) :
    (stretchTick t n).run s = { withTower s t (stretchedWhole s t n) with due := delayTower t s.due } :=
  (congrArg (fun p : Plan => p.run s) (if_neg (Nat.not_lt.2 h))).trans rfl

/-- However much a tick is stretched: what it gathers stands in the tower's lag, and each act to come is still due, at most a tick later. -/
theorem stretchTick_gathers (s : State) (t n : Nat) :
    let u := (stretchTick t n).run s
    u.mem = s.mem ∧ u.ctxs = s.ctxs ∧ 1000 * (u.tower t).lag + (u.tower t).lagFrac = 1000 * (s.tower t).lag + (s.tower t).lagFrac + stretchBy s t n ∧
      ∀ d ∈ s.due, d ∈ u.due ∨ { d with tick := d.tick + 1 } ∈ u.due := by
  obtain h | h := Nat.lt_or_ge ((s.tower t).lagFrac + stretchBy s t n) 1000
  · rw [stretchTick_run_part h]
    refine ⟨rfl, rfl, ?_, fun d hd => .inl hd⟩
    rw [withTower_tower]
    exact (Nat.add_assoc ..).symm
  · rw [stretchTick_run_whole h]
    refine ⟨rfl, rfl, ?_, fun d hd => ?_⟩
    · have hgathered : 1000 * (stretchedWhole s t n).lag + (stretchedWhole s t n).lagFrac
          = 1000 * (s.tower t).lag + (s.tower t).lagFrac + stretchBy s t n := by
        simp only [stretchedWhole]
        omega
      exact (congrArg (fun v : Tower => 1000 * v.lag + v.lagFrac) (withTower_tower s t (stretchedWhole s t n))).trans hgathered
    · have hmem : delayed t d ∈ delayTower t s.due := (delayTower_perm t s.due).mem_iff.2 (List.mem_map_of_mem hd)
      rw [delayed] at hmem
      split at hmem
      · exact .inr hmem
      · exact .inl hmem

theorem exec_clockStretch_by {s : State} (h : s.site.c ≠ 1) : exec .clockStretch s = .next ((stretchTick s.site.a s.site.b).run s) := by
  refine congrArg Host.Outcome.next ?_
  rw [run_get]
  exact congrArg (fun p : Plan => p.run s) (if_pos h)

theorem exec_clockStretch_cleared {s : State} (h : s.site.c = 1) (hcleared : (s.tower s.site.a).trip < 2) : exec .clockStretch s = .next s := by
  refine congrArg Host.Outcome.next ?_
  rw [run_get]
  dsimp only
  rw [if_neg (not_not_intro h), decide_eq_false (Nat.not_le.2 hcleared), run_when_false]

/-- The state whose tick trip 2 stretches: its next stretch is due, and a free value has been drawn. -/
def stretchAgain (s : State) : State := { laterAct s 1 rankInput s.site (.instr .clockStretch) with free := s.free + 1 }

theorem exec_clockStretch_trip {s : State} (h : s.site.c = 1) (hstands : 2 ≤ (s.tower s.site.a).trip) :
    exec .clockStretch s = .next ((stretchTick s.site.a (Config.freeUpTo s.free 126)).run (stretchAgain s)) := by
  refine congrArg Host.Outcome.next ?_
  rw [run_get]
  dsimp only
  rw [if_neg (not_not_intro h), decide_eq_true hstands, run_when_true, run_both, afterAt_run]
  rfl

/-! ## The slice rails (R200) -/

/-- A rail once the move that ends at `c` has ended. -/
def settledRail (c : Nat) (r : Rail) : Rail := if r.moving == some c then { r with level := r.target, moving := none } else r

theorem settledRail_moving {c : Nat} {r : Rail} (h : r.moving = some c) : settledRail c r = { r with level := r.target, moving := none } :=
  if_pos (beq_iff_eq.2 h)

theorem exec_sliceRailSettle (s : State) :
    let v := s.arr s.site.arr
    exec .sliceRailSettle s = .next (withArr s s.site.arr
      (if s.site.b = 1 then { v with ls1 := settledRail s.site.c v.ls1 } else { v with ls2 := settledRail s.site.c v.ls2 })) := rfl

/-- Settles O46: the ladder event by event, then the stretched ticks by what starts them, then the two rails. -/
theorem heatAndClocks : Obligations.HeatAndClocks := by
  unfold Obligations.HeatAndClocks
  intro s a b v told
  refine ⟨exec_thermalTrip1 s, exec_thermalTrip2 s, ?trip3, exec_thermalTripClear_low, exec_thermalTripClear_three, ?stretched, ?cleared, ?stands, ?one, ?two⟩
  case trip3 =>
    obtain ⟨ds, hacts⟩ := tripActs_frame 3 a s
    obtain ⟨ps, cs, ds', n, hfaults⟩ := tripFaults_frame s { withTower s a (tripped 3 v) with due := ds }
    refine ⟨_, (exec_thermalTrip3 s).trans (congrArg (fun u => Host.Outcome.next ((tripFaults s).run u)) hacts), ?_, ?_, ?_, ?_, fun p hp hlive hnone => ?_⟩
    · exact (congrArg State.mem hfaults).trans rfl
    · exact (congrArg State.arrs hfaults).trans rfl
    · exact (congrArg State.banks hfaults).trans rfl
    · exact (congrArg (fun u : State => (u.tower a).trip) hfaults).trans (congrArg Tower.trip (withTower_tower ..))
    · exact tripFaults_part (t := { withTower s a (tripped 3 v) with due := ds }) hp hlive hnone
  case stretched =>
    refine ⟨fun hc hpart => ?_, fun hc hwhole => ?_⟩
    · rw [exec_clockStretch_by hc, stretchTick_run_part hpart]
      rfl
    · refine ⟨_, (exec_clockStretch_by hc).trans (congrArg Host.Outcome.next (stretchTick_run_whole hwhole)), rfl, withTower_tower .., ?_, fun d hd => ?_⟩
      · exact (delayTower_perm a s.due).length_eq.trans (List.length_map _)
      · exact (delayTower_perm a s.due).mem_iff.2 (List.mem_map_of_mem hd)
  case cleared => exact exec_clockStretch_cleared
  case stands =>
    intro hc hstands
    obtain ⟨hmem, hctxs, hlag, hdue⟩ := stretchTick_gathers (stretchAgain s) a (Config.freeUpTo s.free 126)
    refine ⟨_, stretchBy (stretchAgain s) a (Config.freeUpTo s.free 126), exec_clockStretch_trip hc hstands, hmem, hctxs, stretchBy_le .., hlag, ?_⟩
    obtain h | h := hdue _ ((mem_insertDue _ _ _).2 (.inl rfl))
    · exact ⟨_, h, rfl, rfl, Nat.le_refl _, Nat.le_succ _⟩
    · exact ⟨_, h, rfl, rfl, Nat.le_succ _, Nat.le_refl _⟩
  case one =>
    intro r hb hmoving
    rw [exec_sliceRailSettle, if_pos hb, settledRail_moving hmoving]
  case two =>
    intro r hb hmoving
    rw [exec_sliceRailSettle, if_neg hb, settledRail_moving hmoving]

end Sys2Proof.Laws
end

-- The family 10_kennels.md: O53.
section

/-! What the data port, the loader's row write, the actions on kennel entries and the arrivals at barrier objects do, over the bytes that a write of a
memory leaves. -/

namespace Sys2Proof.Laws
open Sys2Proof.Machine Sys2Proof.Safety

/-! ## A plan for each of a list -/

theorem run_each_append {α : Type} (xs ys : List α) (f : α → Plan) (s : State) :
    (Plan.each (xs ++ ys) f).run s = (Plan.each ys f).run ((Plan.each xs f).run s) := by
  induction xs generalizing s with
  | nil => rfl
  | cons x xs ih => exact ih _

/-- What the plan of each element keeps, the plans in a row keep. -/
theorem each_keeps {α : Type} (P : State → Prop) {xs : List α} {f : α → Plan} (h : ∀ x ∈ xs, ∀ s, P s → P ((f x).run s)) {s : State} (hs : P s) :
    P ((Plan.each xs f).run s) := by
  induction xs generalizing s with
  | nil => exact hs
  | cons x xs ih => exact ih (fun y hy => h y (List.mem_cons_of_mem _ hy)) (h x List.mem_cons_self s hs)

/-! ## Bytes of the memories (R8, R227) -/

theorem getD_of_length_le {α : Type} {xs : List α} {n : Nat} (h : xs.length ≤ n) (d : α) : xs.getD n d = d := by
  rw [List.getD_eq_getElem?_getD, List.getElem?_eq_none h, Option.getD_none]

theorem getD_of_lt_length {α : Type} {xs : List α} {n : Nat} (h : n < xs.length) (d : α) : xs.getD n d = xs[n] := by
  rw [List.getD_eq_getElem?_getD, List.getElem?_eq_getElem h, Option.getD_some]

theorem spaceNum_injective {sp sp' : Space} (h : sp.num = sp'.num) : sp = sp' := by
  cases sp <;> cases sp' <;> simp [Space.num] at h ⊢

theorem memKey_eq_iff {sp sp' : Space} {a b : Nat} (ha : a < 2 ^ 80) (hb : b < 2 ^ 80) : memKey sp a = memKey sp' b ↔ sp = sp' ∧ a = b := by
  refine ⟨fun h => ?_, fun ⟨hsp, hab⟩ => by rw [hsp, hab]⟩
  rw [memKey, memKey, Nat.mod_eq_of_lt ha, Nat.mod_eq_of_lt hb] at h
  exact ⟨spaceNum_injective (by omega), by omega⟩

/-- A byte after a byte has been written. -/
theorem byte_writeByte {s : State} (hwf : Memory.wf s.mem = true) {sp sp' : Space} {a n : Nat} (ha : a < 2 ^ 80) (hn : n < 2 ^ 80) (v : Byte) :
    ((Edit.byte sp a v).apply s).byte sp' n = if sp' = sp ∧ n = a then v else s.byte sp' n := by
  rw [State.byte, edit_byte_mem]
  split
  · next h => rw [(memKey_eq_iff hn ha).2 h, memGet_memSet_same _ _ _ hwf]
  · next h => exact memGet_memSet_other _ _ _ _ fun hkey => h ((memKey_eq_iff hn ha).1 hkey)

theorem byte_congr {s t : State} (h : t.mem = s.mem) (sp : Space) (n : Nat) : t.byte sp n = s.byte sp n := by rw [State.byte, h, State.byte]

theorem writeBytes_nil (sp : Space) (a : Nat) (s : State) : (writeBytes sp a []).run s = s := rfl

theorem writeBytes_cons (sp : Space) (a : Nat) (b : Byte) (bs : List Byte) (s : State) :
    (writeBytes sp a (b :: bs)).run s = (writeBytes sp (a + 1) bs).run ((Edit.byte sp a b).apply s) := by
  simp only [writeBytes, List.zipIdx_cons', List.map_cons, List.map_map, run_all_cons, run_edit, Nat.add_zero]
  refine congrArg (fun ps => (Plan.all ps).run _) (List.map_congr_left fun x _ => ?_)
  exact congrArg (fun k => Plan.edit (.byte sp k x.1)) (by simp only [Prod.map_snd]; omega)

/-- Bytes written change nothing but memory. -/
theorem writeBytes_frame (sp : Space) (a : Nat) (bs : List Byte) (s : State) :
    (writeBytes sp a bs).run s = { s with mem := ((writeBytes sp a bs).run s).mem } := by
  induction bs generalizing a s with
  | nil => rfl
  | cons b bs ih =>
    rw [writeBytes_cons]
    exact (ih (a + 1) _).trans rfl

/-- A byte after bytes have been written: those of the list in its span, what it was elsewhere. -/
theorem byte_writeBytes {s : State} (hwf : Memory.wf s.mem = true) {sp sp' : Space} {a n : Nat} {bs : List Byte} (ha : a + bs.length ≤ 2 ^ 80)
    (hn : n < 2 ^ 80) :
    ((writeBytes sp a bs).run s).byte sp' n = if sp' = sp ∧ a ≤ n then bs.getD (n - a) (s.byte sp' n) else s.byte sp' n := by
  induction bs generalizing a s with
  | nil => rw [writeBytes_nil, getD_of_length_le (Nat.zero_le _), ite_self]
  | cons b bs ih =>
    rw [List.length_cons] at ha
    rw [writeBytes_cons, ih (apply_wf _ s hwf) (by omega), byte_writeByte hwf (by omega) hn]
    by_cases hsp : sp' = sp
    · subst hsp
      simp only [eq_self, true_and]
      obtain hlt | rfl | hgt := Nat.lt_trichotomy n a
      · rw [if_neg (show ¬ a + 1 ≤ n by omega), if_neg (show ¬ n = a by omega), if_neg (show ¬ a ≤ n by omega)]
      · rw [if_neg (Nat.not_succ_le_self n), if_pos rfl, if_pos (Nat.le_refl n), Nat.sub_self, List.getD_cons_zero]
      · rw [if_pos (show a + 1 ≤ n by omega), if_neg (show ¬ n = a by omega), if_pos (show a ≤ n by omega), show n - a = n - (a + 1) + 1 by omega,
          List.getD_cons_succ]
    · simp only [hsp, false_and, if_false]

theorem natBytes_length (n v : Nat) : (natBytes n v).length = n := by
  induction n generalizing v with
  | zero => rfl
  | succ n ih => exact congrArg (· + 1) (ih _)

theorem leNat_natBytes (n v : Nat) : leNat (natBytes n v) = v % 256 ^ n := by
  induction n generalizing v with
  | zero => simp [natBytes, leNat, Nat.mod_one]
  | succ n ih =>
    have hcons : leNat (natBytes (n + 1) v) = v % 256 + 256 * leNat (natBytes n (v / 256)) := by simp [natBytes, leNat]
    rw [hcons, ih, Nat.pow_succ', Nat.mod_mul]

/-- The bytes of a span are those of a list that stands there. -/
theorem bytes_eq {s : State} {sp : Space} {a : Nat} {bs : List Byte} (h : ∀ i (hi : i < bs.length), s.byte sp (a + i) = bs[i]) :
    s.bytes sp a bs.length = bs :=
  List.ext_getElem (by simp [State.bytes]) fun i _ hi => by simp [State.bytes, h i hi]

/-! ## Writes of the scratchpad (R208, R227) -/

/-- Two states that differ only in what a write of the scratchpad changes: memory, good lines, lines mirrored and watch ranges. -/
structure SameButScratch (s t : State) : Prop where
  frame : t = { s with mem := t.mem, towers := t.towers, parts := t.parts, marks := t.marks }
  tower : ∀ k, ∃ m, t.tower k = { s.tower k with spares := m }
  part : ∀ p, ∃ w ws, t.part p = { s.part p with watch := w, watchAt := ws }

theorem SameButScratch.refl (s : State) : SameButScratch s s := ⟨rfl, fun _ => ⟨_, rfl⟩, fun _ => ⟨_, _, rfl⟩⟩

theorem SameButScratch.trans {s t u : State} (h : SameButScratch s t) (h' : SameButScratch t u) : SameButScratch s u := by
  refine ⟨by rw [h'.frame, h.frame], fun k => ?_, fun p => ?_⟩
  · obtain ⟨m, hm⟩ := h.tower k
    obtain ⟨m', hm'⟩ := h'.tower k
    exact ⟨m', by rw [hm', hm]⟩
  · obtain ⟨w, ws, hw⟩ := h.part p
    obtain ⟨w', ws', hw'⟩ := h'.part p
    exact ⟨w', ws', by rw [hw', hw]⟩

/-- What a change may leave undone is of the same kind. -/
theorem SameButScratch.ite {s t : State} (h : SameButScratch s t) (c : Bool) : SameButScratch s (if c then t else s) := by
  cases c with
  | false => exact .refl s
  | true => exact h

theorem SameButScratch.ctxs {s t : State} (h : SameButScratch s t) : t.ctxs = s.ctxs := by rw [h.frame]
theorem SameButScratch.banks {s t : State} (h : SameButScratch s t) : t.banks = s.banks := by rw [h.frame]
theorem SameButScratch.due {s t : State} (h : SameButScratch s t) : t.due = s.due := by rw [h.frame]

theorem withTower_other {k j : Nat} (h : j ≠ k) (s : State) (v : Tower) : (withTower s k v).tower j = s.tower j := smGet_smSet_other _ _ _ _ _ h
theorem withPart_other {k j : Nat} (h : j ≠ k) (s : State) (v : Part) : (withPart s k v).part j = s.part j := smGet_smSet_other _ _ _ _ _ h

theorem writeBytes_sameButScratch (sp : Space) (a : Nat) (bs : List Byte) (s : State) : SameButScratch s ((writeBytes sp a bs).run s) := by
  rw [writeBytes_frame]
  exact ⟨rfl, fun _ => ⟨_, rfl⟩, fun _ => ⟨_, _, rfl⟩⟩

/-- A line made good again changes nothing but the marks. -/
theorem unmark_frame (kind sh lo n : Nat) (s : State) : ∃ ms, (unmark kind sh lo n).run s = { s with marks := ms } := by
  rw [unmark, run_get, run_when]
  split <;> exact ⟨_, rfl⟩

theorem unmark_sameButScratch (kind sh lo n : Nat) (s : State) : SameButScratch s ((unmark kind sh lo n).run s) := by
  obtain ⟨ms, hms⟩ := unmark_frame kind sh lo n s
  rw [hms]
  exact ⟨rfl, fun _ => ⟨_, rfl⟩, fun _ => ⟨_, _, rfl⟩⟩

theorem mirrorWrite_keeps (a n : Nat) (s : State) : SameButScratch s ((mirrorWrite a n).run s) ∧ ((mirrorWrite a n).run s).mem = s.mem := by
  rw [mirrorWrite, run_get, run_when]
  split
  · rw [modTower_run]
    refine ⟨⟨rfl, fun k => ?_, fun _ => ⟨_, _, rfl⟩⟩, rfl⟩
    by_cases hk : k = a / 2 ^ 31
    · rw [hk, withTower_tower]
      exact ⟨_, rfl⟩
    · exact ⟨_, withTower_other hk ..⟩
  · exact ⟨.refl s, rfl⟩

theorem bumpWatch_keeps (p space tower lo n : Nat) (w : WriteId) (s : State) :
    SameButScratch s ((bumpWatch p space tower lo n w).run s) ∧ ((bumpWatch p space tower lo n w).run s).mem = s.mem := by
  rw [bumpWatch, run_get, run_when]
  split
  · rw [modPart_run]
    refine ⟨⟨rfl, fun _ => ⟨_, rfl⟩, fun q => ?_⟩, rfl⟩
    by_cases hq : q = p
    · rw [hq, withPart_part]
      exact ⟨_, _, rfl⟩
    · exact ⟨_, _, withPart_other hq ..⟩
  · exact ⟨.refl s, rfl⟩

/-- A write of the scratchpad leaves of memory what its bytes leave, and changes else only what its mirroring, its good lines and its watch ranges take. -/
theorem scratchWrite_keeps (a : Nat) (bs : List Byte) (w : WriteId) (s : State) :
    SameButScratch s ((scratchWrite a bs w).run s) ∧ ((scratchWrite a bs w).run s).mem = ((writeBytes .scratch a bs).run s).mem := by
  have hbytes := writeBytes_sameButScratch .scratch a bs s
  obtain ⟨hmirror, hmirrorMem⟩ := mirrorWrite_keeps a bs.length ((writeBytes .scratch a bs).run s)
  obtain ⟨ms, hms⟩ := unmark_frame 2 6 a bs.length ((mirrorWrite a bs.length).run ((writeBytes .scratch a bs).run s))
  have hmark := unmark_sameButScratch 2 6 a bs.length ((mirrorWrite a bs.length).run ((writeBytes .scratch a bs).run s))
  rw [scratchWrite, run_get, run_both, run_both, run_both]
  refine each_keeps (fun t => SameButScratch s t ∧ t.mem = ((writeBytes .scratch a bs).run s).mem) (fun p _ t ht => ?_) ⟨?_, ?_⟩
  · obtain ⟨hsame, hmem⟩ := bumpWatch_keeps p 1 (a / 2 ^ 31) (a % 2 ^ 31 - smGet 0 (s.part p).wbase (a / 2 ^ 31)) bs.length w t
    exact ⟨ht.1.trans hsame, hmem.trans ht.2⟩
  · exact (hbytes.trans hmirror).trans hmark
  · rw [hms, ← hmirrorMem]

/-- A byte after a write of the scratchpad. -/
theorem byte_scratchWrite {s : State} (hwf : Memory.wf s.mem = true) {sp : Space} {a n : Nat} {bs : List Byte} (ha : a + bs.length ≤ 2 ^ 80)
    (hn : n < 2 ^ 80) (w : WriteId) :
    ((scratchWrite a bs w).run s).byte sp n = if sp = .scratch ∧ a ≤ n then bs.getD (n - a) (s.byte sp n) else s.byte sp n := by
  rw [byte_congr (scratchWrite_keeps a bs w s).2]
  exact byte_writeBytes hwf ha hn

/-! ## The data port (R225, R227) -/

/-- Two states between which lines of a data port have performed: no line is presented or taken, and no act leaves the agenda. -/
structure PortStep (s t : State) : Prop where
  frame : t = { s with mem := t.mem, towers := t.towers, parts := t.parts, marks := t.marks, due := t.due }
  lines : ∀ k, (t.tower k).lines = (s.tower k).lines
  due : ∀ d ∈ s.due, d ∈ t.due

theorem PortStep.refl (s : State) : PortStep s s := ⟨rfl, fun _ => rfl, fun _ hd => hd⟩

theorem PortStep.trans {s t u : State} (h : PortStep s t) (h' : PortStep t u) : PortStep s u :=
  ⟨by rw [h'.frame, h.frame], fun k => (h'.lines k).trans (h.lines k), fun d hd => h'.due d (h.due d hd)⟩

theorem PortStep.now {s t : State} (h : PortStep s t) : t.now = s.now := by rw [h.frame]
theorem PortStep.ctxs {s t : State} (h : PortStep s t) : t.ctxs = s.ctxs := by rw [h.frame]
theorem PortStep.banks {s t : State} (h : PortStep s t) : t.banks = s.banks := by rw [h.frame]
theorem PortStep.arrs {s t : State} (h : PortStep s t) : t.arrs = s.arrs := by rw [h.frame]

theorem SameButScratch.portStep {s t : State} (h : SameButScratch s t) : PortStep s t := by
  refine ⟨by rw [h.frame], fun k => ?_, fun d hd => h.due ▸ hd⟩
  obtain ⟨m, hm⟩ := h.tower k
  rw [hm]

/-- An act put in is a step of the port. -/
theorem PortStep.insert (s : State) (d : Due) : PortStep s { s with due := insertDue d s.due } :=
  ⟨rfl, fun _ => rfl, fun _ he => (mem_insertDue _ _ _).2 (.inr he)⟩

/-- What a line that performs at tower tick `u` books of its waits. -/
def lineBooks (u : Nat) (l : LineReq) : Plan :=
  Plan.when (decide (0 < lineWaits l u) && decide (l.tag < 2 ^ 64)) (modAccount l.part l.tag fun a => { a with conflict := a.conflict + lineWaits l u })

/-- What a line that performs writes at once: the writes of the tower's own domain do (R227). -/
def lineWrites (l : LineReq) : Plan :=
  match l.use with
  | .srow _ _ _ _ data | .walkWrite _ _ _ data | .copyWrite _ _ data => scratchWrite l.addr data
  | _ => .skip

/-- The rank of what follows a line that performs: a read comes after the writes of the tower's own domain, an off-domain write after the reads (R227, R284). -/
def lineRank (l : LineReq) : Nat :=
  match l.use with
  | .srow .. | .walkWrite .. | .copyWrite .. => rankPort
  | .dynWrite .. | .landing .. | .mpLanding .. | .report .. | .peerWrite .. | .hostWrite .. => rankEnd
  | _ => rankPortRead

/-- What follows a line that performs: its read, or what its write sets off. -/
def lineFollows (l : LineReq) : Act := if l.use.isRead then .micro (.lineRead l.addr l.use) else .micro (.lineWritten l.use)

/-- The act that follows a line of tower `t`, due at the tick it performs at. -/
def lineDue (t : Nat) (s : State) (l : LineReq) : Due :=
  { tick := max 0 s.now, rank := lineRank l, dom := some t, site := { arr := l.arr }, act := lineFollows l }

theorem performLine_run (t u : Nat) (l : LineReq) (s : State) :
    (performLine t u l).run s = (atTick 0 (lineRank l) (some t) { arr := l.arr } (lineFollows l)).run ((lineWrites l).run ((lineBooks u l).run s)) := by
  simp only [performLine, lineBooks, lineWrites, lineRank, lineFollows]
  cases l.use <;> rfl

theorem lineWrites_read {l : LineReq} (h : l.use.isRead = true) : lineWrites l = .skip := by
  rw [lineWrites]
  revert h
  cases l.use <;> simp [LineUse.isRead]

theorem lineBooks_portStep (u : Nat) (l : LineReq) (s : State) : PortStep s ((lineBooks u l).run s) ∧ ((lineBooks u l).run s).mem = s.mem := by
  rw [lineBooks, run_when]
  split
  · rw [modAccount, modPart_run]
    exact ⟨⟨rfl, fun _ => rfl, fun _ hd => hd⟩, rfl⟩
  · exact ⟨.refl s, rfl⟩

theorem lineWrites_portStep (l : LineReq) (s : State) : PortStep s ((lineWrites l).run s) := by
  rw [lineWrites]
  split
  · exact (scratchWrite_keeps ..).1.portStep
  · exact (scratchWrite_keeps ..).1.portStep
  · exact (scratchWrite_keeps ..).1.portStep
  · exact .refl s

theorem performLine_portStep (t u : Nat) (l : LineReq) (s : State) : PortStep s ((performLine t u l).run s) := by
  rw [performLine_run, atTick_run]
  exact ((lineBooks_portStep u l s).1.trans (lineWrites_portStep l _)).trans (.insert _ _)

/-- A line that performs has its read or what follows its write due at that tick. -/
theorem performLine_due (t u : Nat) (l : LineReq) (s : State) : lineDue t s l ∈ ((performLine t u l).run s).due := by
  have hstep : PortStep s ((lineWrites l).run ((lineBooks u l).run s)) := (lineBooks_portStep u l s).1.trans (lineWrites_portStep l _)
  rw [performLine_run, atTick_run, hstep.now]
  exact (mem_insertDue _ _ _).2 (.inl rfl)

theorem performLine_read_mem (t u : Nat) {l : LineReq} (h : l.use.isRead = true) (s : State) : ((performLine t u l).run s).mem = s.mem := by
  rw [performLine_run, lineWrites_read h, run_skip, atTick_run]
  exact (lineBooks_portStep u l s).2

/-- The lines of a list perform one after the other, and each has what follows it due. -/
theorem each_performLine (t u : Nat) (ls : List LineReq) (s : State) :
    PortStep s ((Plan.each ls (performLine t u)).run s) ∧ ∀ l ∈ ls, lineDue t s l ∈ ((Plan.each ls (performLine t u)).run s).due := by
  have hstep : ∀ (ls : List LineReq) (s : State), PortStep s ((Plan.each ls (performLine t u)).run s) := fun ls s =>
    each_keeps (PortStep s) (fun l _ v hv => hv.trans (performLine_portStep t u l v)) (.refl s)
  refine ⟨hstep ls s, fun l hl => ?_⟩
  obtain ⟨pre, post, rfl⟩ := List.append_of_mem hl
  rw [run_each_append, run_each_cons]
  refine (hstep post _).due _ ?_
  have hdue := performLine_due t u l ((Plan.each pre (performLine t u)).run s)
  rwa [lineDue, (hstep pre s).now] at hdue

/-- The requests of a tower's port that perform at the present tick. -/
def portWins (s : State) (t : Nat) : List LineReq :=
  let ready := (s.tower t).lines.filter (lineReady s t (s.ttick t))
  ready.filter (lineWins ready)

/-- The requests of a tower's port that are left after the present tick. -/
def portLeft (s : State) (t : Nat) : List LineReq := (s.tower t).lines.filter fun l => !(portWins s t).contains l

/-- The state whose port has taken the requests that perform. -/
def portTaken (s : State) (t : Nat) : State :=
  withTower s t { s.tower t with lines := portLeft s t, portUse := (s.ttick t, (portWins s t).map fun l => lineBank l.addr) }

/-- The state whose port has performed. -/
def portPerformed (s : State) (t : Nat) : State := (Plan.each (portWins s t) (performLine t (s.ttick t))).run (portTaken s t)

/-- The port looks again a tick on while requests are left. -/
def portAgain (s : State) (t : Nat) : State :=
  if (s.tower t).lines.isEmpty then s else laterAct s 1 rankPort { arr := t * 8, a := t } (.instr .dataPortPerform)

theorem exec_dataPortPerform (s : State) : exec .dataPortPerform s = .next (portAgain (portPerformed s s.site.a) s.site.a) := by
  have hagain : ∀ v : State, (Plan.when (!(v.tower s.site.a).lines.isEmpty) (afterAt 1 rankPort { arr := s.site.a * 8, a := s.site.a }
      (.instr .dataPortPerform))).run v = portAgain v s.site.a := fun v => by
    rw [run_when, portAgain, afterAt_run]
    cases (v.tower s.site.a).lines.isEmpty <;> rfl
  exact congrArg Host.Outcome.next (hagain (portPerformed s s.site.a))

theorem portAgain_portStep (s : State) (t : Nat) : PortStep s (portAgain s t) := by
  rw [portAgain]
  split
  · exact .refl s
  · exact .insert s _

theorem portAgain_mem (s : State) (t : Nat) : (portAgain s t).mem = s.mem := by
  rw [portAgain]
  split <;> rfl

theorem portAgain_parts (s : State) (t : Nat) : (portAgain s t).parts = s.parts := by
  rw [portAgain]
  split <;> rfl

theorem portPerformed_none {s : State} {t : Nat} (h : portWins s t = []) : portPerformed s t = portTaken s t := by
  rw [portPerformed, h, run_each_nil]

theorem portPerformed_reads {s : State} {t : Nat} (h : ∀ l ∈ portWins s t, l.use.isRead = true) : (portPerformed s t).mem = s.mem :=
  each_keeps (fun u => u.mem = s.mem) (fun l hl u hu => (performLine_read_mem t _ (h l hl) u).trans hu) rfl

theorem portAgain_looks {s : State} {t : Nat} (h : (s.tower t).lines ≠ []) :
    ∃ d ∈ (portAgain s t).due, d.act = .instr .dataPortPerform ∧ d.site.a = t ∧ d.tick = s.now + 1 := by
  rw [portAgain, if_neg fun hempty => h (List.isEmpty_iff.1 hempty)]
  exact ⟨_, (mem_insertDue _ _ _).2 (.inl rfl), rfl, rfl, rfl⟩

/-! ## Row writes of a loader (R231) -/

/-- The 512 bytes of a row as its eight lines brought them. -/
def loadedRow (o : LoadOp) (r : Nat) : List Byte := (List.range 8).flatMap fun m => smGet [] o.lines (8 * r + m)

/-- Where the row of an operation stands in the store of the cell of column `c`. -/
def loadAddr (a r : Nat) (o : LoadOp) (c : Nat) : Nat := cellOf a r c * 32768 + o.cellOff

/-- The write of one cell's share of a row. -/
def loadCell (a r : Nat) (o : LoadOp) (c : Nat) : Plan :=
  .both (writeBytes .cell (loadAddr a r o c) (((loadedRow o r).drop (32 * c)).take 32)) (unmark 3 5 (loadAddr a r o c) 32)

theorem loadCell_sameButScratch (a r : Nat) (o : LoadOp) (c : Nat) (s : State) : SameButScratch s ((loadCell a r o c).run s) :=
  (writeBytes_sameButScratch ..).trans (unmark_sameButScratch ..)

/-- A byte after a cell's share has been written. -/
theorem byte_loadCell {s : State} (hwf : Memory.wf s.mem = true) {a r c n : Nat} {o : LoadOp} {sp : Space} (ha : loadAddr a r o c + 32 ≤ 2 ^ 80)
    (hn : n < 2 ^ 80) :
    ((loadCell a r o c).run s).byte sp n
      = if sp = .cell ∧ loadAddr a r o c ≤ n then (((loadedRow o r).drop (32 * c)).take 32).getD (n - loadAddr a r o c) (s.byte sp n) else s.byte sp n := by
  obtain ⟨ms, hms⟩ := unmark_frame 3 5 (loadAddr a r o c) 32 ((writeBytes .cell (loadAddr a r o c) (((loadedRow o r).drop (32 * c)).take 32)).run s)
  rw [loadCell, run_both, hms]
  exact byte_writeBytes hwf (Nat.le_trans (Nat.add_le_add_left (List.length_take_le ..) _) ha) hn

/-- A byte that a cell's share does not reach. -/
theorem byte_loadCell_outside {s : State} (hwf : Memory.wf s.mem = true) {a r c n : Nat} {o : LoadOp} {sp : Space} (ha : loadAddr a r o c + 32 ≤ 2 ^ 80)
    (hn : n < 2 ^ 80) (hout : sp ≠ .cell ∨ n < loadAddr a r o c ∨ loadAddr a r o c + 32 ≤ n) : ((loadCell a r o c).run s).byte sp n = s.byte sp n := by
  rw [byte_loadCell hwf ha hn]
  split
  · next hin =>
    have hpast : loadAddr a r o c + 32 ≤ n := (hout.resolve_left (not_not_intro hin.1)).resolve_left (by omega)
    exact getD_of_length_le (Nat.le_trans (List.length_take_le ..) (by omega)) _
  · rfl

/-- A byte that no share of a list of cells reaches. -/
theorem each_loadCell_outside {s : State} (hwf : Memory.wf s.mem = true) {a r n : Nat} {o : LoadOp} {sp : Space} {cs : List Nat}
    (ha : ∀ c ∈ cs, loadAddr a r o c + 32 ≤ 2 ^ 80) (hn : n < 2 ^ 80)
    (hout : ∀ c ∈ cs, sp ≠ .cell ∨ n < loadAddr a r o c ∨ loadAddr a r o c + 32 ≤ n) :
    ((Plan.each cs (loadCell a r o)).run s).byte sp n = s.byte sp n :=
  (each_keeps (fun t => Memory.wf t.mem = true ∧ t.byte sp n = s.byte sp n)
    (fun c hc t ht => ⟨run_wf _ t ht.1, (byte_loadCell_outside ht.1 (ha c hc) hn (hout c hc)).trans ht.2⟩) ⟨hwf, rfl⟩).2

theorem loadAddr_lt {a c : Nat} (r : Nat) {o : LoadOp} (ha : a < 64) (ho : o.cellOff + 32 ≤ 32768) (hc : c < 16) : loadAddr a r o c + 32 ≤ 2 ^ 80 := by
  rw [loadAddr, cellOf, physArr]
  split <;> omega

/-- The shares of two columns of a row stand in different cells. -/
theorem loadAddr_apart (a r : Nat) (o : LoadOp) {c c' i : Nat} (hi : i < 32) (h : c' ≠ c) :
    loadAddr a r o c + i < loadAddr a r o c' ∨ loadAddr a r o c' + 32 ≤ loadAddr a r o c + i := by
  rw [loadAddr, loadAddr, cellOf, cellOf]
  omega

/-- A byte of the cell of column `c` once the shares of the sixteen columns have been written. -/
theorem each_loadCell_inside {s : State} (hwf : Memory.wf s.mem = true) {a r c i : Nat} {o : LoadOp} (ha : a < 64)
    (ho : o.cellOff + 32 ≤ 32768) (hc : c < 16) (hi : i < 32) :
    ((Plan.each (List.range 16) (loadCell a r o)).run s).byte .cell (loadAddr a r o c + i)
      = ((loadedRow o r).drop (32 * c)).getD i (s.byte .cell (loadAddr a r o c + i)) := by
  have hlt : ∀ c' ∈ List.range 16, loadAddr a r o c' + 32 ≤ 2 ^ 80 := fun c' hc' => loadAddr_lt r ha ho (List.mem_range.1 hc')
  have hn : loadAddr a r o c + i < 2 ^ 80 := by
    have := loadAddr_lt r ha ho hc
    omega
  obtain ⟨pre, post, hsplit⟩ := List.append_of_mem (List.mem_range.2 hc)
  have hnodup : (pre ++ c :: post).Nodup := hsplit ▸ List.nodup_range
  obtain ⟨-, hrest, hapart⟩ := List.nodup_append.1 hnodup
  have hbefore : ∀ c' ∈ pre, c' ≠ c := fun c' hc' => hapart c' hc' c List.mem_cons_self
  have hafter : ∀ c' ∈ post, c' ≠ c := fun c' hc' h => (List.nodup_cons.1 hrest).1 (h ▸ hc')
  rw [hsplit] at hlt ⊢
  have hpost : ∀ c' ∈ post, c' ∈ pre ++ c :: post := fun c' hc' => List.mem_append_right _ (List.mem_cons_of_mem _ hc')
  have hpre : ((Plan.each pre (loadCell a r o)).run s).byte .cell (loadAddr a r o c + i) = s.byte .cell (loadAddr a r o c + i) :=
    each_loadCell_outside hwf (fun c' hc' => hlt c' (List.mem_append_left _ hc')) hn fun c' hc' =>
      .inr (loadAddr_apart a r o hi (hbefore c' hc'))
  rw [run_each_append, run_each_cons, each_loadCell_outside (run_wf _ _ (run_wf _ s hwf)) (fun c' hc' => hlt c' (hpost c' hc')) hn
      fun c' hc' => .inr (loadAddr_apart a r o hi (hafter c' hc')),
    byte_loadCell (run_wf _ s hwf) (loadAddr_lt r ha ho hc) hn, if_pos ⟨rfl, Nat.le_add_right ..⟩, hpre, Nat.add_sub_cancel_left]
  simp only [List.getD_eq_getElem?_getD, List.getElem?_take_of_lt hi]

/-- An operation that may be done changes at most the agenda and the arrays. -/
theorem finishLoad_frame (a uid : Nat) (s : State) : ∃ ds as, (finishLoad a uid).run s = { s with due := ds, arrs := as } := by
  rw [finishLoad, run_get]
  split
  · exact ⟨_, _, rfl⟩
  · rw [run_when]
    split
    · rw [run_all_cons, run_when]
      split
      · rw [after_run]
        exact ⟨_, _, rfl⟩
      · exact ⟨_, _, rfl⟩
    · exact ⟨_, _, rfl⟩

/-- What a row write notes of its operation once its cells have their shares. -/
def loadNoted (a r u : Nat) (o : LoadOp) : Plan :=
  Plan.all
    [ modArr a fun v => { v with lastWrite := smSet v.lastWrite o.tid (max (smGet 0 v.lastWrite o.tid) u) },
      modLoad a o.uid fun o => { o with rows := o.rows ||| (1#32 <<< r), lines := o.lines.filter fun e => e.1 / 8 != r },
      finishLoad a o.uid ]

theorem loadNoted_frame (a r u : Nat) (o : LoadOp) (s : State) : ∃ ds as, (loadNoted a r u o).run s = { s with due := ds, arrs := as } := by
  rw [loadNoted, run_all_cons, run_all_cons, run_all_cons, run_all_nil, modLoad, modArr_run, modArr_run]
  exact (finishLoad_frame a o.uid _).imp fun _ h => h.imp fun _ h => h.trans rfl

/-- A row write leaves of memory what the shares of its sixteen cells leave, and banks and contexts as they were. -/
theorem exec_lrowRowWrite {s : State} {o : LoadOp} (h : (s.arr s.site.arr).load? s.site.a = some o) :
    ∃ t, exec .lrowRowWrite s = .next t ∧ t.banks = s.banks ∧ t.ctxs = s.ctxs ∧
      t.mem = ((Plan.each (List.range 16) (loadCell s.site.arr s.site.b o)).run s).mem := by
  have hcells : SameButScratch s ((Plan.each (List.range 16) (loadCell s.site.arr s.site.b o)).run s) :=
    each_keeps (SameButScratch s) (fun c _ u hu => hu.trans (loadCell_sameButScratch ..)) (.refl s)
  obtain ⟨ds, as, hnoted⟩ := loadNoted_frame s.site.arr s.site.b (s.ttick (towerOf s.site.arr)) o
    ((Plan.each (List.range 16) (loadCell s.site.arr s.site.b o)).run s)
  refine ⟨_, congrArg Host.Outcome.next (Eq.trans ?_ hnoted), hcells.banks, hcells.ctxs, rfl⟩
  rw [run_get]
  simp only [h]
  rw [run_all_cons]
  rfl

/-! ## Actions on kennel entries (R212) -/

/-- The state with the kennel entries of a tower replaced and nothing else changed. -/
def withKennels (s : State) (t : Nat) (ks : SMap Kennel) : State := withTower s t { s.tower t with kennels := ks }

/-- The key of the entry that an action acts on. -/
def entryKey (s : State) : Nat := kennelKey s.site.a s.site.c

/-- No invocation of the entry that was in flight when the action was issued is under way. -/
def EntryFree (s : State) : Prop := mmdFlying s (towerOf s.site.arr) (entryKey s) s.site.qpos = false

theorem exec_kennelEntryAction_waits {s : State} (h : mmdFlying s (towerOf s.site.arr) (entryKey s) s.site.qpos = true) :
    exec .kennelEntryAction s = .next (laterAct s 1 rankControl s.site (.instr .kennelEntryAction)) := by
  refine congrArg Host.Outcome.next ?_
  rw [run_get]
  exact (congrArg (fun p : Plan => p.run s) (if_pos h)).trans (afterAt_run ..)

/-- The state once the action's record is bound to its entry; DONE of the entry before it stands. -/
def entryBound (s : State) : State :=
  withKennels s (towerOf s.site.arr) (smSet (s.tower (towerOf s.site.arr)).kennels (entryKey s)
    { boundEntry (bindRec s.site.bytes) s.site.arr s.site.a s.site.c s.site.rowOn with done := (s.kennel (towerOf s.site.arr) (entryKey s)).done })

/-- Where the watch range of a bind record starts: at its own base, or at the physical image that its partition's range entries give (R212). -/
def watchBase (r : BindRec) (v : Part) : Nat := if r.wspace = 2 then (r.image v).getD 0 else r.wbase

/-- A watch range set takes the span and the space of its bind record and keeps its GEN; the partition's launches stand, and no other partition changes (R212). -/
theorem bindWatch_run (r : BindRec) (p t : Nat) (s : State) :
    ∃ v, (bindWatch r p t).run s = withPart s p v ∧ v.launches = (s.part p).launches ∧
      v.watch = smSet (s.part p).watch r.wix
        (wrMake (wrGen (smGet 0 (s.part p).watch r.wix)) t r.wspace (watchBase r (s.part p) + r.wlen - 1) (watchBase r (s.part p))) :=
  ⟨_, rfl, rfl, rfl⟩

/-- The state once the entry is released: under an invocation fired since, its fields are reset and its DONE stands (log 21). -/
def entryCleared (s : State) : State :=
  withKennels s (towerOf s.site.arr)
    (if mmdFlying s (towerOf s.site.arr) (entryKey s) s.uid
      then smSet (s.tower (towerOf s.site.arr)).kennels (entryKey s) { done := (s.kennel (towerOf s.site.arr) (entryKey s)).done }
      else smDel (s.tower (towerOf s.site.arr)).kennels (entryKey s))

/-- The state once the entry's image, or zeros for one that is not valid, stands where the action asks for it. -/
def entryReported (s : State) : State :=
  (scratchWrite (s.winAddr (towerOf s.site.arr) s.site.a s.site.pos)
    (if (s.kennel (towerOf s.site.arr) (entryKey s)).valid then kennelImage (s.kennel (towerOf s.site.arr) (entryKey s)) ++ List.replicate 24 0
      else List.replicate 64 0)).run s

/-- What the action does where it need not wait: it binds the entry and sets the watch range asked for, or releases the entry, or reports it. -/
theorem exec_kennelEntryAction_acts {s : State} (hfree : EntryFree s) :
    exec .kennelEntryAction s = .next (
      if s.site.b = 0 then (Plan.when (bindRec s.site.bytes).wset (bindWatch (bindRec s.site.bytes) s.site.a (towerOf s.site.arr))).run (entryBound s)
      else if s.site.b = 1 then entryCleared s else entryReported s) := by
  have hgo : ¬ mmdFlying s (towerOf s.site.arr) (entryKey s) s.site.qpos = true := by rw [hfree]; decide
  refine congrArg Host.Outcome.next ?_
  rw [run_get]
  refine (congrArg (fun p : Plan => p.run s) (if_neg hgo)).trans ?_
  match hb : s.site.b with
  | 0 => rfl
  | 1 =>
    change Plan.run (if mmdFlying s (towerOf s.site.arr) (entryKey s) s.uid then _ else _) s = entryCleared s
    rw [entryCleared]
    split <;> rfl
  | b + 2 => rfl

theorem exec_kennelEntryAction_bind {s : State} (hfree : EntryFree s) (hb : s.site.b = 0) :
    exec .kennelEntryAction s
      = .next ((Plan.when (bindRec s.site.bytes).wset (bindWatch (bindRec s.site.bytes) s.site.a (towerOf s.site.arr))).run (entryBound s)) := by
  rw [exec_kennelEntryAction_acts hfree, if_pos hb]

theorem exec_kennelEntryAction_clear {s : State} (hfree : EntryFree s) (hb : s.site.b = 1) : exec .kennelEntryAction s = .next (entryCleared s) := by
  rw [exec_kennelEntryAction_acts hfree, if_neg (by omega), if_pos hb]

theorem exec_kennelEntryAction_report {s : State} (hfree : EntryFree s) (hb : 2 ≤ s.site.b) : exec .kennelEntryAction s = .next (entryReported s) := by
  rw [exec_kennelEntryAction_acts hfree, if_neg (by omega), if_neg (by omega)]

/-! ## Reads of a line that may be lost (R228) -/

theorem scratchRead_run_clean {s : State} {addr : Nat} (f : Plan) (hfirst : s.marked 2 (addr / 64) = false) (hnext : s.marked 2 (addr / 64 + 1) = false) :
    (scratchRead addr 32 f).run s = s := by
  have hnone : ((List.range (if 32 = 0 then 0 else (addr + 32 - 1) / 64 - addr / 64 + 1)).find? fun i => s.marked 2 (addr / 64 + i)) = none := by
    refine List.find?_eq_none.2 fun i hi => ?_
    have hi2 : i = 0 ∨ i = 1 := by
      have := List.mem_range.1 hi
      rw [if_neg (by decide)] at this
      omega
    obtain rfl | rfl := hi2
    · exact Bool.eq_false_iff.1 hfirst
    · exact Bool.eq_false_iff.1 hnext
  rw [scratchRead, run_get]
  simp only [hnone, run_skip]

theorem scratchRead_run_lost {s : State} {addr : Nat} (f : Plan) (h : s.marked 2 (addr / 64) = true) :
    (scratchRead addr 32 f).run s = f.run ((lineLost 2 (addr / 64)).run s) := by
  have hsome : ((List.range (if 32 = 0 then 0 else (addr + 32 - 1) / 64 - addr / 64 + 1)).find? fun i => s.marked 2 (addr / 64 + i)) = some 0 := by
    rw [if_neg (by decide), List.range_succ_eq_map]
    exact List.find?_cons_of_pos h
  rw [scratchRead, run_get]
  simp only [hsome, run_both, Nat.add_zero]

theorem lineLost_frame (line : Nat) (s : State) : ∃ ds, (lineLost 2 line).run s = { s with due := ds } := ⟨_, rfl⟩

/-- The first fault of a partition under no leash of a HALT leaves it under the leash, with that fault recorded. -/
theorem raiseFaultIn_leashes {s : State} {p : Nat} {f : FaultRec} (tag a k : Nat) (mark : Bool) (hnone : (s.part p).faults = [])
    (hhalt : (s.part p).byHalt = false) :
    let v := ((raiseFaultIn p tag a k mark f).run s).part p
    v.leash = true ∧ ∃ g ∈ v.faults, g.code = f.code := by
  have hpart : (((Plan.when mark (modCtx a k fun c => { c with faulted := true, faultAt := if c.faulted then c.faultAt else s.now })).run
      ((Edit.free (s.free + 1)).apply s)).part p) = s.part p := by cases mark <;> rfl
  simp only [raiseFaultIn, run_get, run_all_cons, run_all_nil, run_edit]
  rw [recordFault_first (hpart ▸ hnone) (.inl (hpart ▸ hhalt))]
  exact ⟨rfl, _, List.mem_singleton_self _, rfl⟩

theorem chargeFault_leashes {s : State} {a k tid p : Nat} (n code sub addr : Nat) (hp : s.partOf a k tid = some p) (hnone : (s.part p).faults = [])
    (hhalt : (s.part p).byHalt = false) :
    let v := ((chargeFault a k tid n code sub addr).run s).part p
    v.leash = true ∧ ∃ g ∈ v.faults, g.code = code := by
  rw [chargeFault, run_get, taskFault, run_get, hp, Option.toList_some, run_each_cons, run_each_nil, raiseFaultFor, run_get]
  exact raiseFaultIn_leashes _ _ _ _ hnone hhalt

/-! ## Arrivals at barrier objects (R235, R236) -/

/-- COUNT of the object at an address once an arrival has been counted. -/
def arrivedCount (s : State) (addr bytes ops : Nat) : Nat :=
  (s.number .scratch (addr + 16) 8 + (if (s.byte .scratch addr).getLsbD 2 then ops else bytes)) % 2 ^ 64

/-- The status byte of the object then: COMPLETE and OVER follow from COUNT and EXPECT. -/
def arrivedStatus (s : State) (addr bytes ops : Nat) : Byte :=
  ((s.byte .scratch addr &&& ~~~2) ||| (if s.number .scratch (addr + 24) 8 ≤ arrivedCount s addr bytes ops then 2 else 0))
    ||| (if s.number .scratch (addr + 24) 8 < arrivedCount s addr bytes ops then 8 else 0)

/-- The unit of the object at an address counts an arrival of `ops` operations, and the object is VALID. -/
def arrivalCounts (s : State) (addr ops : Nat) : Bool :=
  (s.byte .scratch addr).getLsbD 0 && (decide (0 < ops) || !(s.byte .scratch addr).getLsbD 2)

/-- The state once an arrival has been counted. -/
def arrived (s : State) (addr bytes ops : Nat) : State :=
  (scratchWrite addr [arrivedStatus s addr bytes ops]).run ((scratchWrite (addr + 16) (natBytes 8 (arrivedCount s addr bytes ops))).run s)

theorem objArrive_run (addr bytes ops : Nat) (f : Plan) (s : State) :
    let u := (scratchRead addr 32 f).run s
    (objArrive addr bytes ops f).run s = if arrivalCounts u addr ops then arrived u addr bytes ops else u := by
  rw [objArrive, run_both, run_get]
  exact run_when ..

theorem arrived_sameButScratch (s : State) (addr bytes ops : Nat) : SameButScratch s (arrived s addr bytes ops) :=
  (scratchWrite_keeps ..).1.trans (scratchWrite_keeps ..).1

section Bytes
variable {s : State} (hwf : Memory.wf s.mem = true) {addr : Nat} (hend : addr + 32 ≤ 2 ^ 80) (bytes ops : Nat)
include hwf hend

/-- A byte once an arrival has been counted: the status byte, the bytes of COUNT, or what it was. -/
theorem byte_arrived {sp : Space} {n : Nat} (hn : n < 2 ^ 80) :
    (arrived s addr bytes ops).byte sp n
      = if sp = .scratch ∧ n = addr then arrivedStatus s addr bytes ops
        else if sp = .scratch ∧ addr + 16 ≤ n then (natBytes 8 (arrivedCount s addr bytes ops)).getD (n - (addr + 16)) (s.byte sp n) else s.byte sp n := by
  rw [arrived, byte_scratchWrite (run_wf _ s hwf) (Nat.le_trans (by rw [List.length_singleton]; omega) hend) hn,
    byte_scratchWrite hwf (by rw [natBytes_length]; omega) hn]
  by_cases hsp : sp = .scratch
  · subst hsp
    simp only [eq_self, true_and]
    obtain hlt | rfl | hgt := Nat.lt_trichotomy n addr
    · rw [if_neg (show ¬ addr ≤ n by omega), if_neg (show ¬ n = addr by omega)]
    · rw [if_pos (Nat.le_refl n), if_pos rfl, Nat.sub_self, List.getD_cons_zero]
    · rw [if_pos (show addr ≤ n by omega), if_neg (show ¬ n = addr by omega), getD_of_length_le (by rw [List.length_singleton]; omega)]
  · simp only [hsp, false_and, if_false]

theorem byte_arrived_status : (arrived s addr bytes ops).byte .scratch addr = arrivedStatus s addr bytes ops := by
  rw [byte_arrived hwf hend bytes ops (by omega), if_pos ⟨rfl, rfl⟩]

theorem byte_arrived_other {sp : Space} {n : Nat} (hn : n < 2 ^ 80) (hout : sp ≠ .scratch ∨ n ≠ addr ∧ (n < addr + 16 ∨ addr + 24 ≤ n)) :
    (arrived s addr bytes ops).byte sp n = s.byte sp n := by
  rw [byte_arrived hwf hend bytes ops hn]
  obtain hsp | ⟨hne, hlow | hhigh⟩ := hout
  · rw [if_neg fun h => hsp h.1, if_neg fun h => hsp h.1]
  · rw [if_neg fun h => hne h.2, if_neg fun h => absurd h.2 (by omega)]
  · rw [if_neg fun h => hne h.2, getD_of_length_le (by rw [natBytes_length]; omega), ite_self]

theorem number_arrived_count : (arrived s addr bytes ops).number .scratch (addr + 16) 8 = arrivedCount s addr bytes ops := by
  have hlen := natBytes_length 8 (arrivedCount s addr bytes ops)
  have hbytes : (arrived s addr bytes ops).bytes .scratch (addr + 16) 8 = natBytes 8 (arrivedCount s addr bytes ops) := by
    refine (congrArg _ hlen.symm).trans (bytes_eq fun i hi => ?_)
    rw [hlen] at hi
    rw [byte_arrived hwf hend bytes ops (by omega), if_neg fun h => absurd h.2 (by omega), if_pos ⟨rfl, by omega⟩, Nat.add_sub_cancel_left]
    exact getD_of_lt_length ..
  rw [State.number, hbytes, leNat_natBytes]
  exact Nat.mod_mod _ _

end Bytes

/-- The plan of an arrival's fault, where its line is uncorrectable; task 0 stands for none. -/
def arrivalFault (x : Site) : Plan := Plan.when (x.row != 0) (chargeFault x.arr x.ctx x.row x.wave 0x44 0 noAddr)

theorem exec_boArrival (s : State) :
    exec .boArrival s = .next (if s.inWin s.site.a s.site.b s.site.c 32
      then (objArrive (s.winAddr s.site.a s.site.b s.site.c) s.site.n s.site.pos (arrivalFault s.site)).run s else s) := by
  refine congrArg Host.Outcome.next ?_
  rw [run_get]
  exact run_when ..

/-- An arrival at an object of the window whose lines are good is counted where the object counts it. -/
theorem exec_boArrival_clean {s : State} (hin : s.inWin s.site.a s.site.b s.site.c 32 = true)
    (hclean : s.marked 2 (s.winAddr s.site.a s.site.b s.site.c / 64) = false ∧ s.marked 2 (s.winAddr s.site.a s.site.b s.site.c / 64 + 1) = false) :
    exec .boArrival s = .next (if arrivalCounts s (s.winAddr s.site.a s.site.b s.site.c) s.site.pos
      then arrived s (s.winAddr s.site.a s.site.b s.site.c) s.site.n s.site.pos else s) := by
  rw [exec_boArrival, if_pos hin, objArrive_run, scratchRead_run_clean _ hclean.1 hclean.2]

/-- An arrival at an object whose line is uncorrectable faults 0x44 (R228). -/
theorem exec_boArrival_lost {s : State} (hin : s.inWin s.site.a s.site.b s.site.c 32 = true)
    (hlost : s.marked 2 (s.winAddr s.site.a s.site.b s.site.c / 64) = true) :
    ∃ t, exec .boArrival s = .next t ∧ ∀ p, s.site.row ≠ 0 → s.partOf s.site.arr s.site.ctx s.site.row = some p → (s.part p).byHalt = false →
      (s.part p).faults = [] → (t.part p).leash = true ∧ ∃ f ∈ (t.part p).faults, f.code = 0x44 := by
  obtain ⟨ds, hds⟩ := lineLost_frame (s.winAddr s.site.a s.site.b s.site.c / 64) s
  refine ⟨_, by rw [exec_boArrival, if_pos hin, objArrive_run, scratchRead_run_lost _ hlost, hds], fun p hrow hp hhalt hnone => ?_⟩
  have hsame := (arrived_sameButScratch ((arrivalFault s.site).run { s with due := ds }) (s.winAddr s.site.a s.site.b s.site.c) s.site.n s.site.pos).ite
  obtain ⟨w, ws, hpart⟩ := (hsame (arrivalCounts ..)).part p
  rw [hpart, arrivalFault, bne_iff_ne.2 hrow, run_when_true]
  exact chargeFault_leashes (s := { s with due := ds }) _ _ _ _ hp hnone hhalt

/-- Settles O53: the port by its lines, the loader's row by its cells, the kennel entry by its action, and the arrival by its object. -/
theorem portAndObjectEvents : Obligations.PortAndObjectEvents := by
  unfold Obligations.PortAndObjectEvents
  intro s x
  refine ⟨?port, ?row,
    ⟨exec_kennelEntryAction_waits, fun hfree => ⟨⟨?bind, ?watch, exec_kennelEntryAction_clear hfree⟩, exec_kennelEntryAction_report hfree⟩⟩,
    ?outside, fun hin => ⟨?invalid, ?nothing, ?lost, ?counted⟩⟩
  case port =>
    intro ready wins left
    obtain ⟨hperformed, hdue⟩ := each_performLine x.a (s.ttick x.a) (portWins s x.a) (portTaken s x.a)
    have hagain := portAgain_portStep (portPerformed s x.a) x.a
    have hstep : PortStep (portTaken s x.a) (portAgain (portPerformed s x.a) x.a) := hperformed.trans hagain
    have hlines : ∀ u, PortStep (portTaken s x.a) u → (u.tower x.a).lines = left := fun u hu =>
      (hu.lines x.a).trans (congrArg Tower.lines (withTower_tower ..))
    refine ⟨_, exec_dataPortPerform s, hstep.ctxs, hstep.banks, hstep.arrs, hlines _ hstep, fun hleft => ?_, fun l hl => ?_, fun hreads => ?_,
      fun hnone => ?_⟩
    · obtain ⟨d, hd, hact, hsite, htick⟩ := portAgain_looks (s := portPerformed s x.a) (t := x.a) ((hlines _ hperformed).symm ▸ hleft)
      exact ⟨d, hd, hact, hsite, htick.trans (congrArg (· + 1) hperformed.now)⟩
    · exact ⟨_, hagain.due _ (hdue l hl), Nat.zero_max _, rfl⟩
    · exact (portAgain_mem ..).trans (portPerformed_reads hreads)
    · rw [portAgain_mem, portAgain_parts, portPerformed_none hnone]
      exact ⟨rfl, rfl⟩
  case row =>
    intro o ho hwf ha hr hoff
    have hlt : ∀ c ∈ List.range 16, loadAddr x.arr x.b o c + 32 ≤ 2 ^ 80 := fun c hc => loadAddr_lt x.b ha hoff (List.mem_range.1 hc)
    obtain ⟨t, hexec, hbanks, hctxs, hmem⟩ := exec_lrowRowWrite ho
    refine ⟨t, hexec, hbanks, hctxs, fun sp n hn hout => ?_, fun c i hc hi => ?_⟩
    · rw [byte_congr hmem]
      exact each_loadCell_outside hwf hlt hn fun c hc => hout.imp_right fun h => h c (List.mem_range.1 hc)
    · rw [byte_congr hmem]
      exact each_loadCell_inside hwf ha hoff hc hi
  case bind =>
    intro hb (hwset : (bindRec s.site.bytes).wset = false)
    rw [exec_kennelEntryAction_bind hfree hb, hwset]
    rfl
  case watch =>
    intro hb (hwset : (bindRec s.site.bytes).wset = true)
    obtain ⟨v, hrun, hlaunches, hwatch⟩ := bindWatch_run (bindRec s.site.bytes) s.site.a (towerOf s.site.arr) (entryBound s)
    have hexec := exec_kennelEntryAction_bind hfree hb
    rw [hwset, run_when_true, hrun] at hexec
    exact ⟨_, hexec, rfl, (congrArg Part.watch (withPart_part ..)).trans hwatch, (congrArg Part.launches (withPart_part ..)).trans hlaunches,
      fun p hp => withPart_other hp ..⟩
  case outside =>
    intro hout
    rw [exec_boArrival, if_neg (by rw [hout]; decide)]
  case invalid =>
    intro hclean hvalid
    have hcounts : arrivalCounts s (s.winAddr x.a x.b x.c) x.pos = false := by rw [arrivalCounts, hvalid, Bool.false_and]
    rw [exec_boArrival_clean hin hclean, if_neg (by rw [hcounts]; decide)]
  case nothing =>
    intro hclean _ hunit hpos
    have hcounts : arrivalCounts s (s.winAddr x.a x.b x.c) x.pos = false := by
      rw [arrivalCounts, hunit, hpos, decide_eq_false (Nat.lt_irrefl 0), Bool.not_true, Bool.or_self, Bool.and_false]
    rw [exec_boArrival_clean hin hclean, if_neg (by rw [hcounts]; decide)]
  case lost =>
    intro hlost
    obtain ⟨t, hexec, hfault⟩ := exec_boArrival_lost hin hlost
    exact ⟨t, hexec, fun p hrow hp _ => hfault p hrow hp⟩
  case counted =>
    intro hclean hwf hend hvalid hunit count expect
    have hcounts : arrivalCounts s (s.winAddr x.a x.b x.c) x.pos = true := by
      rw [arrivalCounts, hvalid, Bool.true_and]
      obtain hunit | hpos := hunit
      · rw [hunit, Bool.not_false, Bool.or_true]
      · rw [decide_eq_true hpos, Bool.true_or]
    have hsame := arrived_sameButScratch s (s.winAddr x.a x.b x.c) x.n x.pos
    refine ⟨_, by rw [exec_boArrival_clean hin hclean, if_pos hcounts], hsame.ctxs, hsame.banks, hsame.due,
      number_arrived_count hwf hend .., byte_arrived_status hwf hend .., fun sp n hn hout => byte_arrived_other hwf hend _ _ hn hout⟩

end Sys2Proof.Laws
end
